-- ==== Sys2Proof/Word.lean ====
section
/-! DEFINITION. The word types of the Z940 (R3) and the shape of a finite map held as plain data. -/

namespace Sys2Proof

/-- One byte of memory. -/
abbrev Byte := BitVec 8

/-- The value of a vector register in one lane (R28). -/
abbrev Word32 := BitVec 32

/-- The value of a scalar register, and an address (R28, R94). -/
abbrev Word64 := BitVec 64

/-- An instruction word (R189). -/
abbrev Word128 := BitVec 128

/-- One bit per lane of a wave: bit `l` stands for lane `l` (R22). -/
abbrev Mask := BitVec 32

/-- A finite map as plain data: pairs of key and value, keys strictly rising, no entry holding the value an
unlisted key reads as. Machine/Maps.lean has the operations. -/
abbrev FMap (α : Type) := List (Nat × α)

/-- The number of lanes of a wave (R22). -/
abbrev lanesPerWave : Nat := 32

end Sys2Proof
end

