-- ==== Sys2Proof/Operand.lean ====
section
/-! DEFINITION. What the fields of an instruction word name once decoded (R189 to R204): guards, registers,
permutations, sources, address forms and the modifiers that several instructions share. -/

namespace Sys2Proof

/-- A predicate with its negate bit: a guard (R189, R191), a source predicate (`p` of R200), GRD's and TEND's. -/
structure PredSrc where
  neg : Bool
  pred : BitVec 4
  deriving DecidableEq, Repr, Inhabited

/-- The fields that every wave word carries in fixed places: the two guards, HINT and the two SCH bits (R189). -/
structure Ctl where
  g1 : PredSrc
  g2 : PredSrc
  hint : BitVec 3
  keep : Bool
  yld : Bool
  deriving DecidableEq, Repr, Inhabited

/-- The read permutations of R196. -/
inductive Perm where
  | none
  | rot (n : BitVec 5)
  | bc (n : BitVec 5)
  | bf (n : BitVec 5)
  | mir
  | rot8 (n : BitVec 5)
  | bc8 (n : BitVec 5)
  deriving DecidableEq, Repr, Inhabited

/-- What a register number N names (R195): vector, scalar, the four constants, a generator, a sequencer register. -/
inductive Reg where
  | v (n : Nat)
  | s (n : Nat)
  | zero
  | laneIx
  | waveIx
  | ones
  | g (n : Nat)
  | z (n : Nat)
  deriving DecidableEq, Repr, Inhabited

/-- The register form of an operand field (R194): the register, its permutation and its FE bit. -/
structure RegOp where
  reg : Reg
  perm : Perm
  fe : Bool
  deriving DecidableEq, Repr, Inhabited

/-- A source field in either form (`s` and `i` of R200). -/
inductive Src where
  | reg (o : RegOp)
  | imm (v : BitVec 17)
  deriving DecidableEq, Repr, Inhabited

/-- The rounding override of R201; `dyn` takes the field of FMODE. -/
inductive Rnd where
  | dyn | rn | rz | rp | rm
  deriving DecidableEq, Repr, Inhabited

/-- The addressing modes of R203 with the fields each of them uses. -/
inductive AddrMode where
  /-- AM 0: base and offset. -/
  | off (o : BitVec 17)
  /-- AM 1: base and shifted index. -/
  | idx (sc : BitVec 3) (i : Src)
  /-- AM 2: post-increment. -/
  | post (o : BitVec 17)
  /-- AM 3: post-increment modulo, with its modulo register. -/
  | postMod (m : BitVec 3) (o : BitVec 17)
  deriving DecidableEq, Repr, Inhabited

/-- The address fields of a memory word: the base register and the mode. -/
structure Addr where
  base : RegOp
  mode : AddrMode
  deriving DecidableEq, Repr, Inhabited

/-- The comparisons of PSET and FPSET (R213). -/
inductive Cmp where
  | eq | ne | lt | le | gt | ge | un | ord
  deriving DecidableEq, Repr, Inhabited

/-- How a comparison combines with a predicate (COMB of R213). -/
inductive Comb where
  | none | and | or | andn
  deriving DecidableEq, Repr, Inhabited

/-- The carry modifier of IADD and ISUB (R218). -/
inductive Carry where
  | none | co | ci | cio
  deriving DecidableEq, Repr, Inhabited

/-- VOTE's modes (R248). -/
inductive VoteMode where
  | all | any | eq
  deriving DecidableEq, Repr, Inhabited

/-- LGET's modes (R249). -/
inductive LgetMode where
  | at | rot | mix | shift
  deriving DecidableEq, Repr, Inhabited

/-- The combinations of REDUCE and SCAN (R251) and, the first eleven alike, of the atomics (AOP of R272). -/
inductive RedOp where
  | add | smin | smax | umin | umax | and | or | xor | fadd | fmin | fmax
  deriving DecidableEq, Repr, Inhabited

/-- RAND's modes (R255). -/
inductive RandMode where
  | raw | uni | gauss
  deriving DecidableEq, Repr, Inhabited

/-- The scopes of R120. -/
inductive Scope where
  | block | die | device | system
  deriving DecidableEq, Repr, Inhabited

/-- The ordering codes of R128. -/
inductive OrdCode where
  | rlx | acq | rel | ar
  deriving DecidableEq, Repr, Inhabited

/-- The number formats that a format code of R79 names and an instruction may compute with. -/
inductive Fmt where
  | fp32 | fp16 | bf16 | f8a | f8b | sm8 | sm4 | q16 | int32
  deriving DecidableEq, Repr, Inhabited

/-- The format field of MXRD and MXWR: RAW or a number format (R323, R324). -/
inductive DrainFmt where
  | raw
  | conv (f : Fmt)
  deriving DecidableEq, Repr, Inhabited

/-- TCALL's callee: a successor offset or a scalar register (R292). -/
inductive Callee where
  | off (o : BitVec 17)
  | reg (o : RegOp)
  deriving DecidableEq, Repr, Inhabited

/-- The kinds of generator (R329). -/
inductive GenKind where
  | sign | gauss | rot | mask
  deriving DecidableEq, Repr, Inhabited

/-- The scope of a generator's key (R329, R331). -/
inductive GenScope where
  | grid | block | wave
  deriving DecidableEq, Repr, Inhabited

/-- MXM's and MXMS's modifiers (R316). -/
structure MxMod where
  tb : Bool
  ta : Bool
  ck : Bool
  fb : Fmt
  fa : Fmt
  deriving DecidableEq, Repr, Inhabited

/-- MXM's and MXMS's tile and shape: D's [1:0], [4:2], [7:5] and [9:8] (R316). -/
structure MxShape where
  tile : BitVec 2
  m : BitVec 3
  n : BitVec 3
  ks : BitVec 2
  deriving DecidableEq, Repr, Inhabited

/-- The fields a CP command shares: its tag, and whether a reserved field of it is nonzero (R357). -/
structure CmdHead where
  tag : BitVec 16
  resv : Bool
  deriving DecidableEq, Repr, Inhabited

/-- A die link's two directions and the link's number in the table of R372: `rev = false` runs END0 to END1. -/
structure LinkDir where
  link : Nat
  rev : Bool
  deriving DecidableEq, Repr, Inhabited

/-- A leaky bucket's unit (R414): a frame, a lane of a SIMD unit, a core, an L2 slice, a granary bank. -/
inductive BucketId where
  | frame (f : Nat)
  | lane (core unit lane : Nat)
  | core (p : Nat)
  | slice (i : Nat)
  | bank (i : Nat)
  deriving DecidableEq, Repr, Inhabited

/-- What a master asks of a physical address (R354 to R356, R361): a read, a write of these bytes, or an atomic. -/
inductive Access where
  | read (size : Nat)
  | write (bytes : List Byte)
  | atomic (op : RedOp) (size : Nat) (b : Word64)
  | swap (size : Nat) (b : Word64)
  | cas (size : Nat) (b c : Word64)
  deriving DecidableEq, Repr, Inhabited

/-- A network request as it reaches the serving module (R361): the source address it carries and its sequence number,
the sequence number of the request that its core issued to the same window before it (R362), the window, the offset and
the access. -/
structure NetRequest where
  src : BitVec 128
  seq : Nat
  prior : Option Nat
  window : Nat
  offset : Nat
  access : Access
  deriving DecidableEq, Repr, Inhabited

/-- What the peer answered to a request that failed (R467). -/
inductive RemoteError where
  | refused | poison
  deriving DecidableEq, Repr, Inhabited

/-- The causes of a warm reset that need no register write (R368). -/
inductive WarmCause where
  | pldm | pcieHot | pcieFundamental
  deriving DecidableEq, Repr, Inhabited

/-- A reeve access (R356): plain, or a FENCE rw,rw. -/
inductive ReeveAccess where
  | mem (pa : Nat) (a : Access)
  | fence
  deriving DecidableEq, Repr, Inhabited

end Sys2Proof
end

