-- ==== Sys2Proof/Syntax.lean ====
section
/-! DEFINITION. The instructions of the Z940: one constructor per row of spec/opcode_table.json, in the table's order
of families. The first part holds the instruction words of R209 (TRH stands under its row TRACE_ADMISSION); the second
part holds the table's events, whose arguments say which object of the machine the event concerns. -/

namespace Sys2Proof

/-- The rows of the opcode table. In a word, `c` holds the guard, HINT and SCH fields; then come the modifiers, then
the operands in the field order D, A, B, C, E. -/
inductive Instr where
  -- trace control (R286)
  /-- TRH, read when a batch is formed (R43, R44): word count, TWB need, TSB need, watch mask. -/
  | traceAdmission (words twb tsb mask : BitVec 17)
  | tend (c : Ctl) (p : PredSrc) (t f : BitVec 17)
  | texit (c : Ctl)
  | grd (c : Ctl) (p : PredSrc) (alt : BitVec 17)
  | chkw (c : Ctl) (mask : BitVec 16) (alt : BitVec 17)
  | tbar (c : Ctl) (succ : BitVec 17)
  | tgbar (c : Ctl) (succ : BitVec 17)
  | tcall (c : Ctl) (callee : Callee) (k w : BitVec 17) (succ : BitVec 17)
  | tret (c : Ctl)
  | tyield (c : Ctl) (succ : BitVec 17)
  | twait (c : Ctl) (bar : BitVec 4) (ph : Bool) (succ : BitVec 17)
  | tsqw (c : Ctl) (bar : BitVec 4) (ph : Bool) (succ : BitVec 17)
  | tordw (c : Ctl) (succ : BitVec 17)
  | tordr (c : Ctl) (succ : BitVec 17)
  | nop (c : Ctl)
  /-- REP: n − 1, and the five signed steps (R65). -/
  | rep (n : BitVec 6) (sd sa sb sc se : BitVec 4)
  /-- TRAP: its code and, in a trace, its successor; in the sequencer stream E is zero (R298, R205). -/
  | trap (c : Ctl) (code : BitVec 16) (succ : Option (BitVec 17))
  | brk (c : Ctl) (code : BitVec 16)
  | srd (c : Ctl) (hi : Bool) (d : Reg) (sreg : BitVec 17)
  | swr (c : Ctl) (hi : Bool) (sreg : BitVec 17) (b : Src)
  | qpost (c : Ctl) (q : Src) (a : RegOp) (words : BitVec 3)
  -- predicates and cross-lane (R213 to R217, R247 to R253)
  | pset (c : Ctl) (cmp : Cmp) (l u : Bool) (comb : Comb) (cp : BitVec 4) (q : BitVec 4) (a b : Src)
  | fpset (c : Ctl) (cmp : Cmp) (comb : Comb) (cp : BitVec 4) (q : BitVec 4) (a b : Src)
  | plog (c : Ctl) (lut : BitVec 8) (q : BitVec 4) (pa pb pc : PredSrc)
  | pmov (c : Ctl) (q : BitVec 4) (pa : PredSrc)
  | pbitsGet (c : Ctl) (d : Reg) (mask : BitVec 16)
  | pbitsPut (c : Ctl) (mask : BitVec 16) (a : Src)
  | vote (c : Ctl) (mode : VoteMode) (q : BitVec 4) (pa : PredSrc)
  | ballot (c : Ctl) (d : Reg) (pa : PredSrc)
  | matchLanes (c : Ctl) (d : Reg) (a : Src)
  | elect (c : Ctl) (q : BitVec 4)
  | lget (c : Ctl) (mode : LgetMode) (sg : BitVec 3) (d : Reg) (a b : Src) (fill : Option Src)
  | xchg (c : Ctl) (n : BitVec 3) (d : Reg) (a b : Src)
  | reduce (c : Ctl) (op : RedOp) (d : Reg) (a : Src)
  | scan (c : Ctl) (op : RedOp) (ex : Bool) (d : Reg) (a : Src)
  | rdlane (c : Ctl) (d : Reg) (a b : Src)
  | wrlane (c : Ctl) (d : Reg) (a b : Src)
  -- integer (R218 to R222)
  | iadd (c : Ctl) (u sat : Bool) (cy : Carry) (cp : BitVec 4) (d : Reg) (a b : Src)
  | isub (c : Ctl) (u sat : Bool) (cy : Carry) (cp : BitVec 4) (d : Reg) (a b : Src)
  | imul (c : Ctl) (u sat : Bool) (d : Reg) (a b : Src)
  | imulh (c : Ctl) (u : Bool) (d : Reg) (a b : Src)
  | imad (c : Ctl) (u sat : Bool) (d : Reg) (a b e : Src)
  | imadw (c : Ctl) (u : Bool) (d : Reg) (a b e : Src)
  | ineg (c : Ctl) (sat : Bool) (d : Reg) (a : Src)
  | iabs (c : Ctl) (sat : Bool) (d : Reg) (a : Src)
  | imin (c : Ctl) (u : Bool) (d : Reg) (a b : Src)
  | imax (c : Ctl) (u : Bool) (d : Reg) (a b : Src)
  | idiv (c : Ctl) (u : Bool) (rnd : Rnd) (d : Reg) (a b : Src)
  | irem (c : Ctl) (u : Bool) (rnd : Rnd) (d : Reg) (a b : Src)
  | isad (c : Ctl) (u sat : Bool) (d : Reg) (a b e : Src)
  | iclamp (c : Ctl) (u : Bool) (d : Reg) (a b e : Src)
  -- logic, shifts, bit fields, moves (R223 to R230)
  | andw (c : Ctl) (d : Reg) (a b : Src)
  | orw (c : Ctl) (d : Reg) (a b : Src)
  | xorw (c : Ctl) (d : Reg) (a b : Src)
  | notw (c : Ctl) (d : Reg) (a : Src)
  | andn (c : Ctl) (d : Reg) (a b : Src)
  | blut (c : Ctl) (lut : BitVec 8) (d : Reg) (a b e : Src)
  | shl (c : Ctl) (d : Reg) (a b : Src)
  | shr (c : Ctl) (d : Reg) (a b : Src)
  | sar (c : Ctl) (d : Reg) (a b : Src)
  | rotl (c : Ctl) (d : Reg) (a b : Src)
  | shf (c : Ctl) (right : Bool) (d : Reg) (a b e : Src)
  | bfe (c : Ctl) (u : Bool) (d : Reg) (a f : Src)
  | bfi (c : Ctl) (d : Reg) (a b f : Src)
  | popc (c : Ctl) (d : Reg) (a : Src)
  | clz (c : Ctl) (d : Reg) (a : Src)
  | brev (c : Ctl) (d : Reg) (a : Src)
  | ffs (c : Ctl) (d : Reg) (a : Src)
  | bswz (c : Ctl) (d : Reg) (a b e : Src)
  | sel (c : Ctl) (d : Reg) (a b : Src) (pc : PredSrc)
  | mov (c : Ctl) (d : Reg) (a : Src)
  | movi (c : Ctl) (d : Reg) (imm : Word64)
  -- floating point (R234 to R241)
  | fadd (c : Ctl) (rnd : Rnd) (d : Reg) (a b : Src)
  | fsub (c : Ctl) (rnd : Rnd) (d : Reg) (a b : Src)
  | fmul (c : Ctl) (rnd : Rnd) (d : Reg) (a b : Src)
  | fdiv (c : Ctl) (rnd : Rnd) (d : Reg) (a b : Src)
  | ffma (c : Ctl) (rnd : Rnd) (d : Reg) (a b e : Src)
  | fmin (c : Ctl) (d : Reg) (a b : Src)
  | fmax (c : Ctl) (d : Reg) (a b : Src)
  | fabs (c : Ctl) (d : Reg) (a : Src)
  | fneg (c : Ctl) (d : Reg) (a : Src)
  | frcp (c : Ctl) (rnd : Rnd) (d : Reg) (a : Src)
  | frsq (c : Ctl) (rnd : Rnd) (d : Reg) (a : Src)
  | fsqrt (c : Ctl) (rnd : Rnd) (d : Reg) (a : Src)
  | fexp2 (c : Ctl) (d : Reg) (a : Src)
  | flog2 (c : Ctl) (d : Reg) (a : Src)
  | fsin (c : Ctl) (d : Reg) (a : Src)
  | fcos (c : Ctl) (d : Reg) (a : Src)
  | ftanh (c : Ctl) (d : Reg) (a : Src)
  | fsigm (c : Ctl) (d : Reg) (a : Src)
  | frnd (c : Ctl) (rnd : Rnd) (d : Reg) (a : Src)
  | ffrac (c : Ctl) (rnd : Rnd) (d : Reg) (a : Src)
  | fscale (c : Ctl) (rnd : Rnd) (d : Reg) (a b : Src)
  | fgexp (c : Ctl) (d : Reg) (a : Src)
  | fclass (c : Ctl) (d : Reg) (a : Src)
  | hadd2 (c : Ctl) (bf : Bool) (rnd : Rnd) (d : Reg) (a b : Src)
  | hmul2 (c : Ctl) (bf : Bool) (rnd : Rnd) (d : Reg) (a b : Src)
  | hfma2 (c : Ctl) (bf : Bool) (rnd : Rnd) (d : Reg) (a b e : Src)
  | hmin2 (c : Ctl) (bf : Bool) (d : Reg) (a b : Src)
  | hmax2 (c : Ctl) (bf : Bool) (d : Reg) (a b : Src)
  -- conversion, random, checksums (R242 to R246, R254 to R259)
  | cvt (c : Ctl) (df sf : Fmt) (rnd : Rnd) (d : Reg) (a : Src)
  | pack (c : Ctl) (el : BitVec 3) (df : Fmt) (rnd : Rnd) (d : Reg) (a b : Src)
  | unpk (c : Ctl) (el : BitVec 3) (sf : Fmt) (d : Reg) (a : Src)
  /-- QENC; `rn` is MOD[0], which selects the same rule (R245). -/
  | qenc (c : Ctl) (el : BitVec 3) (rn : Bool) (d : Reg) (a g : Src)
  | qdec (c : Ctl) (el : BitVec 3) (d : Reg) (a g : Src)
  | rand (c : Ctl) (mode : RandMode) (d : Reg)
  | rkey (c : Ctl) (a : Src)
  | hmix (c : Ctl) (d : Reg) (x k : Src)
  | csacc (c : Ctl) (u neg : Bool) (k : BitVec 2) (a : Src)
  | cschk (c : Ctl) (k : BitVec 2)
  /-- CSCHK.Z in the sequencer stream: the even register of the pair (R259). -/
  | cschkZ (n : BitVec 4)
  -- memory (R263 to R283)
  | ld (c : Ctl) (wid : BitVec 3) (sx : Bool) (d : Reg) (a : Addr)
  | st (c : Ctl) (wid : BitVec 3) (s : Src) (a : Addr)
  | ldd (c : Ctl) (cnt : BitVec 3) (rf : Fmt) (d : Reg) (a : Addr)
  | std (c : Ctl) (cnt : BitVec 3) (rf : Fmt) (s : Src) (a : Addr)
  | tagld (c : Ctl) (d : Reg) (a : Addr)
  | tagst (c : Ctl) (s : Src) (a : Addr)
  | ldg (c : Ctl) (wid : BitVec 3) (sx tg : Bool) (d : Reg) (a : Src) (mode : AddrMode)
  | pref (c : Ctl) (l2 : Bool) (a : Addr)
  | ldwt (c : Ctl) (wid : BitVec 3) (slot : BitVec 4) (d : Reg) (a : Addr)
  | atom (c : Ctl) (scope : Scope) (ord : OrdCode) (op : RedOp) (sz : Bool) (a : RegOp) (b : Src) (o : BitVec 17)
  | atomr (c : Ctl) (scope : Scope) (ord : OrdCode) (op : RedOp) (sz : Bool) (d : Reg) (a : RegOp) (b : Src)
      (succ : BitVec 17)
  | cas (c : Ctl) (scope : Scope) (ord : OrdCode) (sz : Bool) (d : Reg) (a : RegOp) (b e : Src) (succ : BitVec 17)
  | exch (c : Ctl) (scope : Scope) (ord : OrdCode) (sz : Bool) (d : Reg) (a : RegOp) (b : Src) (succ : BitVec 17)
  | lda (c : Ctl) (scope : Scope) (sx : Bool) (wid : BitVec 3) (d : Reg) (a : RegOp) (succ : BitVec 17)
  | stl (c : Ctl) (scope : Scope) (wid : BitVec 3) (s : Src) (a : RegOp) (succ : BitVec 17)
  | fence (c : Ctl) (scope : Scope) (ord : OrdCode) (succ : BitVec 17)
  | acqr (c : Ctl) (victim : Src) (succ : BitVec 17)
  | cpy (c : Ctl) (scope : Scope) (bar : BitVec 4) (d a : RegOp) (b : Src)
  | cpyt (c : Ctl) (scope : Scope) (bar : BitVec 4) (d a b : RegOp)
  | cpyg (c : Ctl) (rsz : BitVec 4) (scope : Scope) (bar : BitVec 4) (d : RegOp) (a b : Src)
  | binit (c : Ctl) (bar : BitVec 4) (scope : Scope) (count : Src)
  | bexp (c : Ctl) (bar : BitVec 4) (b : Src)
  | barv (c : Ctl) (bar : BitVec 4) (b : Src)
  | btest (c : Ctl) (q : BitVec 4) (bar : BitVec 4) (ph : Bool)
  -- the sequencer, matrix and generator words (R307 to R332)
  | sqarr (c : Ctl) (q : BitVec 4)
  | sqwait (q : BitVec 4) (count : BitVec 6)
  | sqsig (q : BitVec 4)
  | sqloop (z : Reg) (succ : BitVec 17)
  | sqjmp (succ : BitVec 17)
  | sqend
  /-- MXM: `scl` is the scale register pair, none for the immediate 0 (R316, R317). -/
  | mxm (m : MxMod) (sh : MxShape) (a b : RegOp) (scl : Option RegOp)
  /-- MXMS: `bm` is the bitmap base, none for the immediate form (R316, R320). -/
  | mxms (m : MxMod) (sh : MxShape) (a b : RegOp) (scl : Option RegOp) (bm : Option RegOp)
  | mxz (tile : BitVec 2) (anchor : Src)
  | mxrd (df : DrainFmt) (rnd : Rnd) (tile : BitVec 2) (m : BitVec 3) (j0 nc : Src) (v : RegOp)
  | mxwr (sf : DrainFmt) (rc : Bool) (tile : BitVec 2) (m : BitVec 3) (j0 nc : Src) (v : RegOp)
  | mxswp (tile : BitVec 2) (off : Src)
  | mxst (z : Reg) (tile : BitVec 2)
  | mxcs (z : Reg) (tile : BitVec 2)
  | bmap (c : Ctl) (p : BitVec 4) (f : Fmt) (d : Reg) (a : Src)
  | cmpr (c : Ctl) (p : BitVec 4) (f : Fmt) (d : Reg) (a b : Src)
  | gcfg (c : Ctl) (sin : BitVec 3) (fmt : BitVec 4) (scope : BitVec 2) (kind : BitVec 3) (g : Nat) (a b e : Src)
  | gkey (c : Ctl) (g : Nat) (a : Src)
  | geval (c : Ctl) (t bm : Bool) (d : Reg) (g : Nat) (b e : Src)
  -- events of waves, blocks and engines
  | blockBarrierComplete (bid : Nat)
  | gridBarrierComplete (task : Nat)
  | callComplete (bid w : Nat)
  | returnComplete (bid w : Nat)
  | qpostAppend (id : Nat)
  | watchResolution (id : Nat)
  | atomicResponse (id : Nat)
  | releaseConditionMet (id : Nat)
  | copyLineTransfer (id line : Nat)
  | copyComplete (id : Nat)
  | sqarrArrival (id : Nat)
  | registerDataArrival (id : Nat)
  | waveRetire (bid w : Nat)
  | pendingWaveAging (core unit : Nat)
  | sequencerFetchFault (bid : Nat)
  | sliceExpiry (core ctx : Nat)
  | blockSave (bid : Nat)
  | blockRestore (bid core : Nat)
  -- events of queues, tasks and dispatch
  | queueDoorbell (q : Nat) (widx : BitVec 32)
  | launch (q : Nat)
  | signal (q : Nat)
  | signalFire (q : Nat)
  | waitsig (q : Nat)
  | waitsigRelease (q : Nat)
  | versionCopy (id : Nat)
  | taskDispatch (task : Nat)
  /-- BLOCK_LAUNCH on logical core `core`: the next index of the task, or with DET the index `ix` placed there. -/
  | blockLaunch (task core ix : Nat)
  | blockEnd (bid : Nat)
  | taskCompletion (task : Nat)
  -- CP commands (R357)
  | ctxset (h : CmdHead) (ctx addr : Nat)
  | schedset (h : CmdHead) (ctx addr : Nat)
  | qset (h : CmdHead) (q addr : Nat)
  | qstop (h : CmdHead) (q : Nat)
  | savepool (h : CmdHead) (ctx list count : Nat)
  | ownset (h : CmdHead) (frame count owner : Nat)
  | tlbinv (h : CmdHead) (asid mode addr : Nat)
  | pgdone (h : CmdHead) (ctx addr : Nat)
  | grancopy (h : CmdHead) (die off src bytes : Nat)
  | meter (h : CmdHead) (slice srate : Nat)
  | resume (h : CmdHead) (ident : Nat)
  | kill (h : CmdHead) (ctx : Nat)
  | quote (h : CmdHead) (nonce out : Nat)
  | cpCommandUnknown (h : CmdHead) (code : BitVec 8)
  -- timers, scrub, migration, links, network
  | patrolScrub (block : Nat)
  | migrationRetry (id : Nat)
  | meterWindow (slice : Nat)
  | granaryRefreshWindow (die : Nat)
  | bucketLeak (b : BucketId)
  | spareLaneSteer (core : Nat)
  | dispatcherHeartbeat (die : Nat)
  | dispatcherFailure (die : Nat)
  /-- A flit reaches the receiver of a link direction: its hop number, its payload and whether its CRC passes. -/
  | flitReceived (l : LinkDir) (seq : BitVec 10) (payload : Nat) (crc : Bool)
  | nakReceived (l : LinkDir) (seq : BitVec 10)
  | ackReceived (l : LinkDir) (seq : BitVec 10)
  | replayTimeout (l : LinkDir)
  | linkBucketLeak (link : Nat)
  | remoteRequest (r : NetRequest)
  | transportAck (id : Nat) (bytes : List Byte)
  | transportRetransmit (id : Nat)
  | remoteErrorResponse (id : Nat) (e : RemoteError)
  -- host, control space, boot, power
  | hostBar2Read (off size : Nat)
  | hostBar2Write (off : Nat) (bytes : List Byte)
  | controlRegisterWrite (master off size : Nat) (value : Word64)
  | virtualErrorQueueEnable (master ctx : Nat) (value : Word64)
  | exceptionQueueEnable (master ctx : Nat) (value : Word64)
  | trapRecordWrite (ctx : Nat)
  | peerTableDisable (master peer : Nat)
  | timeAdjust (master : Nat) (value : Word64)
  | mrExtend (master : Nat) (index : Nat)
  | bootgo (master : Nat) (value : BitVec 32)
  /-- The boot fetch over the network completes with the image's bytes, or fails. -/
  | bootImageFetched (image : Option (List Byte))
  | bootRetry
  | powerOnReset
  | warmReset (cause : WarmCause)
  | rstreq (master : Nat) (value : BitVec 32)
  | powerLimitSet (milliwatt : Nat)
  | thermalCap (die : Nat)
  | thermalThrottle (die : Nat)
  | thermalHalt (die : Nat)
  | writeThroughAtHome (id : Nat)
  | reeveLoadStore (hart : Nat) (a : ReeveAccess)
  deriving DecidableEq, Repr, Inhabited

end Sys2Proof
end

