-- ==== Sys2Proof/WellFormed.lean ====
section
/-! DEFINITION. Which terms of `Instr` an instruction word can stand for (R191 to R206 and the limits of each
instruction). Decoding answers well-formed instructions only, and every well-formed word instruction is encoded
by some word. -/

namespace Sys2Proof

/-- Where a word stands: in a trace under a window of `ws` registers, or in the sequencer stream (R205). -/
structure Env where
  seq : Bool
  ws : Nat
  deriving DecidableEq, Repr, Inhabited

/-- A trace word under window size `ws`. -/
abbrev Env.trace (ws : Nat) : Env := ⟨false, ws⟩

/-- A word of the sequencer stream. -/
abbrev Env.stream : Env := ⟨true, 192⟩

/-- R195 with N < WS (R30): the registers a source or destination field may name. -/
def wfReg (e : Env) : Reg → Bool
  | .v n => !e.seq && decide (n < e.ws) && decide (n < 192)
  | .s n => !e.seq && decide (n < 48)
  | .zero => true
  | .ones => true
  | .laneIx => !e.seq
  | .waveIx => !e.seq
  | .g _ => false
  | .z n => e.seq && decide (n < 16)

/-- The limits of R196 on PRM. -/
def wfPerm : Perm → Bool
  | .none | .mir | .rot _ | .bc _ => true
  | .bf n => decide (n.toNat < 5)
  | .rot8 n | .bc8 n => decide (n.toNat < 8)

/-- R197: a register that may carry a permutation. -/
def permutable (e : Env) : Reg → Bool
  | .v _ | .zero | .laneIx | .waveIx | .ones => !e.seq
  | .s _ | .g _ | .z _ => false

/-- R196 and R197 on the permutation of a source. -/
def wfPermOf (e : Env) (o : RegOp) : Bool :=
  wfPerm o.perm && (o.perm = .none || permutable e o.reg)

/-- A register-form source. -/
def wfRegOp (e : Env) (o : RegOp) : Bool := wfReg e o.reg && wfPermOf e o

/-- A source in either form (`s` of R200). -/
def wfSrc (e : Env) : Src → Bool
  | .reg o => wfRegOp e o
  | .imm _ => true

/-- A source under the H widening: bit 16 of the immediate is zero (R198). -/
def wfSrcH (e : Env) : Src → Bool
  | .reg o => wfRegOp e o
  | .imm v => decide (v.toNat < 65536)

/-- An address field (`a` of R200); `wr` says that the word also writes the base (R197, R203). -/
def wfBase (e : Env) (wr : Bool) (o : RegOp) : Bool :=
  wfRegOp e o && (!wr || (o.perm = .none && !o.fe)) &&
  match o.reg with
  | .v n => decide (n % 2 = 0) && decide (n + 1 < e.ws)
  | .s _ => true
  | _ => false

/-- The mode fields of R203. -/
def wfMode (e : Env) : AddrMode → Bool
  | .off _ | .post _ | .postMod _ _ => true
  | .idx _ i => wfSrc e i

/-- The modes that write the base back. -/
def AddrMode.writes : AddrMode → Bool
  | .off _ | .idx _ _ => false
  | .post _ | .postMod _ _ => true

def wfAddr (e : Env) (a : Addr) : Bool := wfBase e a.mode.writes a.base && wfMode e a.mode

/-- A run of `cv` vector or `cs` scalar registers starting at the named one (R261, R265). -/
def wfRun (e : Env) (cv cs : Nat) : Reg → Bool
  | .v n => decide (n % cv = 0) && decide (n + cv ≤ e.ws)
  | .s n => decide (n % cs = 0) && decide (n + cs ≤ 48)
  | _ => true

/-- Vector registers of an access of `2^wid` bytes (R261). -/
def runV (wid : Nat) : Nat := if wid = 3 then 2 else if wid = 4 then 4 else 1

/-- Scalar registers of an access of `2^wid` bytes (R261). -/
def runS (wid : Nat) : Nat := if wid = 4 then 2 else 1

/-- R203: the run of `cv` or `cs` registers meets the base that the word writes. -/
def overlaps (cv cs : Nat) (d : Reg) (a : Addr) : Bool :=
  a.mode.writes &&
  match d, a.base.reg with
  | .v n, .v b => decide (n < b + 2) && decide (b < n + cv)
  | .s n, .s b => decide (n ≤ b) && decide (b < n + cs)
  | _, _ => false

/-- SX is for a load narrower than its register (R263). -/
def narrower (wid : Nat) : Reg → Bool
  | .s _ => decide (wid < 3)
  | _ => decide (wid < 2)

/-- Width of an element in bits (R79). -/
def Fmt.width : Fmt → Nat
  | .fp32 | .int32 => 32
  | .fp16 | .bf16 => 16
  | .f8a | .f8b | .sm8 => 8
  | .sm4 | .q16 => 4

/-- The register formats of LDD and STD (R265). -/
def wfRF : Fmt → Bool
  | .fp32 | .fp16 | .bf16 | .int32 => true
  | _ => false

/-- The registers of LDD's or STD's run (R265). -/
def runD (cnt : Nat) (rf : Fmt) : Nat := (2 ^ cnt * rf.width + 31) / 32

/-- CVT's formats (R242). -/
def wfCvt : Fmt → Bool
  | .q16 => false
  | _ => true

/-- PACK's and UNPK's formats and element limits (R243, R244). -/
def wfPack (el : BitVec 3) : Fmt → Bool
  | .fp16 | .bf16 => decide (el.toNat < 2)
  | .f8a | .f8b | .sm8 => decide (el.toNat < 4)
  | .sm4 => true
  | _ => false

/-- The formats 0x2 to 0x8 of the matrix words and of BMAP and CMPR (R316, R327). -/
def wfElem : Fmt → Bool
  | .fp32 | .int32 => false
  | _ => true

/-- A generator's formats 0x2 to 0x7 (R329). -/
def wfGenFmt : Fmt → Bool
  | .fp32 | .int32 | .q16 => false
  | _ => true

/-- Guards that must be zero (R286, R191). -/
def noGuard (c : Ctl) : Bool := c.g1 = ⟨false, 0⟩ && c.g2 = ⟨false, 0⟩

/-- R192 on a word without an address operand. -/
def noHint (c : Ctl) : Bool := c.hint = 0

/-- R192 on a word with an address operand, and on LDG. -/
def okHint (c : Ctl) : Bool := decide (c.hint.toNat ≤ 5)

/-- R205: every one of these fields is zero in the sequencer stream. -/
def zeroCtl (c : Ctl) : Bool := noGuard c && noHint c && !c.keep && !c.yld

/-- The fixed fields of an ordinary wave word, or of a general word of either stream. -/
def wfCtl (e : Env) (c : Ctl) : Bool := if e.seq then zeroCtl c else noHint c

/-- A destination of a wave instruction that takes no scalar destination. -/
def notScalar : Reg → Bool
  | .s _ => false
  | _ => true

/-- R221: IMADW's pair. -/
def wfPairD (e : Env) : Reg → Bool
  | .v n => decide (n % 2 = 0) && decide (n + 1 < e.ws)
  | .s n => decide (n % 2 = 0) && decide (n ≤ 46)
  | .zero | .laneIx | .waveIx | .ones => true
  | _ => false

/-- A 64-bit atomic value or destination from vector registers is an even pair (R272, R261). -/
def wfPair (e : Env) (sz : Bool) : Reg → Bool
  | .v n => !sz || (decide (n % 2 = 0) && decide (n + 1 < e.ws))
  | _ => true

def wfPairSrc (e : Env) (sz : Bool) : Src → Bool
  | .reg o => wfPair e sz o.reg
  | .imm _ => true

/-- The special registers of R300 and their widths; none for a reserved number. -/
def sregWidth (n : Nat) : Option Nat :=
  if n = 0 then some 24 else if n = 1 then some 5 else if n = 2 then some 32
  else if n = 3 ∨ n = 4 ∨ n = 5 then some 64 else if n = 6 then some 22
  else if 8 ≤ n ∧ n < 16 then some 64 else none

/-- R300: the special registers that SWR may write. -/
def sregWritable (n : Nat) : Bool := n = 0 || n = 1 || n = 3 || n = 4 || (decide (8 ≤ n) && decide (n < 16))

/-- R301. -/
def wfSrd (hi : Bool) (d : Reg) (n : Nat) : Bool :=
  match sregWidth n with
  | none => false
  | some w => !hi || (decide (32 < w) && notScalar d)

/-- R302. -/
def wfSwr (hi : Bool) (n : Nat) (b : Src) : Bool :=
  match sregWidth n with
  | none => false
  | some w => sregWritable n && (!hi || (decide (32 < w) &&
      match b with
      | .reg o => notScalar o.reg
      | .imm _ => true))

/-- R292: TCALL's callee. -/
def wfCallee (e : Env) : Callee → Bool
  | .off _ => true
  | .reg o => wfRegOp e o && match o.reg with
      | .s _ => true
      | _ => false

/-- A wave register that a matrix word names (R195): vN, read at the waves' window. -/
def wfFrag (o : RegOp) : Bool :=
  o.perm = .none && match o.reg with
  | .v n => decide (n < 192)
  | _ => false

/-- MXM's and MXMS's A and B: a fragment or a generator (R316); TA or TB with a register is refused. -/
def wfMxOp (o : RegOp) (t : Bool) : Bool :=
  match o.reg with
  | .v n => o.perm = .none && decide (n < 192) && !t
  | .g n => o.perm = .none && decide (n < 8)
  | _ => false

def isGen (o : RegOp) : Bool :=
  match o.reg with
  | .g _ => true
  | _ => false

/-- A scale pair: an even z register (R316). The field of all zeroes is the immediate 0 of a written dash, so z0
stands here only with its FE bit set. -/
def wfScale : Option RegOp → Bool
  | none => true
  | some o => o.perm = .none && match o.reg with
      | .z n => decide (n % 2 = 0) && decide (n < 16) && (n ≠ 0 || o.fe)
      | _ => false

/-- MXMS's bitmap base (R316, R320). -/
def wfBitmap (gens : Bool) : Option RegOp → Bool
  | none => gens
  | some o => !gens && wfFrag o

/-- A z register that a sequencer word writes. -/
def wfZ : Reg → Bool
  | .z n => decide (n < 16)
  | _ => false

def wfMx (m : MxMod) (sh : MxShape) (a b : RegOp) (scl : Option RegOp) : Bool :=
  wfElem m.fa && wfElem m.fb && decide (m.fa.width = m.fb.width) && decide (sh.ks.toNat < 3) &&
  wfMxOp a m.ta && wfMxOp b m.tb && wfScale scl

/-- The drains' ranges when both are immediates, or the one that is (R323). -/
def wfRange (j0 nc : Src) : Bool :=
  (match j0 with
   | .imm v => decide (v.toNat ≤ 255)
   | .reg _ => true) &&
  (match nc with
   | .imm v => decide (1 ≤ v.toNat) && decide (v.toNat ≤ 64)
   | .reg _ => true) &&
  (match j0, nc with
   | .imm v, .imm w => decide (v.toNat + w.toNat ≤ 256)
   | _, _ => true)

/-- MXRD's formats: RAW, 0x1 to 0x7, 0x9; no rounding with RAW (R323). -/
def wfDrain (r : Rnd) : DrainFmt → Bool
  | .raw => r = .dyn
  | .conv .q16 => false
  | .conv _ => true

/-- MXWR's formats (R324). -/
def wfWrite : DrainFmt → Bool
  | .raw | .conv .fp32 | .conv .int32 => true
  | _ => false

/-- The word instructions of a wave. Guards, HINT and SCH first, then the operands in field order. -/
def wfWave (e : Env) : Instr → Bool
  | .traceAdmission _ _ _ mask => !mask.getLsbD 16
  | .tend c _ _ _ => noGuard c && noHint c
  | .texit c => noGuard c && noHint c
  | .grd c _ _ => noHint c
  | .chkw c _ _ => noHint c
  | .tbar c _ => noGuard c && noHint c
  | .tgbar c _ => noGuard c && noHint c
  | .tcall c f k w _ => noGuard c && noHint c && wfCallee e f && decide (k.toNat ≤ e.ws) &&
      decide (1 ≤ w.toNat) && decide (w.toNat ≤ 192)
  | .tret c => noGuard c && noHint c
  | .tyield c _ => noHint c
  | .twait c _ _ _ => noHint c
  | .tsqw c _ _ _ => noGuard c && noHint c
  | .tordw c _ => noGuard c && noHint c
  | .tordr c _ => noGuard c && noHint c
  | .nop c => wfCtl e c
  | .rep .. => true
  | .trap c _ t => wfCtl e c && t.isSome
  | .brk c _ => noHint c
  | .srd c hi d n => noHint c && wfReg e d && wfSrd hi d n.toNat
  | .swr c hi n b => noHint c && wfSrc e b && wfSwr hi n.toNat b
  | .qpost c q a _ => okHint c && wfSrc e q && wfBase e false a
  | .pset c cmp _ _ comb cp _ a b => noHint c && cmp ≠ .un && cmp ≠ .ord && (comb ≠ .none || cp = 0) &&
      wfSrc e a && wfSrc e b
  | .fpset c _ comb cp _ a b => noHint c && (comb ≠ .none || cp = 0) && wfSrc e a && wfSrc e b
  | .plog c .. => noHint c
  | .pmov c .. => noHint c
  | .pbitsGet c d _ => noHint c && wfReg e d
  | .pbitsPut c _ a => noHint c && wfSrc e a
  | .vote c .. => noHint c
  | .ballot c d _ => noHint c && wfReg e d
  | .matchLanes c d a => noHint c && wfReg e d && notScalar d && wfSrc e a
  | .elect c _ => noHint c
  | .lget c mode sg d a b f => noHint c && decide (sg.toNat ≤ 5) && wfReg e d && notScalar d && wfSrc e a &&
      wfSrc e b && (match f with
        | none => mode ≠ .shift
        | some f => mode = .shift && wfSrc e f)
  | .xchg c n d a b => noHint c && decide (n.toNat ≤ 4) && wfReg e d && notScalar d && wfSrc e a && wfSrc e b
  | .reduce c _ d a => noHint c && wfReg e d && wfSrc e a
  | .scan c _ _ d a => noHint c && wfReg e d && notScalar d && wfSrc e a
  | .rdlane c d a b => noHint c && wfReg e d && wfSrc e a && wfSrc e b
  | .wrlane c d a b => noHint c && wfReg e d && notScalar d && wfSrc e a && wfSrc e b
  | .iadd c u sat cy cp d a b | .isub c u sat cy cp d a b =>
      wfCtl e c && (!e.seq || (!u && !sat && cy = .none)) && (cy = .none || !sat) && (cy ≠ .none || cp = 0) &&
      wfReg e d && wfSrc e a && wfSrc e b
  | .imul c _ _ d a b => noHint c && wfReg e d && wfSrc e a && wfSrc e b
  | .imulh c _ d a b => noHint c && wfReg e d && wfSrc e a && wfSrc e b
  | .imad c _ _ d a b f => noHint c && wfReg e d && wfSrc e a && wfSrc e b && wfSrc e f
  | .imadw c _ d a b f => noHint c && wfReg e d && wfPairD e d && wfSrc e a && wfSrc e b && wfSrc e f
  | .ineg c _ d a => noHint c && wfReg e d && wfSrc e a
  | .iabs c _ d a => noHint c && wfReg e d && wfSrc e a
  | .imin c _ d a b => noHint c && wfReg e d && wfSrc e a && wfSrc e b
  | .imax c _ d a b => noHint c && wfReg e d && wfSrc e a && wfSrc e b
  | .idiv c _ _ d a b => noHint c && wfReg e d && wfSrc e a && wfSrc e b
  | .irem c _ _ d a b => noHint c && wfReg e d && wfSrc e a && wfSrc e b
  | .isad c _ _ d a b f => noHint c && wfReg e d && wfSrc e a && wfSrc e b && wfSrc e f
  | .iclamp c _ d a b f => noHint c && wfReg e d && wfSrc e a && wfSrc e b && wfSrc e f
  | .andw c d a b | .shl c d a b => wfCtl e c && wfReg e d && wfSrc e a && wfSrc e b
  | .orw c d a b | .xorw c d a b | .andn c d a b | .shr c d a b | .sar c d a b | .rotl c d a b =>
      noHint c && wfReg e d && wfSrc e a && wfSrc e b
  | .notw c d a => noHint c && wfReg e d && wfSrc e a
  | .blut c _ d a b f => noHint c && wfReg e d && wfSrc e a && wfSrc e b && wfSrc e f
  | .shf c _ d a b f => noHint c && wfReg e d && wfSrc e a && wfSrc e b && wfSrc e f
  | .bfe c _ d a f => noHint c && wfReg e d && wfSrc e a && wfSrc e f
  | .bfi c d a b f => noHint c && wfReg e d && wfSrc e a && wfSrc e b && wfSrc e f
  | .popc c d a | .clz c d a | .brev c d a | .ffs c d a => noHint c && wfReg e d && wfSrc e a
  | .bswz c d a b f => noHint c && wfReg e d && wfSrc e a && wfSrc e b && wfSrc e f
  | .sel c d a b _ => noHint c && wfReg e d && wfSrc e a && wfSrc e b
  | .mov c d a => wfCtl e c && wfReg e d && wfSrc e a
  | .movi c d v => wfCtl e c && wfReg e d && (!notScalar d || e.seq || decide (v.toNat < 2 ^ 32))
  | .fadd c _ d a b | .fsub c _ d a b | .fmul c _ d a b | .fdiv c _ d a b =>
      noHint c && wfReg e d && wfSrc e a && wfSrc e b
  | .ffma c _ d a b f => noHint c && wfReg e d && wfSrc e a && wfSrc e b && wfSrc e f
  | .fmin c d a b | .fmax c d a b => noHint c && wfReg e d && wfSrc e a && wfSrc e b
  | .fabs c d a | .fneg c d a | .fexp2 c d a | .flog2 c d a | .fsin c d a | .fcos c d a | .ftanh c d a
  | .fsigm c d a | .fgexp c d a | .fclass c d a => noHint c && wfReg e d && wfSrc e a
  | .frcp c _ d a | .frsq c _ d a | .fsqrt c _ d a | .frnd c _ d a | .ffrac c _ d a =>
      noHint c && wfReg e d && wfSrc e a
  | .fscale c _ d a b => noHint c && wfReg e d && wfSrc e a && wfSrc e b
  | .hadd2 c _ _ d a b | .hmul2 c _ _ d a b => noHint c && wfReg e d && wfSrcH e a && wfSrcH e b
  | .hfma2 c _ _ d a b f => noHint c && wfReg e d && wfSrcH e a && wfSrcH e b && wfSrcH e f
  | .hmin2 c _ d a b | .hmax2 c _ d a b => noHint c && wfReg e d && wfSrcH e a && wfSrcH e b
  | .cvt c df sf _ d a => noHint c && wfCvt df && wfCvt sf && wfReg e d && wfSrc e a
  | .pack c el df _ d a b => noHint c && wfPack el df && wfReg e d && wfSrc e a && wfSrc e b
  | .unpk c el sf d a => noHint c && wfPack el sf && wfReg e d && wfSrc e a
  | .qenc c _ _ d a g => noHint c && wfReg e d && wfSrc e a && wfSrc e g
  | .qdec c _ d a g => noHint c && wfReg e d && wfSrc e a && wfSrc e g
  | .rand c _ d => noHint c && wfReg e d && notScalar d
  | .rkey c a => noHint c && wfSrc e a
  | .hmix c d x k => noHint c && wfReg e d && wfSrc e x && wfSrc e k
  | .csacc c _ _ _ a => noHint c && wfSrc e a
  | .cschk c _ => noHint c
  | .ld c wid sx d a => okHint c && decide (wid.toNat ≤ 4) && (!sx || narrower wid.toNat d) && wfReg e d &&
      wfRun e (runV wid.toNat) (runS wid.toNat) d && !overlaps (runV wid.toNat) (runS wid.toNat) d a && wfAddr e a
  | .st c wid s a => okHint c && decide (wid.toNat ≤ 4) && wfSrc e s && wfAddr e a && (match s with
      | .reg o => wfRun e (runV wid.toNat) (runS wid.toNat) o.reg &&
          !overlaps (runV wid.toNat) (runS wid.toNat) o.reg a
      | .imm _ => true)
  | .ldd c cnt rf d a => okHint c && decide (cnt.toNat ≤ 3) && wfRF rf && wfReg e d && notScalar d &&
      wfRun e (runD cnt.toNat rf) 1 d && !overlaps (runD cnt.toNat rf) 1 d a && wfAddr e a
  | .std c cnt rf s a => okHint c && decide (cnt.toNat ≤ 3) && wfRF rf && wfSrc e s && wfAddr e a && (match s with
      | .reg o => notScalar o.reg && wfRun e (runD cnt.toNat rf) 1 o.reg &&
          !overlaps (runD cnt.toNat rf) 1 o.reg a
      | .imm _ => true)
  | .tagld c d a => okHint c && wfReg e d && !overlaps 1 1 d a && wfAddr e a
  | .tagst c s a => okHint c && wfSrc e s && wfAddr e a && (match s with
      | .reg o => !overlaps 1 1 o.reg a
      | .imm _ => true)
  | .ldg c wid sx tg d a mode => okHint c && decide (wid.toNat ≤ 4) && (!tg || wid = 0) &&
      (!sx || (!tg && narrower wid.toNat d)) && wfReg e d &&
      wfRun e (runV wid.toNat) (runS wid.toNat) d && wfSrc e a && !mode.writes && wfMode e mode
  | .pref c _ a => okHint c && wfAddr e a
  | .ldwt c wid _ d a => okHint c && decide (wid.toNat ≤ 4) && wfReg e d && notScalar d &&
      wfRun e (runV wid.toNat) (runS wid.toNat) d && !overlaps (runV wid.toNat) (runS wid.toNat) d a && wfAddr e a
  | .atom c _ ord op sz a b _ => okHint c && (ord = .rlx || ord = .rel) && (!sz || decide (op ∉ [.fadd, .fmin, .fmax])) &&
      wfBase e false a && wfSrc e b && wfPairSrc e sz b
  | .atomr c _ _ op sz d a b _ => okHint c && (!sz || decide (op ∉ [.fadd, .fmin, .fmax])) && wfReg e d &&
      wfPair e sz d && wfBase e false a && wfSrc e b && wfPairSrc e sz b
  | .cas c _ _ sz d a b f _ => okHint c && wfReg e d && wfPair e sz d && wfBase e false a && wfSrc e b &&
      wfPairSrc e sz b && wfSrc e f && wfPairSrc e sz f
  | .exch c _ _ sz d a b _ => okHint c && wfReg e d && wfPair e sz d && wfBase e false a && wfSrc e b &&
      wfPairSrc e sz b
  | .lda c _ sx wid d a _ => okHint c && decide (wid.toNat ≤ 3) && (!sx || narrower wid.toNat d) && wfReg e d &&
      wfRun e (runV wid.toNat) (runS wid.toNat) d && wfBase e false a
  | .stl c _ wid s a _ => okHint c && decide (wid.toNat ≤ 3) && wfSrc e s && (match s with
      | .reg o => wfRun e (runV wid.toNat) (runS wid.toNat) o.reg
      | .imm _ => true) && wfBase e false a
  | .fence c _ ord _ => noHint c && ord ≠ .rlx
  | .acqr c v _ => noHint c && wfSrc e v
  | .cpy c _ _ d a b => okHint c && wfBase e false d && wfBase e false a && wfSrc e b
  | .cpyt c _ _ d a b => okHint c && wfBase e false d && wfBase e false a && wfRegOp e b && (match b.reg with
      | .s n => decide (n ≤ 44)
      | _ => false)
  | .cpyg c rsz _ _ d a b => okHint c && decide (rsz.toNat ≤ 12) && wfBase e false d && wfSrc e a &&
      wfSrc e b
  | .binit c _ _ n => noHint c && wfSrc e n
  | .bexp c _ b => noHint c && wfSrc e b
  | .barv c _ b => noHint c && wfSrc e b
  | .btest c .. => noHint c
  | .sqarr c _ => noHint c
  | .bmap c p f d a => noHint c && wfElem f && decide (p.toNat < f.width) && wfReg e d && notScalar d && wfSrc e a
  | .cmpr c p f d a b => noHint c && wfElem f && decide (p.toNat < f.width) && wfReg e d && notScalar d &&
      wfSrc e a && wfSrc e b
  | .gcfg c _ _ _ _ g a b p => noHint c && decide (g < 8) && wfSrc e a && wfSrc e b && wfSrc e p
  | .gkey c g a => noHint c && decide (g < 8) && wfSrc e a
  | .geval c _ _ d g b f => noHint c && wfReg e d && notScalar d && decide (g < 8) && wfSrc e b && wfSrc e f
  | _ => false

/-- The words of the sequencer stream (R205, R307 to R326). -/
def wfStream (e : Env) : Instr → Bool
  | .trap c _ t => zeroCtl c && t.isNone
  | .nop c => wfCtl e c
  | .iadd c u sat cy cp d a b | .isub c u sat cy cp d a b =>
      wfCtl e c && !u && !sat && cy = .none && cp = 0 && wfReg e d && wfSrc e a && wfSrc e b
  | .andw c d a b | .shl c d a b => wfCtl e c && wfReg e d && wfSrc e a && wfSrc e b
  | .mov c d a => wfCtl e c && wfReg e d && wfSrc e a
  | .movi c d _ => wfCtl e c && wfReg e d
  | .cschkZ n => decide (n.toNat % 2 = 0)
  | .sqwait _ n => decide (1 ≤ n.toNat) && decide (n.toNat ≤ 32)
  | .sqsig _ => true
  | .sqloop z _ => wfZ z
  | .sqjmp _ => true
  | .sqend => true
  | .mxm m sh a b scl => wfMx m sh a b scl
  | .mxms m sh a b scl bm => wfMx m sh a b scl && wfBitmap (isGen a && isGen b) bm
  | .mxz _ a => wfSrc e a && (match a with
      | .imm v => decide (-512 ≤ v.toInt) && decide (v.toInt ≤ 511)
      | .reg _ => true)
  | .mxrd df rnd _ _ j0 nc v => wfDrain rnd df && wfSrc e j0 && wfSrc e nc && wfRange j0 nc && wfFrag v && !v.fe
  | .mxwr sf _ _ _ j0 nc v => wfWrite sf && wfSrc e j0 && wfSrc e nc && wfRange j0 nc && wfFrag v
  | .mxswp _ a => wfSrc e a
  | .mxst z _ => wfZ z
  | .mxcs z _ => wfZ z && (match z with
      | .z n => decide (n % 2 = 0)
      | _ => false)
  | _ => false

/-- Instructions that are words, in the stream of `e`. -/
def wfWord (e : Env) (i : Instr) : Bool := if e.seq then wfStream e i else wfWave e i

end Sys2Proof
end

