-- ==== Sys2Proof/Decode.lean ====
section
/-! DEFINITION. Decoding of instruction words (R189 to R209, R286, and the MOD layouts of the instruction chapters),
total on every word and rejecting by name, and the encoder written from the same tables. Decoding follows the order of
R206: the opcode, its place, then MOD, G1, G2, HINT, SCH and the operand fields D, A, B, C, E. -/

namespace Sys2Proof

/-! ### The fields of a word (R189) -/

/-- An instruction word cut into its fields. -/
structure Raw where
  op : BitVec 9
  mod : BitVec 12
  g1 : BitVec 5
  g2 : BitVec 5
  hint : BitVec 3
  sch : BitVec 4
  d : BitVec 18
  a : BitVec 18
  b : BitVec 18
  c : BitVec 18
  e : BitVec 18
  deriving DecidableEq, Repr, Inhabited

/-- R189's table, read. -/
def Raw.ofWord (w : Word128) : Raw where
  op := w.extractLsb' 0 9
  mod := w.extractLsb' 9 12
  g1 := w.extractLsb' 21 5
  g2 := w.extractLsb' 26 5
  hint := w.extractLsb' 31 3
  sch := w.extractLsb' 34 4
  d := w.extractLsb' 38 18
  a := w.extractLsb' 56 18
  b := w.extractLsb' 74 18
  c := w.extractLsb' 92 18
  e := w.extractLsb' 110 18

/-- R189's table, written. -/
def Raw.toWord (r : Raw) : Word128 :=
  r.e ++ r.c ++ r.b ++ r.a ++ r.d ++ r.sch ++ r.hint ++ r.g2 ++ r.g1 ++ r.mod ++ r.op

/-- Why a word is refused: R206's three codes. `badfld` names the field as the trap record does (R425). -/
inductive DecodeError where
  /-- A reserved opcode, or a sequencer opcode in a trace. -/
  | illop
  /-- A defined opcode that the sequencer stream does not accept. -/
  | seqerr
  /-- A field outside its rules. -/
  | badfld (field : Nat)
  deriving DecidableEq, Repr, Inhabited

abbrev Dec := Except DecodeError

/-- The field named `n` in R425 must meet `b`. -/
def need (n : Nat) (b : Bool) : Dec Unit := if b then .ok () else .error (.badfld n)

/-- A field's reading, or BADFLD for the field. -/
def fld {α : Type} (n : Nat) : Option α → Dec α
  | some x => .ok x
  | none => .error (.badfld n)

/-! ### Operand fields (R194 to R200) -/

def isImm (f : BitVec 18) : Bool := f.getLsbD 17

/-- The immediate form. -/
def immField (v : BitVec 17) : BitVec 18 := 1#1 ++ v

/-- The register form (R194). -/
def regField (n : BitVec 8) (pat : BitVec 3) (prm : BitVec 5) (fe : Bool) : BitVec 18 :=
  0#1 ++ n ++ pat ++ prm ++ BitVec.ofBool fe

/-- R195's numbers. -/
def Reg.num : Reg → BitVec 8
  | .v n => BitVec.ofNat 8 n
  | .s n => BitVec.ofNat 8 (192 + n)
  | .zero => 240
  | .laneIx => 241
  | .waveIx => 242
  | .ones => 243
  | .g n => BitVec.ofNat 8 (248 + n)
  | .z n => BitVec.ofNat 8 n

/-- R195's wave column. -/
def waveReg (n : Nat) : Reg :=
  if n < 192 then .v n else if n < 240 then .s (n - 192)
  else if n = 240 then .zero else if n = 241 then .laneIx else if n = 242 then .waveIx else if n = 243 then .ones
  else .g (n - 248)

/-- R195's sequencer column. -/
def seqReg (n : Nat) : Reg :=
  if n = 240 then .zero else if n = 243 then .ones else if 248 ≤ n then .g (n - 248) else .z n

/-- The register that N names where the word stands. -/
def regOf (e : Env) (n : BitVec 8) : Reg := if e.seq then seqReg n.toNat else waveReg n.toNat

/-- R196's PAT codes. -/
def Perm.code : Perm → BitVec 3 × BitVec 5
  | .none => (0, 0)
  | .rot n => (1, n)
  | .bc n => (2, n)
  | .bf n => (3, n)
  | .mir => (4, 0)
  | .rot8 n => (5, n)
  | .bc8 n => (6, n)

/-- R196's table; none for PAT 7 and for a PRM outside its row's limits. -/
def permOf (pat : BitVec 3) (prm : BitVec 5) : Option Perm :=
  match pat.toNat with
  | 0 => if prm = 0 then some .none else none
  | 1 => some (.rot prm)
  | 2 => some (.bc prm)
  | 3 => if prm.toNat < 5 then some (.bf prm) else none
  | 4 => if prm = 0 then some .mir else none
  | 5 => if prm.toNat < 8 then some (.rot8 prm) else none
  | 6 => if prm.toNat < 8 then some (.bc8 prm) else none
  | _ => none

/-- The register form as written, before the checks that depend on the place. -/
def rawReg (r : BitVec 8 → Reg) (f : BitVec 18) : Option RegOp :=
  if isImm f then none
  else match permOf (f.extractLsb' 6 3) (f.extractLsb' 1 5) with
    | none => none
    | some p => some ⟨r (f.extractLsb' 9 8), p, f.getLsbD 0⟩

/-- A register-form source (`r`). -/
def regSrc (e : Env) (f : BitVec 18) : Option RegOp :=
  match rawReg (regOf e) f with
  | some o => if wfRegOp e o then some o else none
  | none => none

/-- A source in either form (`s`, `i`). -/
def srcOf (e : Env) (f : BitVec 18) : Option Src :=
  if isImm f then some (.imm (f.extractLsb' 0 17)) else (regSrc e f).map .reg

/-- A source under the H widening (R198). -/
def srcHOf (e : Env) (f : BitVec 18) : Option Src :=
  match srcOf e f with
  | some s => if wfSrcH e s then some s else none
  | none => none

/-- A field that the instruction writes: K = 0, FE = 0, no permutation (R197). -/
def dstOf (e : Env) (f : BitVec 18) : Option Reg :=
  match rawReg (regOf e) f with
  | some o => if o.perm = .none && !o.fe && wfReg e o.reg then some o.reg else none
  | none => none

/-- An address field (`a`). -/
def baseOf (e : Env) (wr : Bool) (f : BitVec 18) : Option RegOp :=
  match rawReg (regOf e) f with
  | some o => if wfBase e wr o then some o else none
  | none => none

/-- A generator field (`g`); a written one has FE = 0 (R197, R200). -/
def genOf (wr : Bool) (f : BitVec 18) : Option Nat :=
  match rawReg (fun n => waveReg n.toNat) f with
  | some ⟨.g n, .none, fe⟩ => if n < 8 && !(wr && fe) && decide (248 ≤ (f.extractLsb' 9 8).toNat) then some n else none
  | _ => none

/-- A wave-register field of the stream that takes fragments only, or generators too (R195). -/
def fragOf (f : BitVec 18) : Option RegOp :=
  match rawReg (fun n => waveReg n.toNat) f with
  | some o => if wfFrag o then some o else none
  | none => none

def mxOpOf (f : BitVec 18) : Option RegOp :=
  match rawReg (fun n => waveReg n.toNat) f with
  | some o => if wfMxOp o false && decide ((f.extractLsb' 9 8).toNat < 192 ∨ 248 ≤ (f.extractLsb' 9 8).toNat) then some o
      else none
  | none => none

/-- A field in the immediate form. -/
def immOf (f : BitVec 18) : Option (BitVec 17) := if isImm f then some (f.extractLsb' 0 17) else none

/-- A number below `lim` in the immediate form (`n`), narrowed. -/
def numOf (w : Nat) (f : BitVec 18) : Option (BitVec w) :=
  match immOf f with
  | some v => if v.toNat < 2 ^ w then some (BitVec.ofNat w v.toNat) else none
  | none => none

/-- The guard layout of R189 (G1, G2, GRD's and TEND's predicate, `p` of R200). -/
def predOf (x : BitVec 5) : PredSrc := ⟨x.getLsbD 4, x.extractLsb' 0 4⟩

def PredSrc.code (p : PredSrc) : BitVec 5 := BitVec.ofBool p.neg ++ p.pred

def predSrcOf (f : BitVec 18) : Option PredSrc := (numOf 5 f).map predOf

/-- A z register that the word writes. -/
def zOf (f : BitVec 18) : Option Reg :=
  match rawReg (fun n => seqReg n.toNat) f with
  | some ⟨.z n, .none, false⟩ => if n < 16 then some (.z n) else none
  | _ => none

/-- The scale field: the all-zero field and the immediate 0 mean unit scales (R316, R317). -/
def scaleOf (f : BitVec 18) : Option (Option RegOp) :=
  if f = 0 ∨ f = immField 0 then some none
  else match rawReg (fun n => seqReg n.toNat) f with
    | some o => if wfScale (some o) then some (some o) else none
    | none => none

/-- MXMS's E (R316, R320). -/
def bitmapOf (gens : Bool) (f : BitVec 18) : Option (Option RegOp) :=
  if gens then (if f = 0 ∨ f = immField 0 then some none else none)
  else (fragOf f).map some

/-! ### Codes of the modifiers -/

/-- R201. -/
def Rnd.code : Rnd → BitVec 3
  | .dyn => 0 | .rn => 1 | .rz => 2 | .rp => 3 | .rm => 4

def rndOf (x : BitVec 3) : Option Rnd :=
  match x.toNat with
  | 0 => some .dyn | 1 => some .rn | 2 => some .rz | 3 => some .rp | 4 => some .rm | _ => none

/-- R213. -/
def Cmp.code : Cmp → BitVec 3
  | .eq => 0 | .ne => 1 | .lt => 2 | .le => 3 | .gt => 4 | .ge => 5 | .un => 6 | .ord => 7

def cmpOf (x : BitVec 3) : Cmp :=
  match x.toNat with
  | 0 => .eq | 1 => .ne | 2 => .lt | 3 => .le | 4 => .gt | 5 => .ge | 6 => .un | _ => .ord

/-- R213. -/
def Comb.code : Comb → BitVec 2
  | .none => 0 | .and => 1 | .or => 2 | .andn => 3

def combOf (x : BitVec 2) : Comb :=
  match x.toNat with
  | 0 => .none | 1 => .and | 2 => .or | _ => .andn

/-- R218. -/
def Carry.code : Carry → BitVec 2
  | .none => 0 | .co => 1 | .ci => 2 | .cio => 3

def carryOf (x : BitVec 2) : Carry :=
  match x.toNat with
  | 0 => .none | 1 => .co | 2 => .ci | _ => .cio

/-- R248. -/
def VoteMode.code : VoteMode → BitVec 12
  | .all => 0 | .any => 1 | .eq => 2

def voteOf (x : BitVec 12) : Option VoteMode :=
  match x.toNat with
  | 0 => some .all | 1 => some .any | 2 => some .eq | _ => none

/-- R249. -/
def LgetMode.code : LgetMode → BitVec 2
  | .at => 0 | .rot => 1 | .mix => 2 | .shift => 3

def lgetOf (x : BitVec 2) : LgetMode :=
  match x.toNat with
  | 0 => .at | 1 => .rot | 2 => .mix | _ => .shift

/-- R251 and R272. -/
def RedOp.code : RedOp → BitVec 4
  | .add => 0 | .smin => 1 | .smax => 2 | .umin => 3 | .umax => 4 | .and => 5 | .or => 6 | .xor => 7
  | .fadd => 8 | .fmin => 9 | .fmax => 10

def redOf (x : BitVec 4) : Option RedOp :=
  match x.toNat with
  | 0 => some .add | 1 => some .smin | 2 => some .smax | 3 => some .umin | 4 => some .umax | 5 => some .and
  | 6 => some .or | 7 => some .xor | 8 => some .fadd | 9 => some .fmin | 10 => some .fmax | _ => none

/-- R255. -/
def RandMode.code : RandMode → BitVec 12
  | .raw => 0 | .uni => 1 | .gauss => 2

def randOf (x : BitVec 12) : Option RandMode :=
  match x.toNat with
  | 0 => some .raw | 1 => some .uni | 2 => some .gauss | _ => none

/-- R120. -/
def Scope.code : Scope → BitVec 2
  | .block => 0 | .die => 1 | .device => 2 | .system => 3

def scopeOf (x : BitVec 2) : Scope :=
  match x.toNat with
  | 0 => .block | 1 => .die | 2 => .device | _ => .system

/-- R128. -/
def OrdCode.code : OrdCode → BitVec 2
  | .rlx => 0 | .acq => 1 | .rel => 2 | .ar => 3

def ordOf (x : BitVec 2) : OrdCode :=
  match x.toNat with
  | 0 => .rlx | 1 => .acq | 2 => .rel | _ => .ar

/-- R79. -/
def Fmt.code : Fmt → BitVec 4
  | .fp32 => 1 | .fp16 => 2 | .bf16 => 3 | .f8a => 4 | .f8b => 5 | .sm8 => 6 | .sm4 => 7 | .q16 => 8 | .int32 => 9

def fmtOf (x : BitVec 4) : Option Fmt :=
  match x.toNat with
  | 1 => some .fp32 | 2 => some .fp16 | 3 => some .bf16 | 4 => some .f8a | 5 => some .f8b | 6 => some .sm8
  | 7 => some .sm4 | 8 => some .q16 | 9 => some .int32 | _ => none

/-- A format code that must meet `ok`. -/
def fmtIf (ok : Fmt → Bool) (x : BitVec 4) : Option Fmt :=
  match fmtOf x with
  | some f => if ok f then some f else none
  | none => none

/-- R323, R324. -/
def DrainFmt.code : DrainFmt → BitVec 4
  | .raw => 0
  | .conv f => f.code

def drainOf (x : BitVec 4) : Option DrainFmt := if x = 0 then some .raw else (fmtOf x).map .conv

/-- R329. -/
def GenKind.code : GenKind → BitVec 3
  | .sign => 0 | .gauss => 1 | .rot => 2 | .mask => 3

def kindOf (x : BitVec 3) : Option GenKind :=
  match x.toNat with
  | 0 => some .sign | 1 => some .gauss | 2 => some .rot | 3 => some .mask | _ => none

/-- R329. -/
def GenScope.code : GenScope → BitVec 2
  | .grid => 0 | .block => 1 | .wave => 2

def genScopeOf (x : BitVec 2) : Option GenScope :=
  match x.toNat with
  | 0 => some .grid | 1 => some .block | 2 => some .wave | _ => none

/-! ### The fields every word has -/

/-- G1, G2, HINT and SCH. `g` and `s` say that guards and SCH may be nonzero, `h` that HINT may (R191 to R193). -/
def ctlOf (g h s : Bool) (r : Raw) : Dec Ctl := do
  need 2 (g || r.g1 = 0)
  need 3 (g || r.g2 = 0)
  need 4 (if h then decide (r.hint.toNat ≤ 5) else r.hint = 0)
  need 5 (if s then r.sch.extractLsb' 2 2 = 0 else r.sch = 0)
  pure ⟨predOf r.g1, predOf r.g2, r.hint, r.sch.getLsbD 1, r.sch.getLsbD 0⟩

/-- An ordinary wave word. -/
abbrev ctlN (r : Raw) : Dec Ctl := ctlOf true false true r
/-- A word whose guards are zero. -/
abbrev ctlZ (r : Raw) : Dec Ctl := ctlOf false false true r
/-- A word with an address operand. -/
abbrev ctlA (r : Raw) : Dec Ctl := ctlOf true true true r
/-- A general word of either stream (R205). -/
abbrev ctlE (e : Env) (r : Raw) : Dec Ctl := ctlOf (!e.seq) false (!e.seq) r

def zero (n : Nat) (f : BitVec 18) : Dec Unit := need n (f = 0)

/-- D, A, B with C and E zero. -/
def dss (e : Env) (r : Raw) : Dec (Reg × Src × Src) := do
  let d ← fld 6 (dstOf e r.d)
  let a ← fld 7 (srcOf e r.a)
  let b ← fld 8 (srcOf e r.b)
  zero 9 r.c
  zero 10 r.e
  pure (d, a, b)

/-- D and A with the rest zero. -/
def ds (e : Env) (r : Raw) : Dec (Reg × Src) := do
  let d ← fld 6 (dstOf e r.d)
  let a ← fld 7 (srcOf e r.a)
  zero 8 r.b
  zero 9 r.c
  zero 10 r.e
  pure (d, a)

/-- D, A, B, C with E zero. -/
def dsss (e : Env) (r : Raw) : Dec (Reg × Src × Src × Src) := do
  let d ← fld 6 (dstOf e r.d)
  let a ← fld 7 (srcOf e r.a)
  let b ← fld 8 (srcOf e r.b)
  let c ← fld 9 (srcOf e r.c)
  zero 10 r.e
  pure (d, a, b, c)

/-- The successor in E, A to D being zero. -/
def onlyE (r : Raw) : Dec (BitVec 17) := do
  zero 6 r.d
  zero 7 r.a
  zero 8 r.b
  zero 9 r.c
  fld 10 (immOf r.e)

def allZero (r : Raw) : Dec Unit := do
  zero 6 r.d
  zero 7 r.a
  zero 8 r.b
  zero 9 r.c
  zero 10 r.e

def bce0 (r : Raw) : Dec Unit := do
  zero 8 r.b
  zero 9 r.c
  zero 10 r.e

def ce0 (r : Raw) : Dec Unit := do
  zero 9 r.c
  zero 10 r.e

/-! ### Decoders by family -/

/-- TRH's register-form check, made first at admission (R43, R422). -/
def trhForm (r : Raw) : Dec (BitVec 17 × BitVec 17 × BitVec 17 × BitVec 17) := do
  let d ← fld 6 (immOf r.d)
  let a ← fld 7 (immOf r.a)
  let b ← fld 8 (immOf r.b)
  let c ← fld 9 (immOf r.c)
  pure (d, a, b, c)

/-- TRH's last check at admission (R43, R422). -/
def trhRest (r : Raw) : Dec Unit := do
  need 1 (r.mod = 0)
  let _ ← ctlOf false false false r
  need 9 (!(r.c.getLsbD 16))
  zero 10 r.e

/-- 0x000 to 0x014 (R286). -/
def decodeControl (e : Env) (r : Raw) : Dec Instr :=
  match r.op.toNat with
  | 0x000 => do
    let (d, a, b, c) ← trhForm r
    trhRest r
    pure (.traceAdmission d a b c)
  | 0x001 => do
    need 1 (r.mod.extractLsb' 5 7 = 0)
    let c ← ctlZ r
    zero 6 r.d
    zero 7 r.a
    let t ← fld 8 (immOf r.b)
    let f ← fld 9 (immOf r.c)
    zero 10 r.e
    pure (.tend c (predOf (r.mod.extractLsb' 0 5)) t f)
  | 0x002 => do
    need 1 (r.mod = 0)
    let c ← ctlZ r
    allZero r
    pure (.texit c)
  | 0x003 => do
    need 1 (r.mod.extractLsb' 5 7 = 0)
    let c ← ctlN r
    zero 6 r.d
    zero 7 r.a
    let t ← fld 8 (immOf r.b)
    ce0 r
    pure (.grd c (predOf (r.mod.extractLsb' 0 5)) t)
  | 0x004 => do
    need 1 (r.mod = 0)
    let c ← ctlN r
    zero 6 r.d
    let m ← fld 7 (numOf 16 r.a)
    let t ← fld 8 (immOf r.b)
    ce0 r
    pure (.chkw c m t)
  | 0x005 => do
    need 1 (r.mod = 0)
    let c ← ctlZ r
    let t ← onlyE r
    pure (.tbar c t)
  | 0x006 => do
    need 1 (r.mod = 0)
    let c ← ctlZ r
    let t ← onlyE r
    pure (.tgbar c t)
  | 0x007 => do
    need 1 (r.mod = 0)
    let c ← ctlZ r
    zero 6 r.d
    let f ← (if isImm r.a then pure (.off (r.a.extractLsb' 0 17))
      else do
        let o ← fld 7 (regSrc e r.a)
        need 7 (wfCallee e (.reg o))
        pure (.reg o))
    let k ← fld 8 (immOf r.b)
    need 8 (decide (k.toNat ≤ e.ws))
    let w ← fld 9 (immOf r.c)
    need 9 (decide (1 ≤ w.toNat) && decide (w.toNat ≤ 192))
    let t ← fld 10 (immOf r.e)
    pure (.tcall c f k w t)
  | 0x008 => do
    need 1 (r.mod = 0)
    let c ← ctlZ r
    allZero r
    pure (.tret c)
  | 0x009 => do
    need 1 (r.mod = 0)
    let c ← ctlN r
    let t ← onlyE r
    pure (.tyield c t)
  | 0x00A => do
    need 1 (r.mod = 0)
    let c ← ctlN r
    zero 6 r.d
    let n ← fld 7 (numOf 5 r.a)
    zero 8 r.b
    zero 9 r.c
    let t ← fld 10 (immOf r.e)
    pure (.twait c (n.extractLsb' 0 4) (n.getLsbD 4) t)
  | 0x00B => do
    need 1 (r.mod = 0)
    let c ← ctlZ r
    zero 6 r.d
    let n ← fld 7 (numOf 5 r.a)
    zero 8 r.b
    zero 9 r.c
    let t ← fld 10 (immOf r.e)
    pure (.tsqw c (n.extractLsb' 0 4) (n.getLsbD 4) t)
  | 0x00C => do
    need 1 (r.mod = 0)
    let c ← ctlZ r
    let t ← onlyE r
    pure (.tordw c t)
  | 0x00D => do
    need 1 (r.mod = 0)
    let c ← ctlZ r
    let t ← onlyE r
    pure (.tordr c t)
  | 0x00E => do
    need 1 (r.mod = 0)
    let c ← ctlE e r
    allZero r
    pure (.nop c)
  | 0x00F => do
    need 1 (r.mod.extractLsb' 6 6 = 0)
    let _ ← ctlOf false false false r
    need 6 (r.d.extractLsb' 4 14 = 0)
    need 7 (r.a.extractLsb' 4 14 = 0)
    need 8 (r.b.extractLsb' 4 14 = 0)
    need 9 (r.c.extractLsb' 4 14 = 0)
    need 10 (r.e.extractLsb' 4 14 = 0)
    pure (.rep (r.mod.extractLsb' 0 6) (r.d.extractLsb' 0 4) (r.a.extractLsb' 0 4) (r.b.extractLsb' 0 4)
      (r.c.extractLsb' 0 4) (r.e.extractLsb' 0 4))
  | 0x010 => do
    need 1 (r.mod = 0)
    let c ← ctlE e r
    zero 6 r.d
    let n ← fld 7 (numOf 16 r.a)
    zero 8 r.b
    zero 9 r.c
    if e.seq then do
      zero 10 r.e
      pure (.trap c n none)
    else do
      let t ← fld 10 (immOf r.e)
      pure (.trap c n (some t))
  | 0x011 => do
    need 1 (r.mod = 0)
    let c ← ctlN r
    zero 6 r.d
    let n ← fld 7 (numOf 16 r.a)
    bce0 r
    pure (.brk c n)
  | 0x012 => do
    need 1 (r.mod.extractLsb' 1 11 = 0)
    need 1 (match dstOf e r.d, immOf r.a with
      | some d, some n => (sregWidth n.toNat).isNone || wfSrd (r.mod.getLsbD 0) d n.toNat
      | _, _ => true)
    let c ← ctlN r
    let d ← fld 6 (dstOf e r.d)
    let n ← fld 7 (immOf r.a)
    need 7 (sregWidth n.toNat).isSome
    bce0 r
    pure (.srd c (r.mod.getLsbD 0) d n)
  | 0x013 => do
    need 1 (r.mod.extractLsb' 1 11 = 0)
    need 1 (match immOf r.a, srcOf e r.b with
      | some n, some b => !sregWritable n.toNat || (sregWidth n.toNat).isNone || wfSwr (r.mod.getLsbD 0) n.toNat b
      | _, _ => true)
    let c ← ctlN r
    zero 6 r.d
    let n ← fld 7 (immOf r.a)
    need 7 (sregWidth n.toNat).isSome
    need 7 (sregWritable n.toNat)
    let b ← fld 8 (srcOf e r.b)
    ce0 r
    pure (.swr c (r.mod.getLsbD 0) n b)
  | 0x014 => do
    need 1 (r.mod = 0)
    let c ← ctlA r
    zero 6 r.d
    let q ← fld 7 (srcOf e r.a)
    let a ← fld 8 (baseOf e false r.b)
    let n ← fld 9 (numOf 3 r.c)
    zero 10 r.e
    pure (.qpost c q a n)
  | _ => .error .illop

/-- 0x020 to 0x02E: predicate and cross-lane words (R213 to R217, R248 to R253). -/
def decodeCross (e : Env) (r : Raw) : Dec Instr :=
  match r.op.toNat with
  | 0x020 => do
    let cmp := cmpOf (r.mod.extractLsb' 3 3)
    let comb := combOf (r.mod.extractLsb' 6 2)
    need 1 (!(r.mod.getLsbD 2) && cmp ≠ .un && cmp ≠ .ord && (comb ≠ .none || r.mod.extractLsb' 8 4 = 0))
    let c ← ctlN r
    let q ← fld 6 (numOf 4 r.d)
    let a ← fld 7 (srcOf e r.a)
    let b ← fld 8 (srcOf e r.b)
    ce0 r
    pure (.pset c cmp (r.mod.getLsbD 1) (r.mod.getLsbD 0) comb (r.mod.extractLsb' 8 4) q a b)
  | 0x021 => do
    let comb := combOf (r.mod.extractLsb' 6 2)
    need 1 (r.mod.extractLsb' 0 3 = 0 && (comb ≠ .none || r.mod.extractLsb' 8 4 = 0))
    let c ← ctlN r
    let q ← fld 6 (numOf 4 r.d)
    let a ← fld 7 (srcOf e r.a)
    let b ← fld 8 (srcOf e r.b)
    ce0 r
    pure (.fpset c (cmpOf (r.mod.extractLsb' 3 3)) comb (r.mod.extractLsb' 8 4) q a b)
  | 0x022 => do
    need 1 (r.mod.extractLsb' 8 4 = 0)
    let c ← ctlN r
    let q ← fld 6 (numOf 4 r.d)
    let a ← fld 7 (predSrcOf r.a)
    let b ← fld 8 (predSrcOf r.b)
    let p ← fld 9 (predSrcOf r.c)
    zero 10 r.e
    pure (.plog c (r.mod.extractLsb' 0 8) q a b p)
  | 0x023 => do
    need 1 (r.mod = 0)
    let c ← ctlN r
    let q ← fld 6 (numOf 4 r.d)
    let a ← fld 7 (predSrcOf r.a)
    bce0 r
    pure (.pmov c q a)
  | 0x024 => do
    need 1 (r.mod.extractLsb' 1 11 = 0)
    let c ← ctlN r
    if r.mod.getLsbD 0 then do
      let m ← fld 6 (numOf 16 r.d)
      let a ← fld 7 (srcOf e r.a)
      bce0 r
      pure (.pbitsPut c m a)
    else do
      let d ← fld 6 (dstOf e r.d)
      let m ← fld 7 (numOf 16 r.a)
      bce0 r
      pure (.pbitsGet c d m)
  | 0x025 => do
    let m ← fld 1 (voteOf r.mod)
    let c ← ctlN r
    let q ← fld 6 (numOf 4 r.d)
    let a ← fld 7 (predSrcOf r.a)
    bce0 r
    pure (.vote c m q a)
  | 0x026 => do
    need 1 (r.mod = 0)
    let c ← ctlN r
    let d ← fld 6 (dstOf e r.d)
    let a ← fld 7 (predSrcOf r.a)
    bce0 r
    pure (.ballot c d a)
  | 0x027 => do
    need 1 (r.mod = 0)
    let c ← ctlN r
    need 6 ((dstOf e r.d).all notScalar)
    let (d, a) ← ds e r
    pure (.matchLanes c d a)
  | 0x028 => do
    need 1 (r.mod = 0)
    let c ← ctlN r
    let q ← fld 6 (numOf 4 r.d)
    zero 7 r.a
    bce0 r
    pure (.elect c q)
  | 0x029 => do
    let mode := lgetOf (r.mod.extractLsb' 0 2)
    need 1 (r.mod.extractLsb' 5 7 = 0 && decide ((r.mod.extractLsb' 2 3).toNat ≤ 5))
    let c ← ctlN r
    let d ← fld 6 (dstOf e r.d)
    need 6 (notScalar d)
    let a ← fld 7 (srcOf e r.a)
    let b ← fld 8 (srcOf e r.b)
    let f ← (if mode = .shift then do
        let f ← fld 9 (srcOf e r.c)
        pure (some f)
      else do
        zero 9 r.c
        pure none)
    zero 10 r.e
    pure (.lget c mode (r.mod.extractLsb' 2 3) d a b f)
  | 0x02A => do
    need 1 (r.mod.extractLsb' 3 9 = 0 && decide ((r.mod.extractLsb' 0 3).toNat ≤ 4))
    let c ← ctlN r
    need 6 ((dstOf e r.d).all notScalar)
    let (d, a, b) ← dss e r
    pure (.xchg c (r.mod.extractLsb' 0 3) d a b)
  | 0x02B => do
    need 1 (r.mod.extractLsb' 4 8 = 0)
    let op ← fld 1 (redOf (r.mod.extractLsb' 0 4))
    let c ← ctlN r
    let (d, a) ← ds e r
    pure (.reduce c op d a)
  | 0x02C => do
    need 1 (r.mod.extractLsb' 5 7 = 0)
    let op ← fld 1 (redOf (r.mod.extractLsb' 0 4))
    let c ← ctlN r
    need 6 ((dstOf e r.d).all notScalar)
    let (d, a) ← ds e r
    pure (.scan c op (r.mod.getLsbD 4) d a)
  | 0x02D => do
    need 1 (r.mod = 0)
    let c ← ctlN r
    let (d, a, b) ← dss e r
    pure (.rdlane c d a b)
  | 0x02E => do
    need 1 (r.mod = 0)
    let c ← ctlN r
    need 6 ((dstOf e r.d).all notScalar)
    let (d, a, b) ← dss e r
    pure (.wrlane c d a b)
  | _ => .error .illop

/-- R218's layout, each part allowed or not (R219's columns); no rounding. -/
def intMod (u sat : Bool) (r : Raw) : Dec (Bool × Bool) := do
  need 1 (r.mod.extractLsb' 5 7 = 0 && r.mod.extractLsb' 0 3 = 0 && (u || !(r.mod.getLsbD 3)) &&
    (sat || !(r.mod.getLsbD 4)))
  pure (r.mod.getLsbD 3, r.mod.getLsbD 4)

/-- R218's layout for IDIV and IREM. -/
def divMod (r : Raw) : Dec (Bool × Rnd) := do
  need 1 (r.mod.extractLsb' 4 8 = 0)
  let x ← fld 1 (rndOf (r.mod.extractLsb' 0 3))
  pure (r.mod.getLsbD 3, x)

/-- R218's layout for IADD and ISUB. In the stream every MOD bit is zero (R308). -/
def addMod (e : Env) (r : Raw) : Dec (Bool × Bool × Carry × BitVec 4) := do
  let cy := carryOf (r.mod.extractLsb' 6 2)
  need 1 ((!e.seq || r.mod = 0) && !(r.mod.getLsbD 5) && r.mod.extractLsb' 0 3 = 0 &&
    (cy = .none || !(r.mod.getLsbD 4)) && (cy ≠ .none || r.mod.extractLsb' 8 4 = 0))
  pure (r.mod.getLsbD 3, r.mod.getLsbD 4, cy, r.mod.extractLsb' 8 4)

/-- 0x040 to 0x062 (R218 to R230). A MOVI whose narrow destination has bits of IMM64 above 31 names field B (log 77). -/
def decodeInt (e : Env) (r : Raw) : Dec Instr :=
  match r.op.toNat with
  | 0x040 => do
    let (u, sat, cy, cp) ← addMod e r
    let c ← ctlE e r
    let (d, a, b) ← dss e r
    pure (.iadd c u sat cy cp d a b)
  | 0x041 => do
    let (u, sat, cy, cp) ← addMod e r
    let c ← ctlE e r
    let (d, a, b) ← dss e r
    pure (.isub c u sat cy cp d a b)
  | 0x042 => do
    let (u, sat) ← intMod true true r
    let c ← ctlN r
    let (d, a, b) ← dss e r
    pure (.imul c u sat d a b)
  | 0x043 => do
    let (u, _) ← intMod true false r
    let c ← ctlN r
    let (d, a, b) ← dss e r
    pure (.imulh c u d a b)
  | 0x044 => do
    let (u, sat) ← intMod true true r
    let c ← ctlN r
    let (d, a, b, f) ← dsss e r
    pure (.imad c u sat d a b f)
  | 0x045 => do
    let (u, _) ← intMod true false r
    let c ← ctlN r
    need 6 ((dstOf e r.d).all (wfPairD e))
    let (d, a, b, f) ← dsss e r
    pure (.imadw c u d a b f)
  | 0x046 => do
    let (_, sat) ← intMod false true r
    let c ← ctlN r
    let (d, a) ← ds e r
    pure (.ineg c sat d a)
  | 0x047 => do
    let (_, sat) ← intMod false true r
    let c ← ctlN r
    let (d, a) ← ds e r
    pure (.iabs c sat d a)
  | 0x048 => do
    let (u, _) ← intMod true false r
    let c ← ctlN r
    let (d, a, b) ← dss e r
    pure (.imin c u d a b)
  | 0x049 => do
    let (u, _) ← intMod true false r
    let c ← ctlN r
    let (d, a, b) ← dss e r
    pure (.imax c u d a b)
  | 0x04A => do
    let (u, x) ← divMod r
    let c ← ctlN r
    let (d, a, b) ← dss e r
    pure (.idiv c u x d a b)
  | 0x04B => do
    let (u, x) ← divMod r
    let c ← ctlN r
    let (d, a, b) ← dss e r
    pure (.irem c u x d a b)
  | 0x04C => do
    let (u, sat) ← intMod true true r
    let c ← ctlN r
    let (d, a, b, f) ← dsss e r
    pure (.isad c u sat d a b f)
  | 0x04D => do
    let (u, _) ← intMod true false r
    let c ← ctlN r
    let (d, a, b, f) ← dsss e r
    pure (.iclamp c u d a b f)
  | 0x04E => do
    need 1 (r.mod = 0)
    let c ← ctlE e r
    let (d, a, b) ← dss e r
    pure (.andw c d a b)
  | 0x04F => do
    need 1 (r.mod = 0)
    let c ← ctlN r
    let (d, a, b) ← dss e r
    pure (.orw c d a b)
  | 0x050 => do
    need 1 (r.mod = 0)
    let c ← ctlN r
    let (d, a, b) ← dss e r
    pure (.xorw c d a b)
  | 0x051 => do
    need 1 (r.mod = 0)
    let c ← ctlN r
    let (d, a) ← ds e r
    pure (.notw c d a)
  | 0x052 => do
    need 1 (r.mod = 0)
    let c ← ctlN r
    let (d, a, b) ← dss e r
    pure (.andn c d a b)
  | 0x053 => do
    need 1 (r.mod.extractLsb' 8 4 = 0)
    let c ← ctlN r
    let (d, a, b, f) ← dsss e r
    pure (.blut c (r.mod.extractLsb' 0 8) d a b f)
  | 0x054 => do
    need 1 (r.mod = 0)
    let c ← ctlE e r
    let (d, a, b) ← dss e r
    pure (.shl c d a b)
  | 0x055 => do
    need 1 (r.mod = 0)
    let c ← ctlN r
    let (d, a, b) ← dss e r
    pure (.shr c d a b)
  | 0x056 => do
    need 1 (r.mod = 0)
    let c ← ctlN r
    let (d, a, b) ← dss e r
    pure (.sar c d a b)
  | 0x057 => do
    need 1 (r.mod = 0)
    let c ← ctlN r
    let (d, a, b) ← dss e r
    pure (.rotl c d a b)
  | 0x058 => do
    need 1 (r.mod.extractLsb' 1 11 = 0)
    let c ← ctlN r
    let (d, a, b, f) ← dsss e r
    pure (.shf c (r.mod.getLsbD 0) d a b f)
  | 0x059 => do
    let (u, _) ← intMod true false r
    let c ← ctlN r
    let (d, a, b) ← dss e r
    pure (.bfe c u d a b)
  | 0x05A => do
    need 1 (r.mod = 0)
    let c ← ctlN r
    let (d, a, b, f) ← dsss e r
    pure (.bfi c d a b f)
  | 0x05B => do
    need 1 (r.mod = 0)
    let c ← ctlN r
    let (d, a) ← ds e r
    pure (.popc c d a)
  | 0x05C => do
    need 1 (r.mod = 0)
    let c ← ctlN r
    let (d, a) ← ds e r
    pure (.clz c d a)
  | 0x05D => do
    need 1 (r.mod = 0)
    let c ← ctlN r
    let (d, a) ← ds e r
    pure (.brev c d a)
  | 0x05E => do
    need 1 (r.mod = 0)
    let c ← ctlN r
    let (d, a) ← ds e r
    pure (.ffs c d a)
  | 0x05F => do
    need 1 (r.mod = 0)
    let c ← ctlN r
    let (d, a, b, f) ← dsss e r
    pure (.bswz c d a b f)
  | 0x060 => do
    need 1 (r.mod = 0)
    let c ← ctlN r
    let d ← fld 6 (dstOf e r.d)
    let a ← fld 7 (srcOf e r.a)
    let b ← fld 8 (srcOf e r.b)
    let p ← fld 9 (predSrcOf r.c)
    zero 10 r.e
    pure (.sel c d a b p)
  | 0x061 => do
    need 1 (r.mod = 0)
    let c ← ctlE e r
    let (d, a) ← ds e r
    pure (.mov c d a)
  | 0x062 => do
    need 1 (r.mod = 0)
    let c ← ctlE e r
    let d ← fld 6 (dstOf e r.d)
    let v : Word64 := r.e.extractLsb' 0 10 ++ r.c ++ r.b ++ r.a
    need 8 (!notScalar d || e.seq || decide (v.toNat < 2 ^ 32))
    need 10 (r.e.extractLsb' 10 8 = 0)
    pure (.movi c d v)
  | _ => .error .illop

/-- MOD[11:3] zero and the rounding override (R201). -/
def rndMod (r : Raw) : Dec Rnd := do
  need 1 (r.mod.extractLsb' 3 9 = 0)
  fld 1 (rndOf (r.mod.extractLsb' 0 3))

/-- R240's layout. -/
def halfMod (r : Raw) : Dec (Bool × Rnd) := do
  need 1 (r.mod.extractLsb' 4 8 = 0)
  let x ← fld 1 (rndOf (r.mod.extractLsb' 0 3))
  pure (r.mod.getLsbD 3, x)

/-- D, A, B under the H widening. -/
def dssH (e : Env) (r : Raw) : Dec (Reg × Src × Src) := do
  let d ← fld 6 (dstOf e r.d)
  let a ← fld 7 (srcHOf e r.a)
  let b ← fld 8 (srcHOf e r.b)
  zero 9 r.c
  zero 10 r.e
  pure (d, a, b)

/-- 0x080 to 0x09B (R234 to R241). -/
def decodeFloat (e : Env) (r : Raw) : Dec Instr :=
  match r.op.toNat with
  | 0x080 => do
    let x ← rndMod r
    let c ← ctlN r
    let (d, a, b) ← dss e r
    pure (.fadd c x d a b)
  | 0x081 => do
    let x ← rndMod r
    let c ← ctlN r
    let (d, a, b) ← dss e r
    pure (.fsub c x d a b)
  | 0x082 => do
    let x ← rndMod r
    let c ← ctlN r
    let (d, a, b) ← dss e r
    pure (.fmul c x d a b)
  | 0x083 => do
    let x ← rndMod r
    let c ← ctlN r
    let (d, a, b, f) ← dsss e r
    pure (.ffma c x d a b f)
  | 0x084 => do
    need 1 (r.mod = 0)
    let c ← ctlN r
    let (d, a, b) ← dss e r
    pure (.fmin c d a b)
  | 0x085 => do
    need 1 (r.mod = 0)
    let c ← ctlN r
    let (d, a, b) ← dss e r
    pure (.fmax c d a b)
  | 0x086 => do
    need 1 (r.mod = 0)
    let c ← ctlN r
    let (d, a) ← ds e r
    pure (.fabs c d a)
  | 0x087 => do
    need 1 (r.mod = 0)
    let c ← ctlN r
    let (d, a) ← ds e r
    pure (.fneg c d a)
  | 0x088 => do
    let x ← rndMod r
    let c ← ctlN r
    let (d, a) ← ds e r
    pure (.frcp c x d a)
  | 0x089 => do
    let x ← rndMod r
    let c ← ctlN r
    let (d, a) ← ds e r
    pure (.frsq c x d a)
  | 0x08A => do
    let x ← rndMod r
    let c ← ctlN r
    let (d, a) ← ds e r
    pure (.fsqrt c x d a)
  | 0x08B => do
    let x ← rndMod r
    let c ← ctlN r
    let (d, a, b) ← dss e r
    pure (.fdiv c x d a b)
  | 0x08C => do
    need 1 (r.mod = 0)
    let c ← ctlN r
    let (d, a) ← ds e r
    pure (.fexp2 c d a)
  | 0x08D => do
    need 1 (r.mod = 0)
    let c ← ctlN r
    let (d, a) ← ds e r
    pure (.flog2 c d a)
  | 0x08E => do
    need 1 (r.mod = 0)
    let c ← ctlN r
    let (d, a) ← ds e r
    pure (.fsin c d a)
  | 0x08F => do
    need 1 (r.mod = 0)
    let c ← ctlN r
    let (d, a) ← ds e r
    pure (.fcos c d a)
  | 0x090 => do
    need 1 (r.mod = 0)
    let c ← ctlN r
    let (d, a) ← ds e r
    pure (.ftanh c d a)
  | 0x091 => do
    need 1 (r.mod = 0)
    let c ← ctlN r
    let (d, a) ← ds e r
    pure (.fsigm c d a)
  | 0x092 => do
    let x ← rndMod r
    let c ← ctlN r
    let (d, a) ← ds e r
    pure (.frnd c x d a)
  | 0x093 => do
    let x ← rndMod r
    let c ← ctlN r
    let (d, a) ← ds e r
    pure (.ffrac c x d a)
  | 0x094 => do
    let x ← rndMod r
    let c ← ctlN r
    let (d, a, b) ← dss e r
    pure (.fscale c x d a b)
  | 0x095 => do
    need 1 (r.mod = 0)
    let c ← ctlN r
    let (d, a) ← ds e r
    pure (.fgexp c d a)
  | 0x096 => do
    need 1 (r.mod = 0)
    let c ← ctlN r
    let (d, a) ← ds e r
    pure (.fclass c d a)
  | 0x097 => do
    let (bf, x) ← halfMod r
    let c ← ctlN r
    let (d, a, b) ← dssH e r
    pure (.hadd2 c bf x d a b)
  | 0x098 => do
    let (bf, x) ← halfMod r
    let c ← ctlN r
    let (d, a, b) ← dssH e r
    pure (.hmul2 c bf x d a b)
  | 0x099 => do
    let (bf, x) ← halfMod r
    let c ← ctlN r
    let d ← fld 6 (dstOf e r.d)
    let a ← fld 7 (srcHOf e r.a)
    let b ← fld 8 (srcHOf e r.b)
    let f ← fld 9 (srcHOf e r.c)
    zero 10 r.e
    pure (.hfma2 c bf x d a b f)
  | 0x09A => do
    let (bf, x) ← halfMod r
    need 1 (x = .dyn)
    let c ← ctlN r
    let (d, a, b) ← dssH e r
    pure (.hmin2 c bf d a b)
  | 0x09B => do
    let (bf, x) ← halfMod r
    need 1 (x = .dyn)
    let c ← ctlN r
    let (d, a, b) ← dssH e r
    pure (.hmax2 c bf d a b)
  | _ => .error .illop

/-- 0x0C0 to 0x0C9 (R242 to R246, R254 to R259). -/
def decodeConv (e : Env) (r : Raw) : Dec Instr :=
  match r.op.toNat with
  | 0x0C0 => do
    need 1 (!(r.mod.getLsbD 11))
    let df ← fld 1 (fmtIf wfCvt (r.mod.extractLsb' 7 4))
    let sf ← fld 1 (fmtIf wfCvt (r.mod.extractLsb' 3 4))
    let x ← fld 1 (rndOf (r.mod.extractLsb' 0 3))
    let c ← ctlN r
    let (d, a) ← ds e r
    pure (.cvt c df sf x d a)
  | 0x0C1 => do
    need 1 (r.mod.extractLsb' 10 2 = 0)
    let el := r.mod.extractLsb' 7 3
    let df ← fld 1 (fmtIf (wfPack el) (r.mod.extractLsb' 3 4))
    let x ← fld 1 (rndOf (r.mod.extractLsb' 0 3))
    let c ← ctlN r
    let (d, a, b) ← dss e r
    pure (.pack c el df x d a b)
  | 0x0C2 => do
    need 1 (r.mod.extractLsb' 10 2 = 0 && r.mod.extractLsb' 0 3 = 0)
    let el := r.mod.extractLsb' 7 3
    let sf ← fld 1 (fmtIf (wfPack el) (r.mod.extractLsb' 3 4))
    let c ← ctlN r
    let (d, a) ← ds e r
    pure (.unpk c el sf d a)
  | 0x0C3 => do
    need 1 (r.mod.extractLsb' 10 2 = 0 && r.mod.extractLsb' 1 6 = 0)
    let c ← ctlN r
    let (d, a, g) ← dss e r
    pure (.qenc c (r.mod.extractLsb' 7 3) (r.mod.getLsbD 0) d a g)
  | 0x0C4 => do
    need 1 (r.mod.extractLsb' 10 2 = 0 && r.mod.extractLsb' 0 7 = 0)
    let c ← ctlN r
    let (d, a, g) ← dss e r
    pure (.qdec c (r.mod.extractLsb' 7 3) d a g)
  | 0x0C5 => do
    let m ← fld 1 (randOf r.mod)
    let c ← ctlN r
    let d ← fld 6 (dstOf e r.d)
    need 6 (notScalar d)
    zero 7 r.a
    bce0 r
    pure (.rand c m d)
  | 0x0C6 => do
    need 1 (r.mod = 0)
    let c ← ctlN r
    zero 6 r.d
    let a ← fld 7 (srcOf e r.a)
    bce0 r
    pure (.rkey c a)
  | 0x0C7 => do
    need 1 (r.mod = 0)
    let c ← ctlN r
    let (d, x, k) ← dss e r
    pure (.hmix c d x k)
  | 0x0C8 => do
    need 1 (r.mod.extractLsb' 4 8 = 0)
    let c ← ctlN r
    zero 6 r.d
    let a ← fld 7 (srcOf e r.a)
    bce0 r
    pure (.csacc c (r.mod.getLsbD 3) (r.mod.getLsbD 2) (r.mod.extractLsb' 0 2) a)
  | 0x0C9 =>
    if e.seq then do
      need 1 (r.mod.extractLsb' 5 7 = 0 && r.mod.getLsbD 4 && !(r.mod.getLsbD 0))
      let _ ← ctlOf false false false r
      allZero r
      pure (.cschkZ (r.mod.extractLsb' 0 4))
    else do
      need 1 (r.mod.extractLsb' 2 10 = 0)
      let c ← ctlN r
      allZero r
      pure (.cschk c (r.mod.extractLsb' 0 2))
  | _ => .error .illop

/-- The mode fields of R203 from AM, SC and the fields B, C and E. -/
def modeOf (e : Env) (am : BitVec 2) (sc : BitVec 3) (b c o : BitVec 18) : Dec AddrMode :=
  match am.toNat with
  | 0 => do
    need 1 (sc = 0)
    zero 8 b
    zero 9 c
    let v ← fld 10 (immOf o)
    pure (.off v)
  | 1 => do
    let i ← fld 8 (srcOf e b)
    zero 9 c
    zero 10 o
    pure (.idx sc i)
  | 2 => do
    need 1 (sc = 0)
    zero 8 b
    zero 9 c
    let v ← fld 10 (immOf o)
    pure (.post v)
  | _ => do
    need 1 (sc = 0)
    zero 8 b
    let m ← fld 9 (numOf 3 c)
    let v ← fld 10 (immOf o)
    pure (.postMod m v)

/-- An address over the fields `f` (base), B or its like, C and E, with the MOD of R202. -/
def addrOf (e : Env) (r : Raw) : Dec Addr := do
  let am := r.mod.extractLsb' 10 2
  let base ← fld 7 (baseOf e (decide (2 ≤ am.toNat)) r.a)
  let m ← modeOf e am (r.mod.extractLsb' 7 3) r.b r.c r.e
  pure ⟨base, m⟩

/-- R261 and R203 on a destination or data run. -/
def runOk (e : Env) (cv cs : Nat) (d : Reg) (a : Addr) : Bool := wfRun e cv cs d && !overlaps cv cs d a

/-- The same on store data. -/
def dataOk (e : Env) (cv cs : Nat) (a : Addr) : Src → Bool
  | .reg o => runOk e cv cs o.reg a
  | .imm _ => true

/-- D's check against the address, which a word with a bad address passes: A to E report that. -/
def dstFits (e : Env) (r : Raw) (k : Addr → Bool) : Bool := match addrOf e r with
  | .ok a => k a
  | .error _ => true

/-- AOP, SZ and the fixed zero bits of R272. -/
def atomMod (r : Raw) : Dec (Scope × OrdCode × RedOp × Bool) := do
  need 1 (r.mod.extractLsb' 1 3 = 0)
  let op ← fld 1 (redOf (r.mod.extractLsb' 4 4))
  need 1 (!(r.mod.getLsbD 0) || decide (op ∉ [.fadd, .fmin, .fmax]))
  pure (scopeOf (r.mod.extractLsb' 10 2), ordOf (r.mod.extractLsb' 8 2), op, r.mod.getLsbD 0)

/-- A source of the atomics' size (R272). -/
def pairSrc (e : Env) (sz : Bool) (f : BitVec 18) : Option Src :=
  match srcOf e f with
  | some s => if wfPairSrc e sz s then some s else none
  | none => none

/-- C of the copies (R279): barrier, scope and row size. -/
def copyC (f : BitVec 18) : Option (BitVec 4 × Scope × BitVec 4) :=
  (numOf 10 f).map fun v => (v.extractLsb' 0 4, scopeOf (v.extractLsb' 4 2), v.extractLsb' 6 4)

/-- 0x0E0 to 0x0F7 (R263 to R283). An LDG with TG must leave SX zero as it must WID (log 77). -/
def decodeMem (e : Env) (r : Raw) : Dec Instr :=
  match r.op.toNat with
  | 0x0E0 => do
    let wid := r.mod.extractLsb' 4 3
    let sx := r.mod.getLsbD 0
    need 1 (decide (wid.toNat ≤ 4) && r.mod.extractLsb' 1 3 = 0)
    need 1 (!sx || (dstOf e r.d).all (narrower wid.toNat))
    let c ← ctlA r
    let d ← fld 6 (dstOf e r.d)
    need 6 (dstFits e r fun a => runOk e (runV wid.toNat) (runS wid.toNat) d a)
    let a ← addrOf e r
    pure (.ld c wid sx d a)
  | 0x0E1 => do
    let wid := r.mod.extractLsb' 4 3
    need 1 (decide (wid.toNat ≤ 4) && r.mod.extractLsb' 0 4 = 0)
    let c ← ctlA r
    let s ← fld 6 (srcOf e r.d)
    need 6 (dstFits e r fun a => dataOk e (runV wid.toNat) (runS wid.toNat) a s)
    let a ← addrOf e r
    pure (.st c wid s a)
  | 0x0E2 => do
    let cnt := r.mod.extractLsb' 4 3
    need 1 (decide (cnt.toNat ≤ 3))
    let rf ← fld 1 (fmtIf wfRF (r.mod.extractLsb' 0 4))
    let c ← ctlA r
    let d ← fld 6 (dstOf e r.d)
    need 6 (notScalar d)
    need 6 (dstFits e r fun a => runOk e (runD cnt.toNat rf) 1 d a)
    let a ← addrOf e r
    pure (.ldd c cnt rf d a)
  | 0x0E3 => do
    let cnt := r.mod.extractLsb' 4 3
    need 1 (decide (cnt.toNat ≤ 3))
    let rf ← fld 1 (fmtIf wfRF (r.mod.extractLsb' 0 4))
    let c ← ctlA r
    let s ← fld 6 (srcOf e r.d)
    need 6 (dstFits e r fun a => dataOk e (runD cnt.toNat rf) 1 a s)
    need 6 (match s with
      | .reg o => notScalar o.reg
      | .imm _ => true)
    let a ← addrOf e r
    pure (.std c cnt rf s a)
  | 0x0E4 => do
    need 1 (r.mod.extractLsb' 0 7 = 0)
    let c ← ctlA r
    let d ← fld 6 (dstOf e r.d)
    need 6 (dstFits e r fun a => !overlaps 1 1 d a)
    let a ← addrOf e r
    pure (.tagld c d a)
  | 0x0E5 => do
    need 1 (r.mod.extractLsb' 0 7 = 0)
    let c ← ctlA r
    let s ← fld 6 (srcOf e r.d)
    need 6 (dstFits e r fun a => match s with
      | .reg o => !overlaps 1 1 o.reg a
      | .imm _ => true)
    let a ← addrOf e r
    pure (.tagst c s a)
  | 0x0E6 => do
    let wid := r.mod.extractLsb' 4 3
    let sx := r.mod.getLsbD 0
    let tg := r.mod.getLsbD 3
    need 1 (!(r.mod.getLsbD 11) && decide (wid.toNat ≤ 4) && r.mod.extractLsb' 1 2 = 0 && (!tg || wid = 0))
    need 1 (!sx || (!tg && (dstOf e r.d).all (narrower wid.toNat)))
    let c ← ctlA r
    let d ← fld 6 (dstOf e r.d)
    need 6 (wfRun e (runV wid.toNat) (runS wid.toNat) d)
    let a ← fld 7 (srcOf e r.a)
    let m ← modeOf e (r.mod.extractLsb' 10 2) (r.mod.extractLsb' 7 3) r.b r.c r.e
    pure (.ldg c wid sx tg d a m)
  | 0x0E7 => do
    need 1 (r.mod.extractLsb' 1 6 = 0)
    let c ← ctlA r
    zero 6 r.d
    let a ← addrOf e r
    pure (.pref c (r.mod.getLsbD 0) a)
  | 0x0E8 => do
    let wid := r.mod.extractLsb' 4 3
    need 1 (decide (wid.toNat ≤ 4))
    let c ← ctlA r
    let d ← fld 6 (dstOf e r.d)
    need 6 (notScalar d)
    need 6 (dstFits e r fun a => runOk e (runV wid.toNat) (runS wid.toNat) d a)
    let a ← addrOf e r
    pure (.ldwt c wid (r.mod.extractLsb' 0 4) d a)
  | 0x0E9 => do
    let (sc, ord, op, sz) ← atomMod r
    need 1 (ord = .rlx || ord = .rel)
    let c ← ctlA r
    zero 6 r.d
    let a ← fld 7 (baseOf e false r.a)
    let b ← fld 8 (pairSrc e sz r.b)
    zero 9 r.c
    let o ← fld 10 (immOf r.e)
    pure (.atom c sc ord op sz a b o)
  | 0x0EA => do
    let (sc, ord, op, sz) ← atomMod r
    let c ← ctlA r
    let d ← fld 6 (dstOf e r.d)
    need 6 (wfPair e sz d)
    let a ← fld 7 (baseOf e false r.a)
    let b ← fld 8 (pairSrc e sz r.b)
    zero 9 r.c
    let t ← fld 10 (immOf r.e)
    pure (.atomr c sc ord op sz d a b t)
  | 0x0EB => do
    let (sc, ord, op, sz) ← atomMod r
    need 1 (op = .add)
    let c ← ctlA r
    let d ← fld 6 (dstOf e r.d)
    need 6 (wfPair e sz d)
    let a ← fld 7 (baseOf e false r.a)
    let b ← fld 8 (pairSrc e sz r.b)
    let f ← fld 9 (pairSrc e sz r.c)
    let t ← fld 10 (immOf r.e)
    pure (.cas c sc ord sz d a b f t)
  | 0x0EC => do
    let (sc, ord, op, sz) ← atomMod r
    need 1 (op = .add)
    let c ← ctlA r
    let d ← fld 6 (dstOf e r.d)
    need 6 (wfPair e sz d)
    let a ← fld 7 (baseOf e false r.a)
    let b ← fld 8 (pairSrc e sz r.b)
    zero 9 r.c
    let t ← fld 10 (immOf r.e)
    pure (.exch c sc ord sz d a b t)
  | 0x0ED => do
    let wid := r.mod.extractLsb' 0 3
    let sx := r.mod.getLsbD 3
    need 1 (r.mod.extractLsb' 4 6 = 0 && decide (wid.toNat ≤ 3))
    need 1 (!sx || (dstOf e r.d).all (narrower wid.toNat))
    let c ← ctlA r
    let d ← fld 6 (dstOf e r.d)
    need 6 (wfRun e (runV wid.toNat) (runS wid.toNat) d)
    let a ← fld 7 (baseOf e false r.a)
    zero 8 r.b
    zero 9 r.c
    let t ← fld 10 (immOf r.e)
    pure (.lda c (scopeOf (r.mod.extractLsb' 10 2)) sx wid d a t)
  | 0x0EE => do
    let wid := r.mod.extractLsb' 0 3
    need 1 (r.mod.extractLsb' 3 7 = 0 && decide (wid.toNat ≤ 3))
    let c ← ctlA r
    let s ← fld 6 (srcOf e r.d)
    need 6 (match s with
      | .reg o => wfRun e (runV wid.toNat) (runS wid.toNat) o.reg
      | .imm _ => true)
    let a ← fld 7 (baseOf e false r.a)
    zero 8 r.b
    zero 9 r.c
    let t ← fld 10 (immOf r.e)
    pure (.stl c (scopeOf (r.mod.extractLsb' 10 2)) wid s a t)
  | 0x0EF => do
    need 1 (r.mod.extractLsb' 0 8 = 0 && ordOf (r.mod.extractLsb' 8 2) ≠ .rlx)
    let c ← ctlN r
    let t ← onlyE r
    pure (.fence c (scopeOf (r.mod.extractLsb' 10 2)) (ordOf (r.mod.extractLsb' 8 2)) t)
  | 0x0F0 => do
    need 1 (r.mod = 0)
    let c ← ctlN r
    zero 6 r.d
    let v ← fld 7 (srcOf e r.a)
    zero 8 r.b
    zero 9 r.c
    let t ← fld 10 (immOf r.e)
    pure (.acqr c v t)
  | 0x0F1 => do
    need 1 (r.mod = 0)
    let c ← ctlA r
    let d ← fld 6 (baseOf e false r.d)
    let a ← fld 7 (baseOf e false r.a)
    let b ← fld 8 (srcOf e r.b)
    let (bar, sc, rsz) ← fld 9 (copyC r.c)
    need 9 (rsz = 0)
    zero 10 r.e
    pure (.cpy c sc bar d a b)
  | 0x0F2 => do
    need 1 (r.mod = 0)
    let c ← ctlA r
    let d ← fld 6 (baseOf e false r.d)
    let a ← fld 7 (baseOf e false r.a)
    let b ← fld 8 (regSrc e r.b)
    need 8 (match b.reg with
      | .s n => decide (n ≤ 44)
      | _ => false)
    let (bar, sc, rsz) ← fld 9 (copyC r.c)
    need 9 (rsz = 0)
    zero 10 r.e
    pure (.cpyt c sc bar d a b)
  | 0x0F3 => do
    need 1 (r.mod = 0)
    let c ← ctlA r
    let d ← fld 6 (baseOf e false r.d)
    let a ← fld 7 (srcOf e r.a)
    let b ← fld 8 (srcOf e r.b)
    let (bar, sc, rsz) ← fld 9 (copyC r.c)
    need 9 (decide (rsz.toNat ≤ 12))
    zero 10 r.e
    pure (.cpyg c rsz sc bar d a b)
  | 0x0F4 => do
    need 1 (r.mod = 0)
    let c ← ctlN r
    zero 6 r.d
    let n ← fld 7 (numOf 6 r.a)
    let b ← fld 8 (srcOf e r.b)
    ce0 r
    pure (.binit c (n.extractLsb' 0 4) (scopeOf (n.extractLsb' 4 2)) b)
  | 0x0F5 => do
    need 1 (r.mod = 0)
    let c ← ctlN r
    zero 6 r.d
    let n ← fld 7 (numOf 4 r.a)
    let b ← fld 8 (srcOf e r.b)
    ce0 r
    pure (.bexp c n b)
  | 0x0F6 => do
    need 1 (r.mod = 0)
    let c ← ctlN r
    zero 6 r.d
    let n ← fld 7 (numOf 4 r.a)
    let b ← fld 8 (srcOf e r.b)
    ce0 r
    pure (.barv c n b)
  | 0x0F7 => do
    need 1 (r.mod = 0)
    let c ← ctlN r
    let q ← fld 6 (numOf 4 r.d)
    let n ← fld 7 (numOf 5 r.a)
    bce0 r
    pure (.btest c q (n.extractLsb' 0 4) (n.getLsbD 4))
  | _ => .error .illop

/-- The fields of GCFG's MOD, which it checks at issue (R329): SIN with the two reserved bits above it, FMT, SCOPE and
KIND; none for a reserved field, or for SIN with a kind other than ROT. -/
def gcfgOf (sin : BitVec 3) (fmt : BitVec 4) (scope : BitVec 2) (kind : BitVec 3) :
    Option (Bool × Fmt × GenScope × GenKind) :=
  match fmtIf wfGenFmt fmt, genScopeOf scope, kindOf kind with
  | some f, some sc, some k =>
    if sin.extractLsb' 1 2 = 0 ∧ (sin.getLsbD 0 → k = .rot) then some (sin.getLsbD 0, f, sc, k) else none
  | _, _, _ => none

/-- 0x110 to 0x115 (R311, R327 to R332). -/
def decodeGen (e : Env) (r : Raw) : Dec Instr :=
  match r.op.toNat with
  | 0x110 => do
    need 1 (r.mod = 0)
    let c ← ctlN r
    zero 6 r.d
    let q ← fld 7 (numOf 4 r.a)
    bce0 r
    pure (.sqarr c q)
  | 0x111 => do
    let c ← ctlN r
    let g ← fld 6 (genOf true r.d)
    let a ← fld 7 (srcOf e r.a)
    let b ← fld 8 (srcOf e r.b)
    let p ← fld 9 (srcOf e r.c)
    zero 10 r.e
    pure (.gcfg c (r.mod.extractLsb' 9 3) (r.mod.extractLsb' 5 4) (r.mod.extractLsb' 3 2) (r.mod.extractLsb' 0 3) g a b p)
  | 0x112 => do
    need 1 (r.mod = 0)
    let c ← ctlN r
    let g ← fld 6 (genOf true r.d)
    let a ← fld 7 (srcOf e r.a)
    bce0 r
    pure (.gkey c g a)
  | 0x113 => do
    need 1 (r.mod.extractLsb' 2 10 = 0)
    let c ← ctlN r
    let d ← fld 6 (dstOf e r.d)
    need 6 (notScalar d)
    let g ← fld 7 (genOf false r.a)
    let b ← fld 8 (srcOf e r.b)
    let f ← fld 9 (srcOf e r.c)
    zero 10 r.e
    pure (.geval c (r.mod.getLsbD 0) (r.mod.getLsbD 1) d g b f)
  | 0x114 => do
    need 1 (!(r.mod.getLsbD 11) && r.mod.extractLsb' 0 3 = 0)
    let f ← fld 1 (fmtIf wfElem (r.mod.extractLsb' 3 4))
    need 1 (decide ((r.mod.extractLsb' 7 4).toNat < f.width))
    let c ← ctlN r
    need 6 ((dstOf e r.d).all notScalar)
    let (d, a) ← ds e r
    pure (.bmap c (r.mod.extractLsb' 7 4) f d a)
  | 0x115 => do
    need 1 (!(r.mod.getLsbD 11) && r.mod.extractLsb' 0 3 = 0)
    let f ← fld 1 (fmtIf wfElem (r.mod.extractLsb' 3 4))
    need 1 (decide ((r.mod.extractLsb' 7 4).toNat < f.width))
    let c ← ctlN r
    need 6 ((dstOf e r.d).all notScalar)
    let (d, a, b) ← dss e r
    pure (.cmpr c (r.mod.extractLsb' 7 4) f d a b)
  | _ => .error .illop

/-- MXM's and MXMS's MOD (R316). -/
def mxMod (r : Raw) : Dec MxMod := do
  need 1 (!(r.mod.getLsbD 11))
  let fb ← fld 1 (fmtIf wfElem (r.mod.extractLsb' 4 4))
  let fa ← fld 1 (fmtIf wfElem (r.mod.extractLsb' 0 4))
  need 1 (decide (fa.width = fb.width))
  pure ⟨r.mod.getLsbD 10, r.mod.getLsbD 9, r.mod.getLsbD 8, fb, fa⟩

/-- MXM's and MXMS's D (R316). -/
def mxShape (f : BitVec 18) : Option MxShape :=
  match numOf 10 f with
  | some v => if (v.extractLsb' 8 2).toNat < 3 then
      some ⟨v.extractLsb' 0 2, v.extractLsb' 2 3, v.extractLsb' 5 3, v.extractLsb' 8 2⟩ else none
  | none => none

/-- j0 and nc (R323). -/
def rangeOf (e : Env) (r : Raw) : Dec (Src × Src) := do
  let j ← fld 7 (srcOf e r.a)
  need 7 (match j with
    | .imm v => decide (v.toNat ≤ 255)
    | .reg _ => true)
  let n ← fld 8 (srcOf e r.b)
  need 8 (wfRange j n)
  pure (j, n)

/-- 0x130 to 0x13C (R309, R311, R316, R322 to R326). -/
def decodeSeq (e : Env) (r : Raw) : Dec Instr :=
  match r.op.toNat with
  | 0x130 => do
    need 1 (r.mod = 0)
    let _ ← ctlOf false false false r
    zero 6 r.d
    let n ← fld 7 (numOf 10 r.a)
    need 7 (decide (1 ≤ (n.extractLsb' 4 6).toNat) && decide ((n.extractLsb' 4 6).toNat ≤ 32))
    bce0 r
    pure (.sqwait (n.extractLsb' 0 4) (n.extractLsb' 4 6))
  | 0x131 => do
    need 1 (r.mod = 0)
    let _ ← ctlOf false false false r
    zero 6 r.d
    let n ← fld 7 (numOf 4 r.a)
    bce0 r
    pure (.sqsig n)
  | 0x132 => do
    need 1 (r.mod = 0)
    let _ ← ctlOf false false false r
    let z ← fld 6 (zOf r.d)
    zero 7 r.a
    zero 8 r.b
    zero 9 r.c
    let t ← fld 10 (immOf r.e)
    pure (.sqloop z t)
  | 0x133 => do
    need 1 (r.mod = 0)
    let _ ← ctlOf false false false r
    let t ← onlyE r
    pure (.sqjmp t)
  | 0x134 => do
    need 1 (r.mod = 0)
    let _ ← ctlOf false false false r
    allZero r
    pure .sqend
  | 0x135 => do
    let m ← mxMod r
    need 1 ((mxOpOf r.a).all (fun a => wfMxOp a m.ta) && (mxOpOf r.b).all (fun b => wfMxOp b m.tb))
    let _ ← ctlOf false false false r
    let sh ← fld 6 (mxShape r.d)
    let a ← fld 7 (mxOpOf r.a)
    let b ← fld 8 (mxOpOf r.b)
    let scl ← fld 9 (scaleOf r.c)
    zero 10 r.e
    pure (.mxm m sh a b scl)
  | 0x136 => do
    let m ← mxMod r
    need 1 ((mxOpOf r.a).all (fun a => wfMxOp a m.ta) && (mxOpOf r.b).all (fun b => wfMxOp b m.tb))
    let _ ← ctlOf false false false r
    let sh ← fld 6 (mxShape r.d)
    let a ← fld 7 (mxOpOf r.a)
    let b ← fld 8 (mxOpOf r.b)
    let scl ← fld 9 (scaleOf r.c)
    let bm ← fld 10 (bitmapOf (isGen a && isGen b) r.e)
    pure (.mxms m sh a b scl bm)
  | 0x137 => do
    need 1 (r.mod = 0)
    let _ ← ctlOf false false false r
    let t ← fld 6 (numOf 2 r.d)
    let a ← fld 7 (srcOf e r.a)
    need 7 (match a with
      | .imm v => decide (-512 ≤ v.toInt) && decide (v.toInt ≤ 511)
      | .reg _ => true)
    bce0 r
    pure (.mxz t a)
  | 0x138 => do
    need 1 (r.mod.extractLsb' 7 5 = 0)
    let df ← fld 1 (drainOf (r.mod.extractLsb' 3 4))
    let x ← fld 1 (rndOf (r.mod.extractLsb' 0 3))
    need 1 (wfDrain x df)
    let _ ← ctlOf false false false r
    let t ← fld 6 (numOf 5 r.d)
    let (j, n) ← rangeOf e r
    let v ← fld 9 (fragOf r.c)
    need 9 (!v.fe)
    zero 10 r.e
    pure (.mxrd df x (t.extractLsb' 0 2) (t.extractLsb' 2 3) j n v)
  | 0x139 => do
    need 1 (r.mod.extractLsb' 7 5 = 0 && r.mod.extractLsb' 0 3 = 0)
    let sf ← fld 1 (drainOf (r.mod.extractLsb' 3 4))
    need 1 (wfWrite sf)
    let _ ← ctlOf false false false r
    let t ← fld 6 (numOf 6 r.d)
    let (j, n) ← rangeOf e r
    let v ← fld 9 (fragOf r.c)
    zero 10 r.e
    pure (.mxwr sf (t.getLsbD 5) (t.extractLsb' 0 2) (t.extractLsb' 2 3) j n v)
  | 0x13A => do
    need 1 (r.mod = 0)
    let _ ← ctlOf false false false r
    let t ← fld 6 (numOf 2 r.d)
    let a ← fld 7 (srcOf e r.a)
    bce0 r
    pure (.mxswp t a)
  | 0x13B => do
    need 1 (r.mod = 0)
    let _ ← ctlOf false false false r
    let z ← fld 6 (zOf r.d)
    let t ← fld 7 (numOf 2 r.a)
    bce0 r
    pure (.mxst z t)
  | 0x13C => do
    need 1 (r.mod = 0)
    let _ ← ctlOf false false false r
    let z ← fld 6 (zOf r.d)
    need 6 (match z with
      | .z n => decide (n % 2 = 0)
      | _ => false)
    let t ← fld 7 (numOf 2 r.a)
    bce0 r
    pure (.mxcs z t)
  | _ => .error .illop

/-! ### The decoder (R206) -/

/-- The opcodes of R209. -/
def definedOp (op : Nat) : Bool :=
  decide (op ≤ 0x014) || (decide (0x020 ≤ op) && decide (op ≤ 0x02E)) || (decide (0x040 ≤ op) && decide (op ≤ 0x062)) ||
  (decide (0x080 ≤ op) && decide (op ≤ 0x09B)) || (decide (0x0C0 ≤ op) && decide (op ≤ 0x0C9)) ||
  (decide (0x0E0 ≤ op) && decide (op ≤ 0x0F7)) || (decide (0x110 ≤ op) && decide (op ≤ 0x115)) ||
  (decide (0x130 ≤ op) && decide (op ≤ 0x13C))

/-- The opcodes of the sequencer's own words. -/
def seqOp (op : Nat) : Bool := decide (0x130 ≤ op) && decide (op ≤ 0x13C)

/-- The opcodes that the sequencer stream accepts (R205). -/
def streamOp (op : Nat) : Bool := seqOp op || decide (op ∈ [0x00E, 0x040, 0x041, 0x061, 0x062, 0x054, 0x04E, 0x0C9, 0x010])

/-- Step 3 of R206. -/
def decodeFields (e : Env) (r : Raw) : Dec Instr :=
  let op := r.op.toNat
  if op < 0x020 then decodeControl e r
  else if op < 0x040 then decodeCross e r
  else if op < 0x080 then decodeInt e r
  else if op < 0x0C0 then decodeFloat e r
  else if op < 0x0E0 then decodeConv e r
  else if op < 0x110 then decodeMem e r
  else if op < 0x130 then decodeGen e r
  else decodeSeq e r

/-- R206: the opcode, its place, the fields. -/
def decodeRaw (e : Env) (r : Raw) : Dec Instr :=
  let op := r.op.toNat
  if !definedOp op then .error .illop
  else if e.seq && !streamOp op then .error .seqerr
  else if !e.seq && seqOp op then .error .illop
  else decodeFields e r

/-- The decoder on a word. -/
def decode (e : Env) (w : Word128) : Dec Instr := decodeRaw e (Raw.ofWord w)

/-- The word of 16 bytes, lowest address first (R189: little-endian). -/
def wordOfBytes (bs : List Byte) : Word128 :=
  BitVec.ofNat 128 (bs.foldr (fun b n => b.toNat + 256 * n) 0)

/-- `n` bytes of a number, little-endian (R3). -/
def bytesOfNat : Nat → Nat → List Byte
  | 0, _ => []
  | n + 1, v => BitVec.ofNat 8 v :: bytesOfNat n (v / 256)

/-- The decoder on any bytes: the instruction at their start and the bytes after it; fewer than 16 are refused. -/
def decodeBytes (e : Env) (bs : List Byte) : Option (Dec Instr × List Byte) :=
  if 16 ≤ bs.length then some (decode e (wordOfBytes (bs.take 16)), bs.drop 16) else none

/-- The instruction of a table row's word: read as a trace word, or, where a trace refuses it, as a word of the
sequencer stream. Bits above `nbits` are 0. -/
def decodeTableWord (nbits w : Nat) : Option Instr :=
  let bytes := bytesOfNat 16 (w % 2 ^ nbits)
  match decode (.trace 192) (wordOfBytes bytes) with
  | .ok i => some i
  | .error _ =>
    match decode .stream (wordOfBytes bytes) with
    | .ok i => some i
    | .error _ => none

/-! ### The encoder -/

/-- A register in a source field. -/
def RegOp.field (o : RegOp) : BitVec 18 := regField o.reg.num o.perm.code.1 o.perm.code.2 o.fe

/-- A register in a field that the word writes. -/
def Reg.field (r : Reg) : BitVec 18 := regField r.num 0 0 false

def Src.field : Src → BitVec 18
  | .reg o => o.field
  | .imm v => immField v

/-- A number in the immediate form. -/
def numField {w : Nat} (x : BitVec w) : BitVec 18 := immField (x.setWidth 17)

def PredSrc.field (p : PredSrc) : BitVec 18 := numField p.code

/-- A generator's field. -/
def genField (g : Nat) : BitVec 18 := (Reg.g g).field

/-- A word with its fixed fields from `c`. -/
def rawOf (op : BitVec 9) (mod : BitVec 12) (c : Ctl) (d a b cc e : BitVec 18) : Raw :=
  ⟨op, mod, c.g1.code, c.g2.code, c.hint, 0#2 ++ BitVec.ofBool c.keep ++ BitVec.ofBool c.yld, d, a, b, cc, e⟩

/-- A word whose guard, HINT and SCH fields are zero. -/
def rawZ (op : BitVec 9) (mod : BitVec 12) (d a b cc e : BitVec 18) : Raw := ⟨op, mod, 0, 0, 0, 0, d, a, b, cc, e⟩

/-- AM and SC of R203. -/
def AddrMode.amsc : AddrMode → BitVec 2 × BitVec 3
  | .off _ => (0, 0)
  | .idx sc _ => (1, sc)
  | .post _ => (2, 0)
  | .postMod _ _ => (3, 0)

def AddrMode.fieldB : AddrMode → BitVec 18
  | .idx _ i => i.field
  | _ => 0

def AddrMode.fieldC : AddrMode → BitVec 18
  | .postMod m _ => numField m
  | _ => 0

def AddrMode.fieldE : AddrMode → BitVec 18
  | .off o | .post o | .postMod _ o => immField o
  | .idx _ _ => 0

/-- The MOD of R202. -/
def memMod (m : AddrMode) (wid : BitVec 3) (low : BitVec 4) : BitVec 12 := m.amsc.1 ++ m.amsc.2 ++ wid ++ low

/-- A word of R202 with D's field given. -/
def rawMem (op : BitVec 9) (c : Ctl) (wid : BitVec 3) (low : BitVec 4) (d : BitVec 18) (a : Addr) : Raw :=
  rawOf op (memMod a.mode wid low) c d a.base.field a.mode.fieldB a.mode.fieldC a.mode.fieldE

/-- The MOD of R218. -/
def intCode (cp : BitVec 4) (cy : Carry) (sat u : Bool) (x : Rnd) : BitVec 12 :=
  cp ++ cy.code ++ 0#1 ++ BitVec.ofBool sat ++ BitVec.ofBool u ++ x.code

/-- The MOD of R201 alone. -/
def rndCode (x : Rnd) : BitVec 12 := 0#9 ++ x.code

/-- The MOD of R240. -/
def halfCode (bf : Bool) (x : Rnd) : BitVec 12 := 0#8 ++ BitVec.ofBool bf ++ x.code

/-- The MOD of R272. -/
def atomCode (sc : Scope) (ord : OrdCode) (op : RedOp) (sz : Bool) : BitVec 12 :=
  sc.code ++ ord.code ++ op.code ++ 0#3 ++ BitVec.ofBool sz

/-- C of the copies (R279). -/
def copyField (bar : BitVec 4) (sc : Scope) (rsz : BitVec 4) : BitVec 18 := numField (rsz ++ sc.code ++ bar)

/-- A barrier and a phase in A (R283, R286). -/
def phaseField (bar : BitVec 4) (ph : Bool) : BitVec 18 := numField (BitVec.ofBool ph ++ bar)

/-- The MOD of R316. -/
def MxMod.code (m : MxMod) : BitVec 12 :=
  0#1 ++ BitVec.ofBool m.tb ++ BitVec.ofBool m.ta ++ BitVec.ofBool m.ck ++ m.fb.code ++ m.fa.code

/-- D of R316. -/
def MxShape.field (s : MxShape) : BitVec 18 := numField (s.ks ++ s.n ++ s.m ++ s.tile)

/-- The scale field: the all-zero field stands for the immediate 0. -/
def scaleField : Option RegOp → BitVec 18
  | none => 0
  | some o => o.field

/-- The fields of a word instruction; none for an event of the machine. -/
def encodeRaw : Instr → Option Raw
  | .traceAdmission n t b m =>
      some (rawZ 0x000 0 (immField n) (immField t) (immField b) (immField m) 0)
  | .tend c p t f => some (rawOf 0x001 (0#7 ++ p.code) c 0 0 (immField t) (immField f) 0)
  | .texit c => some (rawOf 0x002 0 c 0 0 0 0 0)
  | .grd c p t => some (rawOf 0x003 (0#7 ++ p.code) c 0 0 (immField t) 0 0)
  | .chkw c m t => some (rawOf 0x004 0 c 0 (numField m) (immField t) 0 0)
  | .tbar c t => some (rawOf 0x005 0 c 0 0 0 0 (immField t))
  | .tgbar c t => some (rawOf 0x006 0 c 0 0 0 0 (immField t))
  | .tcall c f k w t =>
      some (rawOf 0x007 0 c 0 (match f with
        | .off o => immField o
        | .reg o => o.field) (immField k) (immField w) (immField t))
  | .tret c => some (rawOf 0x008 0 c 0 0 0 0 0)
  | .tyield c t => some (rawOf 0x009 0 c 0 0 0 0 (immField t))
  | .twait c b ph t => some (rawOf 0x00A 0 c 0 (phaseField b ph) 0 0 (immField t))
  | .tsqw c b ph t => some (rawOf 0x00B 0 c 0 (phaseField b ph) 0 0 (immField t))
  | .tordw c t => some (rawOf 0x00C 0 c 0 0 0 0 (immField t))
  | .tordr c t => some (rawOf 0x00D 0 c 0 0 0 0 (immField t))
  | .nop c => some (rawOf 0x00E 0 c 0 0 0 0 0)
  | .rep n sd sa sb sc se =>
      some (rawZ 0x00F (0#6 ++ n) (0#14 ++ sd) (0#14 ++ sa) (0#14 ++ sb) (0#14 ++ sc) (0#14 ++ se))
  | .trap c n t => some (rawOf 0x010 0 c 0 (numField n) 0 0 (match t with
      | some t => immField t
      | none => 0))
  | .brk c n => some (rawOf 0x011 0 c 0 (numField n) 0 0 0)
  | .srd c hi d n => some (rawOf 0x012 (0#11 ++ BitVec.ofBool hi) c d.field (immField n) 0 0 0)
  | .swr c hi n b => some (rawOf 0x013 (0#11 ++ BitVec.ofBool hi) c 0 (immField n) b.field 0 0)
  | .qpost c q a n => some (rawOf 0x014 0 c 0 q.field a.field (numField n) 0)
  | .pset c cmp l u comb cp q a b =>
      some (rawOf 0x020 (cp ++ comb.code ++ cmp.code ++ 0#1 ++ BitVec.ofBool l ++ BitVec.ofBool u) c
        (numField q) a.field b.field 0 0)
  | .fpset c cmp comb cp q a b =>
      some (rawOf 0x021 (cp ++ comb.code ++ cmp.code ++ 0#3) c (numField q) a.field b.field 0 0)
  | .plog c lut q a b p => some (rawOf 0x022 (0#4 ++ lut) c (numField q) a.field b.field p.field 0)
  | .pmov c q a => some (rawOf 0x023 0 c (numField q) a.field 0 0 0)
  | .pbitsGet c d m => some (rawOf 0x024 0 c d.field (numField m) 0 0 0)
  | .pbitsPut c m a => some (rawOf 0x024 1 c (numField m) a.field 0 0 0)
  | .vote c m q a => some (rawOf 0x025 m.code c (numField q) a.field 0 0 0)
  | .ballot c d a => some (rawOf 0x026 0 c d.field a.field 0 0 0)
  | .matchLanes c d a => some (rawOf 0x027 0 c d.field a.field 0 0 0)
  | .elect c q => some (rawOf 0x028 0 c (numField q) 0 0 0 0)
  | .lget c mode sg d a b f => some (rawOf 0x029 (0#7 ++ sg ++ mode.code) c d.field a.field b.field (match f with
      | some f => f.field
      | none => 0) 0)
  | .xchg c n d a b => some (rawOf 0x02A (0#9 ++ n) c d.field a.field b.field 0 0)
  | .reduce c op d a => some (rawOf 0x02B (0#8 ++ op.code) c d.field a.field 0 0 0)
  | .scan c op ex d a => some (rawOf 0x02C (0#7 ++ BitVec.ofBool ex ++ op.code) c d.field a.field 0 0 0)
  | .rdlane c d a b => some (rawOf 0x02D 0 c d.field a.field b.field 0 0)
  | .wrlane c d a b => some (rawOf 0x02E 0 c d.field a.field b.field 0 0)
  | .iadd c u sat cy cp d a b => some (rawOf 0x040 (intCode cp cy sat u .dyn) c d.field a.field b.field 0 0)
  | .isub c u sat cy cp d a b => some (rawOf 0x041 (intCode cp cy sat u .dyn) c d.field a.field b.field 0 0)
  | .imul c u sat d a b => some (rawOf 0x042 (intCode 0 .none sat u .dyn) c d.field a.field b.field 0 0)
  | .imulh c u d a b => some (rawOf 0x043 (intCode 0 .none false u .dyn) c d.field a.field b.field 0 0)
  | .imad c u sat d a b f => some (rawOf 0x044 (intCode 0 .none sat u .dyn) c d.field a.field b.field f.field 0)
  | .imadw c u d a b f => some (rawOf 0x045 (intCode 0 .none false u .dyn) c d.field a.field b.field f.field 0)
  | .ineg c sat d a => some (rawOf 0x046 (intCode 0 .none sat false .dyn) c d.field a.field 0 0 0)
  | .iabs c sat d a => some (rawOf 0x047 (intCode 0 .none sat false .dyn) c d.field a.field 0 0 0)
  | .imin c u d a b => some (rawOf 0x048 (intCode 0 .none false u .dyn) c d.field a.field b.field 0 0)
  | .imax c u d a b => some (rawOf 0x049 (intCode 0 .none false u .dyn) c d.field a.field b.field 0 0)
  | .idiv c u x d a b => some (rawOf 0x04A (intCode 0 .none false u x) c d.field a.field b.field 0 0)
  | .irem c u x d a b => some (rawOf 0x04B (intCode 0 .none false u x) c d.field a.field b.field 0 0)
  | .isad c u sat d a b f => some (rawOf 0x04C (intCode 0 .none sat u .dyn) c d.field a.field b.field f.field 0)
  | .iclamp c u d a b f => some (rawOf 0x04D (intCode 0 .none false u .dyn) c d.field a.field b.field f.field 0)
  | .andw c d a b => some (rawOf 0x04E 0 c d.field a.field b.field 0 0)
  | .orw c d a b => some (rawOf 0x04F 0 c d.field a.field b.field 0 0)
  | .xorw c d a b => some (rawOf 0x050 0 c d.field a.field b.field 0 0)
  | .notw c d a => some (rawOf 0x051 0 c d.field a.field 0 0 0)
  | .andn c d a b => some (rawOf 0x052 0 c d.field a.field b.field 0 0)
  | .blut c lut d a b f => some (rawOf 0x053 (0#4 ++ lut) c d.field a.field b.field f.field 0)
  | .shl c d a b => some (rawOf 0x054 0 c d.field a.field b.field 0 0)
  | .shr c d a b => some (rawOf 0x055 0 c d.field a.field b.field 0 0)
  | .sar c d a b => some (rawOf 0x056 0 c d.field a.field b.field 0 0)
  | .rotl c d a b => some (rawOf 0x057 0 c d.field a.field b.field 0 0)
  | .shf c rt d a b f => some (rawOf 0x058 (0#11 ++ BitVec.ofBool rt) c d.field a.field b.field f.field 0)
  | .bfe c u d a f => some (rawOf 0x059 (intCode 0 .none false u .dyn) c d.field a.field f.field 0 0)
  | .bfi c d a b f => some (rawOf 0x05A 0 c d.field a.field b.field f.field 0)
  | .popc c d a => some (rawOf 0x05B 0 c d.field a.field 0 0 0)
  | .clz c d a => some (rawOf 0x05C 0 c d.field a.field 0 0 0)
  | .brev c d a => some (rawOf 0x05D 0 c d.field a.field 0 0 0)
  | .ffs c d a => some (rawOf 0x05E 0 c d.field a.field 0 0 0)
  | .bswz c d a b f => some (rawOf 0x05F 0 c d.field a.field b.field f.field 0)
  | .sel c d a b p => some (rawOf 0x060 0 c d.field a.field b.field p.field 0)
  | .mov c d a => some (rawOf 0x061 0 c d.field a.field 0 0 0)
  | .movi c d v => some (rawOf 0x062 0 c d.field (v.extractLsb' 0 18) (v.extractLsb' 18 18) (v.extractLsb' 36 18)
      (0#8 ++ v.extractLsb' 54 10))
  | .fadd c x d a b => some (rawOf 0x080 (rndCode x) c d.field a.field b.field 0 0)
  | .fsub c x d a b => some (rawOf 0x081 (rndCode x) c d.field a.field b.field 0 0)
  | .fmul c x d a b => some (rawOf 0x082 (rndCode x) c d.field a.field b.field 0 0)
  | .ffma c x d a b f => some (rawOf 0x083 (rndCode x) c d.field a.field b.field f.field 0)
  | .fmin c d a b => some (rawOf 0x084 0 c d.field a.field b.field 0 0)
  | .fmax c d a b => some (rawOf 0x085 0 c d.field a.field b.field 0 0)
  | .fabs c d a => some (rawOf 0x086 0 c d.field a.field 0 0 0)
  | .fneg c d a => some (rawOf 0x087 0 c d.field a.field 0 0 0)
  | .frcp c x d a => some (rawOf 0x088 (rndCode x) c d.field a.field 0 0 0)
  | .frsq c x d a => some (rawOf 0x089 (rndCode x) c d.field a.field 0 0 0)
  | .fsqrt c x d a => some (rawOf 0x08A (rndCode x) c d.field a.field 0 0 0)
  | .fdiv c x d a b => some (rawOf 0x08B (rndCode x) c d.field a.field b.field 0 0)
  | .fexp2 c d a => some (rawOf 0x08C 0 c d.field a.field 0 0 0)
  | .flog2 c d a => some (rawOf 0x08D 0 c d.field a.field 0 0 0)
  | .fsin c d a => some (rawOf 0x08E 0 c d.field a.field 0 0 0)
  | .fcos c d a => some (rawOf 0x08F 0 c d.field a.field 0 0 0)
  | .ftanh c d a => some (rawOf 0x090 0 c d.field a.field 0 0 0)
  | .fsigm c d a => some (rawOf 0x091 0 c d.field a.field 0 0 0)
  | .frnd c x d a => some (rawOf 0x092 (rndCode x) c d.field a.field 0 0 0)
  | .ffrac c x d a => some (rawOf 0x093 (rndCode x) c d.field a.field 0 0 0)
  | .fscale c x d a b => some (rawOf 0x094 (rndCode x) c d.field a.field b.field 0 0)
  | .fgexp c d a => some (rawOf 0x095 0 c d.field a.field 0 0 0)
  | .fclass c d a => some (rawOf 0x096 0 c d.field a.field 0 0 0)
  | .hadd2 c bf x d a b => some (rawOf 0x097 (halfCode bf x) c d.field a.field b.field 0 0)
  | .hmul2 c bf x d a b => some (rawOf 0x098 (halfCode bf x) c d.field a.field b.field 0 0)
  | .hfma2 c bf x d a b f => some (rawOf 0x099 (halfCode bf x) c d.field a.field b.field f.field 0)
  | .hmin2 c bf d a b => some (rawOf 0x09A (halfCode bf .dyn) c d.field a.field b.field 0 0)
  | .hmax2 c bf d a b => some (rawOf 0x09B (halfCode bf .dyn) c d.field a.field b.field 0 0)
  | .cvt c df sf x d a => some (rawOf 0x0C0 (0#1 ++ df.code ++ sf.code ++ x.code) c d.field a.field 0 0 0)
  | .pack c el df x d a b => some (rawOf 0x0C1 (0#2 ++ el ++ df.code ++ x.code) c d.field a.field b.field 0 0)
  | .unpk c el sf d a => some (rawOf 0x0C2 (0#2 ++ el ++ sf.code ++ 0#3) c d.field a.field 0 0 0)
  | .qenc c el rn d a g => some (rawOf 0x0C3 (0#2 ++ el ++ 0#6 ++ BitVec.ofBool rn) c d.field a.field g.field 0 0)
  | .qdec c el d a g => some (rawOf 0x0C4 (0#2 ++ el ++ 0#7) c d.field a.field g.field 0 0)
  | .rand c m d => some (rawOf 0x0C5 m.code c d.field 0 0 0 0)
  | .rkey c a => some (rawOf 0x0C6 0 c 0 a.field 0 0 0)
  | .hmix c d x k => some (rawOf 0x0C7 0 c d.field x.field k.field 0 0)
  | .csacc c u neg k a => some (rawOf 0x0C8 (0#8 ++ BitVec.ofBool u ++ BitVec.ofBool neg ++ k) c 0 a.field 0 0 0)
  | .cschk c k => some (rawOf 0x0C9 (0#10 ++ k) c 0 0 0 0 0)
  | .cschkZ n => some (rawZ 0x0C9 (0#7 ++ 1#1 ++ n) 0 0 0 0 0)
  | .ld c wid sx d a => some (rawMem 0x0E0 c wid (0#3 ++ BitVec.ofBool sx) d.field a)
  | .st c wid s a => some (rawMem 0x0E1 c wid 0 s.field a)
  | .ldd c cnt rf d a => some (rawMem 0x0E2 c cnt rf.code d.field a)
  | .std c cnt rf s a => some (rawMem 0x0E3 c cnt rf.code s.field a)
  | .tagld c d a => some (rawMem 0x0E4 c 0 0 d.field a)
  | .tagst c s a => some (rawMem 0x0E5 c 0 0 s.field a)
  | .ldg c wid sx tg d a m => some (rawOf 0x0E6 (memMod m wid (BitVec.ofBool tg ++ 0#2 ++ BitVec.ofBool sx)) c
      d.field a.field m.fieldB m.fieldC m.fieldE)
  | .pref c l2 a => some (rawMem 0x0E7 c 0 (0#3 ++ BitVec.ofBool l2) 0 a)
  | .ldwt c wid slot d a => some (rawMem 0x0E8 c wid slot d.field a)
  | .atom c sc ord op sz a b o => some (rawOf 0x0E9 (atomCode sc ord op sz) c 0 a.field b.field 0 (immField o))
  | .atomr c sc ord op sz d a b t =>
      some (rawOf 0x0EA (atomCode sc ord op sz) c d.field a.field b.field 0 (immField t))
  | .cas c sc ord sz d a b f t =>
      some (rawOf 0x0EB (atomCode sc ord .add sz) c d.field a.field b.field f.field (immField t))
  | .exch c sc ord sz d a b t =>
      some (rawOf 0x0EC (atomCode sc ord .add sz) c d.field a.field b.field 0 (immField t))
  | .lda c sc sx wid d a t =>
      some (rawOf 0x0ED (sc.code ++ 0#6 ++ BitVec.ofBool sx ++ wid) c d.field a.field 0 0 (immField t))
  | .stl c sc wid s a t => some (rawOf 0x0EE (sc.code ++ 0#7 ++ wid) c s.field a.field 0 0 (immField t))
  | .fence c sc ord t => some (rawOf 0x0EF (sc.code ++ ord.code ++ 0#8) c 0 0 0 0 (immField t))
  | .acqr c v t => some (rawOf 0x0F0 0 c 0 v.field 0 0 (immField t))
  | .cpy c sc bar d a b => some (rawOf 0x0F1 0 c d.field a.field b.field (copyField bar sc 0) 0)
  | .cpyt c sc bar d a b => some (rawOf 0x0F2 0 c d.field a.field b.field (copyField bar sc 0) 0)
  | .cpyg c rsz sc bar d a b => some (rawOf 0x0F3 0 c d.field a.field b.field (copyField bar sc rsz) 0)
  | .binit c bar sc n => some (rawOf 0x0F4 0 c 0 (numField (sc.code ++ bar)) n.field 0 0)
  | .bexp c bar b => some (rawOf 0x0F5 0 c 0 (numField bar) b.field 0 0)
  | .barv c bar b => some (rawOf 0x0F6 0 c 0 (numField bar) b.field 0 0)
  | .btest c q bar ph => some (rawOf 0x0F7 0 c (numField q) (phaseField bar ph) 0 0 0)
  | .sqarr c q => some (rawOf 0x110 0 c 0 (numField q) 0 0 0)
  | .gcfg c sin fmt scope kind g a b p => some (rawOf 0x111 (sin ++ fmt ++ scope ++ kind) c (genField g) a.field b.field p.field 0)
  | .gkey c g a => some (rawOf 0x112 0 c (genField g) a.field 0 0 0)
  | .geval c t bm d g b f =>
      some (rawOf 0x113 (0#10 ++ BitVec.ofBool bm ++ BitVec.ofBool t) c d.field (genField g) b.field f.field 0)
  | .bmap c p f d a => some (rawOf 0x114 (0#1 ++ p ++ f.code ++ 0#3) c d.field a.field 0 0 0)
  | .cmpr c p f d a b => some (rawOf 0x115 (0#1 ++ p ++ f.code ++ 0#3) c d.field a.field b.field 0 0)
  | .sqwait q n => some (rawZ 0x130 0 0 (numField (n ++ q)) 0 0 0)
  | .sqsig q => some (rawZ 0x131 0 0 (numField q) 0 0 0)
  | .sqloop z t => some (rawZ 0x132 0 z.field 0 0 0 (immField t))
  | .sqjmp t => some (rawZ 0x133 0 0 0 0 0 (immField t))
  | .sqend => some (rawZ 0x134 0 0 0 0 0 0)
  | .mxm m sh a b scl => some (rawZ 0x135 m.code sh.field a.field b.field (scaleField scl) 0)
  | .mxms m sh a b scl bm => some (rawZ 0x136 m.code sh.field a.field b.field (scaleField scl) (scaleField bm))
  | .mxz t a => some (rawZ 0x137 0 (numField t) a.field 0 0 0)
  | .mxrd df x t m j n v => some (rawZ 0x138 (0#5 ++ df.code ++ x.code) (numField (m ++ t)) j.field n.field v.field 0)
  | .mxwr sf rc t m j n v =>
      some (rawZ 0x139 (0#5 ++ sf.code ++ 0#3) (numField (BitVec.ofBool rc ++ m ++ t)) j.field n.field v.field 0)
  | .mxswp t a => some (rawZ 0x13A 0 (numField t) a.field 0 0 0)
  | .mxst z t => some (rawZ 0x13B 0 z.field (numField t) 0 0 0)
  | .mxcs z t => some (rawZ 0x13C 0 z.field (numField t) 0 0 0)
  | _ => none

/-- The word of a word instruction. -/
def encode (i : Instr) : Option Word128 := (encodeRaw i).map Raw.toWord

end Sys2Proof
end

