-- ==== Sys2Proof/Move.lean ====
section
/-! DEFINITION. Who moves next: one indivisible step of one agent of the module, of the host or of the environment.
State's agenda lists moves; where it is empty the next move is a free value (Config.nextMove). -/

namespace Sys2Proof

/-- A move. The first four issue or take what the machine itself holds next; `event` is an event row of the opcode
table; the others are what the outside world and the device's unspecified choices may do (log 2). -/
inductive Move where
  /-- The wave in active slot `slot` of SIMD unit `unit` of physical core `core` issues (R174). -/
  | issue (core unit slot : Nat)
  /-- The sequencer of block `bid` executes its next word (R307). -/
  | seq (bid : Nat)
  /-- The CP executes the next command of its ring (R357). -/
  | cp
  /-- The CP takes the next record of the queues (R156). -/
  | take
  /-- An event row of the opcode table. -/
  | event (i : Instr)
  /-- A store in flight reaches its die point before its home (R135). -/
  | diePoint (id : Nat)
  /-- The home answers an outstanding load only now (R134). -/
  | late (id : Nat)
  /-- A core's L1 drops a line; write-through loses nothing (R96, R102). -/
  | dropL1 (core line : Nat)
  /-- A stack drops its untracked copy of a line (R135). -/
  | dropStack (die line : Nat)
  /-- A stamp table evicts a line's entry (R451). -/
  | dropStamp (line : Nat)
  /-- A TLB drops an entry: `tlb` is a core's number, or 64 and more for a die's L2 TLB (R112). -/
  | dropTlb (tlb ix : Nat)
  /-- `bits` bits of the DRAM block holding `pa` are upset (R447). -/
  | upset (pa bits : Nat)
  /-- The same in a granary block (R447). -/
  | upsetGranary (die off bits : Nat)
  /-- An error in a slice's SRAM, or in a core's arrays outside a lane's column or in it (R408, R414). An uncorrectable
  one hits state of block `bid`, or the scratchpad or DRAM line `line`. -/
  | arrayError (b : BucketId) (uncorrectable : Bool) (bid line : Nat)
  /-- Time passes (R369). -/
  | advance (ns : Nat)
  /-- The time unit locks or loses its lock (R369). -/
  | ptpLock (on : Bool)
  /-- A master reads control space (R354). -/
  | controlRead (master off size : Nat)
  /-- The management interface reads a sensor (R370). -/
  | sensor (n : Nat)
  /-- The dispatchers miss a heartbeat of a die's (R445). -/
  | missBeat (die : Nat)
  /-- A dispatcher claims the task's next block index for a core, or gives a claim back (R168, R445). -/
  | claim (task core : Nat)
  /-- The change of the enumeration table under way is complete (R373). -/
  | tableDone
  /-- An error in the storage of a block's tile (R408, R469). -/
  | tileError (bid tile : Nat) (uncorrectable : Bool)
  /-- A fault in the matrix array's arithmetic adds `v` to an element of a block's tile (R405, R469). -/
  | arrayFault (bid tile i j : Nat) (v : BitVec 96)
  /-- A fault in a lane's datapath changes a register that the wave has written, by its stack index (R469). -/
  | laneFault (bid w ix lane : Nat) (v : Word32)
  /-- The same of a block sequencer and its z registers (R469). -/
  | seqFault (bid z : Nat) (v : Word64)
  /-- A fault in a copy engine's datapath changes a byte that the copy is to write (R469). -/
  | copyFault (id addr : Nat) (v : Byte)
  /-- An error in a core's TLB (R408, R414). -/
  | tlbError (core : Nat) (uncorrectable : Bool)
  /-- A network port goes up or down (R466). -/
  | port (i : Nat) (up : Bool)
  /-- The CP writes a record to a queue that it drives itself (R155). -/
  | cpPost (queue : Nat) (words : List Word64)
  /-- Fatal loss of the internal state of the IOD, the CP or the root of trust (EVENT 0x0041). -/
  | fatal (block : Nat)
  deriving DecidableEq, Repr, Inhabited

end Sys2Proof
end

