-- ==== Sys2Proof/Config.lean ====
section
/-! DEFINITION. What the device or its environment decides and the manual does not state: opaque constants without a
value, each named in a log entry, and the constants the manual fixes. -/

namespace Sys2Proof

/-- The next move when State's agenda is empty, from the counter `freeIx` (log 2). -/
opaque Config.nextMove : Nat → Move

/-- Which free block frame F a block takes: an index into the list of the free frames, from the counter (R98, log 15). -/
opaque Config.frameChoice : Nat → Nat

/-- A byte of a save frame as a master reads it: its layout is the device's own (R182, log 16). -/
opaque Config.saveByte : Nat → Nat → Byte

/-- The ECC syndrome in a DRAM record's DETAIL, from the counter (R82, R408, log 17). -/
opaque Config.syndrome : Nat → BitVec 16

/-- The row in a granary record's DETAIL, and the array number of an SRAM record, from the counter (R408, log 17). -/
opaque Config.arrayNumber : Nat → BitVec 16

/-- The die temperature in a thermal record's DETAIL, from the counter (R408, log 17). -/
opaque Config.temperature : Nat → BitVec 16

/-- The spare rows of each granary bank (R414, log 68). -/
opaque Config.spareRows : Nat → Nat

/-- The entry that a full stamp table evicts: an index into the slice's entries, from the counter (R451, log 68). -/
opaque Config.stampVictim : Nat → Nat

/-- Each die's refresh phase: periods already counted at reset (R105, log 9). -/
opaque Config.refreshPhase : Nat → Nat

/-- A sensor's reading, from the sensor and the counter (R370, log 18). -/
opaque Config.sensorValue : Nat → Nat → Word64

/-- The islands of the IOD, 0 to 7, that hold the reeves, and the fixed points of the others, in MHz, at the rates that the
standards of their clocks fix (R371, log 18). -/
opaque Config.iodReeves : Nat → Bool
opaque Config.iodPoint : Nat → Nat

/-- SM2 verification of a signature over a digest by a public key (R364, log 19). -/
opaque Config.sm2Verify : Nat → Nat → Nat → Bool

/-- The SM2 signature of the device identity key over a digest; the counter stands for the nonce (R367, log 19). -/
opaque Config.sm2Sign : Nat → Nat → List Byte

/-- The public identity key and its certificate, as bytes from offset 0x0050_1000 (R366, log 19). -/
opaque Config.identityByte : Nat → Byte

/-- The fuse values as the bytes that MR1's digest takes: the keys, the revoke bits, BOOTSRC (R365, log 25). -/
opaque Config.fuseBytes : List Nat → BitVec 4 → Bool → List Byte

/-- The operating point, in MHz, that the DVFS controller gives an island after a barrier, from the island and the
counter (R186, R371, log 14). -/
opaque Config.dvfsPoint : Nat → Nat → Nat

/-- The power, in milliwatt, that the module draws at its islands' operating points, from the points by island (R14, R186,
R371, log 14). -/
opaque Config.drawnPower : List (Nat × Nat) → Nat

/-- A byte of control space that has an assigned write effect and no stated value when read, from its offset and the
counter (R354, log 21). -/
opaque Config.openRead : Nat → Nat → Byte

/-- A byte of another module's memory, from the counter and its place in the access (R360, log 24). -/
opaque Config.peerByte : Nat → Nat → Byte

/-- What a peer answers to an access made at once: nothing against it, or why it fails (R467, log 24). -/
opaque Config.peerAnswer : Nat → Option RemoteError

/-- The time that an adjustment leaves, from the time and the value written to ADJ (R369, log 26). -/
opaque Config.timeAfter : Word64 → Word64 → Word64

/-- What a partial store through the 0xF2 aperture leaves in the other bytes of an empty register (R31, log 23). -/
opaque Config.emptyRegister : Nat → BitVec 32

/-- What a retrain of a die link finds, from the counter: 0 every lane passes, 1 one half works in each faulty module,
otherwise neither (R463, log 27). -/
opaque Config.retrain : Nat → BitVec 2

/-- One of the writers, by timing, of a register that a wave and the sequencer both write (R315, log 20). -/
opaque Config.raceValue : Nat → Bool

/-- The set of a core's L1 in which a line lies (R102, log 61). -/
opaque Config.l1Set : Nat → Nat

/-- Which line a full L1 loses, and whether a launch leaves a line in it, from the counter (R96, log 61). -/
opaque Config.l1Victim : Nat → Nat
opaque Config.l1Stays : Nat → Nat → Bool

/-- The DESC and CPOL bits (R110) of the arena TLB's translations, which R164 does not state (log 50). -/
opaque Config.arenaDesc : Bool
opaque Config.arenaCpol : BitVec 2

end Sys2Proof
end

