-- ==== Sys2Proof/Machine/State.lean ====
section
/-! DEFINITION. The machine's state as plain data: every piece of state the manual gives the module, the model's own
scheduling fields, and the state after reset. A finite map (`FMap`) reads a stated default at an unlisted key. -/

namespace Sys2Proof.Machine

/-- Memory as canonical cells: addresses strictly rising, no cell holding the byte an unlisted address reads as. -/
abbrev Memory := List Host.Cell

/-! ### Registers (R28, R35) -/

/-- The full/empty bit of a register (R35): `pend` names the producer that will fill it, `defer` the deferred atomic
whose flush will (R148, R439). -/
inductive Fill where
  | full
  | pend (id : Nat)
  | defer (id : Nat)
  deriving DecidableEq, Repr, Inhabited

/-- A vector register in one lane. -/
structure RegCell where
  val : Word32
  fill : Fill
  deriving DecidableEq, Repr, Inhabited

/-- A scalar or sequencer register. -/
structure SCell where
  val : Word64
  fill : Fill
  deriving DecidableEq, Repr, Inhabited

/-- A generator register (R328). `fmt = none` is FMT = 0, unconfigured. -/
structure Gen where
  kind : GenKind
  scope : GenScope
  fmt : Option Fmt
  sin : Bool
  row0 : Word32
  col0 : Word32
  param : Word32
  key : Word64
  deriving DecidableEq, Repr, Inhabited

/-- A generator at wave launch (R328). -/
def Gen.zero : Gen := ⟨.sign, .grid, none, false, 0, 0, 0, 0⟩

/-! ### Exceptions and records (R421, R425, R407) -/

/-- The exceptions of R421 that a lane or a sequencer takes through a trap record. -/
inductive Exc where
  | illop | badfld | trcap | trshape | wunchk | align | apert | pgflt | prot | emptyt | defrd | detcap | divcall
  | stkovf | glive | swtrap | brkpt | ckfail | tagfmt | seqerr
  deriving DecidableEq, Repr, Inhabited

/-- A trap record (R425) before its SEQ's unit in the ring is written. -/
structure TrapRec where
  kind : BitVec 8
  exc : Exc
  flags : BitVec 8
  seq : Nat
  ctx : Nat
  queue : Nat
  tseq : BitVec 16
  wave : BitVec 8
  field : BitVec 8
  lanes : Mask
  detail : BitVec 32
  tp : Word64
  word : Word64
  va : Word64
  blk : Nat
  deriving DecidableEq, Repr, Inhabited

/-- An error record (R407). -/
structure ErrRec where
  cls : BitVec 8
  event : BitVec 16
  seq : Nat
  time : Word64
  ctx : BitVec 16
  owner : BitVec 16
  queue : BitVec 16
  die : BitVec 8
  core : BitVec 8
  unit : BitVec 8
  index : BitVec 8
  flags : BitVec 8
  exc : BitVec 8
  count : BitVec 32
  pa : Word64
  va : Word64
  tp : Word64
  blk : BitVec 48
  detail : BitVec 16
  deriving DecidableEq, Repr, Inhabited

/-! ### Lanes, traces and waves (R22 to R41) -/

/-- A lane's state (R25), with what its wait needs. `op` is a lane whose boundary operation is not yet done (R56). -/
inductive LaneState where
  | runnable
  /-- TBAR (R290): the successor. -/
  | tbar (succ : Word64)
  /-- TGBAR (R291); `rel` dates the arrival's release. -/
  | tgbar (succ : Word64) (rel : Nat)
  /-- TCALL (R292): its word, the callee's TRH, the return successor, k and W'. -/
  | tcall (site callee ret : Word64) (k w : Nat)
  /-- TRET (R293): its word. -/
  | tret (site : Word64)
  /-- TORDW (R296). -/
  | ticket (succ : Word64)
  /-- TWAIT (R295): barrier and the phase bit it waits to change. -/
  | bytes (bar : BitVec 4) (ph : Bool) (succ : Word64)
  /-- TSQW (R295). -/
  | seqBar (bar : BitVec 4) (ph : Bool) (succ : Word64)
  /-- A boundary operation in progress (R56, R274, R276 to R278). -/
  | op (id : Nat)
  | exited
  /-- Trapped by the record with this SEQ of its context, with its EXC, POST and WORD (R425, R429). -/
  | trapped (rec : Nat) (exc : Exc) (post : Bool) (word : Word64)
  deriving DecidableEq, Repr, Inhabited

/-- One lane of a wave: trace pointer, state, RAND draw counter (R254), guard-failure count and its GRD word (R436),
the one-shot BRK pass and its word (R299), the lane's deferred atomics in the epoch (R148). -/
structure Lane where
  tp : Word64
  st : LaneState
  draw : BitVec 22
  gcount : Nat
  gaddr : Word64
  pass : Option Word64
  seq : Nat
  deriving DecidableEq, Repr, Inhabited

/-- A frame descriptor (R32, R34). -/
structure Frame where
  rettp : Word64
  wo : Nat
  ws : Nat
  deriving DecidableEq, Repr, Inhabited

/-- Where a translated access goes (R94, R99, R104, R111, R360). -/
inductive Place where
  /-- A physical address with the leaf's CPOL, DESC and MIG bits. -/
  | phys (pa : Nat) (cpol : BitVec 2) (desc mig : Bool)
  /-- A remote window: peer and offset (R360). -/
  | remote (peer off : Nat)
  /-- The block's scratchpad. -/
  | spad (off : Nat)
  /-- The wave's register stack: 128 times the logical index, plus the byte within the row (R31). -/
  | regs (off : Nat)
  deriving DecidableEq, Repr, Inhabited

/-- A store of one lane: its address as the program gave it, where it goes, its bytes. -/
structure Store where
  lane : Nat
  word : Word64
  va : Word64
  place : Place
  bytes : List Byte
  deriving DecidableEq, Repr, Inhabited

/-- A tag write of one lane (R268). -/
structure TagWrite where
  lane : Nat
  word : Word64
  va : Word64
  place : Place
  tag : BitVec 16
  deriving DecidableEq, Repr, Inhabited

/-- An atomic of one lane: R272's operation, EXCH or CAS (R273). -/
inductive AtomKind where
  | rmw (op : RedOp)
  | swap
  | cas
  deriving DecidableEq, Repr, Inhabited

structure Atom where
  lane : Nat
  word : Word64
  va : Word64
  place : Place
  kind : AtomKind
  /-- True for 64 bits. -/
  sz : Bool
  b : Word64
  c : Word64
  deriving DecidableEq, Repr, Inhabited

/-- A register that a producer fills: a vector register by logical stack index and lane, a scalar, a z register. -/
inductive Dest where
  | v (ix lane : Nat)
  | s (n : Nat)
  | z (n : Nat)
  deriving DecidableEq, Repr, Inhabited

/-- A copy command (R279, R280). Rows of `rowBytes` bytes; `srcs` gives each row's source address; row r goes to
`dst + r * dstStride`. -/
structure CopyCmd where
  srcs : List Word64
  dst : Word64
  dstStride : Word64
  rowBytes : Nat
  bar : BitVec 4
  scope : Scope
  hint : BitVec 3
  word : Word64
  tp : Word64
  deriving DecidableEq, Repr, Inhabited

/-- A TSB entry (R45). `exec` is the mask of executing lanes of a once-per-word effect. -/
inductive TsbRec where
  | store (hint : BitVec 3) (xs : List Store)
  | tag (xs : List TagWrite)
  | atom (scope : Scope) (rel : Bool) (xs : List Atom)
  | copy (exec : Mask) (c : CopyCmd)
  | qpost (xs : List (Nat × Nat × List Word64))
  | sqarr (exec : Mask) (q : BitVec 4)
  | binit (exec : Mask) (bar : BitVec 4) (scope : Scope) (count : Nat)
  | bexp (exec : Mask) (bar : BitVec 4) (n : Word64)
  | barv (bar : BitVec 4) (xs : List (Nat × Word32))
  deriving DecidableEq, Repr, Inhabited

/-- A TSB entry that has left its trace and waits in the core's write path (R58, R97, R274); `ok` says that the
condition of R136 that an ATOM.REL waits for has been met. -/
structure PathRec where
  id : Nat
  ok : Bool
  item : TsbRec
  deriving DecidableEq, Repr, Inhabited

/-- The state of one watched line (R145). -/
inductive WatchState where
  /-- To be resolved at the home; the copy's entry instance and stamp. -/
  | pending (inst stamp : Nat)
  | confirmed
  | struck
  deriving DecidableEq, Repr, Inhabited

/-- A watch record of one lane in one slot (R145). -/
structure Watch where
  id : Nat
  slot : BitVec 4
  lane : Nat
  line : Nat
  st : WatchState
  checked : Bool
  deriving DecidableEq, Repr, Inhabited

/-- A REP in progress: the repeated word, its `n` repetitions, the number `i` from 1 of the one that runs, the steps
(R65). -/
structure RepState where
  word : Word128
  n : Nat
  i : Nat
  steps : List (BitVec 4)
  deriving DecidableEq, Repr, Inhabited

/-- A batch in its trace (R27, R44 to R51). -/
structure TraceRun where
  /-- The batch's TP, the TRH's address. -/
  start : Word64
  batch : Mask
  /-- Lanes still in the trace. -/
  live : Mask
  words : Nat
  twb : Nat
  tsb : Nat
  wmask : BitVec 16
  /-- Position of the next word, 1 for the word after the TRH. -/
  pos : Nat
  twbUsed : Nat
  tsbUsed : Nat
  /-- TWB values of vector registers, by logical stack index * 32 + lane. -/
  ov : FMap RegCell
  os : FMap SCell
  /-- TWB values of predicates: lanes written and their values. -/
  op : FMap (Mask × Mask)
  /-- TWB values of the special registers by R300's number. -/
  om : FMap Word64
  og : FMap Gen
  /-- Checksum contributions by k * 32 + lane (R50). -/
  kc : FMap (BitVec 128)
  /-- TSB entries, oldest first. -/
  buf : List TsbRec
  watch : List Watch
  /-- Slots an LDWT of this trace has named (R271). -/
  slots : BitVec 16
  /-- FSTAT flags held with the lanes (R74). -/
  flags : FMap (BitVec 5)
  /-- Draw counters and deferred-atomic counts at the forming of the batch (R51, R440). -/
  draws : List (BitVec 22)
  seqs : List Nat
  det : Nat
  rep : Option RepState
  /-- The batch waits at its word (R36, R53, R97). -/
  waiting : Bool
  /-- Copy queue entries reserved (R280). -/
  copies : Nat
  deriving DecidableEq, Repr, Inhabited

/-- A wave (R22, R28, R30, R34, R172, R185). -/
structure Wave where
  vreg : FMap RegCell
  sreg : FMap SCell
  preds : FMap Mask
  /-- FMODE 0, FSTAT 1, QSD 3, QST 4, SK 5, m0 to m7 8 to 15, by R300's number. -/
  spec : FMap Word64
  kreg : FMap (BitVec 128)
  gens : FMap Gen
  lanes : List Lane
  wo : Nat
  ws : Nat
  low : Nat
  /-- Rows from this index on have not left the wave; below LOW where a window was larger than the room left (R34). -/
  kept : Nat
  /-- The most recent descriptors, innermost first, at most 16; `depth` counts every descriptor (R34). -/
  frames : List Frame
  depth : Nat
  trace : Option TraceRun
  /-- Pages (VA >> 16) the parked wave waits for (R185, R454). -/
  parked : List Nat
  unit : Nat
  /-- 0 to 7 active, 8 to 15 pending (R11). -/
  slot : Nat
  /-- When a pending wave became ready (R177). -/
  readyAt : Option Nat
  /-- Since when an active wave has not waited, none while it waits, and whether it is to be moved out at its next trace
  boundary (R177). -/
  since : Option Nat
  demote : Bool
  /-- The wave waits at a word with SCH.KEEP (R176). -/
  keep : Bool
  /-- Deferred entries the wave has placed in the epoch (R440). -/
  det : Nat
  /-- Entries of committed traces still in the write path, oldest first. -/
  path : List PathRec
  retired : Bool
  deriving DecidableEq, Repr, Inhabited

/-! ### Blocks (R24, R97, R282, R311, R86, R307) -/

/-- A byte-counting barrier (R282). -/
structure Bar where
  ph : Bool
  bs : Scope
  xa : Nat
  ra : BitVec 32
  pb : Word64
  deriving DecidableEq, Repr, Inhabited

/-- R117's launch value. -/
def Bar.init : Bar := ⟨false, .block, 1, 0, 0⟩

/-- A sequencer barrier (R311). -/
structure QBar where
  ph : Bool
  ra : Nat
  deriving DecidableEq, Repr, Inhabited

def QBar.init : QBar := ⟨false, 0⟩

/-- An accumulator tile (R86, R89): elements by 256 i + j, check row, anchor, flags INV, OVF, INX, CHK. -/
structure Tile where
  x : FMap (BitVec 96)
  check : FMap (BitVec 96)
  anchor : BitVec 10
  flags : BitVec 4
  deriving DecidableEq, Repr, Inhabited

def Tile.zero : Tile := ⟨[], [], 0, 0⟩

/-- What the sequencer is doing (R307, R334, R190, R429). -/
inductive SeqRun where
  | running
  | ended
  /-- Stopped by the record with this SEQ; `skip` says that RESUME goes on with the next word (R298). -/
  | stopped (rec : Nat) (skip : Bool)
  /-- Waiting for PGDONE of a page (R190). -/
  | faulted (page : Nat)
  deriving DecidableEq, Repr, Inhabited

/-- How an outstanding load makes its registers' values from what its place holds. -/
inductive LateHow where
  /-- LD and LDA: a run of `n` bytes, sign-extended or not (R261). -/
  | run (n : Nat) (sx : Bool)
  /-- TAGLD (R268). -/
  | tag
  /-- LDD: its FMODE, the formats, the scale byte and the super-scale's code, log2 of the count, the flags it has raised and
  whether the tag is the lane's own (R265 to R267). -/
  | described (fmode : Word64) (rf f : Fmt) (sc : Nat) (super : Word32) (cnt : Nat) (fl : BitVec 5) (mine : Bool)
  deriving DecidableEq, Repr, Inhabited

/-- A load that may still read later than at its issue (R134): the word that it belongs to, its place, how its value is
made, and the bytes that the lane's own stores gave it, by their place in the access. -/
structure Late where
  word : Nat
  place : Place
  how : LateHow
  own : FMap Byte
  deriving DecidableEq, Repr, Inhabited

/-- An outstanding producer (R35): the registers it fills with their values; whether its data is poisoned (R413). -/
structure Pending where
  id : Nat
  bid : Nat
  wave : Nat
  dests : List (Dest × Word64)
  poison : Bool
  /-- The lane that takes POISON, and the address it read; for a drain, lane 32 and the tile. -/
  lane : Nat
  va : Word64
  /-- The physical address read; 2^48 and more is a granary location (R104). -/
  pa : Nat
  /-- A returning atomic's old value (R274). -/
  atom : Bool
  /-- The requesting core and the source, where the data crosses a die link: a slice, or 64 and a granary's die; and
  the next identity when it was sent (R358). -/
  route : Option (Nat × Nat)
  sent : Nat
  /-- Of a load that may still read later than at its issue (R134, log 95). -/
  again : Option Late
  deriving DecidableEq, Repr, Inhabited

/-- The block sequencer (R307). -/
structure SeqState where
  pc : Word64
  z : FMap SCell
  run : SeqRun
  /-- Which of the core's two sequencers runs it, 0 or 1 (R407). -/
  unit : Nat
  /-- The steps done of the MXRD, MXWR, MXSWP or MXCS at pc (R310); 0 between words. -/
  reached : Nat
  /-- The drains of the MXRD at pc that its steps have still to send, the next first (R310, R323). -/
  drains : List Pending
  /-- The first nonzero δ among the columns that the steps of the MXCS at pc have summed (R326). -/
  found : BitVec 96
  deriving DecidableEq, Repr, Inhabited

/-- A block's shape (R24). -/
structure Shape where
  w : Nat
  rpl : Nat
  sp : Nat
  tiles : Nat
  seq : Bool
  deriving DecidableEq, Repr, Inhabited

/-- A resident or saved block. -/
structure Block where
  id : Nat
  task : Nat
  ctx : Nat
  /-- Block linear index and coordinates (R20). -/
  lin : Nat
  x : Nat
  y : Nat
  z : Nat
  /-- The physical core; none while saved (R181). -/
  core : Option Nat
  /-- The block frame F (R98). -/
  frame : Nat
  shape : Shape
  waves : List Wave
  spad : Memory
  stag : FMap (BitVec 16)
  spoison : FMap Bool
  /-- The lines with P = 0: the copies that have still to write the line, oldest first, each with its M mask (R97). -/
  absent : FMap (List (Nat × BitVec 64))
  bars : FMap Bar
  qbars : FMap QBar
  tiles : List Tile
  seq : Option SeqState
  /-- Frames of the save pool that hold the saved block (R182). -/
  saveFrames : List Nat
  /-- The block's work is done; dates the release of its end (R173). -/
  ended : Option Nat
  deriving DecidableEq, Repr, Inhabited

/-! ### Accesses and operations under way -/

/-- What an access in flight does at its home. -/
inductive FlightOp where
  | store (bytes : List Byte)
  | tag (t : BitVec 16)
  /-- An atomic; a returning one names its producer and destinations. -/
  | atom (a : Atom) (ret : Option (Nat × List Dest))
  deriving DecidableEq, Repr, Inhabited

/-- A store, tag write or atomic that has left the trace and has not reached its home (R127, R135, R274). -/
structure Flight where
  id : Nat
  /-- When it was issued: the identity of its entry in the write path, which a release compares with its own (R136). -/
  date : Nat
  core : Nat
  bid : Nat
  wave : Nat
  lane : Nat
  ctx : Nat
  owner : Nat
  task : Nat
  hint : BitVec 3
  word : Word64
  va : Word64
  place : Place
  op : FlightOp
  /-- It has updated its stack's copy: its die point is passed ahead of its home (R135). -/
  die : Bool
  /-- When it passed its stack, whether or not a copy was there to update; 0 while it has not. -/
  dieAt : Nat
  /-- Held under R456 after RETRY. -/
  held : Bool
  /-- Its number among the requests from its stack to its home's (R462). -/
  pair : BitVec 16
  /-- It is a later part of a store whose first part pays the token for the line (R118). -/
  paid : Bool
  deriving DecidableEq, Repr, Inhabited

/-- The operation of a boundary word after its commit. -/
inductive OpBody where
  /-- ATOMR, CAS, EXCH: atomics still to be sent, each with its producer and the registers it fills (R274). -/
  | atoms (xs : List (Atom × Nat × List Dest))
  /-- LDA: loads still to be made, each lane's address, place, producer and registers (R276). -/
  | lda (xs : List (Nat × Word64 × Place × Nat × List Dest)) (wid : Nat) (sx : Bool)
  | stl (xs : List Store)
  | fence
  /-- ACQR: the victims' block indexes (R278). -/
  | acqr (victims : List Nat)
  /-- TORDR (R179). -/
  | tordr
  deriving DecidableEq, Repr, Inhabited

/-- A boundary operation not yet done (R56). -/
structure BOp where
  id : Nat
  bid : Nat
  wave : Nat
  lanes : Mask
  word : Word64
  succ : Word64
  scope : Scope
  ord : OrdCode
  body : OpBody
  /-- The condition of R136 holds, or the operation is no release. -/
  released : Bool
  /-- The operation itself has been performed, or its accesses have been issued. -/
  sent : Bool
  /-- Lanes and the producers whose arrival their acquire side waits for. -/
  waits : List (Nat × Nat)
  deriving DecidableEq, Repr, Inhabited

/-- A copy command issued (R280, R281, R458). -/
structure Copy where
  id : Nat
  core : Nat
  bid : Nat
  ctx : Nat
  lane : Nat
  cmd : CopyCmd
  /-- Destination lines already written, by index, rising. -/
  done : List Nat
  /-- What places that the copy itself overwrote held before (R281): bytes, tags and poison, by the engine's keys. -/
  old : FMap Byte
  /-- The physical destination lines it owns (R141). -/
  owns : List Nat
  /-- Stopped at a page (R458). -/
  stopped : Option Nat
  /-- The lines of its destination that it has found under migration and has still to write, each with the frame's page
  (R456). -/
  held : List (Nat × Nat)
  /-- Faults of the engine's datapath: what they change in a byte of the destination, by its address (R469). -/
  flaws : FMap Byte
  deriving DecidableEq, Repr, Inhabited

/-- A SQARR arrival that has not taken effect (R312). -/
structure Arrival where
  id : Nat
  bid : Nat
  wave : Nat
  q : BitVec 4
  /-- Producers of the wave's committed traces that must have landed. -/
  waits : List Nat
  deriving DecidableEq, Repr, Inhabited

/-- A QPOST record issued and not yet appended (R304). -/
structure Post where
  id : Nat
  core : Nat
  bid : Nat
  wave : Nat
  lane : Nat
  ctx : Nat
  queue : Nat
  words : List Word64
  deriving DecidableEq, Repr, Inhabited

/-- A deferred atomic (R148): its key, its atomic and the registers it fills. -/
structure DetEntry where
  id : Nat
  core : Nat
  bid : Nat
  task : Nat
  ctx : Nat
  lin : Nat
  wave : Nat
  lane : Nat
  seq : Nat
  atom : Atom
  /-- Its global address: a private one lies in its block's area (R99). -/
  gva : Word64
  ret : Option (List Dest)
  deriving DecidableEq, Repr, Inhabited

/-! ### Caches and translation (R102, R112, R135, R145, R451) -/

/-- A copy of a line: its bytes, tag, poison mark, the generation of its stack (R137), the instance and stamp of its
home's entry when it was served (R451), and the hint of the load that allocated it (R102). -/
structure LineCopy where
  bytes : List Byte
  tag : BitVec 16
  poison : Bool
  gen : Nat
  inst : Nat
  stamp : Nat
  hint : BitVec 3
  deriving DecidableEq, Repr, Inhabited

/-- An entry of a stamp table (R451): the instance of the entry, and the writes counted since it was created. -/
structure StampEntry where
  inst : Nat
  stamp : Nat
  deriving DecidableEq, Repr, Inhabited

/-- A TLB entry (R112, R453). `shift` is log2 of the page size. -/
structure TlbEntry where
  asid : Nat
  owner : Nat
  shift : Nat
  page : Nat
  leaf : Word64
  deriving DecidableEq, Repr, Inhabited

/-! ### Contexts (R108, R162, R182, R411, R426) -/

/-- The context descriptor (R108). -/
structure CtxDesc where
  asid : Nat
  owner : Nat
  ptroot : Nat
  pbase : Nat
  psz : Nat
  splim : Nat
  pblocks : Nat
  gmap : Nat
  rt : Nat
  bu : Nat
  deriving DecidableEq, Repr, Inhabited

/-- The scheduling record (R162). -/
structure SchedRec where
  slice : Nat
  atiles : Nat
  abase : Nat
  fpool : Nat
  fcount : Nat
  deriving DecidableEq, Repr, Inhabited

/-- A ring of records: the exception queue (R426) or the virtual error queue (R411). -/
structure Ring where
  base : Word64
  log : BitVec 8
  v : Bool
  widx : BitVec 32
  ridx : BitVec 32
  lost : BitVec 32
  deriving DecidableEq, Repr, Inhabited

def Ring.off : Ring := ⟨0, 0, false, 0, 0, 0⟩

/-- A loss that has begun: what started it, the events that called for it, and whether KILL did (R416). -/
structure Loss where
  cause : Nat
  count : Nat
  kill : Bool
  deriving DecidableEq, Repr, Inhabited

/-- Everything the device holds for one context. -/
structure Ctx where
  desc : Option CtxDesc
  sched : Option SchedRec
  /-- The save pool's physical frames (R182). -/
  pool : List Nat
  xq : Ring
  vq : Ring
  /-- A record dropped since the last one written to the virtual queue (R411). -/
  vlostBefore : Bool
  /-- Trap records held for the exception queue, ascending SEQ (R427). -/
  held : List TrapRec
  xseq : Nat
  vseq : Nat
  /-- LAUNCH records taken (R163). -/
  accept : Nat
  /-- Lost under R416 and not installed anew. -/
  lost : Bool
  /-- The loss goes on while stores and atomics of the context are on their way (R416 steps 3 to 7). -/
  losing : Option Loss
  deriving DecidableEq, Repr, Inhabited

def Ctx.empty : Ctx := ⟨none, none, [], .off, .off, false, [], 0, 0, 0, false, none⟩

/-! ### Queues, tasks and versions (R153 to R173) -/

/-- One range of a tile set (R161). -/
structure TileRange where
  first : Nat
  count : Nat
  ovw : Bool
  deriving DecidableEq, Repr, Inhabited

/-- The fields of R158, effective or inherited. -/
structure Fields where
  entry : Word64
  seqEntry : Word64
  gx : Nat
  gy : Nat
  gz : Nat
  shape : Word64
  arg : Word64
  inl : List Word64
  seed : Word64
  flags : Word64
  rset : List TileRange
  wset : List TileRange
  sigAddr : Word64
  sigVal : Word64
  stamp : Word64
  deriving DecidableEq, Repr, Inhabited

def Fields.zero : Fields := ⟨0, 0, 0, 0, 0, 0, 0, [0, 0, 0, 0, 0, 0, 0, 0], 0, 0, [], [], 0, 0, 0⟩

/-- Why a queue takes no record (R157, R160, R165). -/
inductive Block1 where
  /-- A SIGNAL waits for its tasks. -/
  | signal (seq : BitVec 16) (addr val : Word64)
  /-- A WAITSIG waits for the value. -/
  | waitsig (seq : BitVec 16) (addr val : Word64)
  deriving DecidableEq, Repr, Inhabited

/-- A hardware queue (R154, R159, R160, R418). -/
structure QueueSt where
  ring : Nat
  logd : Nat
  qpri : Nat
  ctx : Nat
  carea : Nat
  logc : Nat
  widx : BitVec 32
  ridx : BitVec 32
  cidx : BitVec 32
  enabled : Bool
  frozen : Bool
  inh : Fields
  blocked : Option Block1
  deriving DecidableEq, Repr, Inhabited

def QueueSt.off : QueueSt := ⟨0, 6, 0, 0, 0, 4, 0, 0, 0, false, false, .zero, none⟩

/-- Where a task stands (R163, R164, R170, R173). -/
inductive TaskState where
  /-- In the dependence table. -/
  | waiting
  /-- Handed to the dispatchers (R167). -/
  | placing
  /-- Every block has been launched and has ended; the task-end flush and its stores are under way. -/
  | ending
  | done
  deriving DecidableEq, Repr, Inhabited

/-- A task. -/
structure Task where
  id : Nat
  ctx : Nat
  queue : Nat
  tseq : BitVec 16
  accept : Nat
  f : Fields
  st : TaskState
  /-- Tasks it must wait for (R163). -/
  deps : List Nat
  /-- Version copies or zeroings still to make (R164). -/
  copies : List Nat
  /-- Arena tiles of its sets and the version each reaches (R164). -/
  tiles : FMap Nat
  /-- The leader's die (R167) and its block-index counter; with DET, the indexes already launched. -/
  leader : Nat
  next : Nat
  launched : FMap Bool
  /-- Indexes claimed for a core and not launched yet, by core; and those that a failed die's cores had claimed, to be
  handed out again (R445, R446). -/
  claims : FMap Nat
  again : List Nat
  /-- The other live dispatchers' copies of the index and ticket counters (R445). -/
  mirror : FMap (Nat × Nat)
  /-- A block of it has launched. -/
  begun : Bool
  /-- The ticket counter (R179), and the indexes at or above it whose blocks have ended. -/
  ticket : Nat
  endedAt : FMap Bool
  ended : Nat
  preempt : BitVec 32
  start : Word64
  /-- DETA of the object's contract as the loader gives it: the bound of R440. -/
  deta : Nat
  deriving DecidableEq, Repr, Inhabited

/-- A version of an arena tile (R164, R165). -/
structure Version where
  id : Nat
  ctx : Nat
  tile : Nat
  /-- Its frame, taken from FPOOL. -/
  frame : Nat
  writer : Option Nat
  /-- The version it is copied from; none with OVW, which zeroes, and in a tile's first version. -/
  src : Option Nat
  ready : Bool
  deriving DecidableEq, Repr, Inhabited

/-! ### Cores (R11, R19, R178) -/

/-- What a core holds besides its blocks. -/
structure CoreSt where
  /-- The unit after the last wave placed (R172). -/
  nextUnit : Nat
  /-- Halted to save the blocks of this context (R180, R182). -/
  halted : Option Nat
  /-- The block whose sequencer used the matrix array last (R178). -/
  arrayTurn : Nat
  /-- Launches no further block (R415), and why: the core itself, or a unit and lane to steer. -/
  closing : Option (Option (Nat × Nat))
  /-- Retired in service (R19). -/
  retired : Bool
  /-- The spare lane of each SIMD unit: the lane steered to it (R468). -/
  spare : FMap Nat
  deriving DecidableEq, Repr, Inhabited

def CoreSt.init : CoreSt := ⟨0, none, 0, none, false, []⟩

/-! ### Links and network (R358 to R362, R460 to R467) -/

/-- One direction of a die link (R460). A payload is the identity of the request that the flit carries. -/
structure LinkDirSt where
  next : BitVec 10
  /-- Flits sent and not acknowledged, oldest first, with their numbers. -/
  unacked : List (BitVec 10 × Nat)
  expected : BitVec 10
  /-- A NAK for the expected number is outstanding. -/
  nak : Bool
  /-- Payloads accepted at their home's stack and not yet performed. -/
  accepted : List Nat
  /-- Payloads that wait for room in the replay buffer of 512 flits. -/
  waiting : List Nat
  deriving DecidableEq, Repr, Inhabited

def LinkDirSt.init : LinkDirSt := ⟨0, [], 0, false, [], []⟩

/-- A link entry of R372 with its bucket (R463). -/
structure LinkSt where
  lanes : Nat
  cls : Nat
  via : Nat
  st : Nat
  bucket : Nat
  deriving DecidableEq, Repr, Inhabited

/-- What a peer's answer fills: the producer, its registers, whether a narrow value is sign-extended, and the bytes that
the lane's own stores give in place of the peer's (R47). -/
structure NetRet where
  id : Nat
  dests : List Dest
  sx : Bool
  own : FMap Byte
  deriving DecidableEq, Repr, Inhabited

/-- A request to a network peer not yet answered (R359, R466). -/
structure NetOut where
  id : Nat
  /-- When it was issued: the identity of its entry in the write path, which a release compares with its own (R136). -/
  date : Nat
  peer : Nat
  off : Nat
  access : Access
  seq : Nat
  core : Nat
  bid : Nat
  task : Nat
  ctx : Nat
  wave : Nat
  lane : Nat
  word : Word64
  va : Word64
  /-- The trap record of a refusal, kept from the end of its block on (R467). -/
  late : Option TrapRec
  /-- The attempt, and the port used (R466). -/
  attempt : Nat
  port : Nat
  /-- What the answer fills. -/
  ret : Option NetRet
  deriving DecidableEq, Repr, Inhabited

/-! ### Boot, power, signals -/

/-- Where reeve 0 stands in the boot of R363. -/
inductive BootPhase where
  /-- Step 3 with BOOTSRC 0: the fetch is under way. -/
  | fetching
  /-- Step 3 with BOOTSRC 1: waiting for BOOTGO. -/
  | waitGo
  /-- Step 4 failed; the 8 s before the next try. -/
  | retryWait
  /-- The payload runs. -/
  | done
  deriving DecidableEq, Repr, Inhabited

/-- What the module has sent out: interrupts, answers, reports. -/
inductive Signal where
  | msix (v : Nat)
  | reeveIrq
  | aerFatal
  | pldmEvent (code : Nat)
  /-- A BAR2 completion with data; `poisoned` sets EP (R355). -/
  | bar2Data (bytes : List Byte) (poisoned : Bool)
  | bar2Abort
  /-- A poisoned completion reported through AER (R355). -/
  | aerPoison
  | controlData (value : Word64)
  | controlDenied
  | reeveData (hart : Nat) (bytes : List Byte)
  | reeveFault (hart : Nat)
  | netReply (seq : Nat) (bytes : List Byte)
  | netAck (seq : Nat)
  | netError (seq : Nat) (e : RemoteError)
  | netSend (id port attempt : Nat)
  | linkNak (l : LinkDir) (seq : BitVec 10)
  | linkAck (l : LinkDir) (seq : BitVec 10)
  | linkSend (l : LinkDir) (seq : BitVec 10) (payload : Nat)
  | bootEntry (pa : Nat)
  | sensorData (value : Word64)
  | heartbeat (die : Nat)
  deriving DecidableEq, Repr, Inhabited

/-- The thermal response of a stack (R371). -/
inductive Thermal where
  | normal | capped | throttled
  deriving DecidableEq, Repr, Inhabited

/-- The root of trust (R363 to R367, R420). -/
structure RotSt where
  /-- MR0 to MR7. -/
  mr : List Nat
  /-- The four public keys, their revoke bits, BOOTSRC (the fuses). -/
  keys : List Nat
  revoked : BitVec 4
  bootsrc : Bool
  /-- The digest staged at 0x0050_0100 for an extend (R365). -/
  staged : Nat
  result : BitVec 8
  attempts : BitVec 16
  phase : BootPhase
  deriving DecidableEq, Repr, Inhabited

/-- The physical log (R410). -/
structure LogSt where
  base : Word64
  log : BitVec 8
  widx : BitVec 32
  ridx : BitVec 32
  lost : BitVec 32
  seq : Nat
  lostBefore : Bool
  /-- The most recent 64 records by SEQ mod 64. -/
  fatbuf : FMap ErrRec
  deriving DecidableEq, Repr, Inhabited

/-- The CP command ring (R357). -/
structure CpSt where
  ring : Word64
  log : Word64
  widx : Word64
  ridx : Word64
  /-- The queue served last within each QPRI (R156). -/
  served : List Nat
  deriving DecidableEq, Repr, Inhabited

/-- The time unit (R369) and the transport's port (R359). -/
structure TimeSt where
  ptp : Word64
  lock : Bool
  adj : Word64
  /-- The CP's step-free count in ns (R369, R414). -/
  free : Nat
  port : BitVec 16
  deriving DecidableEq, Repr, Inhabited

/-- A slice's meter (R118). -/
structure MeterSt where
  srate : Nat
  spare : Nat
  bucket : FMap Nat
  borrowed : FMap Nat
  deriving DecidableEq, Repr, Inhabited

def MeterSt.init : MeterSt := ⟨0, 0, [], []⟩

/-- Whose word is issuing. -/
inductive Actor where
  | none
  | wave (bid w : Nat)
  | seq (bid : Nat)
  deriving DecidableEq, Repr, Inhabited

/-- The module. -/
structure State where
  /-- The model's own: which moves come next, the counter of the free values, steps taken, who issues, identities,
  what has been sent. -/
  agenda : List Move
  freeIx : Nat
  tick : Nat
  actor : Actor
  nextId : Nat
  outbox : List Signal
  /-- The live cores, physical numbers rising (R16, R17). -/
  live : List Nat
  cores : FMap CoreSt
  blocks : List Block
  pendings : List Pending
  flights : List Flight
  ops : List BOp
  copies : List Copy
  arrivals : List Arrival
  posts : List Post
  detbuf : List DetEntry
  /-- The order of FENCE.AR operations (R132): their operation identities, oldest first. -/
  fences : List Nat
  /-- DRAM bytes, tags and poison by 64-byte block; upsets not yet found (R80, R100, R412, R447). -/
  dram : Memory
  dtag : FMap (BitVec 16)
  dpoison : FMap Bool
  upsets : FMap Nat
  /-- The granaries: byte die * 2^28 + offset; tags, poison, upsets by block (R8, R104, R447). -/
  gran : Memory
  gtag : FMap (BitVec 16)
  gpoison : FMap Bool
  gupsets : FMap Nat
  /-- The owner for which each granary region was last claimed, by die * 128 + region; 0 for none (R117). -/
  regions : FMap Nat
  /-- Refresh: per die the windows begun, and whether one is in progress (R105). -/
  refresh : FMap (Nat × Bool)
  /-- Frame owners (R115); frames whose retirement has been requested, and retired frames (R415). -/
  owners : FMap Nat
  asked : FMap Bool
  gone : FMap Bool
  /-- Access tables: target * 128 + master (R119). -/
  access : FMap (BitVec 2)
  l1 : FMap LineCopy
  stack : FMap LineCopy
  stackGen : FMap Nat
  stamps : FMap StampEntry
  /-- TLBs: a core's number, or 64 + die. -/
  tlbs : FMap (List TlbEntry)
  ctxs : FMap Ctx
  queues : FMap QueueSt
  tasks : List Task
  versions : List Version
  /-- The CP, the physical log, leaky buckets, retired slices and banks (R357, R410, R414, R415). -/
  cp : CpSt
  plog : LogSt
  buckets : FMap Nat
  retiredSlices : FMap Bool
  retiredBanks : FMap Bool
  /-- The spare rows that each granary bank has taken (R414). -/
  spareRows : FMap Nat
  /-- GEN of the enumeration table (R373). -/
  gen : BitVec 32
  meters : FMap MeterSt
  links : FMap LinkSt
  /-- Flits of reads, responses, copies and deferred atomics on their way: the die each goes to, by payload (R358). -/
  traffic : FMap Nat
  dirs : FMap LinkDirSt
  /-- Accesses that the IOD's masters have made and whose flits have not left yet: the home's die, and whether an answer
  comes back (R10). -/
  iodOut : List (Nat × Bool)
  /-- By source * 5 + home die (R462): pair numbers given, the highest performed, and for the last 512 atomics performed
  the identity of the request with its answer, none where it returns nothing. -/
  pairSent : FMap (BitVec 16)
  pairs : FMap (BitVec 16)
  results : FMap (List (Nat × Option Pending))
  /-- Die dispatchers that have failed (R445). -/
  deadDisp : FMap Bool
  /-- The consecutive heartbeats that each die's dispatcher has missed (R445). -/
  beats : FMap Nat
  /-- The peer and window tables as bytes from offset 0x0030_0000 (R361). -/
  netTab : FMap Byte
  /-- The network ports that are up (R466). -/
  portsUp : BitVec 8
  netOut : List NetOut
  /-- Sequence numbers received, by the source's address (R359). -/
  netSeen : List (BitVec 128 × Nat)
  /-- Next sequence number per peer. -/
  netSeq : FMap Nat
  time : TimeSt
  rot : RotSt
  hostown : BitVec 16
  /-- Module power limit in milliwatt; the DVFS points by island; arrival orders at barriers; thermal responses. -/
  power : Nat
  dvfs : FMap Nat
  order : FMap (List Nat)
  thermal : FMap Thermal
  /-- The module has halted (R419). -/
  halted : Bool
  deriving DecidableEq, Repr, Inhabited

/-- Why a run stops. -/
inductive Fault where
  /-- A word instruction was executed while no wave and no sequencer is issuing, which no step does. Safe. -/
  | noActor
  deriving DecidableEq, Repr, Inhabited

/-- Why an instruction has no meaning here. -/
inductive Refusal where
  /-- Raised by a Dispatch arm that has no meaning yet. Safe. -/
  | notModelled (mnemonic : String)
  deriving DecidableEq, Repr, Inhabited

/-- The physical numbers of the live cores of the part modelled: a Z940-60 whose cores 15, 31, 47 and 63 are not live
(PRESUMED, log 5). -/
def liveCores : List Nat := (List.range 64).filter fun p => p % 16 ≠ 15

/-- R372's link entries at full width, in its order. -/
def linkTable : FMap LinkSt :=
  [(0, ⟨64, 1, 255, 0, 0⟩), (1, ⟨64, 1, 255, 0, 0⟩), (2, ⟨64, 1, 255, 0, 0⟩), (3, ⟨64, 1, 255, 0, 0⟩),
   (4, ⟨0, 2, 1, 0, 0⟩), (5, ⟨0, 2, 0, 0, 0⟩),
   (6, ⟨64, 1, 255, 0, 0⟩), (7, ⟨64, 1, 255, 0, 0⟩), (8, ⟨64, 1, 255, 0, 0⟩), (9, ⟨64, 1, 255, 0, 0⟩)]

/-- After power-on reset (R368), before the boot of R363 has fetched its image: steps 1 and 2 of the boot have run, so
DRAM and the granaries are zero, the boot region belongs to 0xFFFF and every other frame is free. -/
def State.reset : State where
  agenda := []
  freeIx := 0
  tick := 0
  actor := .none
  nextId := 1
  outbox := []
  live := liveCores
  cores := []
  blocks := []
  pendings := []
  flights := []
  ops := []
  copies := []
  arrivals := []
  posts := []
  detbuf := []
  fences := []
  dram := []
  dtag := []
  dpoison := []
  upsets := []
  gran := []
  gtag := []
  gpoison := []
  gupsets := []
  regions := []
  refresh := []
  owners := []
  asked := []
  gone := []
  access := []
  l1 := []
  stack := []
  stackGen := []
  stamps := []
  tlbs := []
  ctxs := []
  queues := []
  tasks := []
  versions := []
  cp := ⟨0, 0, 0, 0, [0, 0, 0, 0]⟩
  plog := ⟨0, 0, 0, 0, 0, 0, false, []⟩
  buckets := []
  retiredSlices := []
  retiredBanks := []
  spareRows := []
  gen := 0
  meters := []
  links := linkTable
  traffic := []
  dirs := []
  iodOut := []
  pairSent := []
  pairs := []
  results := []
  deadDisp := []
  beats := []
  netTab := []
  portsUp := 0xFF
  netOut := []
  netSeen := []
  netSeq := []
  time := ⟨0, false, 0, 0, 49440⟩
  rot := ⟨[0, 0, 0, 0, 0, 0, 0, 0], [0, 0, 0, 0], 0, false, 0, 0, 0, .fetching⟩
  hostown := 0xFFFF
  power := 2800000
  dvfs := []
  order := []
  thermal := []
  halted := false

end Sys2Proof.Machine
end

