-- ==== Sys2Proof/Machine/Maps.lean ====
section
/-! DEFINITION. Finite maps and memory as canonical lists, list updates, masks of lanes: the plain data operations that
every later file uses. -/

namespace Sys2Proof.Machine

/-! ### Finite maps -/

/-- The value listed at a key. -/
def ffind {α : Type} : FMap α → Nat → Option α
  | [], _ => none
  | (k', v) :: m, k => if k' = k then some v else ffind m k

/-- The value at a key, `d` where none is listed. -/
def fget {α : Type} (d : α) (m : FMap α) (k : Nat) : α := (ffind m k).getD d

/-- Lists `v` at `k`, replacing what is there. -/
def fins {α : Type} : FMap α → Nat → α → FMap α
  | [], k, v => [(k, v)]
  | (k', v') :: m, k, v =>
    if k' < k then (k', v') :: fins m k v
    else if k' = k then (k, v) :: m
    else (k, v) :: (k', v') :: m

/-- Lists nothing at `k`. -/
def fdel {α : Type} : FMap α → Nat → FMap α
  | [], _ => []
  | (k', v') :: m, k => if k' = k then fdel m k else (k', v') :: fdel m k

/-- Writes `v` at `k` keeping the canonical form: the default is not listed. -/
def fput {α : Type} [DecidableEq α] (d : α) (m : FMap α) (k : Nat) (v : α) : FMap α :=
  if v = d then fdel m k else fins m k v

/-- Applies `f` to the value at `k`. -/
def fmod {α : Type} [DecidableEq α] (d : α) (m : FMap α) (k : Nat) (f : α → α) : FMap α := fput d m k (f (fget d m k))

/-- Keys strictly rising, each above `lo` where one is given. -/
def frising {α : Type} : Option Nat → FMap α → Bool
  | _, [] => true
  | none, (k, _) :: m => frising (some k) m
  | some lo, (k, _) :: m => decide (lo < k) && frising (some k) m

/-- The canonical form. -/
def fwf {α : Type} [DecidableEq α] (d : α) (m : FMap α) : Bool := frising none m && m.all fun p => decide (p.2 ≠ d)

/-! ### Memory -/

/-- What an unlisted address reads as: boot zeroes DRAM and the granaries (R363), launch the scratchpad (R97). -/
abbrev unlisted : Byte := 0

/-- One byte. -/
def Memory.read (m : Memory) (a : Nat) : Byte := fget unlisted m a

/-- Writes one byte. -/
def Memory.write (m : Memory) (a : Nat) (b : Byte) : Memory := fput unlisted m a b

/-- The canonical form of memory. -/
def Memory.wf (m : Memory) : Bool := fwf unlisted m

/-- `n` bytes from `a` upwards. -/
def Memory.readN (m : Memory) (a : Nat) : Nat → List Byte
  | 0 => []
  | n + 1 => m.read a :: Memory.readN m (a + 1) n

/-- Writes bytes from `a` upwards. -/
def Memory.writeN (m : Memory) (a : Nat) : List Byte → Memory
  | [] => m
  | b :: bs => Memory.writeN (m.write a b) (a + 1) bs

/-- The number that bytes spell, lowest first (R3). -/
def natOf (bs : List Byte) : Nat := bs.foldr (fun b n => b.toNat + 256 * n) 0

/-- A word of `w` bits from bytes. -/
def wordOf (w : Nat) (bs : List Byte) : BitVec w := BitVec.ofNat w (natOf bs)

/-! ### Lists -/

/-- Applies `f` to the element at `i`, if there is one. -/
def modifyAt {α : Type} (f : α → α) : Nat → List α → List α
  | _, [] => []
  | 0, x :: xs => f x :: xs
  | i + 1, x :: xs => x :: modifyAt f i xs

/-- The element at `i`. -/
def nth {α : Type} : List α → Nat → Option α
  | [], _ => none
  | x :: _, 0 => some x
  | _ :: xs, i + 1 => nth xs i

/-- Inserts a number into a rising list. -/
def insertNat : List Nat → Nat → List Nat
  | [], n => [n]
  | x :: xs, n => if x < n then x :: insertNat xs n else if x = n then x :: xs else n :: x :: xs

/-- The smallest element of a list that meets `p`, by the measure `f`; the first of several. -/
def leastBy {α : Type} (f : α → Nat) : List α → Option α
  | [] => none
  | x :: xs =>
    match leastBy f xs with
    | none => some x
    | some y => if f x ≤ f y then some x else some y

/-- Inserts by `before` ahead of the first element that is not before it. -/
def insertBy {α : Type} (before : α → α → Bool) (x : α) : List α → List α
  | [] => [x]
  | y :: ys => if before y x then y :: insertBy before x ys else x :: y :: ys

/-- Insertion sort. -/
def sortBy {α : Type} (before : α → α → Bool) : List α → List α
  | [] => []
  | x :: xs => insertBy before x (sortBy before xs)

/-! ### Lanes and masks -/

/-- Lane `l` is in the mask. -/
abbrev Mask.has (m : Mask) (l : Nat) : Bool := m.getLsbD l

/-- The mask of one lane. -/
def laneBit (l : Nat) : Mask := 1#32 <<< l

/-- The lanes 0 to 31. -/
abbrev allLanes : List Nat := [0, 1, 2, 3, 4, 5, 6, 7, 8, 9, 10, 11, 12, 13, 14, 15, 16, 17, 18, 19, 20, 21, 22, 23, 24,
  25, 26, 27, 28, 29, 30, 31]

/-- The lanes of a mask, rising. -/
def lanesOf (m : Mask) : List Nat := allLanes.filter fun l => m.getLsbD l

/-- The mask of the lanes that meet `p`. -/
def maskOf (p : Nat → Bool) : Mask := allLanes.foldl (fun m l => if p l then m ||| laneBit l else m) 0

/-- The lowest lane of a mask. -/
def lowest (m : Mask) : Option Nat := (lanesOf m).head?

end Sys2Proof.Machine
end

