-- ==== Sys2Proof/Machine/Num.lean ====
section
/-! DEFINITION. The number formats (R67 to R70), RoundTo with its flags (R71 to R75), the Q16 codebook (R77, R78),
accumulation (R87, R89), and the mixer (R92, R93). A finite value is exact: sign, natural mantissa, power of two. -/

namespace Sys2Proof.Machine

/-! ### Exact values -/

/-- The exact value (−1)^neg × m × 2^e. -/
structure Ex where
  neg : Bool
  m : Nat
  e : Int
  deriving DecidableEq, Repr, Inhabited

/-- A number as an instruction reads it. -/
inductive FVal where
  | nan
  | inf (neg : Bool)
  | fin (x : Ex)
  deriving DecidableEq, Repr, Inhabited

/-- The flags of R73. -/
abbrev Flags := BitVec 5
abbrev flNV : Flags := 1
abbrev flDZ : Flags := 2
abbrev flOF : Flags := 4
abbrev flUF : Flags := 8
abbrev flNX : Flags := 16

/-- Rounding directions (R71). -/
inductive RMode where
  | rn | rz | rp | rm
  deriving DecidableEq, Repr, Inhabited

/-- A rounding direction and the SAT bit (R72). -/
structure Mode where
  r : RMode
  sat : Bool
  deriving DecidableEq, Repr, Inhabited

/-- Nearest even without saturation. -/
abbrev Mode.plain : Mode := ⟨.rn, false⟩

/-- The value of an integer. -/
def Ex.ofInt (n : Int) : Ex := ⟨decide (n < 0), n.natAbs, 0⟩

/-- The exact product. -/
def Ex.mul (a b : Ex) : Ex := ⟨a.neg != b.neg, a.m * b.m, a.e + b.e⟩

/-- The mantissa of `a` brought to the smaller exponent `e`. -/
def Ex.alignTo (a : Ex) (e : Int) : Nat := a.m * 2 ^ (a.e - e).toNat

/-- The exact sum; a zero result is +0. -/
def Ex.add (a b : Ex) : Ex :=
  let e := min a.e b.e
  let x : Int := if a.neg then -(a.alignTo e : Int) else a.alignTo e
  let y : Int := if b.neg then -(b.alignTo e : Int) else b.alignTo e
  ⟨decide (x + y < 0), (x + y).natAbs, e⟩

def Ex.negate (a : Ex) : Ex := ⟨!a.neg, a.m, a.e⟩

/-- `a < b` as values. -/
def Ex.lt (a b : Ex) : Bool :=
  let d := a.add b.negate
  d.neg

/-- The value times 2^n. -/
def Ex.scale (a : Ex) (n : Int) : Ex := ⟨a.neg, a.m, a.e + n⟩

/-! ### Floating-point formats (R67) -/

/-- Exponent bits, fraction bits and bias of a floating-point format. -/
def floatParams : Fmt → Option (Nat × Nat × Nat)
  | .fp32 => some (8, 23, 127)
  | .fp16 => some (5, 10, 15)
  | .bf16 => some (8, 7, 127)
  | .f8a => some (4, 3, 7)
  | .f8b => some (5, 2, 15)
  | .sm8 | .sm4 | .q16 | .int32 => none

/-- The canonical NaN. -/
def nanCode (eb fb : Nat) : Nat := (2 ^ eb - 1) * 2 ^ fb + 2 ^ (fb - 1)

/-- The infinity of a sign. -/
def infCode (eb fb : Nat) (neg : Bool) : Nat := (if neg then 2 ^ (eb + fb) else 0) + (2 ^ eb - 1) * 2 ^ fb

/-- The largest finite value of a sign. -/
def maxCode (eb fb : Nat) (neg : Bool) : Nat := (if neg then 2 ^ (eb + fb) else 0) + (2 ^ eb - 1) * 2 ^ fb - 1

/-- R67: the value of a code. -/
def decodeFloat (eb fb bias : Nat) (c : Nat) : FVal :=
  let neg := c / 2 ^ (eb + fb) % 2 = 1
  let x := c / 2 ^ fb % 2 ^ eb
  let f := c % 2 ^ fb
  if x = 2 ^ eb - 1 then (if f = 0 then .inf neg else .nan)
  else if x = 0 then .fin ⟨neg, f, 1 - (bias : Int) - fb⟩
  else .fin ⟨neg, 2 ^ fb + f, (x : Int) - bias - fb⟩

/-- The mantissa shifted right by `k`, rounded, and whether bits were lost. A shift past every bit is made short. -/
def roundShift (r : RMode) (neg : Bool) (m k : Nat) : Nat × Bool :=
  let (m, k) := if m.log2 + 2 < k then (if m = 0 then 0 else 1, 3) else (m, k)
  let q := m / 2 ^ k
  let rem := m % 2 ^ k
  let up := match r with
    | .rn => decide (2 ^ k < 2 * rem) || (decide (2 * rem = 2 ^ k) && decide (q % 2 = 1) && decide (rem ≠ 0))
    | .rz => false
    | .rp => decide (rem ≠ 0) && !neg
    | .rm => decide (rem ≠ 0) && neg
  (if up then q + 1 else q, decide (rem ≠ 0))

/-- R72's overflow table. -/
def overflowCode (md : Mode) (eb fb : Nat) (neg : Bool) : Nat :=
  let toInf := !md.sat && match md.r with
    | .rn => true
    | .rz => false
    | .rp => !neg
    | .rm => neg
  if toInf then infCode eb fb neg else maxCode eb fb neg

/-- RoundTo of a finite value to a floating-point format (R72, R73). -/
def roundFloat (md : Mode) (eb fb bias : Nat) (x : Ex) : Nat × Flags :=
  let s := if x.neg then 2 ^ (eb + fb) else 0
  if x.m = 0 then (s, 0)
  else
    let emin : Int := 1 - bias
    let emax : Int := (2 ^ eb - 2 : Nat) - (bias : Int)
    let top : Int := x.m.log2 + x.e
    if emax + 1 < top then (overflowCode md eb fb x.neg, flOF ||| flNX)
    else
      let q : Int := max (top - fb) (emin - fb)
      let (r, nx) := if q ≤ x.e then (x.m * 2 ^ (x.e - q).toNat, false)
        else roundShift md.r x.neg x.m (q - x.e).toNat
      if r = 0 then (s, flUF ||| flNX)
      else
        let er : Int := r.log2 + q
        if emax < er then (overflowCode md eb fb x.neg, flOF ||| flNX)
        else
          let fl : Flags := (if nx then flNX else 0) ||| (if nx && decide (er < emin) then flUF else 0)
          if er < emin then (s + r, fl)
          else (s + (er + bias).toNat * 2 ^ fb + (r / 2 ^ (r.log2 - fb) - 2 ^ fb), fl)

/-- RoundTo of a finite value to an integer in [lo, hi] (R72): the integer and the flags. -/
def roundInt (r : RMode) (lo hi : Int) (x : Ex) : Int × Flags :=
  let (n, nx) := if 0 ≤ x.e then (if x.m = 0 then 0 else if 200 < x.e then 2 ^ 200 else x.m * 2 ^ x.e.toNat, false)
    else roundShift r x.neg x.m (-x.e).toNat
  let v : Int := if x.neg then -n else n
  if hi < v then (hi, flNV)
  else if v < lo then (lo, flNV)
  else (v, if !nx then 0 else if n = 0 then flNX ||| flUF else flNX)

/-- The bounds of an integer format (R69). -/
def intBounds : Fmt → Int × Int
  | .sm8 => (-127, 127)
  | .sm4 => (-7, 7)
  | _ => (-2147483648, 2147483647)

/-- The code of an integer value (R69). -/
def encodeInt (f : Fmt) (v : Int) : Nat :=
  match f with
  | .sm8 => if v < 0 then 128 + v.natAbs else v.natAbs
  | .sm4 => if v < 0 then 8 + v.natAbs else v.natAbs
  | _ => (BitVec.ofInt 32 v).toNat

/-- RoundTo(fmt, x) for every format but Q16 (R72, R73). -/
def roundTo (md : Mode) (f : Fmt) (x : FVal) : Nat × Flags :=
  match floatParams f with
  | some (eb, fb, bias) =>
    match x with
    | .nan => (nanCode eb fb, 0)
    | .inf n => (infCode eb fb n, 0)
    | .fin v => roundFloat md eb fb bias v
  | none =>
    let (lo, hi) := intBounds f
    match x with
    | .nan => (0, flNV)
    | .inf n => (encodeInt f (if n then lo else hi), flNV)
    | .fin v =>
      let (n, fl) := roundInt md.r lo hi v
      (encodeInt f n, fl)

/-- The 16 levels of R77 as FP16 codes. -/
def q16Levels : List Nat :=
  [0x0000, 0xBC00, 0xB983, 0xB816, 0xB5FD, 0xB41E, 0xB0D3, 0xAA5D,
   0x2963, 0x3013, 0x32E9, 0x34F9, 0x36AB, 0x3856, 0x39A9, 0x3C00]

/-- The level of a Q16 code. -/
def q16Level (c : Nat) : Ex :=
  match decodeFloat 5 10 15 ((nth q16Levels (c % 16)).getD 0) with
  | .fin x => x
  | _ => ⟨false, 0, 0⟩

/-- The value of an element's code, before any block scale; a Q16 code's level (R67, R69, R77). -/
def decodeElem (f : Fmt) (c : Nat) : FVal :=
  match f with
  | .fp32 => decodeFloat 8 23 127 c
  | .fp16 => decodeFloat 5 10 15 c
  | .bf16 => decodeFloat 8 7 127 c
  | .f8a => decodeFloat 4 3 7 c
  | .f8b => decodeFloat 5 2 15 c
  | .sm8 => .fin ⟨decide (c / 128 % 2 = 1) && decide (c % 128 ≠ 0), c % 128, 0⟩
  | .sm4 => .fin ⟨decide (c / 8 % 2 = 1) && decide (c % 8 ≠ 0), c % 8, 0⟩
  | .q16 => .fin (q16Level c)
  | .int32 => .fin (Ex.ofInt (BitVec.ofNat 32 c).toInt)

/-- An FP32 register value. -/
def fp (w : Word32) : FVal := decodeFloat 8 23 127 w.toNat

/-- FP32's canonical NaN (R67). -/
abbrev nan32 : Word32 := 0x7FC00000

/-- FMODE's field for a format: its lowest bit (R71). -/
def modeShift : Fmt → Nat
  | .fp32 => 0 | .fp16 => 3 | .bf16 => 6 | .f8a => 9 | .f8b => 12 | .sm8 => 15 | .sm4 => 18 | .int32 => 21
  | .q16 => 21

/-- The rounding mode and saturation of RoundTo (R72, R201). -/
def modeFor (fmode : Word64) (o : Rnd) (f : Fmt) : Mode :=
  let x := fmode.toNat / 2 ^ modeShift f
  let r : RMode := match o with
    | .rn => .rn
    | .rz => .rz
    | .rp => .rp
    | .rm => .rm
    | .dyn => match x % 4 with
      | 0 => .rn
      | 1 => .rz
      | 2 => .rp
      | _ => .rm
  ⟨r, decide (x / 4 % 2 = 1)⟩

/-! ### Arithmetic on values (R234) -/

/-- A result before RoundTo: a value, with the flags its special case raises. -/
abbrev Raised := FVal × Flags

/-- The sum with R234's special cases; `r` decides the sign of an exact zero. -/
def addVal (r : RMode) : FVal → FVal → Raised
  | .nan, _ => (.nan, 0)
  | _, .nan => (.nan, 0)
  | .inf a, .inf b => if a = b then (.inf a, 0) else (.nan, flNV)
  | .inf a, .fin _ => (.inf a, 0)
  | .fin _, .inf b => (.inf b, 0)
  | .fin a, .fin b =>
    if a.m = 0 ∧ b.m = 0 ∧ a.neg = b.neg then (.fin a, 0)
    else
      let s := a.add b
      if s.m = 0 then (.fin ⟨decide (r = .rm), 0, 0⟩, 0) else (.fin s, 0)

/-- The product. -/
def mulVal : FVal → FVal → Raised
  | .nan, _ => (.nan, 0)
  | _, .nan => (.nan, 0)
  | .inf a, .inf b => (.inf (a != b), 0)
  | .inf a, .fin x => if x.m = 0 then (.nan, flNV) else (.inf (a != x.neg), 0)
  | .fin x, .inf b => if x.m = 0 then (.nan, flNV) else (.inf (x.neg != b), 0)
  | .fin x, .fin y => (.fin (x.mul y), 0)

def negVal : FVal → FVal
  | .nan => .nan
  | .inf a => .inf (!a)
  | .fin x => .fin x.negate

/-- a × b + c; a NaN c gives NaN with no flag (R234). -/
def fmaVal (r : RMode) (a b c : FVal) : Raised :=
  match c with
  | .nan => (.nan, 0)
  | _ =>
    let (p, fl) := mulVal a b
    let (s, fl') := addVal r p c
    (s, fl ||| fl')

/-- A quotient or root cut to its leading bits: `exact` false means that the true value lies strictly between `m` and
`m + 1` units of 2^e, which two more bits then record. -/
def cutEx (neg : Bool) (m : Nat) (e : Int) (exact : Bool) : Ex :=
  if exact then ⟨neg, m, e⟩ else ⟨neg, 4 * m + 1, e - 2⟩

/-- The quotient of nonzero finite values, to more bits than any format holds. -/
def divEx (a b : Ex) : Ex :=
  let s := 64 + b.m.log2
  let n := a.m * 2 ^ s
  cutEx (a.neg != b.neg) (n / b.m) (a.e - b.e - s) (decide (n % b.m = 0))

/-- The quotient (R234). -/
def divVal : FVal → FVal → Raised
  | .nan, _ => (.nan, 0)
  | _, .nan => (.nan, 0)
  | .inf _, .inf _ => (.nan, flNV)
  | .inf a, .fin y => (.inf (a != y.neg), 0)
  | .fin x, .inf b => (.fin ⟨x.neg != b, 0, 0⟩, 0)
  | .fin x, .fin y =>
    if y.m = 0 then (if x.m = 0 then (.nan, flNV) else (.inf (x.neg != y.neg), flDZ))
    else if x.m = 0 then (.fin ⟨x.neg != y.neg, 0, 0⟩, 0)
    else (.fin (divEx x y), 0)

/-- The integer square root, bit by bit from bit `b` down. -/
def isqrtGo (n : Nat) : Nat → Nat → Nat
  | 0, r => if (r + 1) * (r + 1) ≤ n then r + 1 else r
  | b + 1, r =>
    let t := r + 2 ^ (b + 1)
    isqrtGo n b (if t * t ≤ n then t else r)

/-- ⌊√n⌋. -/
def isqrt (n : Nat) : Nat := isqrtGo n (n.log2 / 2 + 1) 0

/-- √x for a positive finite value. -/
def sqrtEx (x : Ex) : Ex :=
  let k : Nat := if x.e % 2 = 0 then 80 else 81
  let n := x.m * 2 ^ k
  let r := isqrt n
  cutEx false r ((x.e - k) / 2) (decide (r * r = n))

/-- √x (R236). -/
def sqrtVal : FVal → Raised
  | .nan => (.nan, 0)
  | .inf false => (.inf false, 0)
  | .inf true => (.nan, flNV)
  | .fin x => if x.m = 0 then (.fin x, 0) else if x.neg then (.nan, flNV) else (.fin (sqrtEx x), 0)

/-- 1/√x for a positive finite value. -/
def rsqEx (x : Ex) : Ex :=
  let (m, e) : Nat × Int := if x.e % 2 = 0 then (x.m, x.e) else (2 * x.m, x.e - 1)
  let t := 80 + m.log2
  let n := 2 ^ (2 * t) / m
  let r := isqrt n
  cutEx false r (-(e / 2) - t) (decide (r * r * m = 2 ^ (2 * t)))

/-- 1/√x (R236). -/
def rsqVal : FVal → Raised
  | .nan => (.nan, 0)
  | .inf false => (.fin ⟨false, 0, 0⟩, 0)
  | .inf true => (.nan, flNV)
  | .fin x => if x.m = 0 then (.inf x.neg, flDZ) else if x.neg then (.nan, flNV) else (.fin (rsqEx x), 0)

/-- 1/x (R236). -/
def rcpVal : FVal → Raised
  | .fin x => if x.m = 0 then (.inf x.neg, flDZ) else (.fin (divEx ⟨false, 1, 0⟩ x), 0)
  | v => divVal (.fin ⟨false, 1, 0⟩) v

/-- RoundTo of a raised value; an invalid case sets no other flag (R73). -/
def finish (md : Mode) (f : Fmt) (x : Raised) : Word32 × Flags :=
  let (c, fl) := roundTo md f x.1
  (BitVec.ofNat 32 c, x.2 ||| fl)

/-- ⌊x⌋ of a finite value, as an exact value. -/
def floorEx (x : Ex) : Ex :=
  if 0 ≤ x.e then x else ⟨x.neg, (roundShift .rm x.neg x.m (-x.e).toNat).1, 0⟩

/-- ⌊log2 |x|⌋ of a nonzero finite value. -/
def log2Ex (x : Ex) : Int := x.m.log2 + x.e

/-! ### Comparison (R214, R235) -/

/-- The order of two values that are no NaN: negative, zero or positive as a is below, equal to or above b. -/
def cmpVal : FVal → FVal → Option Int
  | .nan, _ => none
  | _, .nan => none
  | .inf a, .inf b => some (if a = b then 0 else if a then -1 else 1)
  | .inf a, .fin _ => some (if a then -1 else 1)
  | .fin _, .inf b => some (if b then 1 else -1)
  | .fin a, .fin b =>
    let d := a.add b.negate
    some (if d.m = 0 then 0 else if d.neg then -1 else 1)

/-- FPSET's comparisons (R214). -/
def fcmp (c : Cmp) (a b : FVal) : Bool :=
  match cmpVal a b with
  | none => match c with
    | .ne | .un => true
    | _ => false
  | some d => match c with
    | .eq => decide (d = 0)
    | .ne => decide (d ≠ 0)
    | .lt => decide (d < 0)
    | .le => decide (d ≤ 0)
    | .gt => decide (0 < d)
    | .ge => decide (0 ≤ d)
    | .un => false
    | .ord => true

/-- A code's place in the order of R235, −0 below +0: sign and magnitude over `w` bits. -/
def orderKey (w c : Nat) : Int := if c / 2 ^ (w - 1) % 2 = 1 then -((c % 2 ^ (w - 1) : Nat) : Int) - 1 else c % 2 ^ (w - 1)

/-- FMIN (`mx` false) or FMAX on codes of a format of `w` bits (R235). -/
def minMaxCode (f : Fmt) (mx : Bool) (a b : Nat) : Nat :=
  match floatParams f with
  | none => a
  | some (eb, fb, _) =>
    match decodeElem f a, decodeElem f b with
    | .nan, .nan => nanCode eb fb
    | .nan, _ => b
    | _, .nan => a
    | _, _ =>
      let less := decide (orderKey f.width a ≤ orderKey f.width b)
      if less != mx then a else b

/-! ### Q16 encoding (R78) -/

/-- |x| as a value without its sign. -/
def Ex.abs (x : Ex) : Ex := ⟨false, x.m, x.e⟩

/-- The nearest level's code, the lower code on a tie. -/
def nearestQ16 (x g : Ex) : Nat :=
  ((List.range 16).foldl (fun (best : Nat × Ex) c =>
    let d := (x.add (((q16Level c).mul g).negate)).abs
    if d.lt best.2 then (c, d) else best) (0, x.abs)).1

/-- The code of x under the group scale, with flags (R78). -/
def encodeQ16 (x g : FVal) : Nat × Flags :=
  match g with
  | .fin ge =>
    if ge.m = 0 ∨ ge.neg then (0, flNV)
    else match x with
      | .nan => (0, flNV)
      | .inf n => (if n then 1 else 15, flNX)
      | .fin xe =>
        let c := nearestQ16 xe ge
        let d := xe.add (((q16Level c).mul ge).negate)
        (c, if d.m = 0 then 0 else flNX)
  | _ => (0, flNV)

/-! ### Accumulation (R87, R89) -/

/-- ToA96(p, E): the contribution, whether bits were discarded, whether the magnitude reached 2^94. -/
def toA96 (p : Ex) (anchor : Int) : BitVec 96 × Bool × Bool :=
  let sh := p.e + 64 - anchor
  let (n, lost) := if 0 ≤ sh then (p.m * 2 ^ sh.toNat, false)
    else (p.m / 2 ^ (-sh).toNat, decide (p.m % 2 ^ (-sh).toNat ≠ 0))
  (BitVec.ofInt 96 (if p.neg then -(n : Int) else n), lost, decide (2 ^ 94 ≤ n))

/-- The value of a tile element (R86). -/
def fromA96 (x : BitVec 96) (anchor : Int) : Ex := ⟨decide (x.toInt < 0), x.toInt.natAbs, anchor - 64⟩

/-! ### The mixer (R92, R93) -/

/-- The last three lines of R92's loop. -/
def mixStep (y : Word64) : Word64 :=
  let a := (y ^^^ (y >>> 30)) * 0xBF58476D1CE4E5B9
  let b := (a ^^^ (a >>> 27)) * 0x94D049BB133111EB
  b ^^^ (b >>> 31)

/-- One round of R92. -/
def mixRound (k z : Word64) (r : Nat) : Word64 := mixStep (z + (k ^^^ (BitVec.ofNat 64 r * 0x9E3779B97F4A7C15)))

/-- MIX64(k, x) (R92). -/
def mix64 (k x : Word64) : Word64 := mixRound k (mixRound k (mixRound k (mixRound k x 0) 1) 2) 3

/-- Uniform(h) (R93). -/
def uniformVal (h : Word64) : Word32 :=
  BitVec.ofNat 32 (roundFloat .plain 8 23 127 ⟨false, (h >>> 40).toNat, -24⟩).1

/-- T of R93: the sum of the eight bytes. -/
def byteSum (h : Word64) : Nat :=
  (List.range 8).foldl (fun t i => t + ((h >>> (8 * i)) &&& 255).toNat) 0

/-- K of R93. -/
abbrev gaussK : Ex := ⟨false, 0x9CC4BF, -31⟩

/-- Gauss's value before RoundTo: (T − 1020) × K × σ. The exact zero of T = 1020 is +0, so that a negative σ gives −0
(log 72). -/
def gaussVal (h : Word64) (sigma : FVal) : FVal :=
  (mulVal (.fin ((Ex.ofInt (byteSum h - 1020)).mul gaussK)) sigma).1

end Sys2Proof.Machine
end

