-- ==== Sys2Proof/Machine/Ops.lean ====
section
/-! DEFINITION. The named operations over the state: its objects, error records (R407 to R416), trap records and taking
an exception (R421 to R429). -/

namespace Sys2Proof.Machine

/-! ### The objects of the state -/

def getBlock (s : State) (bid : Nat) : Option Block := s.blocks.find? fun b => b.id = bid

def setBlock (s : State) (b : Block) : State := { s with blocks := s.blocks.map fun x => if x.id = b.id then b else x }

def dropBlock (s : State) (bid : Nat) : State := { s with blocks := s.blocks.filter fun x => x.id ≠ bid }

def modBlock (s : State) (bid : Nat) (f : Block → Block) : State :=
  { s with blocks := s.blocks.map fun x => if x.id = bid then f x else x }

def getWave (s : State) (bid w : Nat) : Option Wave := (getBlock s bid).bind fun b => nth b.waves w

def modWave (s : State) (bid w : Nat) (f : Wave → Wave) : State :=
  modBlock s bid fun b => { b with waves := modifyAt f w b.waves }

def getTask (s : State) (id : Nat) : Option Task := s.tasks.find? fun t => t.id = id

def modTask (s : State) (id : Nat) (f : Task → Task) : State :=
  { s with tasks := s.tasks.map fun x => if x.id = id then f x else x }

def getCtx (s : State) (c : Nat) : Ctx := fget .empty s.ctxs c

def modCtx (s : State) (c : Nat) (f : Ctx → Ctx) : State := { s with ctxs := fmod .empty s.ctxs c f }

def getQueue (s : State) (q : Nat) : QueueSt := fget .off s.queues q

def modQueue (s : State) (q : Nat) (f : QueueSt → QueueSt) : State := { s with queues := fmod .off s.queues q f }

def getCore (s : State) (p : Nat) : CoreSt := fget .init s.cores p

def modCore (s : State) (p : Nat) (f : CoreSt → CoreSt) : State := { s with cores := fmod .init s.cores p f }

/-- The owner a context presents (R108, R115). -/
def ctxOwner (s : State) (c : Nat) : Nat := match (getCtx s c).desc with
  | some d => d.owner
  | none => 0

/-- The task flags of R158. -/
def Task.det (t : Task) : Bool := t.f.flags.getLsbD 0
def Task.coop (t : Task) : Bool := t.f.flags.getLsbD 1
def Task.pri (t : Task) : Nat := (t.f.flags.toNat / 16) % 4

def taskDet (s : State) (id : Nat) : Bool := match getTask s id with
  | some t => t.det
  | none => false

/-- Sends a signal to the outside world. -/
def emit (s : State) (x : Signal) : State := { s with outbox := s.outbox ++ [x] }

/-- A new identity. -/
def fresh (s : State) : Nat × State := (s.nextId, { s with nextId := s.nextId + 1 })

/-- The counter of the free values, advanced. -/
def freeIx (s : State) : Nat × State := (s.freeIx, { s with freeIx := s.freeIx + 1 })

/-- The stack of a physical core (R16). -/
def dieOf (p : Nat) : Nat := p / 16

/-! ### Physical addresses (R100, R101) -/

abbrev dieSpan : Nat := 0xB40000000
abbrev dramEnd : Nat := 0x2D00000000
abbrev ctlBase : Nat := 0xFF0000000000

/-- The stack whose DRAM holds the address. -/
def paDie (pa : Nat) : Nat := pa / dieSpan

/-- The channel within the die (R101). -/
def paChannel (pa : Nat) : Nat :=
  let o := pa % dieSpan
  (o / 2 ^ 10 % 16) ^^^ (o / 2 ^ 14 % 16)

/-- The home slice, 16 times the die plus the channel. -/
def paSlice (pa : Nat) : Nat := 16 * paDie pa + paChannel pa

/-- The control-space region of an offset: an access-table target of its own (R119, R354); the offsets past the control
register files go with the root of trust's (log 22). -/
def ctlRegion (off : Nat) : Nat :=
  if off < 0x100000 then 0 else if off < 0x200000 then 1 else if off < 0x300000 then 2
  else if off < 0x400000 then 3 else if off < 0x500000 then 4 else if 0x1000000 ≤ off ∧ off < 0x2000000 then 6 else 5

/-- The access-table target at an address: slices 0 to 63, granaries 64 to 67, control space from 68 (R119). -/
def paTarget (pa : Nat) : Nat := if pa < dramEnd then paSlice pa else 68 + ctlRegion (pa - ctlBase)

/-- R119's reset column. -/
def accessDefault (m : Nat) : BitVec 2 :=
  if 0x40 ≤ m ∧ m ≤ 0x48 then 3 else if m = 0x4B ∨ m = 0x4C then 3 else 0

/-- A master's entry in a target's table. -/
def accessBits (s : State) (target m : Nat) : BitVec 2 := fget (accessDefault m) s.access (target * 128 + m)

/-- R119: the target's table lets the master read, or write. -/
def tableOk (s : State) (target m : Nat) (wr : Bool) : Bool :=
  decide (m < 0x4E) && (accessBits s target m).getLsbD (if wr then 1 else 0)

/-- A frame's owner where none has been installed since reset (R363). -/
def ownerDefault (frame : Nat) : Nat := if frame < 16384 then 0xFFFF else 0

def frameOwner (s : State) (frame : Nat) : Nat := fget (ownerDefault frame) s.owners frame

def setOwner (s : State) (frame o : Nat) : State := { s with owners := fput (ownerDefault frame) s.owners frame o }

/-- R115: an owner may reach a frame. -/
def ownerOk (s : State) (o pa : Nat) : Bool :=
  let f := frameOwner s (pa / 65536)
  decide (f = o) && decide (f ≠ 0)

/-- R411, R426, R154: a range lies wholly in frames owned by 0xFFFF. -/
def ownedByHyp (s : State) (pa len : Nat) : Bool :=
  decide (pa + len ≤ dramEnd) &&
  (List.range ((pa + len + 65535) / 65536 - pa / 65536)).all fun i => frameOwner s (pa / 65536 + i) = 0xFFFF

/-! ### The home's answer (R95 steps 4 and 5) -/

inductive HomeAns where
  | ok
  /-- The access table denies the master (R119). -/
  | table
  /-- The frame belongs to another owner (R115). -/
  | owner (o : Nat)
  deriving DecidableEq, Repr, Inhabited

/-- Access table before frame ownership. -/
def homeAns (s : State) (m o pa : Nat) (wr : Bool) : HomeAns :=
  if !tableOk s (paTarget pa) m wr then .table
  else if ownerOk s o pa then .ok
  else .owner (frameOwner s (pa / 65536))

/-- The pieces of an access within blocks: address and length. -/
def piecesOf (pa n : Nat) : List (Nat × Nat) :=
  if n = 0 then []
  else (List.range ((pa + n + 63) / 64 - pa / 64)).map fun i =>
    let a := if i = 0 then pa else (pa / 64 + i) * 64
    (a, min (pa + n) ((pa / 64 + i + 1) * 64) - a)

/-- What the homes answer to a master: the first denial. -/
def masterAns (s : State) (m o pa n : Nat) (wr : Bool) : Option (Nat × HomeAns) :=
  (piecesOf pa n).findSome? fun p =>
    let r := if dramEnd ≤ p.1 then HomeAns.owner 0 else homeAns s m o p.1 wr
    if r = .ok then none else some (p.1, r)

/-! ### Blocks of DRAM at their homes (R80, R84, R135, R451) -/

/-- Drops a line from the L1 of every core of a stack but one. -/
def dropL1s (s : State) (die line : Nat) (keep : Option Nat) : State :=
  { s with l1 := (List.range 16).foldl (fun m k =>
      if keep = some (16 * die + k) then m else fdel m ((16 * die + k) * 2 ^ 48 + line)) s.l1 }

abbrev l1Key (core line : Nat) : Nat := core * 2 ^ 48 + line
abbrev stackKey (die line : Nat) : Nat := die * 2 ^ 48 + line

/-- A stack's copy of a line goes, and with it the L1 copies of its cores (R135). -/
def dropStackLine (s : State) (die line : Nat) : State :=
  dropL1s { s with stack := fdel s.stack (stackKey die line) } die line none

/-- A write will not be performed where it was on its way to: the copies that have taken it go, its core's and, past its
die point, its stack's, whose stamp nobody may confirm any more (R125, R135, R145, log 97). -/
def undoCopies (s : State) (f : Flight) : State :=
  match f.place with
  | .phys pa _ _ _ =>
    if f.die then
      let t := dropStackLine s (dieOf f.core) (pa / 64)
      { t with stamps := fdel t.stamps (pa / 64) }
    else { s with l1 := fdel s.l1 (l1Key f.core (pa / 64)) }
  | _ => s

/-- A write to the line advances its stamp; a stamp that would wrap loses the entry (R451). -/
def bumpStamp (s : State) (line : Nat) : State :=
  match ffind s.stamps line with
  | none => s
  | some e => if e.stamp = 65535 then { s with stamps := fdel s.stamps line }
    else { s with stamps := fins s.stamps line { e with stamp := e.stamp + 1 } }

/-! ### Granary regions (R104, R117) -/

/-- Entries outside granary region `k`, die × 128 + region, of `span` keys. -/
def outsideRegion {α : Type} (k span : Nat) (m : FMap α) : FMap α := m.filter fun p => p.1 / span ≠ k

/-- A granary region is zero, with tags 0x0000 and no poison. -/
def zeroRegion (s : State) (k : Nat) : State :=
  { s with
    gran := outsideRegion k (2 ^ 21) s.gran
    gtag := outsideRegion k (2 ^ 15) s.gtag
    gpoison := outsideRegion k (2 ^ 15) s.gpoison
    gupsets := outsideRegion k (2 ^ 15) s.gupsets }

/-- A MAP ENTRY FOR ANOTHER OWNER (R117): the region of a die is cleared as soon as it is claimed for an owner other than
its last (log 51). -/
def claimRegion (s : State) (die region o : Nat) : State :=
  let k := die * 128 + region
  let old := fget 0 s.regions k
  if old = o then s
  else
    let s := if old = 0 then s else zeroRegion s k
    { s with regions := fput 0 s.regions k o }

/-- The valid ones of a map's entries claim their regions for its context's owner. -/
def claimEntries (s : State) (d : CtxDesc) (is : List Nat) : State :=
  is.foldl (fun s i =>
    let e := natOf (s.dram.readN (d.gmap + 4 * i) 4)
    if 2 ^ 31 ≤ e ∧ e / 512 % 2 ^ 22 = 0 then claimRegion s (e / 128 % 4) (e % 128) d.owner else s) s

/-- A context is installed: its map's entries are valid from now on. -/
def claimMap (s : State) (d : CtxDesc) : State := claimEntries s d (List.range 512)

/-- Bytes written at an address make valid the entries that they change of the maps of the installed contexts. -/
def claimWritten (s : State) (pa n : Nat) : State :=
  s.ctxs.foldl (fun s p => match p.2.desc with
    | some d => if pa < d.gmap + 2048 ∧ d.gmap < pa + n then
        claimEntries s d ((List.range 512).filter fun i => decide (pa < d.gmap + 4 * i + 4) && decide (d.gmap + 4 * i < pa + n))
      else s
    | none => s) s

/-- Bytes reach their block at the home: every core of the home's stack sees them from then on. All 64 bytes of a
block clear its poison and its upsets (R412, R448). The bytes lie in one block. Those of a granary map claim regions. -/
def homePut (s : State) (pa : Nat) (bytes : List Byte) : State :=
  let blk := pa / 64
  let s := claimWritten { s with dram := s.dram.writeN pa bytes } pa bytes.length
  let s := bumpStamp (dropL1s s (paDie pa) blk none) blk
  if bytes.length = 64 then
    let s := if fget false s.dpoison blk then { s with dtag := fdel s.dtag blk } else s
    { s with dpoison := fdel s.dpoison blk, upsets := fdel s.upsets blk }
  else s

/-- A tag reaches its block at the home. -/
def homePutTag (s : State) (blk : Nat) (t : BitVec 16) : State :=
  bumpStamp (dropL1s { s with dtag := fput 0 s.dtag blk t } (blk * 64 / dieSpan) blk none) blk

/-- The CP's master identity (R119). -/
abbrev cpMaster : Nat := 0x48

/-- A master in the IOD has reached a home on a die: its flits leave in the next clock (R10, log 27). -/
def iodAccess (s : State) (die : Nat) (answer : Bool) : State := { s with iodOut := s.iodOut ++ [(die, answer)] }

/-- A 64-byte record of a log, by master 0x48 with owner 0xFFFF: nothing is written where the home denies it, and the
denial is the answer (R410, R411). -/
def putRecord (s : State) (pa : Nat) (bytes : List Byte) : State × Option (Nat × HomeAns) :=
  match masterAns s cpMaster 0xFFFF pa 64 true with
  | some d => (s, some d)
  | none => ((piecesOf pa bytes.length).foldl (fun s p =>
      homePut (iodAccess s (paDie p.1) false) p.1 ((bytes.drop (p.1 - pa)).take p.2)) s, none)

/-! ### Error records (R407 to R411) -/

/-- A record of an event with every field "none". -/
def errRec (cls : Nat) (event : Nat) : ErrRec where
  cls := BitVec.ofNat 8 cls
  event := BitVec.ofNat 16 event
  seq := 0
  time := 0
  ctx := 0xFFFF
  owner := 0
  queue := 0xFFFF
  die := 0xFF
  core := 0xFF
  unit := 0xFF
  index := 0xFF
  flags := 0
  exc := 0
  count := 1
  pa := 0
  va := 0
  tp := 0
  blk := 0
  detail := 0

def ErrRec.atCtx (r : ErrRec) (s : State) (c : Nat) : ErrRec :=
  { r with ctx := BitVec.ofNat 16 c, owner := BitVec.ofNat 16 (ctxOwner s c) }

/-- With a physical address, rounded down to its block. -/
def ErrRec.atPa (r : ErrRec) (pa : Nat) : ErrRec :=
  { r with pa := BitVec.ofNat 64 (pa / 64 * 64), flags := r.flags ||| 1 }

def ErrRec.atVa (r : ErrRec) (va : Word64) : ErrRec := { r with va := va, flags := r.flags ||| 2 }

def ErrRec.atTp (r : ErrRec) (tp : Word64) : ErrRec := { r with tp := tp, flags := r.flags ||| 4 }

def ErrRec.atBlk (r : ErrRec) (b : Nat) : ErrRec := { r with blk := BitVec.ofNat 48 b, flags := r.flags ||| 8 }

def ErrRec.atUnit (r : ErrRec) (die core unit index : Nat) : ErrRec :=
  { r with die := BitVec.ofNat 8 die, core := BitVec.ofNat 8 core, unit := BitVec.ofNat 8 unit,
           index := BitVec.ofNat 8 index }

def ErrRec.det (r : ErrRec) (d : Nat) : ErrRec := { r with detail := BitVec.ofNat 16 d }

/-- R407's layout. -/
def ErrRec.bytes (r : ErrRec) : List Byte :=
  [1, r.cls] ++ bytesOfNat 2 r.event.toNat ++ bytesOfNat 4 r.seq ++ bytesOfNat 8 r.time.toNat ++
  bytesOfNat 2 r.ctx.toNat ++ bytesOfNat 2 r.owner.toNat ++ bytesOfNat 2 r.queue.toNat ++
  [r.die, r.core, r.unit, r.index, r.flags, r.exc] ++ bytesOfNat 4 r.count.toNat ++ bytesOfNat 8 r.pa.toNat ++
  bytesOfNat 8 r.va.toNat ++ bytesOfNat 8 r.tp.toNat ++ bytesOfNat 6 r.blk.toNat ++ bytesOfNat 2 r.detail.toNat

/-- MSI-X vector 0 and the reeves' external interrupt (R410, R426). -/
def announce (s : State) : State := emit (emit s (.msix 0)) .reeveIrq

/-- The record of a master's denial, its own number in DETAIL for an access table: EVENT 0x0032 or 0x0030 (R119, R454). -/
def denialOf (m : Nat) (d : Nat × HomeAns) : ErrRec := match d.2 with
  | .owner o => { ((errRec 4 0x0030).atPa d.1).det o with owner := BitVec.ofNat 16 o }
  | _ => ((errRec 4 0x0032).atPa d.1).det m

/-- A record takes the next SEQ of the physical log and its place in FATBUF (R410). -/
def keepRecord (s : State) (r : ErrRec) : ErrRec × State :=
  let p := s.plog
  let r := { r with seq := p.seq, time := s.time.ptp, flags := r.flags ||| (if p.lostBefore then 16 else 0) }
  (r, { s with plog := { p with seq := p.seq + 1, fatbuf := fins p.fatbuf (p.seq % 64) r } })

/-- A record that the ring does not take (R410). -/
def loseRecord (s : State) : State := { s with plog := { s.plog with lost := s.plog.lost + 1, lostBefore := true } }

/-- The physical log (R410). Where the home denies the ring to the CP, the record is dropped from it, and the denial's own
record with it, so that both stand in FATBUF alone (R115, R119, log 67). -/
def logPhysical (s : State) (r : ErrRec) : State :=
  let p := s.plog
  let (r, s) := keepRecord s r
  if p.base = 0 ∨ (p.widx - p.ridx).toNat = 2 ^ p.log.toNat then loseRecord s
  else match putRecord s (p.base.toNat + 64 * (p.widx.toNat % 2 ^ p.log.toNat)) r.bytes with
    | (s, none) => announce { s with plog := { s.plog with widx := p.widx + 1, lostBefore := false } }
    | (s, some d) => loseRecord (keepRecord (loseRecord s) (denialOf cpMaster d)).2

/-- The context whose virtual queue takes a copy (R411). -/
def virtualCtx (s : State) (r : ErrRec) : Option Nat :=
  if r.ctx ≠ 0xFFFF then some r.ctx.toNat
  else if r.owner = 0 then none
  else (s.ctxs.find? fun c => c.2.vq.v && decide ((match c.2.desc with
    | some d => d.owner
    | none => 0) = r.owner.toNat)).map (·.1)

/-- The copy in a context's virtual error queue (R411): the last free unit is kept for EVENT 0x0024. -/
def logVirtual (s : State) (c : Nat) (r : ErrRec) : State :=
  let x := getCtx s c
  let used := (x.vq.widx - x.vq.ridx).toNat
  let depth := 2 ^ x.vq.log.toNat
  if !x.vq.v ∨ used = depth ∨ (r.event ≠ 0x0024 ∧ used + 1 = depth) then
    modCtx s c fun x => { x with vq := { x.vq with lost := x.vq.lost + 1 }, vlostBefore := true }
  else
    let r := { r with seq := x.vseq, time := s.time.ptp, die := 0xFF, core := 0xFF, unit := 0xFF, index := 0xFF,
                      flags := (r.flags &&& 0x0F) ||| 0x20 ||| (if x.vlostBefore then 16 else 0) }
    match putRecord s (x.vq.base.toNat + 64 * (x.vq.widx.toNat % 2 ^ x.vq.log.toNat)) r.bytes with
    | (s, none) => announce (modCtx s c fun x =>
      { x with vq := { x.vq with widx := x.vq.widx + 1 }, vseq := x.vseq + 1, vlostBefore := false })
    | (s, some d) => logPhysical (modCtx s c fun x =>
      { x with vq := { x.vq with lost := x.vq.lost + 1 }, vlostBefore := true }) (denialOf cpMaster d)

/-- Writes a record to the physical log and, for an event marked Virtual, its copy (R408 to R411). -/
def logErr (s : State) (virt : Bool) (r : ErrRec) : State :=
  let s := logPhysical s r
  if virt then
    match virtualCtx s r with
    | some c => logVirtual s c r
    | none => s
  else s

/-! ### Leaky buckets (R414) -/

/-- A bucket's place in the map. -/
def bucketKey : BucketId → Nat
  | .frame f => 5 * f
  | .lane c u l => 5 * ((c * 16 + u) * 64 + l) + 1
  | .core p => 5 * p + 2
  | .slice i => 5 * i + 3
  | .bank i => 5 * i + 4

/-- R414's thresholds. -/
def bucketLimit : BucketId → Nat
  | .frame _ => 16
  | .lane .. => 8
  | .core _ => 32
  | .slice _ => 64
  | .bank _ => 64

/-- An escalation's COUNT is the level that its bucket has reached (R407). -/
def ErrRec.level (r : ErrRec) (b : BucketId) : ErrRec := { r with count := BitVec.ofNat 32 (bucketLimit b) }

/-- The enumeration table changes: GEN is odd until the change is complete; a change under way is completed before the
next begins (R373). -/
def changeTable (s : State) : State := { s with gen := s.gen + (if s.gen.getLsbD 0 then 2 else 1) }

/-- The retirement of a frame is requested, once (R415, R416 step 5). -/
def askFrame (s : State) (f count : Nat) : State :=
  if fget false s.asked f then s
  else logErr { s with asked := fput false s.asked f true } true { (errRec 4 0x0010).atPa (f * 65536) with
    owner := BitVec.ofNat 16 (frameOwner s f), count := BitVec.ofNat 32 count, die := BitVec.ofNat 8 (paDie (f * 65536)) }

/-- R415's action at the threshold; a retired slice loses its stamps (R451), and a bank takes a spare row for its worst row
while it has one (R414, log 68). -/
def bucketAction (s : State) (b : BucketId) : State :=
  match b with
  | .frame f => askFrame s f 16
  | .lane c u l => modCore s c fun x => if x.closing = none then { x with closing := some (some (u, l)) } else x
  | .core p => modCore s p fun x => { x with closing := some none }
  | .slice i => if fget false s.retiredSlices i then s else
    let s := { s with
      retiredSlices := fput false s.retiredSlices i true
      stamps := s.stamps.filter fun p => paSlice (p.1 * 64) ≠ i }
    logErr (changeTable s) false ((errRec 4 0x0013).atUnit (i / 16) 0xFF 21 (i % 16) |>.level b)
  | .bank i => if fget false s.retiredBanks i then s
    else if fget 0 s.spareRows i < Config.spareRows i then
      { s with
        spareRows := fmod 0 s.spareRows i (· + 1)
        buckets := fdel s.buckets (bucketKey b) }
    else
      logErr (changeTable { s with retiredBanks := fput false s.retiredBanks i true }) false
        ((errRec 4 0x0014).atUnit (i / 32) 0xFF 22 (i % 32) |>.level b)

/-- An event in a bucket's unit: one up, or to the threshold at once (R414). -/
def bucketUp (s : State) (b : BucketId) (uncorrectable : Bool) : State :=
  let n := fget 0 s.buckets (bucketKey b)
  let n' := if uncorrectable then bucketLimit b else min (n + 1) (bucketLimit b)
  let s := { s with buckets := fput 0 s.buckets (bucketKey b) n' }
  if n < bucketLimit b ∧ n' = bucketLimit b then bucketAction s b else s

/-! ### ECC at the home (R447, R449) -/

/-- The check of a block on a DRAM read: corrected, or poisoned, and recorded with the frame's owner and no context, as
in the worked case after R418; what its bucket brings about is a notice, between a deferred and a corrected event
(R409). -/
def eccCheck (s : State) (blk : Nat) : State :=
  match fget 0 s.upsets blk with
  | 0 => s
  | n + 1 =>
    let pa := blk * 64
    let (ix, s) := freeIx { s with upsets := fdel s.upsets blk }
    let r := ((errRec (if n = 0 then 0 else 1) (if n = 0 then 1 else 2)).atPa pa).atUnit (paDie pa) 0xFF 27 (paChannel pa)
    let r := { r with owner := BitVec.ofNat 16 (frameOwner s (pa / 65536)), detail := Config.syndrome ix }
    if n = 0 then logErr (bucketUp s (.frame (pa / 65536)) false) true r
    else
      let s := { s with dpoison := fput false s.dpoison blk true, dtag := fdel s.dtag blk }
      bucketUp (logErr s true r) (.frame (pa / 65536)) true

/-- A block's record goes before another's: the deferred before the corrected, then by DIE and INDEX (R409). -/
def checkedBefore (s : State) (a b : Nat) : Bool :=
  let key (k : Nat) : Nat :=
    (if fget 0 s.upsets k = 1 then 64 else 0) + 16 * paDie (k * 64) + paChannel (k * 64)
  decide (key a < key b) || (decide (key a = key b) && decide (a < b))

/-- The blocks of a range are checked (R447). -/
def checkRange (s : State) (pa n : Nat) : State :=
  (sortBy (checkedBefore s) ((s.upsets.map (·.1)).filter fun b =>
    decide (pa / 64 ≤ b) && decide (b * 64 < pa + n))).foldl eccCheck s

/-- The same for a granary block, die × 2^22 + block (R447); no frame names an owner there, so the record names the
context whose access read it, 0xFFFF where there is none, and that context's owner. -/
def granCheck (s : State) (blk ctx : Nat) : State :=
  match fget 0 s.gupsets blk with
  | 0 => s
  | n + 1 =>
    let die := blk / 2 ^ 22
    let bank := blk % 32
    let (ix, s) := freeIx { s with gupsets := fdel s.gupsets blk }
    let r := (errRec (if n = 0 then 0 else 1) (if n = 0 then 5 else 6)).atUnit die 0xFF 22 bank
    let r := if ctx < 4096 then r.atCtx s ctx else r
    let r := { r with detail := Config.arrayNumber ix }
    if n = 0 then logErr (bucketUp s (.bank (32 * die + bank)) false) false r
    else
      let s := { s with gpoison := fput false s.gpoison blk true, gtag := fdel s.gtag blk }
      bucketUp (logErr s true r) (.bank (32 * die + bank)) true

/-! ### Writes by a master at the homes (R84, R95, R119, R447) -/

/-- The denial's record. -/
def masterDenied (s : State) (m : Nat) (d : Nat × HomeAns) : State := logErr s false (denialOf m d)

/-- A permitted write of one piece. -/
def masterPut (s : State) (pa : Nat) (bs : List Byte) : State :=
  homePut (if bs.length = 64 then iodAccess s (paDie pa) false else eccCheck (iodAccess s (paDie pa) false) (pa / 64)) pa bs

/-- A write by a master: each piece is performed, or denied and logged; true where nothing was denied. -/
def masterWrite (s : State) (m o pa : Nat) (bytes : List Byte) : State × Bool :=
  (piecesOf pa bytes.length).foldl (fun (x : State × Bool) p =>
    match masterAns x.1 m o p.1 p.2 true with
    | some d => (masterDenied x.1 m d, false)
    | none => (masterPut x.1 p.1 ((bytes.drop (p.1 - pa)).take p.2), x.2)) (s, true)

/-- BYTES BY THE CP, with owner 0xFFFF, over as many blocks as they reach (R154, R357, R426). -/
def cpPut (s : State) (pa : Nat) (bytes : List Byte) : State := (masterWrite s cpMaster 0xFFFF pa bytes).1

/-! ### Trap records (R421 to R427) -/

/-- R421's codes. -/
def Exc.code : Exc → Nat
  | .illop => 0x01 | .badfld => 0x02 | .trcap => 0x03 | .trshape => 0x04 | .wunchk => 0x05 | .align => 0x06
  | .apert => 0x07 | .pgflt => 0x08 | .prot => 0x09 | .emptyt => 0x0B | .defrd => 0x0C | .detcap => 0x0D
  | .divcall => 0x0E | .stkovf => 0x0F | .glive => 0x10 | .swtrap => 0x11 | .brkpt => 0x12 | .ckfail => 0x13
  | .tagfmt => 0x14 | .seqerr => 0x16

/-- R425's layout. -/
def TrapRec.bytes (r : TrapRec) : List Byte :=
  [1, r.kind, BitVec.ofNat 8 r.exc.code, r.flags] ++ bytesOfNat 4 r.seq ++
  bytesOfNat 8 (r.seq % 2 ^ 32 + r.ctx % 4096 * 2 ^ 32) ++ bytesOfNat 2 r.ctx ++ bytesOfNat 2 r.queue ++
  bytesOfNat 2 r.tseq.toNat ++ [r.wave, r.field] ++ bytesOfNat 4 r.lanes.toNat ++ bytesOfNat 4 r.detail.toNat ++
  bytesOfNat 8 r.tp.toNat ++ bytesOfNat 8 r.word.toNat ++ bytesOfNat 8 r.va.toNat ++ bytesOfNat 6 r.blk ++ [0, 0]

/-- A record of a block's exception, its SEQ to be given. -/
def trapOf (s : State) (b : Block) (kind : Nat) (e : Exc) : TrapRec :=
  let (q, t) := match getTask s b.task with
    | some t => (t.queue, t.tseq)
    | none => (0, 0)
  { kind := BitVec.ofNat 8 kind, exc := e, flags := 0, seq := 0, ctx := b.ctx, queue := q, tseq := t, wave := 0xFF,
    field := 0xFF, lanes := 0, detail := 0, tp := 0, word := 0, va := 0, blk := b.lin }

/-- The record takes the context's next SEQ and is held until its ring has a unit (R427); the SEQ is returned. -/
def holdTrap (s : State) (r : TrapRec) : Nat × State :=
  let n := (getCtx s r.ctx).xseq
  (n, modCtx s r.ctx fun x => { x with xseq := n + 1, held := x.held ++ [{ r with seq := n }] })

/-! ### Lanes -/

def laneOf (w : Wave) (l : Nat) : Lane := (nth w.lanes l).getD default

/-- Changes the lanes of a mask. -/
def Wave.modLanes (w : Wave) (m : Mask) (f : Nat → Lane → Lane) : Wave :=
  { w with lanes := (List.range w.lanes.length).zip w.lanes |>.map fun p => if m.getLsbD p.1 then f p.1 p.2 else p.2 }

/-- The lanes whose state meets `p`. -/
def Wave.lanesWhere (w : Wave) (p : LaneState → Bool) : Mask := maskOf fun l =>
  match nth w.lanes l with
  | some x => p x.st
  | none => false

def Wave.runnable (w : Wave) : Mask := w.lanesWhere fun st => st = .runnable

def Wave.exited (w : Wave) : Mask := w.lanesWhere fun st => st = .exited

def LaneState.isTrapped : LaneState → Bool
  | .trapped .. => true
  | _ => false

/-- R27: the smallest TP among the runnable lanes, and the lanes that have it. -/
def Wave.batch (w : Wave) : Option (Word64 × Mask) :=
  let r := w.runnable
  match leastBy (fun l => (laneOf w l).tp.toNat) (lanesOf r) with
  | none => none
  | some l =>
    let tp := (laneOf w l).tp
    some (tp, maskOf fun i => r.getLsbD i && decide ((laneOf w i).tp = tp))

/-! ### Discard (R5, R62) -/

/-- Everything of the trace is dropped; every lane of the batch, those that left included, is back at the TP, the draw
counter and the sequence with which the batch was formed. -/
def Wave.discard (w : Wave) : Wave :=
  match w.trace with
  | none => w
  | some t =>
    { (w.modLanes t.batch fun l x =>
        { x with tp := t.start, st := .runnable, draw := (nth t.draws l).getD x.draw, seq := (nth t.seqs l).getD x.seq })
      with trace := none, det := t.det }

/-- Lane l's share of a trace is dropped for the lanes of `m` (R5, R52). -/
def TraceRun.drop (t : TraceRun) (m : Mask) : TraceRun :=
  { t with
    live := t.live &&& ~~~m
    ov := t.ov.filter fun p => !m.getLsbD (p.1 % 32)
    kc := t.kc.filter fun p => !m.getLsbD (p.1 % 32)
    flags := t.flags.filter fun p => !m.getLsbD p.1
    watch := t.watch.filter fun r => !m.getLsbD r.lane }

/-- Lanes trapped for what they had committed leave the trace that runs now, at the TP that their commit gave them
(R424). -/
def Wave.abandon (w : Wave) (m : Mask) : Wave :=
  match w.trace with
  | none => w
  | some t =>
    let w := w.modLanes (m &&& t.batch) fun l x =>
      { x with tp := t.start, draw := (nth t.draws l).getD x.draw, seq := (nth t.seqs l).getD x.seq }
    let u := t.drop m
    match decide (u.live = 0) with
    | true => { w with trace := none, det := t.det }
    | false => { w with trace := some { u with batch := t.batch &&& ~~~m } }

/-! ### Taking an exception (R421, R423) -/

/-- What stops a lane at a word. -/
inductive Stop where
  /-- An exception with its FIELD, DETAIL and faulting address (R425). -/
  | exc (e : Exc) (field detail : Nat) (va : Option Word64)
  /-- A read that frame ownership denied: the wave parks on the page and no record is written (R454). -/
  | park (va : Word64)
  /-- A stale translation: the trace is discarded and runs again (R453). -/
  | stale
  /-- Poison consumed at the address (R413): the context is lost. DETAIL names the agent. -/
  | poison (va : Word64) (pa agent : Nat)
  deriving DecidableEq, Repr, Inhabited

/-- A stop of one lane. -/
abbrev Raise := Nat × Stop

/-- An exception that touches no memory. -/
abbrev Stop.plain (e : Exc) : Stop := .exc e 0xFF 0 none

/-- The lanes that raise `e`. -/
def raising (rs : List Raise) (e : Exc) : List Raise := rs.filter fun r => match r.2 with
  | .exc e' _ _ _ => e' = e
  | _ => false

/-- Every code in ascending order. -/
def excOrder : List Exc :=
  [.illop, .badfld, .trcap, .trshape, .wunchk, .align, .apert, .pgflt, .prot, .emptyt, .defrd, .detcap, .divcall,
   .stkovf, .glive, .swtrap, .brkpt, .ckfail, .tagfmt, .seqerr]

def raiseVa (r : Raise) : Option Word64 := match r.2 with
  | .exc _ _ _ va => va
  | .park va => some va
  | .poison va _ _ => some va
  | .stale => none

/-- The pages that lanes touch, in the order of the lowest lane that touches each. -/
def pagesOf (rs : List Raise) : List Nat := (rs.filterMap raiseVa).foldl (fun ps v =>
  if v.toNat / 65536 ∈ ps then ps else ps ++ [v.toNat / 65536]) []

/-- The fields a record of a wave shares (R425). -/
def trapWave (s : State) (b : Block) (w : Nat) (kind : Nat) (e : Exc) (lanes : Mask) (tp word : Word64) : TrapRec :=
  { trapOf s b kind e with wave := BitVec.ofNat 8 w, lanes := lanes, tp := tp, word := word }

/-- R425's FLAGS. -/
def trapFlags (va post decode : Bool) : BitVec 8 :=
  (if va then 1 else 0) ||| (if post then 2 else 0) ||| (if decode then 4 else 0)

/-- Records of the page faults of one discard: KIND 2, one for each page, and the wave parks on them (R185, R425). -/
def takePageFaults (s : State) (b : Block) (w : Nat) (tp word : Word64) (decode : Bool) (rs : List Raise) : State :=
  (pagesOf rs).foldl (fun s p =>
    let mine := rs.filter fun r => match raiseVa r with
      | some v => v.toNat / 65536 = p
      | none => false
    let va := ((mine.head?).bind raiseVa).getD 0
    let m := maskOf fun l => mine.any fun r => r.1 = l
    let (_, s) := holdTrap s { trapWave s b w 2 .pgflt m tp word with va := va, flags := trapFlags true false decode }
    modWave s b.id w fun x => { x with parked := insertNat x.parked p }) s

/-- One record for the lanes that raise `e`, which are trapped by it. `post` leaves their TP as commit gave it. A lane that
has exited by then is named in the record and stays exited (log 92). -/
def takeOne (s : State) (b : Block) (w : Nat) (tp word : Word64) (post decode : Bool) (rs : List Raise) (e : Exc) :
    State :=
  match raising rs e with
  | [] => s
  | (l, st) :: rest =>
    if e = .pgflt then takePageFaults s b w tp word decode ((l, st) :: rest)
    else
      let m := maskOf fun i => ((l, st) :: rest).any fun r => r.1 = i
      let (f, d, va) := match st with
        | .exc _ f d va => (f, d, va)
        | _ => (0xFF, 0, none)
      let (n, s) := holdTrap s { trapWave s b w 0 e m tp word with
        field := BitVec.ofNat 8 f, detail := BitVec.ofNat 32 d, va := va.getD 0,
        flags := trapFlags va.isSome post decode }
      modWave s b.id w fun x => x.modLanes m fun _ y => if y.st = .exited then y else { y with st := .trapped n e post word }

/-- TAKING AN EXCEPTION (R421 to R423, R425). The batch's trace is discarded once; each code has one record, in ascending
order, and its lanes are trapped at the batch's TP; page faults park the wave and trap no lane; a denied read parks it
without a record (R454). -/
def takeStops (s : State) (b : Block) (w : Nat) (tp word : Word64) (decode : Bool) (rs : List Raise) : State :=
  let rs := sortBy (fun x y : Raise => decide (x.1 < y.1)) rs
  let s := modWave s b.id w Wave.discard
  let s := excOrder.foldl (fun s e => takeOne s b w tp word false decode rs e) s
  (pagesOf (rs.filter fun r => match r.2 with
    | .park _ => true
    | _ => false)).foldl (fun s p => modWave s b.id w fun x => { x with parked := insertNat x.parked p }) s

/-- An exception raised after the lanes' commit (R421, R424): they are trapped where commit left them. -/
def takePost (s : State) (b : Block) (w : Nat) (tp word : Word64) (m : Mask) (e : Exc) (detail : Nat)
    (va : Option Word64) (flag : Bool) : State :=
  takeOne s b w tp word flag false ((lanesOf m).map fun l => (l, .exc e 0xFF detail va)) e

/-- The sequencer stops by the record; one that has stopped before keeps what RESUME goes on with, and one that has ended
stays so (log 66). -/
def SeqState.stopBy (q : SeqState) (n : Nat) (skip : Bool) : SeqState := match q.run with
  | .ended => q
  | .stopped _ old => { q with run := .stopped n old }
  | _ => { q with run := .stopped n skip }

/-- THE SAME FOR A BLOCK SEQUENCER (R334, R421): it stops at the word at `pc` by a KIND 1 record; a page fault writes a
KIND 2 record with WAVE 0xFF and waits for PGDONE (R190). -/
def takeSeq (s : State) (b : Block) (pc : Word64) (st : Stop) (skip decode : Bool) : State :=
  match st with
  | .exc .pgflt _ _ va =>
    let va := va.getD pc
    let (_, s) := holdTrap s { trapOf s b 2 .pgflt with tp := pc, word := pc, va := va, flags := trapFlags true false false }
    modBlock s b.id fun b => { b with seq := b.seq.map fun q => { q with run := .faulted (va.toNat / 65536) } }
  | .exc e f d va =>
    let (n, s) := holdTrap s { trapOf s b 1 e with
      field := BitVec.ofNat 8 f, detail := BitVec.ofNat 32 d, tp := pc, word := pc, va := va.getD 0,
      flags := trapFlags va.isSome false decode }
    modBlock s b.id fun b => { b with seq := b.seq.map fun q => q.stopBy n skip }
  | _ => s

/-! ### Completion records and the loss of a context (R187, R188, R416) -/

/-- A completion record (R188) and its MSI-X vector (R355). -/
def postCompletion (s : State) (q : Nat) (seq : BitVec 16) (kind status : Nat) (preempt : BitVec 32)
    (start stop : Word64) : State :=
  let x := getQueue s q
  let bytes := bytesOfNat 2 seq.toNat ++ [BitVec.ofNat 8 kind, BitVec.ofNat 8 status] ++ bytesOfNat 4 preempt.toNat ++
    bytesOfNat 8 start.toNat ++ bytesOfNat 8 stop.toNat ++ bytesOfNat 8 0
  let s := cpPut s (x.carea + 32 * (x.cidx.toNat % 2 ^ x.logc)) bytes
  emit (modQueue s q fun x => { x with cidx := x.cidx + 1 }) (.msix (1 + q % 63))

/-- The stamps that a task's record asked for; END is never below the START of the same record (R188, R369). -/
def taskStamps (s : State) (t : Task) : Word64 × Word64 :=
  let st := if t.f.stamp.getLsbD 0 then t.start else 0
  let en := if t.f.stamp.getLsbD 1 then (if s.time.ptp.toNat < st.toNat then st else s.time.ptp) else 0
  (st, en)

/-- A task leaves the tables with a completion record of this STATUS. -/
def closeTask (s : State) (t : Task) (status : Nat) : State :=
  let (st, en) := taskStamps s t
  let s := postCompletion s t.queue t.tseq 1 status t.preempt st en
  { s with tasks := s.tasks.filter fun x => x.id ≠ t.id }

/-- The live dispatchers but the leader take the task's counters before a claim or a turn is granted (R445). -/
def Task.commit (s : State) (t : Task) : Task := { t with
  mirror := (List.range 4).foldl (fun m d =>
    if d = t.leader ∨ fget false s.deadDisp d then m else fins m d (t.next, t.ticket)) t.mirror }

/-- Nothing of the blocks that meet `p` remains in a core or in a save frame. -/
def evict (s : State) (p : Block → Bool) : State :=
  let gone := (s.blocks.filter p).map (·.id)
  { s with
    blocks := s.blocks.filter fun b => !p b
    pendings := s.pendings.filter fun x => x.bid ∉ gone
    ops := s.ops.filter fun x => x.bid ∉ gone
    copies := s.copies.filter fun x => x.bid ∉ gone
    arrivals := s.arrivals.filter fun x => x.bid ∉ gone
    fences := s.fences.filter fun i => (s.ops.find? fun o => o.id = i).all fun o => o.bid ∉ gone }

/-- A store or atomic of the context that had left a core is on its way to its home, here or at a peer (R416 step 3). -/
def lossWaits (s : State) (c : Nat) : Bool :=
  (s.flights.any fun f => f.ctx = c) || s.netOut.any fun n => (match n.access with
    | .read _ => false
    | _ => true) && decide (n.ctx = c)

/-- The frames that hold poison and belong to the context's owner are to be retired (R416 step 5). -/
def askPoisoned (s : State) (c : Nat) : State :=
  (((s.dpoison.map fun p => p.1 / 1024).foldl insertNat []).filter fun f => frameOwner s f = ctxOwner s c).foldl
    (fun s f => askFrame s f 1) s

/-- The end of a loss: the poisoned frames, the completion records and the one EVENT 0x0024, once what had left the cores
has completed (R416 steps 3 and 5 to 7). -/
def finishLoss (s : State) (c : Nat) : State :=
  match (getCtx s c).losing with
  | none => s
  | some l =>
    if lossWaits s c then s
    else
      let s := askPoisoned s c
      let s := (s.tasks.filter fun t => t.ctx = c).foldl (fun s t => closeTask s t (if l.kill then 3 else 2)) s
      let s := modCtx s c fun x => { x with losing := none }
      let s := { s with queues := s.queues.map fun p =>
        if p.2.ctx = c then (p.1, { p.2 with blocked := none }) else p }
      logErr s true { ((errRec 4 0x0024).atCtx s c).det (if l.kill then 0xFFFF else l.cause) with
        count := BitVec.ofNat 32 l.count }

/-- Every loss that has begun ends if it can. -/
def finishLosses (s : State) : State :=
  ((s.ctxs.filter fun p => p.2.losing.isSome).map (·.1)).foldl finishLoss s

/-- LOSING A CONTEXT (R416), with the number of events that called for it; a call for a loss that has begun is counted
there. `kill` gives STATUS 3 and cause 0xFFFF. -/
def loseContext (s : State) (c cause count : Nat) (kill : Bool) : State :=
  match (getCtx s c).losing with
  | some l => modCtx s c fun x => { x with losing := some { l with count := l.count + count } }
  | none =>
    if (getCtx s c).lost then s
    else
      let s := { s with queues := s.queues.map fun p => if p.2.ctx = c then (p.1, { p.2 with frozen := true }) else p }
      let s := evict s fun b => b.ctx = c
      let lost (f : Flight) : Bool := f.held && decide (f.ctx = c)
      let s := (s.flights.filter lost).foldl undoCopies s
      let s := { s with
        detbuf := s.detbuf.filter fun d => d.ctx ≠ c
        posts := s.posts.filter fun x => x.ctx ≠ c
        flights := s.flights.filter fun f => !lost f
        versions := s.versions.filter fun v => v.ctx ≠ c
        cores := s.cores.filterMap fun p =>
          let x := if p.2.halted = some c then { p.2 with halted := none } else p.2
          if x = .init then none else some (p.1, x) }
      finishLoss (modCtx s c fun x => { x with lost := true, held := [], losing := some ⟨cause, count, kill⟩ }) c

/-- Where an access has no physical address. -/
abbrev noPa : Nat := 2 ^ 49

/-- The physical lane on which a logical lane of a unit runs (R468). -/
def physLane (s : State) (core unit lane : Nat) : Nat := match ffind (getCore s core).spare unit with
  | some f => if f ≤ lane then lane + 1 else lane
  | none => lane

/-- The global address behind an address of a block's lane: a private one lies in its block's area (R99). -/
def globalAddr (s : State) (b : Block) (wi lane : Nat) (va : Word64) : Word64 :=
  if va.toNat / 2 ^ 56 = 0xF1 then
    match (getCtx s b.ctx).desc with
    | some d => BitVec.ofNat 64 (d.pbase + ((b.frame * 32 + wi) * 32 + lane) * 2 ^ d.psz + va.toNat % 2 ^ 56)
    | none => va
  else va

/-- With an address of the global window; a place in the scratchpad or a register stack has none (R407). -/
def ErrRec.atGlobal (r : ErrRec) (va : Word64) : ErrRec := if va.toNat / 2 ^ 56 = 0 then r.atVa va else r

/-- The record of poison that a lane of a wave consumes: its place, its addresses and its block, and the exception that
the lane takes; a granary location, from 2^48 up, has neither address (R104, R407, R413). -/
def lanePoison (s : State) (b : Block) (wi : Nat) (w : Wave) (lane : Nat) (tp va : Word64) (pa : Nat) : ErrRec :=
  let core := b.core.getD 0
  let r := (errRec 2 0x0009).atUnit (dieOf core) core w.unit (physLane s core w.unit lane)
  let at' := (if pa < 2 ^ 48 then r.atPa pa else r)
  let at' := if 2 ^ 48 ≤ pa ∧ pa < noPa then at' else at'.atGlobal (globalAddr s b wi lane va)
  { (at'.atTp tp).atBlk b.lin with exc := 0x17 }

/-- Like events of one clock at one unit with one PA are one record, the first's, with their number (R409). -/
def mergePoison (rs : List (ErrRec × Nat)) : List (ErrRec × Nat) :=
  let same (r q : ErrRec × Nat) : Bool := r.1.flags.getLsbD 0 && q.1.flags.getLsbD 0 && decide
    (r.2 = q.2 ∧ r.1.die = q.1.die ∧ r.1.core = q.1.core ∧ r.1.unit = q.1.unit ∧ r.1.pa = q.1.pa)
  rs.foldl (fun out r =>
    if out.any (same r) then out.map fun q => if same r q then ({ q.1 with count := q.1.count + 1 }, q.2) else q
    else out ++ [r]) []

/-- Poison consumed by each of several agents in one clock: their EVENT 0x0009, and the loss of the context, for which
each has called (R413, R416). -/
def consumeAll (s : State) (c : Nat) (rs : List (ErrRec × Nat)) : State :=
  loseContext ((mergePoison rs).foldl (fun s r => logErr s true ((r.1.atCtx s c).det r.2)) s) c 0x0009 rs.length false

/-- Poison consumed (R413). -/
def consumePoison (s : State) (c : Nat) (r : ErrRec) (agent : Nat) : State := consumeAll s c [(r, agent)]

/-- The physical bytes that a flight changes: address and bytes; an atomic changes its operand's bytes. -/
def flightRange (f : Flight) : Option (Nat × Nat) :=
  match f.place, f.op with
  | .phys pa _ _ _, .store bs => some (pa, bs.length)
  | .phys pa _ _ _, .tag _ => some (pa / 64 * 64, 64)
  | .phys pa _ _ _, .atom a _ => some (pa, if a.sz then 8 else 4)
  | _, _ => none

def rangesMeet (a n b m : Nat) : Bool := decide (a < b + m) && decide (b < a + n)

/-- Two places share bytes. -/
def placeMeets (p q : Place) (n m : Nat) : Bool :=
  match p, q with
  | .phys a _ _ _, .phys b _ _ _ => rangesMeet a n b m
  | .spad a, .spad b => rangesMeet a n b m
  | .regs a, .regs b => rangesMeet a n b m
  | .remote p a, .remote q b => decide (p = q) && rangesMeet a n b m
  | _, _ => false

end Sys2Proof.Machine
end

