-- ==== Sys2Proof/Machine/Control.lean ====
section
/-! DEFINITION. What control space reads as (R354, R357, R361, R369, R372, R410, R411, R420, R426). The places of the
access tables and of SRATE within the control register files are the model's (log 22). -/

namespace Sys2Proof.Machine

/-- The logical number of a physical core: its place among the live ones (R18). -/
def logicalOf (s : State) (p : Nat) : Option Nat :=
  if p ∈ s.live then some (s.live.filter fun q => q < p).length else none

/-- The physical number of a logical core. -/
def physicalOf (s : State) (c : Nat) : Option Nat := nth s.live c

/-- In service: live and not retired (R19). -/
def inService (s : State) (p : Nat) : Bool := decide (p ∈ s.live) && !(getCore s p).retired

/-- A byte of a core's entry (R372). -/
def enumCore (s : State) (p j : Nat) : Nat :=
  let log := (logicalOf s p).getD 0xFFFF
  if j = 0 then p
  else if j = 1 then (if p ∉ s.live then 0 else if (getCore s p).retired then 2 else 1)
  else if j = 2 then log % 256
  else if j = 3 then log / 256
  else if j < 16 then 0
  else match ffind (getCore s p).spare (j - 16) with
    | some l => 128 + l % 32
    | none => 0

/-- The ends of the ten links, in R372's order. -/
def linkEnds (i : Nat) : Nat × Nat :=
  match i with
  | 0 => (0, 1) | 1 => (0, 2) | 2 => (1, 3) | 3 => (2, 3) | 4 => (0, 3) | 5 => (1, 2)
  | 6 => (0, 4) | 7 => (1, 4) | 8 => (2, 4) | _ => (3, 4)

def getLink (s : State) (i : Nat) : LinkSt := fget ⟨0, 0, 255, 0, 0⟩ s.links i

/-- A byte of a link's entry (R372). -/
def enumLink (s : State) (i j : Nat) : Nat :=
  let l := getLink s i
  match j with
  | 0 => (linkEnds i).1
  | 1 => (linkEnds i).2
  | 2 => if i < 4 then 4 else if i < 6 then 0 else 2
  | 3 => l.lanes
  | 4 => l.cls
  | 5 => l.via
  | 6 => l.st
  | _ => 0

/-- A byte of the enumeration table (R372). -/
def enumByte (s : State) (o : Nat) : Nat :=
  if o < 0x40 then
    let nret := (s.live.filter fun p => (getCore s p).retired).length
    match o with
    | 0 => 0x45 | 1 => 0x4E | 2 => 0x55 | 3 => 0x4D | 4 => 1 | 5 => 0 | 6 => 3072 % 256 | 7 => 3072 / 256
    | 8 => s.live.length | 9 => s.live.length | 10 => nret
    | 12 => s.gen.toNat % 256 | 13 => s.gen.toNat / 2 ^ 8 % 256 | 14 => s.gen.toNat / 2 ^ 16 % 256
    | 15 => s.gen.toNat / 2 ^ 24
    | _ => 0
  else if o < 0x840 then enumCore s ((o - 0x40) / 32) ((o - 0x40) % 32)
  else if o < 0x940 then
    let i := (o - 0x840) / 4
    match (o - 0x840) % 4 with
    | 0 => i / 16
    | 1 => i % 16
    | 2 => if fget false s.retiredSlices i then 1 else 0
    | _ => 0
  else if o < 0x9C0 then (if fget false s.retiredBanks (o - 0x940) then 1 else 0)
  else if o < 0xA10 then enumLink s ((o - 0x9C0) / 8) ((o - 0x9C0) % 8)
  else 0

/-- Byte `i` of a number. -/
def byteAt (x i : Nat) : Byte := BitVec.ofNat 8 (x / 2 ^ (8 * i))

/-- A byte of a ring descriptor of R411 or R426. -/
def ringByte (r : Ring) (o : Nat) : Byte :=
  if o < 8 then byteAt r.base.toNat o
  else if o = 8 then r.log
  else if o = 9 then (if r.v then 1 else 0)
  else if o < 16 then 0
  else if o < 20 then byteAt r.widx.toNat (o - 16)
  else if o < 24 then byteAt r.ridx.toNat (o - 20)
  else if o < 28 then byteAt r.lost.toNat (o - 24)
  else 0

/-- The meter of a slice. -/
def getMeter (s : State) (i : Nat) : MeterSt := fget .init s.meters i

/-- One 64-byte line of a context crosses the port of its home slice (R118). A transfer that finds no token goes on all
the same: metering changes timing only (log 12). -/
def spendToken (s : State) (pa ctx : Nat) : State :=
  let i := paSlice pa
  let m := getMeter s i
  let b := fget 0 m.bucket ctx
  let r := fget 0 m.borrowed ctx
  if 0 < b then { s with meters := fput .init s.meters i { m with bucket := fput 0 m.bucket ctx (b - 1) } }
  else if 0 < m.spare ∧ r < m.srate / 4 then
    { s with meters := fput .init s.meters i { m with spare := m.spare - 1, borrowed := fput 0 m.borrowed ctx (r + 1) } }
  else s

/-- Where the model places the access tables: one byte for each target and master (log 22). -/
abbrev accessWindow : Nat := 0x1100000
/-- Where the model places SRATE: four bytes for each slice (log 22). -/
abbrev meterWindowAt : Nat := 0x1200000

/-- A byte of control space as a permitted read finds it; 0 at an unassigned offset. -/
def ctlByte (s : State) (o : Nat) : Byte :=
  if o < 0x100000 then
    if o < 0x8 then byteAt s.cp.ring.toNat o
    else if o < 0x10 then byteAt s.cp.log.toNat (o - 0x8)
    else if o < 0x18 then byteAt s.cp.widx.toNat (o - 0x10)
    else if o < 0x20 then byteAt s.cp.ridx.toNat (o - 0x18)
    else if o < 0x40 then 0
    else if o < 0x48 then byteAt s.plog.base.toNat (o - 0x40)
    else if o < 0x50 then byteAt s.plog.log.toNat (o - 0x48)
    else if o < 0x58 then byteAt s.plog.widx.toNat (o - 0x50)
    else if o < 0x60 then byteAt s.plog.ridx.toNat (o - 0x58)
    else if o < 0x68 then byteAt s.plog.lost.toNat (o - 0x60)
    else if 0x1000 ≤ o ∧ o < 0x2000 then
      match ffind s.plog.fatbuf ((o - 0x1000) / 64) with
      | some r => (nth r.bytes ((o - 0x1000) % 64)).getD 0
      | none => 0
    else 0
  else if o < 0x108000 then (if o % 8 < 4 then Config.openRead o s.freeIx else 0)
  else if o < 0x200000 then 0
  else if o < 0x200C00 then BitVec.ofNat 8 (enumByte s (o - 0x200000))
  else if o < 0x300000 then 0
  else if o < 0x306000 then fget 0 s.netTab (o - 0x300000)
  else if o < 0x400000 then 0
  else if o < 0x400008 then byteAt s.time.ptp.toNat (o - 0x400000)
  else if o = 0x400008 then (if s.time.lock then 1 else 0)
  else if o < 0x400010 then 0
  else if o < 0x400018 then byteAt s.time.adj.toNat (o - 0x400010)
  else if 0x400100 ≤ o ∧ o < 0x400102 then byteAt s.time.port.toNat (o - 0x400100)
  else if o < 0x500008 then 0
  else if o < 0x50000C then Config.openRead o s.freeIx
  else if o < 0x500010 then 0
  else if o < 0x500014 then byteAt (s.rot.result.toNat + 65536 * s.rot.attempts.toNat) (o - 0x500010)
  else if o < 0x500018 then 0
  else if o < 0x50001C then Config.openRead o s.freeIx
  else if 0x500100 ≤ o ∧ o < 0x500120 then byteAt s.rot.staged (o - 0x500100)
  else if 0x500140 ≤ o ∧ o < 0x500144 then Config.openRead o s.freeIx
  else if 0x501000 ≤ o ∧ o < 0x510000 then Config.identityByte (o - 0x501000)
  else if o < 0x1000000 then 0
  else if o < 0x1000002 then byteAt s.hostown.toNat (o - 0x1000000)
  else if accessWindow ≤ o ∧ o < accessWindow + 75 * 128 then
    (accessBits s ((o - accessWindow) / 128) ((o - accessWindow) % 128)).zeroExtend 8
  else if meterWindowAt ≤ o ∧ o < meterWindowAt + 256 then
    byteAt (getMeter s ((o - meterWindowAt) / 4)).srate ((o - meterWindowAt) % 4)
  else if 0x1800000 ≤ o ∧ o < 0x1820000 then ringByte (getCtx s ((o - 0x1800000) / 32)).vq ((o - 0x1800000) % 32)
  else if 0x1A00000 ≤ o ∧ o < 0x1A20000 then
    (let x := (o - 0x1A00000) % 32
     if 24 ≤ x then 0 else ringByte (getCtx s ((o - 0x1A00000) / 32)).xq x)
  else 0

/-- Bytes of control space. -/
def ctlBytes (s : State) (o n : Nat) : List Byte := (List.range n).map fun i => ctlByte s (o + i)

/-- R354: a master may read, or write, at this offset: the width, the refusals of the time unit, the root of trust and the
register files over their own pages (R119), the region's access table. -/
def ctlOk (s : State) (m o n : Nat) (wr : Bool) : Bool :=
  (n = 4 || n = 8) && decide (o % n = 0) &&
  !(decide (0x400000 ≤ o ∧ o < 0x401000) && !(0x40 ≤ m && m ≤ 0x48)) &&
  !(decide (0x500000 ≤ o ∧ o < 0x510000) && m < 0x40) &&
  !(wr && ctlRegion o = 6 && !(0x40 ≤ m && m ≤ 0x48)) &&
  tableOk s (68 + ctlRegion o) m wr

end Sys2Proof.Machine
end

