-- ==== Sys2Proof/Machine/Links.lean ====
section
/-! DEFINITION. Die links: the route between two dies (R10, R464), the replay buffers (R460), and what leaves for another
die. A flit's payload is the identity of a store, tag write or atomic; the flit of any other request, and of a response,
has an identity of its own in `traffic`, since what it asks for is done as it leaves (log 27). -/

namespace Sys2Proof.Machine

/-- The key of a direction: link `i` from its END0, or from its END1. -/
def dirKey (i : Nat) (rev : Bool) : Nat := 2 * i + (if rev then 1 else 0)

def getDir (s : State) (k : Nat) : LinkDirSt := fget .init s.dirs k

def setDir (s : State) (k : Nat) (d : LinkDirSt) : State := { s with dirs := fput .init s.dirs k d }

/-- The die that a direction leaves, and the one it reaches. -/
def dirFrom (k : Nat) : Nat := if k % 2 = 0 then (linkEnds (k / 2)).1 else (linkEnds (k / 2)).2
def dirTo (k : Nat) : Nat := if k % 2 = 0 then (linkEnds (k / 2)).2 else (linkEnds (k / 2)).1

/-- The entry of R372 for a pair of dies. -/
def linkBetween (a b : Nat) : Option Nat :=
  (List.range 10).find? fun i => decide (linkEnds i = (a, b)) || decide (linkEnds i = (b, a))

/-- The die after `a` on the way to `b`: `b` itself, or the forwarding die of the pair's entry. -/
def viaDie (s : State) (a b : Nat) : Nat := match linkBetween a b with
  | some i => if (getLink s i).via = 255 then b else (getLink s i).via
  | none => b

/-- The next die on the way, over a link that is itself in use. -/
def nextDie (s : State) (a b : Nat) : Nat := viaDie s a (viaDie s a b)

/-- The direction from a die to the next. -/
def dirBetween (a b : Nat) : Option Nat := (linkBetween a b).map fun i => dirKey i (decide ((linkEnds i).1 ≠ a))

/-- Flits are sent while the replay buffer has room (R460). -/
def pump (s : State) (k : Nat) (d : LinkDirSt) : List Nat → State × LinkDirSt
  | [] => (s, { d with waiting := [] })
  | p :: ps =>
    if d.unacked.length < 512 then
      let s := emit s (.linkSend ⟨k / 2, decide (k % 2 = 1)⟩ d.next p)
      pump s k { d with next := d.next + 1, unacked := d.unacked ++ [(d.next, p)] } ps
    else (s, { d with waiting := p :: ps })

def pumpDir (s : State) (k : Nat) : State :=
  let (s, d) := pump s k (getDir s k) (getDir s k).waiting
  setDir s k d

/-- A payload is sent from a die towards its home. -/
def sendFlit (s : State) (a home payload : Nat) : State :=
  match dirBetween a (nextDie s a home) with
  | none => s
  | some k =>
    let d := getDir s k
    pumpDir (setDir s k { d with waiting := d.waiting ++ [payload] }) k

/-! ### Homes and the loads that they may still answer later (R134, R358) -/

/-- The home of a physical address as an agent sees it: a slice, or 68, the IOD, for control space (R354, R358). -/
def homeOf (pa : Nat) : Nat := if ctlBase ≤ pa then 68 else paSlice pa

/-- The die of a home. -/
def homeDie (pa : Nat) : Nat := if ctlBase ≤ pa then 4 else paDie pa

/-- The line of a place. -/
def Place.line : Place → Option (Bool × Nat)
  | .phys pa _ _ _ => some (true, pa / 64)
  | .spad off => some (false, off / 64)
  | _ => none

/-- Reads of one line by the lanes of one word: they see it at one time (R394, log 95). -/
def Late.with (j k : Late) : Bool := decide (j.word = k.word) && decide (j.place.line = k.place.line)

/-- The bytes of its place that an outstanding load covers. -/
def Late.bytes (k : Late) : Nat := match k.how with
  | .run n _ => n
  | _ => 64

/-- OUTSTANDING LOADS THAT MEET `p` KEEP THE VALUES THEY HAVE, with all that their word reads of their lines. -/
def pinLoads (s : State) (p : Pending → Late → Bool) : State :=
  let ks := s.pendings.filterMap fun x => match x.again with
    | some k => if p x k then some k else none
    | none => none
  if ks = [] then s
  else { s with pendings := s.pendings.map fun x =>
    if x.again.any fun k => ks.any k.with then { x with again := none } else x }

/-- Those of a wave's lanes: a release of theirs follows them (R129). -/
def pinLanes (s : State) (bid wi : Nat) (m : Mask) : State :=
  pinLoads s fun x _ => decide (x.bid = bid ∧ x.wave = wi) && m.getLsbD x.lane

/-- Those of a lane that a later access of its own meets (R125). -/
def pinBytes (s : State) (bid wi lane : Nat) (p : Place) (n : Nat) : State :=
  pinLoads s fun x k => decide (x.bid = bid ∧ x.wave = wi ∧ x.lane = lane) && placeMeets k.place p k.bytes n

/-- Those that later writes of their own lanes meet. -/
def pinWrites (s : State) (bid wi : Nat) (xs : List (Nat × Word64 × Place × Nat)) : State :=
  xs.foldl (fun s x => pinBytes s bid wi x.1 x.2.2.1 x.2.2.2) s

/-- Those that a core has sent to a home on another die, which a later request to that home follows there (R358). -/
def pinHome (s : State) (core pa : Nat) : State :=
  if homeDie pa = dieOf core then s else pinLoads s fun x _ => x.route = some (core, homeOf pa)

/-- The die of a flight's home. -/
def flightHome (f : Flight) : Nat := match f.place with
  | .phys pa _ _ _ => homeDie pa
  | _ => dieOf f.core

/-- A request whose home is on another die takes its pair number and its first link (R460, R462). -/
def sendFlight (s : State) (id : Nat) : State :=
  match s.flights.find? fun f => f.id = id with
  | none => s
  | some f =>
    let src := dieOf f.core
    let home := flightHome f
    if home = src then s
    else
      let n := fget 0 s.pairSent (src * 5 + home) + 1
      let s := { s with pairSent := fput 0 s.pairSent (src * 5 + home) n,
                        flights := s.flights.map fun g => if g.id = id then { g with pair := n } else g }
      let s := match f.place with
        | .phys pa _ _ _ => pinHome s f.core pa
        | _ => s
      sendFlit s src home id

/-- The die that a payload goes to. -/
def payloadHome (s : State) (p : Nat) : Option Nat :=
  ((s.flights.find? fun f => f.id = p).map flightHome).or (ffind s.traffic p)

/-- A flit whose effect is made as it leaves goes from a die to another (R10, R358). -/
def sendTraffic (s : State) (a b : Nat) : State :=
  if a = b then s
  else
    let (id, s) := fresh s
    sendFlit { s with traffic := fins s.traffic id b } a b id

/-- A request and its response. -/
def roundTrip (s : State) (a b : Nat) : State := sendTraffic (sendTraffic s a b) b a

/-- The flits of what the IOD's masters have reached leave the IOD, die 4, and the answers the dies (R10). -/
def sendIod (s : State) : State :=
  s.iodOut.foldl (fun s p => if p.2 then roundTrip s 4 p.1 else sendTraffic s 4 p.1) { s with iodOut := [] }

/-- A request that changes memory takes its pair number, which the home has performed (R462). -/
def countPair (s : State) (a b : Nat) : State :=
  if a = b then s
  else
    let n := fget 0 s.pairSent (a * 5 + b) + 1
    let s := { s with pairSent := fput 0 s.pairSent (a * 5 + b) n }
    if (n - fget 0 s.pairs (a * 5 + b)).toNat < 2 ^ 15 then { s with pairs := fput 0 s.pairs (a * 5 + b) n } else s

/-- Data for a core that crosses a die link, from a home or a granary: the core and its source (R358). -/
def routeOf (core source : Nat) (die : Nat) : Option (Nat × Nat) := if dieOf core = die then none else some (core, source)

/-- The response follows the earlier responses of its source to its core, and its own flit has arrived (R358). -/
def responseDue (s : State) (p : Pending) : Bool :=
  match p.route with
  | none => true
  | some r =>
    (s.pendings.takeWhile fun q => q.id ≠ p.id).all (fun q => q.route ≠ some r) &&
    s.traffic.all fun t => !(decide (t.1 < p.sent) && decide (t.2 = dieOf r.1))

/-- The request has reached its home's die. -/
def flightThere (s : State) (f : Flight) : Bool :=
  decide (flightHome f = dieOf f.core) ||
  s.dirs.any fun p => decide (dirTo p.1 = flightHome f) && decide (f.id ∈ p.2.accepted)

/-- The request's flit leaves its home's queue. -/
def leaveFlit (s : State) (f : Flight) : State :=
  if flightHome f = dieOf f.core then s
  else (List.range 20).foldl (fun s k =>
    let d := getDir s k
    setDir s k { d with accepted := d.accepted.filter fun i => i ≠ f.id }) s

/-- The request is performed: its flit leaves the home's queue and the home keeps its pair number (R462). -/
def takeFlit (s : State) (f : Flight) : State :=
  let key := dieOf f.core * 5 + flightHome f
  if flightHome f = dieOf f.core then s
  else
    let s := leaveFlit s f
    if (f.pair - fget 0 s.pairs key).toNat < 2 ^ 15 then { s with pairs := fput 0 s.pairs key f.pair } else s

/-- The home records an atomic's answer, none where it returns nothing: the last 512 atomics of each source (R462). -/
def recordResult (s : State) (src home id : Nat) (p : Option Pending) : State :=
  if src = home then s
  else
    let rs := fget [] s.results (src * 5 + home) ++ [(id, p)]
    { s with results := fins s.results (src * 5 + home) (rs.drop (rs.length - 512)) }

end Sys2Proof.Machine
end

