-- ==== Sys2Proof/Machine/Mem.lean ====
section
/-! DEFINITION. Translation (R109 to R112, R164, R453), the address checks (R95), the copies of lines (R102, R127, R135,
R137, R139) and the reads that a lane, an engine or a sequencer makes. -/

namespace Sys2Proof.Machine

/-- Who accesses: master, owner, context, task, the core whose caches serve it, and the agent of R413's DETAIL. -/
structure Who where
  master : Nat
  owner : Nat
  ctx : Nat
  task : Nat
  core : Nat
  agent : Nat
  deriving DecidableEq, Repr, Inhabited

/-- A block's waves (agent 0), sequencer (1) or copies (2). -/
def whoOf (s : State) (b : Block) (agent : Nat) : Who :=
  ⟨b.core.getD 0, ctxOwner s b.ctx, b.ctx, b.task, b.core.getD 0, agent⟩

/-- EVENT 0x0030 (R454). -/
def logOwner (s : State) (w : Who) (pa detail : Nat) : State :=
  logErr s false ((((errRec 4 0x0030).atCtx s w.ctx).atPa pa).det detail)

/-- EVENT 0x0032 for an access that no lane makes, of a context: its master in DETAIL (R119, R408, log 98). -/
def logTable (s : State) (w : Who) (pa : Nat) : State :=
  logErr s false ((((errRec 4 0x0032).atCtx s w.ctx).atPa pa).det w.master)

/-! ### The walk (R109 to R111) -/

/-- What a walk finds. -/
inductive WalkRes where
  | leaf (e : Word64) (shift : Nat)
  | fault
  | malformed (level : Nat)
  | table (pa : Nat)
  | owner (pa o : Nat)
  | poison (pa : Nat)
  deriving DecidableEq, Repr, Inhabited

/-- R110's fields. -/
def pteV (e : Word64) : Bool := e.getLsbD 0
def pteLeaf (e : Word64) : Bool := e.getLsbD 1
def pteRd (e : Word64) : Bool := e.getLsbD 2
def pteWr (e : Word64) : Bool := e.getLsbD 3
def pteDesc (e : Word64) : Bool := e.getLsbD 4
def pteCpol (e : Word64) : BitVec 2 := e.extractLsb' 5 2
def pteRem (e : Word64) : Bool := e.getLsbD 7
def pteMig (e : Word64) : Bool := e.getLsbD 48
def pteAddr (e : Word64) : Nat := (e.extractLsb' 8 40).toNat * 256

/-- R109: lowest VA bit, entries, log2 of the table's size, by level. -/
def levelShift : Nat → Nat
  | 3 => 43 | 2 => 30 | 1 => 21 | _ => 16
def levelCount : Nat → Nat
  | 3 => 8192 | 2 => 8192 | 1 => 512 | _ => 32

/-- An entry is well formed at its level (R110, R111). -/
def pteOk (level : Nat) (e : Word64) : Bool :=
  e.extractLsb' 49 15 = 0 &&
  if pteLeaf e then
    decide (level ≠ 3) && pteCpol e ≠ 3 && !(pteRem e && pteMig e) && decide (pteAddr e % 2 ^ levelShift level = 0)
  else
    decide (level ≠ 0) && e.extractLsb' 2 6 = 0 && !pteMig e &&
    decide (pteAddr e % (8 * levelCount (level - 1)) = 0)

/-- In place of a core for an agent of the IOD. -/
abbrev iodAgent : Nat := 64

/-- The levels from `level` down, reading each entry from its home. The walker is an agent of its own, whose reads no order
of R358 puts behind the core's requests (DESIGN CHOICE, log 102). -/
def walkFrom (s : State) (w : Who) (va : Nat) : Nat → Nat → State × WalkRes
  | level, table =>
    if dramEnd ≤ table then (s, .malformed level)
    else
      let pa := table + 8 * (va / 2 ^ levelShift level % levelCount level)
      match homeAns s w.master w.owner pa false with
      | .table => (s, .table pa)
      | .owner o => (s, .owner pa o)
      | .ok =>
        let s := if w.core = iodAgent then iodAccess s (paDie pa) true else roundTrip s (dieOf w.core) (paDie pa)
        let s := eccCheck (spendToken s pa w.ctx) (pa / 64)
        if fget false s.dpoison (pa / 64) then (s, .poison pa)
        else
          let e : Word64 := wordOf 64 (s.dram.readN pa 8)
          if !pteV e then (s, .fault)
          else if !pteOk level e then (s, .malformed level)
          else if pteLeaf e then (s, .leaf e (levelShift level))
          else match level with
            | 0 => (s, .malformed 0)
            | l + 1 => walkFrom s w va l (pteAddr e)

/-! ### TLBs (R112, R453) -/

abbrev l2Tlb (die : Nat) : Nat := 64 + die

/-- The entry of a TLB for an address. -/
def tlbFind (s : State) (t asid va : Nat) : Option TlbEntry :=
  (fget [] s.tlbs t).find? fun e => e.asid = asid && e.page = va / 2 ^ e.shift

/-- Installs an entry as the newest; a full TLB loses its oldest (R112). -/
def tlbPut (s : State) (t : Nat) (e : TlbEntry) : State :=
  let cap := if t < 64 then 256 else 16384
  { s with tlbs := fput [] s.tlbs t ((e :: (fget [] s.tlbs t).filter fun x => x ≠ e).take cap) }

/-- Drops the entries that meet `p` from every TLB. -/
def tlbPurge (s : State) (ts : List Nat) (p : TlbEntry → Bool) : State :=
  ts.foldl (fun s t => { s with tlbs := fput [] s.tlbs t ((fget [] s.tlbs t).filter fun e => !p e) }) s

/-- A translation found in the core's TLB, in its die's, or by a walk; a walk's leaf is installed in both. -/
def lookupLeaf (s : State) (w : Who) (d : CtxDesc) (va : Nat) : State × Except WalkRes TlbEntry :=
  match tlbFind s w.core d.asid va with
  | some e => (s, .ok e)
  | none =>
    match tlbFind s (l2Tlb (dieOf w.core)) d.asid va with
    | some e => (tlbPut s w.core e, .ok e)
    | none =>
      match walkFrom s w va 3 d.ptroot with
      | (s, .leaf e sh) =>
        let t : TlbEntry := ⟨d.asid, w.owner, sh, va / 2 ^ sh, e⟩
        (tlbPut (tlbPut s (l2Tlb (dieOf w.core)) t) w.core t, .ok t)
      | (s, r) => (s, .error r)

/-- The frame of the task's version of an arena tile, where it has one (R164, R166); where it has none the page tables
translate (log 75). -/
def arenaFrame (s : State) (w : Who) (va : Nat) : Option Nat :=
  match (getCtx s w.ctx).sched, getTask s w.task with
  | some sr, some t =>
    if sr.abase ≤ va ∧ va < sr.abase + sr.atiles * 65536 then
      (ffind t.tiles (va / 65536)).bind fun id => ((s.versions.find? fun v => v.id = id).map (·.frame))
    else none
  | _, _ => none

/-- The leaf lets an access do this (R111); a described one needs DESC = 1, which a remote leaf does not meet (log 71). -/
def leafAllows (l : Word64) (wr desc : Bool) : Bool :=
  (if wr then pteWr l else pteRd l) && (!desc || (pteDesc l && !pteRem l))

/-- An entry that another owner's walk installed, and whose access the home would not grant to this one: EVENT 0x0031,
and every entry of the ASID goes from both TLBs (R453). -/
def purgeStale (s : State) (w : Who) (asid : Nat) (pa : Option Nat) : State :=
  let r := ((errRec 4 0x0031).atCtx s w.ctx).det asid
  tlbPurge (logErr s false (pa.elim r r.atPa)) [w.core, l2Tlb (dieOf w.core)] fun x => x.asid = asid

/-- TRANSLATION of a global virtual address (R111, R112, R453); an arena tile of the task goes to its version's frame,
readable and writable (R164). `desc` is STD's and TAGST's need of DESC = 1, which a remote leaf does not meet (log 71). -/
def translate (s : State) (w : Who) (va : Word64) (wr desc : Bool) : State × Except Stop Place :=
  match (getCtx s w.ctx).desc with
  | none => (s, .error (.exc .pgflt 0xFF 0 (some va)))
  | some d => match arenaFrame s w va.toNat with
    | some f =>
      if desc && !Config.arenaDesc then (s, .error (.exc .prot 0xFF 0 (some va)))
      else (s, .ok (.phys (f + va.toNat % 65536) Config.arenaCpol Config.arenaDesc false))
    | none =>
    match lookupLeaf s w d va.toNat with
    | (s, .error .fault) => (s, .error (.exc .pgflt 0xFF 0 (some va)))
    | (s, .error (.malformed l)) =>
      (logErr s false ((((errRec 4 0x0033).atCtx s w.ctx).atVa va).det l), .error (.exc .prot 0xFF 0 (some va)))
    | (s, .error (.owner pa o)) => (logOwner s w pa o, .error (.park va))
    | (s, .error (.poison pa)) => (s, .error (.poison va pa w.agent))
    | (s, .error (.table pa)) =>
      (if w.agent = 2 then logTable s w pa else s, .error (.exc .prot 0xFF 0 (some va)))
    | (s, .error _) => (s, .error (.exc .prot 0xFF 0 (some va)))
    | (s, .ok e) =>
      let l := e.leaf
      let off := va.toNat % 2 ^ e.shift
      let pa := pteAddr l + off
      let allowed := leafAllows l wr desc
      let inDram := decide (pa < dramEnd) && !pteRem l
      if e.owner ≠ w.owner ∧ !(allowed && inDram && decide (frameOwner s (pa / 65536) = w.owner)) then
        (purgeStale s w d.asid (if inDram then some pa else none), .error .stale)
      else if !allowed then (s, .error (.exc .prot 0xFF 0 (some va)))
      else if pteRem l then
        (s, .ok (.remote (l.extractLsb' 40 8).toNat ((l.extractLsb' 8 32).toNat * 256 + off)))
      else if dramEnd ≤ pa ∧ pa < ctlBase then (s, .error (.exc .prot 0xFF 0 (some va)))
      else (s, .ok (.phys pa (pteCpol l) (pteDesc l) (pteMig l)))

/-! ### The address checks (R95 steps 1 to 3) -/

/-- What an access is allowed to do, for its checks. -/
structure Acc where
  wr : Bool
  desc : Bool
  regs : Bool
  deriving DecidableEq, Repr, Inhabited

abbrev Acc.read : Acc := ⟨false, false, true⟩
abbrev Acc.write : Acc := ⟨true, false, true⟩
abbrev Acc.atomic : Acc := ⟨true, false, false⟩

/-- An exception at an address. -/
abbrev addrExc (e : Exc) (a : Word64) : Stop := .exc e 0xFF 0 (some a)

/-- Aperture and extent, alignment, spill area and translation, in R95's order, of `n` bytes at `a` aligned to `al`. -/
def checkAddr (s : State) (w : Who) (b : Block) (wv : Wave) (wi lane : Nat) (a : Word64) (n al : Nat) (acc : Acc) :
    State × Except Stop Place :=
  let ap := a.toNat / 2 ^ 56
  let off := a.toNat % 2 ^ 56
  let aligned := decide (a.toNat % al = 0)
  if ap = 0 then
    if 2 ^ 56 < off + n then (s, .error (addrExc .apert a))
    else if !aligned then (s, .error (addrExc .align a))
    else translate s w a acc.wr acc.desc
  else if ap = 0xF0 then
    if b.shape.sp * 1024 < off + n then (s, .error (addrExc .apert a))
    else if !aligned then (s, .error (addrExc .align a))
    else (s, .ok (.spad off))
  else if ap = 0xF1 then
    match (getCtx s b.ctx).desc with
    | none => (s, .error (addrExc .apert a))
    | some d =>
      let g := d.pbase + ((b.frame * 32 + wi) * 32 + lane) * 2 ^ d.psz + off
      if 2 ^ d.psz < off + n ∨ 2 ^ 56 < g + n then (s, .error (addrExc .apert a))
      else if !aligned then (s, .error (addrExc .align a))
      else if off < d.splim then (s, .error (addrExc .prot a))
      else match translate s w (BitVec.ofNat 64 g) acc.wr acc.desc with
        | (s, .error (.exc .prot f n _)) => (s, .error (.exc .prot f n (some a)))
        | r => r
  else if ap = 0xF2 ∧ acc.regs then
    if wv.ws ≤ off / 128 ∨ 128 < off % 128 + n then (s, .error (addrExc .apert a))
    else if !aligned then (s, .error (addrExc .align a))
    else (s, .ok (.regs (128 * wv.wo + off)))
  else (s, .error (addrExc .apert a))

/-! ### What a core has in flight (R127, R135) -/

/-- The physical address of a flight. -/
def flightPa (f : Flight) : Nat := match f.place with
  | .phys pa _ _ _ => pa
  | _ => 0

/-- Overwrites the bytes of a line that a store in flight covers. -/
def overlayStore (line : Nat) (bs : List Byte) (f : Flight) : List Byte :=
  match f.place, f.op with
  | .phys pa _ _ _, .store xs => if pa / 64 = line then
      (List.range bs.length).zip bs |>.map fun p =>
        let i := line * 64 + p.1
        if pa ≤ i ∧ i < pa + xs.length then (nth xs (i - pa)).getD p.2 else p.2
    else bs
  | _, _ => bs

/-- The tag that a tag write in flight leaves. -/
def overlayTag (line : Nat) (t : BitVec 16) (f : Flight) : BitVec 16 :=
  match f.place, f.op with
  | .phys pa _ _ _, .tag x => if pa / 64 = line then x else t
  | _, _ => t

/-- The bytes and tag of a line with flights applied in their order. -/
def withFlights (fs : List Flight) (line : Nat) (x : List Byte × BitVec 16) : List Byte × BitVec 16 :=
  fs.foldl (fun x f => (overlayStore line x.1 f, overlayTag line x.2 f)) x

/-- The flight writes the whole line, which clears its poison (R412). -/
def cleans (line : Nat) (f : Flight) : Bool :=
  match f.place, f.op with
  | .phys pa _ _ _, .store xs => decide (xs.length = 64 ∧ pa / 64 = line)
  | _, _ => false

/-- A copy of a line as a store leaves it. -/
def LineCopy.take (c : LineCopy) (line : Nat) (f : Flight) : LineCopy :=
  let clean := c.poison && cleans line f
  { c with
    bytes := overlayStore line c.bytes f
    tag := if clean then 0 else overlayTag line c.tag f
    poison := c.poison && !clean }

/-- A copy as flights leave it, in their order. -/
def LineCopy.takeAll (c : LineCopy) (line : Nat) (fs : List Flight) : LineCopy := fs.foldl (fun c f => c.take line f) c

/-- The stores that have updated their stack's copy, in the order in which they did (R135). -/
def stackFlights (s : State) (die : Nat) : List Flight :=
  sortBy (fun f g => decide (f.dieAt < g.dieAt)) (s.flights.filter fun f => f.die && decide (dieOf f.core = die))

/-- A core's own stores that only it sees so far (R127). -/
def ownFlights (s : State) (core : Nat) : List Flight := s.flights.filter fun f => decide (f.core = core) && !f.die

/-- The places that a TSB entry writes, each with its length. -/
def TsbRec.places : TsbRec → List (Place × Nat)
  | .store _ xs => xs.map fun x => (x.place, x.bytes.length)
  | .tag xs => xs.map fun x => (x.place, 64)
  | .atom _ _ xs => xs.map fun x => (x.place, if x.sz then 8 else 4)
  | _ => []

/-- A TSB entry writes bytes that meet the place. -/
def itemMeets (t : TsbRec) (p : Place) (n : Nat) : Bool := t.places.any fun q => placeMeets p q.1 n q.2

/-- An entry waiting in a write path of the core meets the place: the read waits for it (R127). Scratchpad and register
places are a block's and a wave's own. -/
def pathMeets (s : State) (bid wi core : Nat) (p : Place) (n : Nat) : Bool :=
  s.blocks.any fun b => decide (b.core = some core) &&
    ((List.range b.waves.length).zip b.waves).any fun w => w.2.path.any fun r =>
      (match p with
       | .spad _ => decide (b.id = bid)
       | .regs _ => decide (b.id = bid ∧ w.1 = wi)
       | _ => true) && itemMeets r.item p n

/-- The leaf that the page tables hold for an address by now, with log2 of its page's size: the bytes alone. -/
def peekLeaf (s : State) (va : Nat) : Nat → Nat → Option (Word64 × Nat)
  | level, table =>
    if dramEnd ≤ table then none
    else
      let e : Word64 := wordOf 64 (s.dram.readN (table + 8 * (va / 2 ^ levelShift level % levelCount level)) 8)
      if !pteV e || !pteOk level e then none
      else if pteLeaf e then some (e, levelShift level)
      else match level with
        | 0 => none
        | l + 1 => peekLeaf s va l (pteAddr e)

/-- The place to which a leaf takes an address (R111, R360). -/
def leafPlace (e : Word64) (shift va : Nat) : Place :=
  let off := va % 2 ^ shift
  if pteRem e then .remote (e.extractLsb' 40 8).toNat ((e.extractLsb' 8 32).toNat * 256 + off)
  else .phys (pteAddr e + off) (pteCpol e) (pteDesc e) (pteMig e)

/-- Where a global address leads now: by the task's arena, a leaf in the core's TLBs, or the page tables. -/
def placeNow (s : State) (w : Who) (va : Nat) : Option Place :=
  match arenaFrame s w va, (getCtx s w.ctx).desc with
  | some f, _ => some (.phys (f + va % 65536) Config.arenaCpol Config.arenaDesc false)
  | none, some d =>
    match (tlbFind s w.core d.asid va).or (tlbFind s (l2Tlb (dieOf w.core)) d.asid va) with
    | some e => some (leafPlace e.leaf e.shift va)
    | none => (peekLeaf s va 3 d.ptroot).map fun x => leafPlace x.1 x.2 va
  | none, none => none

/-- The global address behind a flight's own. -/
def globalVa (s : State) (f : Flight) : Word64 :=
  match getBlock s f.bid with
  | some b => globalAddr s b f.wave f.lane f.va
  | none => f.va

/-! ### Writes under migration (R456) -/

/-- The place was reached through a leaf with MIG = 1. -/
def Place.mig : Place → Bool
  | .phys _ _ _ m => m
  | _ => false

/-- Two places are one address. -/
def Place.same : Place → Place → Bool
  | .phys a _ _ _, .phys b _ _ _ => decide (a = b)
  | .remote p a, .remote q b => decide (p = q ∧ a = b)
  | _, _ => false

/-- Two places lie in one 64 KiB page. -/
def Place.samePage : Place → Place → Bool
  | .phys a _ _ _, .phys b _ _ _ => decide (a / 65536 = b / 65536)
  | .remote p a, .remote q b => decide (p = q ∧ a / 65536 = b / 65536)
  | _, _ => false

/-- Who issued a flight. -/
def flightWho (f : Flight) : Who := ⟨f.core, f.owner, f.ctx, f.task, f.core, 0⟩

/-- A write of a context at a global address is to the page of `g`: the page that `g` was translated to, the same page of
the context's addresses, or the page to which the leaf of `g` leads by now. -/
def samePage (s : State) (ctx gva : Nat) (p : Place) (g : Flight) : Bool :=
  p.samePage g.place || decide (ctx = g.ctx ∧ gva / 65536 = (globalVa s g).toNat / 65536) ||
  (placeNow s (flightWho g) (globalVa s g).toNat).any p.samePage

/-- A write that has not reached its home: who issued it and when, its global address, its place and its length. -/
structure Unlanded where
  who : Who
  date : Nat
  gva : Nat
  place : Place
  len : Nat
  deriving DecidableEq, Repr, Inhabited

/-- The writes of an entry: lane, address, place and length; a tag write takes its whole line. -/
def TsbRec.writes : TsbRec → List (Nat × Word64 × Place × Nat)
  | .store _ xs => xs.map fun x => (x.lane, x.va, x.place, x.bytes.length)
  | .tag xs => xs.map fun x => (x.lane, x.va, x.place, 64)
  | .atom _ _ xs => xs.map fun x => (x.lane, x.va, x.place, if x.sz then 8 else 4)
  | _ => []

/-- The writes that an operation has still to make. -/
def OpBody.writes : OpBody → List (Nat × Word64 × Place × Nat)
  | .atoms xs => xs.map fun x => (x.1.lane, x.1.va, x.1.place, if x.1.sz then 8 else 4)
  | .stl xs => xs.map fun x => (x.lane, x.va, x.place, x.bytes.length)
  | _ => []

/-- A write of a wave that is still in its core. -/
def unlandedOf (s : State) (b : Block) (wi date : Nat) (x : Nat × Word64 × Place × Nat) : Unlanded :=
  ⟨⟨b.core.getD 0, ctxOwner s b.ctx, b.ctx, b.task, b.core.getD 0, 0⟩, date, (globalAddr s b wi x.1 x.2.1).toNat,
    x.2.2.1, x.2.2.2⟩

/-- The writes of the core that have not landed, and those of its stack that have passed their die point. -/
def unlanded (s : State) (core : Nat) : List Unlanded :=
  (s.flights.filterMap fun f =>
    if f.core = core ∨ (f.die ∧ dieOf f.core = dieOf core) then (flightRange f).map fun r =>
      ⟨flightWho f, f.date, (globalVa s f).toNat, f.place, r.2⟩
    else none) ++
  (s.blocks.filter fun b => b.core = some core).flatMap fun b =>
    (((List.range b.waves.length).zip b.waves).flatMap fun w => w.2.path.flatMap fun r =>
      r.item.writes.map (unlandedOf s b w.1 r.id)) ++
    (s.ops.filter fun o => o.bid = b.id ∧ !o.sent).flatMap fun o => o.body.writes.map (unlandedOf s b o.wave o.id)

/-- A WRITE UNDER MIGRATION MEETS THE PLACE: it was issued before `date` through a leaf with MIG = 1, which by now leads
elsewhere, to bytes that the read covers: the read waits for it (R127, R456). -/
def movedMeets (s : State) (core date : Nat) (p : Place) (n : Nat) : Bool :=
  (unlanded s core).any fun x => x.place.mig && decide (x.date < date) && match placeNow s x.who x.gva with
    | some q => !q.same x.place && placeMeets p q n x.len
    | none => false

/-- The copy's block is on a core (R458). -/
def residentCopy (s : State) (c : Copy) : Bool := (getBlock s c.bid).any fun b => b.core.isSome

/-- The core holds, or will hold, a write under migration to the page of a write of its own issued at `date`: a flight, or
a line that a copy found its page under migration for. The later write queues behind it (R456). -/
def pageHeld (s : State) (core ctx gva : Nat) (p : Place) (date : Nat) : Bool :=
  (s.flights.any fun g => decide (g.core = core ∧ g.date < date) && g.place.mig && samePage s ctx gva p g) ||
  s.copies.any fun c => decide (c.core = core ∧ c.id < date) && residentCopy s c && c.held.any fun h =>
    decide (ctx = c.ctx ∧ gva / 65536 = h.1 / 65536) || (match p with
      | .phys pa _ _ _ => decide (pa / 65536 = h.2)
      | _ => false)

/-- The same for any of a wave's writes. -/
def anyPageHeld (s : State) (b : Block) (wi date : Nat) (xs : List (Nat × Word64 × Place × Nat)) : Bool :=
  xs.any fun x => (match x.2.2.1 with
    | .phys .. | .remote .. => true
    | _ => false) && pageHeld s (b.core.getD 0) b.ctx (globalAddr s b wi x.1 x.2.1).toNat x.2.2.1 date

/-- An atomic of the core in flight meets the physical range. -/
def atomInFlight (s : State) (core pa n : Nat) : Bool :=
  s.flights.any fun f => decide (f.core = core) && (match f.op with
    | .atom .. => true
    | _ => false) && (match flightRange f with
    | some (a, m) => rangesMeet pa n a m
    | none => false)

/-- A copy owns the line and has not written it (R141). -/
def copyOwns (s : State) (line : Nat) : Bool := s.copies.any fun c => decide (line ∈ c.owns)

/-- The request is at its home, where the copy that owns its line keeps it waiting (R141). -/
def recalled (s : State) (f : Flight) : Bool := copyOwns s (flightPa f / 64) && flightThere s f

/-! ### Copies of lines (R102, R135, R137, R139, R451) -/

/-- The stack's untracked copy, if its generation stands (R137). -/
def stackCopy (s : State) (die line : Nat) : Option LineCopy :=
  match ffind s.stack (stackKey die line) with
  | some c => if c.gen = fget 0 s.stackGen die then some c else none
  | none => none

/-- What a read of a line gives. -/
structure LineView where
  bytes : List Byte
  tag : BitVec 16
  poison : Bool
  /-- A copy's instance and stamp; none for a read from the home (R145). -/
  copy : Option (Nat × Nat)
  deriving DecidableEq, Repr, Inhabited

inductive LineRes where
  | wait
  | table
  | owner (o : Nat)
  | view (v : LineView)
  deriving DecidableEq, Repr, Inhabited

/-! ### L1 (R96, R102) -/

/-- R24's allocation of a shape, in granules of 64 KiB. -/
def granules (x : Shape) : Nat := (x.w * x.rpl * 128 + x.sp * 1024 + 65535) / 65536

/-- The blocks on a core. -/
def residents (s : State) (core : Nat) : List Block := s.blocks.filter fun b => b.core = some core

def sumOf {α : Type} (f : α → Nat) (xs : List α) : Nat := xs.foldl (fun n x => n + f x) 0

/-- The lines of a core's L1: every granule that no block holds (R96). -/
def l1Lines (s : State) (core : Nat) : Nat := (128 - sumOf (fun b => granules b.shape) (residents s core)) * 1024

/-- The lines in a core's L1. -/
def l1Held (s : State) (core : Nat) : List (Nat × LineCopy) := s.l1.filter fun p => p.1 / 2 ^ 48 = core

/-- Stream lines go first, keep-L1 lines last (R102). -/
def evictRank (h : BitVec 3) : Nat := if h = 1 then 0 else if h = 2 then 2 else 1

/-- No line of the same set goes before this one. -/
def evictable (s : State) (core : Nat) (p : Nat × LineCopy) : Bool :=
  (l1Held s core).all fun q => Config.l1Set (q.1 % 2 ^ 48) ≠ Config.l1Set (p.1 % 2 ^ 48) ||
    decide (evictRank p.2.hint ≤ evictRank q.2.hint)

/-- L1 drops a line, if it may go now. -/
def evictL1 (s : State) (core line : Nat) : State :=
  match ffind s.l1 (l1Key core line) with
  | some c => if evictable s core (l1Key core line, c) then { s with l1 := fdel s.l1 (l1Key core line) } else s
  | none => s

/-- A full L1 loses a line. -/
def makeL1Room (s : State) (core : Nat) : State :=
  if (l1Held s core).length < l1Lines s core then s
  else
    let (ix, s) := freeIx s
    let ps := (l1Held s core).filter (evictable s core)
    match nth ps (Config.l1Victim ix % ps.length) with
    | some p => { s with l1 := fdel s.l1 p.1 }
    | none => s

/-- A line is allocated in L1. -/
def l1Put (s : State) (core line : Nat) (c : LineCopy) : State :=
  let s := if (ffind s.l1 (l1Key core line)).isSome then s else makeL1Room s core
  { s with l1 := fins s.l1 (l1Key core line) c }

/-- A launch takes granules: the lines held in them are dropped (R96). -/
def shrinkL1 (s : State) (core : Nat) : State :=
  let (ix, s) := freeIx s
  let kept := ((l1Held s core).filter fun p => Config.l1Stays ix (p.1 % 2 ^ 48)).take (l1Lines s core)
  { s with l1 := s.l1.filter fun p => p.1 / 2 ^ 48 ≠ core || kept.any fun q => q.1 = p.1 }

/-- The core's own flights, and those of its stack that have passed their die point. -/
def seenBy (core : Nat) (f : Flight) : Bool := decide (f.core = core) || (f.die && decide (dieOf f.core = dieOf core))

/-- A slice's full stamp table evicts an entry (R451). -/
def makeStampRoom (s : State) (slice : Nat) : State :=
  let es := s.stamps.filter fun p => paSlice (p.1 * 64) = slice
  if es.length < 65536 then s
  else
    let (ix, s) := freeIx s
    match nth es (Config.stampVictim ix % es.length) with
    | some e => { s with stamps := fdel s.stamps e.1 }
    | none => s

/-- The stamp that goes with a copy being served: the line's entry is created where none is present (R451). -/
def serveStamp (s : State) (line : Nat) : (Nat × Nat) × State :=
  match ffind s.stamps line with
  | some e => ((e.inst, e.stamp), s)
  | none =>
    let (i, s) := fresh (makeStampRoom s (paSlice (line * 64)))
    ((i, 0), { s with stamps := fins s.stamps line ⟨i, 0⟩ })

/-- A core's earlier request to the same home on another die has not arrived there: a read that follows it waits
(R358). -/
def requestsAhead (s : State) (core pa : Nat) : Bool :=
  decide (homeDie pa ≠ dieOf core) && s.flights.any fun f =>
    decide (f.core = core) && !f.held && !recalled s f && (match f.place with
    | .phys a _ _ _ => decide (homeOf a = homeOf pa)
    | _ => false)

/-- A line from its home with the stores that its stack sees. -/
def stackLine (s : State) (core line : Nat) (hint : BitVec 3) : LineCopy :=
  LineCopy.takeAll ⟨s.dram.readN (line * 64) 64, fget 0 s.dtag line, fget false s.dpoison line, 0, 0, 0, hint⟩ line
    (stackFlights s (dieOf core))

/-- The line's data from its home, and the copies that the serving creates or drops. -/
def readHome (s : State) (w : Who) (pa : Nat) (useL1 useStack bypass : Bool) (hint : BitVec 3) : State × LineRes :=
  let line := pa / 64
  let die := dieOf w.core
  if copyOwns s line || requestsAhead s w.core pa then (s, .wait)
  else match homeAns s w.master w.owner pa false with
  | .table => (s, .table)
  | .owner o => (s, .owner o)
  | .ok =>
    let s := eccCheck (spendToken (roundTrip (pinHome s w.core pa) die (paDie pa)) pa w.ctx) line
    let c := stackLine s w.core line hint
    let mine := c.takeAll line (ownFlights s w.core)
    let s := if useStack || (bypass && decide (paDie pa ≠ die)) then dropStackLine s die line
      else if bypass then { s with l1 := fdel s.l1 (l1Key w.core line) } else s
    let view : LineRes := .view ⟨mine.bytes, mine.tag, mine.poison, none⟩
    if bypass || !(useL1 || useStack) then (s, view)
    else
      let ((i, n), s) := serveStamp s line
      let s := if useStack then
          { s with stack := fins s.stack (stackKey die line) { c with gen := fget 0 s.stackGen die, inst := i, stamp := n } }
        else s
      (if useL1 then l1Put s w.core line { mine with inst := i, stamp := n } else s, view)

/-- A READ OF A LINE by a core under CPOL and HINT: the L1 copy, the stack's untracked copy, or the home (R102, R127,
R135, R139, R145). HINT 4 asks the home to keep the line; of L1 the rule says nothing there, and the model uses and fills
it as for HINT 0 (log 81). -/
def readLine (s : State) (w : Who) (pa : Nat) (cpol : BitVec 2) (hint : BitVec 3) : State × LineRes :=
  let line := pa / 64
  let die := dieOf w.core
  let bypass := hint = 3 || hint = 5 || cpol = 2 || fget false s.retiredSlices (paSlice pa)
  let useL1 := !bypass && cpol = 0
  let useStack := !bypass && decide (paDie pa ≠ die)
  let see (c : LineCopy) : LineCopy := c.takeAll line (ownFlights s w.core)
  let view (c : LineCopy) : LineRes := .view ⟨(see c).bytes, (see c).tag, (see c).poison, some (c.inst, c.stamp)⟩
  match (if useL1 then ffind s.l1 (l1Key w.core line) else none) with
  | some c => (s, view c)
  | none =>
    match (if useStack then stackCopy s die line else none) with
    | some c =>
      (if useL1 then l1Put s w.core line { see c with gen := 0, hint := hint } else s, view c)
    | none => readHome s w pa useL1 useStack bypass hint

/-- A stack drops every untracked copy: its generation advances, and its cores lose their L1 copies of remote lines
(R135, R137). -/
def flashStack (s : State) (die : Nat) : State :=
  { s with stackGen := fput 0 s.stackGen die (fget 0 s.stackGen die + 1)
           l1 := s.l1.filter fun p => !(decide (dieOf (p.1 / 2 ^ 48) = die) && decide (paDie (p.1 % 2 ^ 48 * 64) ≠ die)) }

/-- An acquire's drops at a scope (R137): at DEVICE and SYSTEM the stack's generation advances and every core of the
stack loses its L1 copies of remote lines; at BLOCK and DIE nothing is dropped (log 74). -/
def acquireDrops (s : State) (core : Nat) (sc : Scope) : State :=
  match sc with
  | .block | .die => s
  | .device | .system => flashStack s (dieOf core)

/-! ### Scratchpad (R97, R412) -/

/-- Lines with P = 0 among `n` bytes at `off`. -/
def absentIn (b : Block) (off n : Nat) : Bool :=
  (List.range ((off + n + 63) / 64 - off / 64)).any fun i => (ffind b.absent (off / 64 + i)).isSome

/-- A whole block is written: its poison is cleared, and the tag of a poisoned block is 0 (R412, R448). -/
def cleanSpad (b : Block) (line : Nat) : Block :=
  if fget false b.spoison line then { b with spoison := fdel b.spoison line, stag := fdel b.stag line } else b

/-- A wave's store: bytes are written; on a line with P = 0 their M bits are set, for every copy still to write it. -/
def spadStore (b : Block) (off : Nat) (bs : List Byte) : Block :=
  let b := { b with spad := b.spad.writeN off bs }
  let b := if bs.length = 64 then cleanSpad b (off / 64) else b
  (List.range bs.length).foldl (fun b i =>
    match ffind b.absent ((off + i) / 64) with
    | some ms => { b with absent := fins b.absent ((off + i) / 64) (ms.map fun m =>
        (m.1, m.2 ||| (1#64 <<< ((off + i) % 64)))) }
    | none => b) b

/-! ### Reads of a place -/

inductive ReadRes where
  | wait
  | stop (st : Stop)
  | got (v : List Byte) (tag : BitVec 16) (poison : Bool) (pa : Nat) (copy : Option (Nat × Nat))
  /-- On another module (R360). -/
  | remote (peer off : Nat)
  deriving DecidableEq, Repr, Inhabited

/-- A register of the wave's stack as the aperture reads it: committed values; empty registers wait, deferred ones raise
DEFRD (R31, R439). -/
def readRegs (wv : Wave) (a : Word64) (off n : Nat) : ReadRes :=
  let cells := (List.range ((off + n + 3) / 4 - off / 4)).map fun i => fget ⟨0, .full⟩ wv.vreg (off / 4 + i)
  if cells.any fun c => match c.fill with
      | .defer _ => true
      | _ => false then .stop (addrExc .defrd a)
  else if cells.any fun c => c.fill ≠ .full then .wait
  else
    let bs := cells.flatMap fun c => bytesOfNat 4 c.val.toNat
    .got ((bs.drop (off % 4)).take n) 0 false noPa none

/-- THE BYTES AT A PLACE as one access of a lane reads them now (R48, R97, R102, R127), with the target's checks; a read
that frame ownership denies parks its wave on the page of its global address (R454). What the lane has loaded before of
these bytes is read by then (R125). -/
def readPlace (s : State) (w : Who) (b : Block) (wv : Wave) (wi lane : Nat) (a : Word64) (p : Place) (n : Nat)
    (hint : BitVec 3) : State × ReadRes :=
  if pathMeets s b.id wi w.core p n || movedMeets s w.core s.nextId p n then (s, .wait)
  else match p with
  | .remote peer off => (s, .remote peer off)
  | .regs off => (s, readRegs wv a off n)
  | .spad off =>
    if absentIn b off n then (s, .wait)
    else (pinBytes s b.id wi lane p n,
      .got (b.spad.readN off n) (fget 0 b.stag (off / 64)) (fget false b.spoison (off / 64)) noPa none)
  | .phys pa cpol desc _ =>
    if ctlBase ≤ pa then
      if !ctlOk s w.master (pa - ctlBase) n false then (s, .stop (addrExc .prot a))
      else if requestsAhead s w.core pa then (s, .wait)
      else (roundTrip s (dieOf w.core) 4, .got (ctlBytes s (pa - ctlBase) n) 0 false pa none)
    else if atomInFlight s w.core pa n then (s, .wait)
    else match readLine s w pa cpol hint with
      | (s, .wait) => (s, .wait)
      | (s, .table) => (s, .stop (addrExc .prot a))
      | (s, .owner o) => (logOwner s w pa o, .stop (.park (globalAddr s b wi lane a)))
      | (s, .view v) =>
        (pinBytes s b.id wi lane p n, .got ((v.bytes.drop (pa % 64)).take n) (if desc then v.tag else 0) v.poison pa v.copy)

/-- Where a read's data comes from over a die link: none for a core's own stack, for a copy or for a place without a
home (R358). -/
def sourceOfRead (core pa : Nat) (copy : Option (Nat × Nat)) : Option (Nat × Nat) :=
  if (pa < dramEnd ∧ copy = none) ∨ (ctlBase ≤ pa ∧ pa < 2 ^ 48) then routeOf core (homeOf pa) (homeDie pa) else none

/-! ### Packets to peers (R10, R359, R466) -/

/-- The peer entry's STATE is 1. -/
def peerUp (s : State) (peer : Nat) : Bool := fget 0 s.netTab (peer * 64 + 20) = 1

/-- The next port above `port`, else the lowest, among the PORTS of the peer that are up (R466). -/
def nextPort (s : State) (peer port : Nat) : Option Nat :=
  let ps := (List.range 8).filter (fget 0 s.netTab (peer * 64 + 18) &&& s.portsUp).getLsbD
  (ps.find? fun i => port < i).or ps.head?

/-- An attempt on a port; none where no port is up. -/
def netAttempt (s : State) (id attempt : Nat) (port : Option Nat) : State := match port with
  | some p => emit s (.netSend id p attempt)
  | none => s

/-- A packet: its identity, its number among those to the peer and its port. -/
structure Packet where
  id : Nat
  seq : Nat
  port : Option Nat
  deriving DecidableEq, Repr, Inhabited

/-- A request crosses the links from its die to the ports of the IOD, takes its sequence number and is sent on the lowest
port that is up, where the peer's STATE is 1 (R10, R359, R466). -/
def sendPacket (s : State) (die peer : Nat) : Packet × State :=
  let (id, s) := fresh (sendTraffic s die 4)
  let n := fget 0 s.netSeq peer
  let port := if peerUp s peer then nextPort s peer 8 else none
  (⟨id, n, port⟩, netAttempt { s with netSeq := fput 0 s.netSeq peer (n + 1) } id 0 port)

/-- A READ OF A PEER whose answer the reader needs at once (R360, R467, log 24): it waits while no port of the peer's is up,
and a peer given up refuses it (R466). The request and its answer cross the links of the module. -/
def peerRead (s : State) (core peer n : Nat) : State × Option (Except RemoteError (List Byte)) :=
  if !peerUp s peer then (s, some (.error .refused))
  else if (nextPort s peer 8).isNone then (s, none)
  else
    let (i, s) := freeIx (sendTraffic (sendPacket s (dieOf core) peer).2 4 (dieOf core))
    (s, some (match Config.peerAnswer i with
      | some e => .error e
      | none => .ok ((List.range n).map (Config.peerByte i))))

/-- The stop of a read that a peer answers with an error (R467). -/
def peerStop (e : RemoteError) (a : Word64) : Stop :=
  match e with
  | .refused => addrExc .prot a
  | .poison => .poison a noPa 0

/-! ### Atomics on bytes (R272, R273) -/

/-- The new value of an atomic, none where CAS does not match. -/
def atomResult (k : AtomKind) (sz : Bool) (old b c : Word64) : Option Word64 :=
  let w := if sz then 64 else 32
  let cut (x : Word64) : Nat := x.toNat % 2 ^ w
  let sgn (x : Word64) : Int := if sz then x.toInt else (x.setWidth 32).toInt
  match k with
  | .swap => some (BitVec.ofNat 64 (cut b))
  | .cas => if cut old = cut b then some (BitVec.ofNat 64 (cut c)) else none
  | .rmw op => some <| match op with
    | .add => BitVec.ofNat 64 (cut (old + b))
    | .smin => BitVec.ofNat 64 (cut (if sgn b < sgn old then b else old))
    | .smax => BitVec.ofNat 64 (cut (if sgn old < sgn b then b else old))
    | .umin => BitVec.ofNat 64 (min (cut old) (cut b))
    | .umax => BitVec.ofNat 64 (max (cut old) (cut b))
    | .and => BitVec.ofNat 64 (cut (old &&& b))
    | .or => BitVec.ofNat 64 (cut (old ||| b))
    | .xor => BitVec.ofNat 64 (cut (old ^^^ b))
    | .fadd => BitVec.ofNat 64 (finish .plain .fp32 (addVal .rn (fp (old.setWidth 32)) (fp (b.setWidth 32)))).1.toNat
    | .fmin => BitVec.ofNat 64 (minMaxCode .fp32 false (cut old) (cut b))
    | .fmax => BitVec.ofNat 64 (minMaxCode .fp32 true (cut old) (cut b))

abbrev atomLen (sz : Bool) : Nat := if sz then 8 else 4

/-- An atomic on the block's scratchpad: the old value, and the block after. -/
def spadAtom (b : Block) (off : Nat) (a : Atom) : Word64 × Block :=
  let old : Word64 := wordOf 64 (b.spad.readN off (atomLen a.sz))
  (old, match atomResult a.kind a.sz old a.b a.c with
    | some v => spadStore b off (bytesOfNat (atomLen a.sz) v.toNat)
    | none => b)

end Sys2Proof.Machine
end

