-- ==== Sys2Proof/Machine/Operands.lean ====
section
/-! DEFINITION. Operands of a word in a trace: which registers it reads and what they hold (R29, R46, R49, R194 to
R198, R211), their full and empty bits (R36, R439), and the TWB entries it writes (R45, R50). -/

namespace Sys2Proof.Machine

/-! ### The issuing word -/

/-- What a word takes from the trace's budget; `last` is a terminator or boundary instruction (R42, R44). -/
structure Need where
  twb : Nat
  tsb : Nat
  last : Bool
  deriving DecidableEq, Repr, Inhabited

/-- A word issuing in a wave: the state with what accesses have changed, the block and the wave as they stand, the trace
with what the word has written so far, the word's address, the executing lanes. -/
structure Iss where
  s : State
  bid : Nat
  wi : Nat
  b : Block
  w : Wave
  t : TraceRun
  addr : Word64
  ex : Mask
  need : Need
  deriving Inhabited

/-! ### Register values (R46, R49) -/

def fullV : RegCell := ⟨0, .full⟩
def fullS : SCell := ⟨0, .full⟩

/-- The key of logical stack index `ix` in a lane. -/
abbrev vkey (ix lane : Nat) : Nat := ix * 32 + lane

/-- vN of a lane: its trace value while it is in the trace, else the committed value. -/
def Iss.vcell (x : Iss) (n lane : Nat) : RegCell :=
  let k := vkey (x.w.wo + n) lane
  match (if x.t.live.getLsbD lane then ffind x.t.ov k else none) with
  | some c => c
  | none => fget fullV x.w.vreg k

/-- sN. -/
def Iss.scell (x : Iss) (n : Nat) : SCell :=
  match ffind x.t.os n with
  | some c => c
  | none => fget fullS x.w.sreg n

/-- A predicate in a lane; p0 is true (R28). -/
def Iss.pred (x : Iss) (p : BitVec 4) (lane : Nat) : Bool :=
  if p = 0 then true
  else match (if x.t.live.getLsbD lane then ffind x.t.op p.toNat else none) with
    | some (m, v) => if m.getLsbD lane then v.getLsbD lane else (fget 0 x.w.preds p.toNat).getLsbD lane
    | none => (fget 0 x.w.preds p.toNat).getLsbD lane

/-- A guard or a source predicate, after its negate bit (R191, R200). -/
def Iss.holds (x : Iss) (p : PredSrc) (lane : Nat) : Bool := x.pred p.pred lane != p.neg

/-- A special register by R300's number, as the trace sees it (R301). -/
def Iss.special (x : Iss) (n : Nat) : Word64 :=
  match ffind x.t.om n with
  | some v => v
  | none => fget 0 x.w.spec n

/-- FMODE under R46. -/
def Iss.fmode (x : Iss) : Word64 := x.special 0

/-- A generator of the wave as the trace sees it. -/
def Iss.gen (x : Iss) (n : Nat) : Gen :=
  match ffind x.t.og n with
  | some g => g
  | none => fget .zero x.w.gens n

/-- R196: the lane a permutation reads for lane `l`. -/
def permLane (p : Perm) (l : Nat) : Nat :=
  match p with
  | .none => l
  | .rot n => (l + n.toNat) % 32
  | .bc n => n.toNat
  | .bf n => l ^^^ 2 ^ n.toNat
  | .mir => 31 - l
  | .rot8 n => l / 8 * 8 + (l + n.toNat) % 8
  | .bc8 n => l / 8 * 8 + n.toNat

/-! ### Source operands (R198, R211) -/

/-- The Imm entries of R209. -/
inductive Widen where
  | s | z | f | h
  deriving DecidableEq, Repr, Inhabited

/-- A source operand: the field that holds it (R425), its source, how an immediate is widened, and whether a 32-bit
register value is sign-extended at w = 64. -/
structure Opnd where
  field : Nat
  src : Src
  imm : Widen
  sx : Bool
  deriving DecidableEq, Repr, Inhabited

/-- R198. -/
def widen (k : Widen) (v : BitVec 17) : Word64 :=
  match k with
  | .s => v.signExtend 64
  | .z => v.setWidth 64
  | .f => (v.setWidth 64) <<< 15
  | .h => (v.setWidth 64 &&& 0xFFFF) * 0x10001

abbrev low32 (v : Word64) : Word64 := v &&& 0xFFFFFFFF

/-- The 64-bit or 32-bit value of a register in a source lane, before any permutation. -/
def Iss.regVal (x : Iss) (r : Reg) (w64 sx : Bool) (lane : Nat) : Word64 :=
  let ext (v : Word32) : Word64 := if w64 && sx then v.signExtend 64 else v.setWidth 64
  match r with
  | .v n => ext (x.vcell n lane).val
  | .s n => if w64 then (x.scell n).val else low32 (x.scell n).val
  | .laneIx => ext (BitVec.ofNat 32 lane)
  | .waveIx => ext (BitVec.ofNat 32 x.wi)
  | .ones => ext 0xFFFFFFFF
  | .zero | .g _ | .z _ => 0

/-- THE VALUE OF A SOURCE in a lane at width 64 or 32 (R198, R211). -/
def Iss.val (x : Iss) (w64 : Bool) (o : Opnd) (lane : Nat) : Word64 :=
  match o.src with
  | .imm v => if w64 then widen o.imm v else low32 (widen o.imm v)
  | .reg r => x.regVal r.reg w64 o.sx (permLane r.perm lane)

/-! ### Full and empty (R36, R439) -/

/-- The full/empty bits of a run of registers in a source lane. -/
def Iss.fills (x : Iss) (r : Reg) (span lane : Nat) : List Fill :=
  match r with
  | .v n => (List.range span).map fun i => (x.vcell (n + i) lane).fill
  | .s n => (List.range span).map fun i => (x.scell (n + i)).fill
  | _ => []

/-- One operand read: its field, register, length of the run, and for each lane that reads it the lane it reads. -/
structure Read where
  field : Nat
  reg : Reg
  fe : Bool
  span : Nat
  lanes : List (Nat × Nat)
  deriving DecidableEq, Repr, Inhabited

inductive OpChk where
  | ok
  | wait
  | stop (rs : List Raise)
  deriving DecidableEq, Repr, Inhabited

def Fill.isDefer : Fill → Bool
  | .defer _ => true
  | _ => false

/-- What one read does in one lane: DEFRD before EMPTYT; an empty register with FE = 0 makes the batch wait. The lane that
reads stops, also where the register is another lane's (log 89). -/
def Iss.readLane (x : Iss) (r : Read) (p : Nat × Nat) : OpChk :=
  let fs := x.fills r.reg r.span p.2
  if fs.any Fill.isDefer then .stop [(p.1, .exc .defrd r.field 0 none)]
  else if fs.all fun f => f = .full then .ok
  else if r.fe then .stop [(p.1, .exc .emptyt r.field 0 none)]
  else .wait

/-- Two answers about lanes together: a lane that stops comes before a wait. -/
def OpChk.and : OpChk → OpChk → OpChk
  | .stop a, .stop b => .stop (a ++ b)
  | .stop a, _ => .stop a
  | _, .stop b => .stop b
  | .wait, _ => .wait
  | .ok, c => c

/-- One read in all its lanes. -/
def Iss.checkRead (x : Iss) (r : Read) : OpChk := (r.lanes.map fun p => x.readLane r p).foldl OpChk.and .ok

/-- The operand checks from a point on; `acc` is what earlier operands stopped. -/
def Iss.checkReadsFrom (x : Iss) (acc : List Raise) : List Read → OpChk
  | [] => if acc = [] then .ok else .stop acc
  | r :: rs =>
    match x.checkRead { r with lanes := r.lanes.filter fun p => acc.all fun a => a.1 ≠ p.1 } with
    | .wait => if acc = [] then .wait else .stop acc
    | .ok => x.checkReadsFrom acc rs
    | .stop a => x.checkReadsFrom (acc ++ a) rs

/-- THE OPERAND CHECKS, in field order (R422): a lane that an earlier operand stopped makes no later check, and the batch
waits at the first operand that makes it wait. -/
def Iss.checkReads (x : Iss) (rs : List Read) : OpChk := x.checkReadsFrom [] rs

/-- The lanes that read operands: every executing one, or the lowest for a word that executes once (R29). -/
def Iss.readers (x : Iss) (once : Bool) : List Nat := if once then (lowest x.ex).toList else lanesOf x.ex

/-- The reads of a register-form operand. -/
def Iss.readReg (x : Iss) (once : Bool) (field : Nat) (o : RegOp) (span : Nat) : Read :=
  ⟨field, o.reg, o.fe, span, (x.readers once).map fun l => (l, permLane o.perm l)⟩

/-- The reads of a source. -/
def Iss.readSrc (x : Iss) (once : Bool) (field : Nat) (o : Src) (span : Nat) : List Read :=
  match o with
  | .reg r => [x.readReg once field r span]
  | .imm _ => []

/-- The reads of a source by given lanes. -/
def Iss.readIn (lanes : List Nat) (field : Nat) (o : Src) : List Read :=
  match o with
  | .reg r => [⟨field, r.reg, r.fe, 1, lanes.map fun l => (l, permLane r.perm l)⟩]
  | .imm _ => []

def Iss.readOps (x : Iss) (once : Bool) (ops : List Opnd) : List Read :=
  ops.flatMap fun o => x.readSrc once o.field o.src 1

/-! ### TWB entries (R45, R50) -/

/-- A scalar destination makes a word execute once (R29). -/
def isScalar : Reg → Bool
  | .s _ => true
  | _ => false

/-- The register that a write to D fills, in a lane; none for the constants, whose writes are discarded (R28). -/
def Iss.dest (x : Iss) (d : Reg) (i lane : Nat) : Option Dest :=
  match d with
  | .v n => some (.v (x.w.wo + n + i) lane)
  | .s n => some (.s (n + i))
  | _ => none

/-- A TWB entry for a register with its full/empty bit. -/
def TraceRun.put (t : TraceRun) (d : Dest) (v : Word64) (f : Fill) : TraceRun :=
  match d with
  | .v ix lane => { t with ov := fins t.ov (vkey ix lane) ⟨v.setWidth 32, f⟩ }
  | .s n => { t with os := fins t.os n ⟨v, f⟩ }
  | .z _ => t

/-- Full entries. -/
def Iss.putAll (x : Iss) (ws : List (Dest × Word64)) : Iss :=
  { x with t := ws.foldl (fun t p => t.put p.1 p.2 .full) x.t }

/-- Entries that wait for a producer. -/
def Iss.putEmpty (x : Iss) (ds : List Dest) (id : Nat) : Iss :=
  { x with t := ds.foldl (fun t d => t.put d 0 (.pend id)) x.t }

/-- Empty entries of one load of a lane, with what the load read (R35, R38); `again` is of one that may still read
later (R134). -/
def Iss.putLoad (x : Iss) (ws : List (Dest × Word64)) (poison : Bool) (lane : Nat) (va : Word64) (pa : Nat)
    (route : Option (Nat × Nat)) (again : Option Late := none) : Iss :=
  if ws = [] then x
  else
    let (id, s) := fresh x.s
    let p : Pending := ⟨id, x.bid, x.wi, ws, poison, lane, va, pa, false, route, id, again⟩
    { x with s := { s with pendings := s.pendings ++ [p] } }.putEmpty (ws.map Prod.fst) id

/-- Empty entries of one producer. -/
def Iss.putLate (x : Iss) (ws : List (Dest × Word64)) (lane : Nat) : Iss := x.putLoad ws false lane 0 0 none

/-- A predicate's TWB entry: the lanes written and their values; p0's is discarded (R214). -/
def Iss.putPred (x : Iss) (q : BitVec 4) (m v : Mask) : Iss :=
  if q = 0 then x
  else
    let (m0, v0) := fget (0, 0) x.t.op q.toNat
    { x with t := { x.t with op := fins x.t.op q.toNat (m0 ||| m, (v0 &&& ~~~m) ||| (v &&& m)) } }

/-- A special register's TWB entry. -/
def Iss.putSpecial (x : Iss) (n : Nat) (v : Word64) : Iss := { x with t := { x.t with om := fins x.t.om n v } }

/-- A generator's TWB entry. -/
def Iss.putGen (x : Iss) (n : Nat) (g : Gen) : Iss := { x with t := { x.t with og := fins x.t.og n g } }

/-- A TSB entry. -/
def Iss.putTsb (x : Iss) (r : TsbRec) : Iss := { x with t := { x.t with buf := x.t.buf ++ [r] } }

/-- Changes one lane's counters. -/
def Iss.modLane (x : Iss) (l : Nat) (f : Lane → Lane) : Iss := { x with w := { x.w with lanes := modifyAt f l x.w.lanes } }

end Sys2Proof.Machine
end

