-- ==== Sys2Proof/Machine/Flags.lean ====
section
/-! DEFINITION. Flags: FSTAT flags held with the lane (R73, R74), the flags of integer division (R222), carries and
saturation (R219, R220), the tile flags (R89). -/

namespace Sys2Proof.Machine

/-- Flags held with a lane until it commits (R74). -/
def Iss.addFlags (x : Iss) (lane : Nat) (f : Flags) : Iss :=
  if f = 0 then x else { x with t := { x.t with flags := fmod 0 x.t.flags lane (· ||| f) } }

/-- An SWR to FSTAT drops the flags held before it (R74). -/
def Iss.dropFlags (x : Iss) : Iss := { x with t := { x.t with flags := [] } }

/-- The flags that the committing lanes hold. -/
def heldFlags (t : TraceRun) (m : Mask) : Flags :=
  (lanesOf m).foldl (fun f l => f ||| fget 0 t.flags l) 0

/-- FSTAT after a commit of the lanes `m` (R74). -/
def fstatAfter (w : Wave) (t : TraceRun) (m : Mask) : Word64 :=
  let base := match ffind t.om 1 with
    | some v => v
    | none => fget 0 w.spec 1
  base ||| (heldFlags t m).setWidth 64

/-- R219's bounds. -/
def intLo (w : Nat) (u : Bool) : Int := if u then 0 else -2 ^ (w - 1)
def intHi (w : Nat) (u : Bool) : Int := if u then 2 ^ w - 1 else 2 ^ (w - 1) - 1

/-- R219: D from the exact value. -/
def intResult (w : Nat) (u sat : Bool) (x : Int) : Word64 :=
  let y := if sat then min (max x (intLo w u)) (intHi w u) else x
  BitVec.ofNat 64 (y % 2 ^ w).toNat

/-- A value read as signed or unsigned at width w. -/
def readInt (w : Nat) (u : Bool) (v : Word64) : Int :=
  if u then (v.toNat % 2 ^ w : Nat) else (BitVec.ofNat w v.toNat).toInt

/-- R220: the result and carry of a + b + cin, or of a − b − cin. -/
def carryResult (w : Nat) (sub : Bool) (a b : Word64) (cin : Bool) : Word64 × Bool :=
  let c : Int := if cin then 1 else 0
  let p : Int := (a.toNat % 2 ^ w : Nat)
  let q : Int := (b.toNat % 2 ^ w : Nat)
  let x := if sub then p - q - c else p + q + c
  (BitVec.ofNat 64 (x % 2 ^ w).toNat, if sub then decide (x < 0) else decide ((2 : Int) ^ w ≤ x))

/-- A quotient of integers rounded to an integer (R222). -/
def divRound (r : RMode) (a b : Int) : Int :=
  let q := a.natAbs / b.natAbs
  let rem := a.natAbs % b.natAbs
  let neg := decide (a < 0) != decide (b < 0)
  let up := match r with
    | .rn => decide (b.natAbs < 2 * rem) || (decide (2 * rem = b.natAbs) && decide (q % 2 = 1) && decide (rem ≠ 0))
    | .rz => false
    | .rp => decide (rem ≠ 0) && !neg
    | .rm => decide (rem ≠ 0) && neg
  let m : Nat := if up then q + 1 else q
  if neg then -(m : Int) else m

/-- IDIV's and IREM's flags for a zero divisor (R222). -/
def divFlags (a : Int) : Flags := if a = 0 then flNV else flDZ

/-- IDIV (R222). -/
def idivResult (w : Nat) (u : Bool) (r : RMode) (a b : Int) : Word64 × Flags :=
  if b = 0 then
    (intResult w u false (if 0 < a then intHi w u else if a < 0 then intLo w u else 0), divFlags a)
  else
    let q := divRound r a b
    (intResult w u true q, if intHi w u < q ∨ q < intLo w u then flNV else 0)

/-- IREM (R222). -/
def iremResult (w : Nat) (u : Bool) (r : RMode) (a b : Int) : Word64 × Flags :=
  if b = 0 then (intResult w u false a, divFlags a)
  else (intResult w u false (a - divRound r a b * b), 0)

/-- The rounding mode of an integer result: the override, or FMODE's I32 field (R71, R201). -/
def intMode (fmode : Word64) (o : Rnd) : RMode := (modeFor fmode o .int32).r

/-! ### Tile flags (R89) -/

abbrev tfINV : BitVec 4 := 1
abbrev tfOVF : BitVec 4 := 2
abbrev tfINX : BitVec 4 := 4
abbrev tfCHK : BitVec 4 := 8

end Sys2Proof.Machine
end

