-- ==== Sys2Proof/Machine/Path.lean ====
section
/-! DEFINITION. The write path (R58, R97, R103, R135, R136, R274): how TSB entries leave a committed trace; the release
condition; byte-counting barriers (R282, R283); slots and readiness (R174 to R177). -/

namespace Sys2Proof.Machine

/-! ### Slots (R174 to R177) -/

/-- A batch it has, or can form, and no page it is parked on; a wave that waits at a word is tried again after any event
that could end the wait. -/
def Wave.ready (w : Wave) : Bool :=
  !w.retired && w.parked = [] &&
  (match w.trace with
   | some t => !t.waiting
   | none => w.runnable ≠ 0)

/-- The waves of a core's unit, with their places. -/
def unitWaves (s : State) (core unit : Nat) : List (Nat × Nat × Wave) :=
  (s.blocks.filter fun b => b.core = some core).flatMap fun b =>
    ((List.range b.waves.length).zip b.waves).filterMap fun p =>
      if p.2.unit = unit ∧ !p.2.retired then some (b.id, p.1, p.2) else none

/-- The wave in a slot. -/
def waveAt (s : State) (core unit slot : Nat) : Option (Nat × Nat × Wave) :=
  (unitWaves s core unit).find? fun p => p.2.2.slot = slot

/-- The oldest ready pending wave of a unit (R177). -/
def oldestPending (s : State) (core unit : Nat) : Option (Nat × Nat × Wave) :=
  leastBy (fun p => (p.2.2.readyAt.getD 0) * 16 + p.2.2.slot)
    ((unitWaves s core unit).filter fun p => decide (8 ≤ p.2.2.slot) && p.2.2.ready && p.2.2.readyAt.isSome)

/-- A pending wave takes a slot. -/
def activate (s : State) (bid w slot : Nat) : State :=
  modWave s bid w fun x => { x with slot := slot, readyAt := none, since := some s.tick, demote := false }

/-- R176: the wave's active slot goes to the oldest ready pending wave of its unit, if there is one. -/
def swapOut (s : State) (bid w : Nat) : State :=
  match getBlock s bid, getWave s bid w with
  | some b, some x =>
    match b.core with
    | none => s
    | some core =>
      if 8 ≤ x.slot then s
      else match oldestPending s core x.unit with
        | none => s
        | some (bid', w', y) =>
          let s := modWave s bid w fun x =>
            { x with slot := y.slot, readyAt := if x.ready then some s.tick else none, demote := false }
          activate s bid' w' x.slot
  | _, _ => s

/-- After a word: a wave that is not ready gives up its slot unless it keeps it; YLD and a due demotion give it up too
(R176, R177). -/
def settle (s : State) (bid w : Nat) (keep yld : Bool) : State :=
  match getWave s bid w with
  | none => s
  | some x =>
    if !x.ready then
      let s := modWave s bid w fun x => { x with since := none }
      if keep then modWave s bid w fun x => { x with keep := true } else swapOut s bid w
    else if yld || (x.demote && x.trace.isNone) then swapOut s bid w
    else s

/-- After an event: what a batch waits for may have come. -/
def wakeWave (w : Wave) : Wave := match w.trace with
  | some t => { w with trace := some { t with waiting := false } }
  | none => w

def wakeAll (s : State) : State := { s with blocks := s.blocks.map fun b => { b with waves := b.waves.map wakeWave } }

/-! ### The release condition (R136) -/

/-- The entry writes somewhere outside its block's core. -/
def TsbRec.leaves (t : TsbRec) : Bool := t.places.any fun p => match p.1 with
  | .phys .. | .remote .. => true
  | _ => false

/-! ### The order of one core's writes (R125, R127, R140) -/

/-- Two writes stay in order: their places share a line of one home, or bytes of one scratchpad; `same` says that they
are one block's. -/
def inOrder (same : Bool) (p q : Place × Nat) : Bool :=
  let lines (a b : Nat) : Bool := decide (a / 64 ≤ (b + q.2 - 1) / 64) && decide (b / 64 ≤ (a + p.2 - 1) / 64)
  match p.1, q.1 with
  | .phys a _ _ _, .phys b _ _ _ => lines a b
  | .remote x a, .remote y b => decide (x = y) && lines a b
  | .spad _, .spad _ => same && placeMeets p.1 q.1 p.2 q.2
  | _, _ => false

def anyInOrder (same : Bool) (ps qs : List (Place × Nat)) : Bool := ps.any fun p => qs.any fun q => inOrder same p q

/-- What of an operation is still to be written. -/
def OpBody.places : OpBody → List (Place × Nat)
  | .atoms xs => xs.map fun x => (x.1.place, if x.1.sz then 8 else 4)
  | .stl xs => xs.map fun x => (x.place, x.bytes.length)
  | _ => []

/-- A write issued before `id` by another wave of the core, or an operation that has begun, is still in the core and goes
first. -/
def writeAhead (s : State) (core bid wi id : Nat) (ps : List (Place × Nat)) : Bool :=
  (s.blocks.any fun b => decide (b.core = some core) && ((List.range b.waves.length).zip b.waves).any fun w =>
    !(decide (b.id = bid) && decide (w.1 = wi)) && w.2.path.any fun r =>
      decide (r.id < id) && anyInOrder (decide (b.id = bid)) r.item.places ps) ||
  s.ops.any fun o => decide (o.id < id) && o.released && !o.sent &&
    decide (((getBlock s o.bid).bind (·.core)) = some core) && anyInOrder (decide (o.bid = bid)) o.body.places ps

/-- A committed write of the core older than `id` is still in a write path. -/
def pathHolds (s : State) (core id : Nat) : Bool :=
  s.blocks.any fun b => decide (b.core = some core) && b.waves.any fun w => w.path.any fun r =>
    decide (r.id < id) && r.item.leaves

/-- Every write of the core, and every write the lane may have read from, issued before `id`, has left the write path
and has gone far enough. -/
def releaseMet (s : State) (core : Nat) (sc : Scope) (id : Nat) : Bool :=
  let mine (f : Flight) : Bool := decide (dieOf f.core = dieOf core) && decide (f.date < id)
  (sc = .block || !pathHolds s core id) && match sc with
  | .block => true
  | .die => s.flights.all fun f => !mine f || f.die
  | .device => s.flights.all fun f => !mine f
  | .system => (s.flights.all fun f => !mine f) && s.netOut.all fun n =>
      !(decide (dieOf n.core = dieOf core) && decide (n.date < id) && match n.access with
        | .read _ => false
        | _ => true)

/-! ### Byte-counting barriers (R282) -/

def getBar (b : Block) (n : BitVec 4) : Bar := fget .init b.bars n.toNat

def setBar (b : Block) (n : BitVec 4) (x : Bar) : Block := { b with bars := fput .init b.bars n.toNat x }

/-- The lanes of a block whose state `f` releases, with their new TPs. -/
def departWhere (b : Block) (f : LaneState → Option Word64) : Block :=
  let lane (l : Lane) : Lane := (f l.st).elim l fun tp => { l with st := .runnable, tp := tp }
  { b with waves := b.waves.map fun w => { w with lanes := w.lanes.map lane } }

/-- The phase that the counts now complete, one in a clock: RA falls by XA, PH turns, and the lanes that wait at TWAIT for
the barrier depart (R282). -/
def barSettle (s : State) (bid : Nat) (n : BitVec 4) : State :=
  match getBlock s bid with
  | none => s
  | some b =>
    let x := getBar b n
    if x.pb ≠ 0 ∨ x.ra.toNat < x.xa then s
    else
      let b := setBar b n { x with ra := x.ra - BitVec.ofNat 32 x.xa, ph := !x.ph }
      let b := departWhere b fun
        | .bytes m _ succ => if m = n then some succ else none
        | _ => none
      acquireDrops (setBlock s b) (b.core.getD 0) x.bs

/-- In each clock the phases complete that are due since the last (R282, R486). -/
def duePhases (s : State) : State :=
  (s.blocks.flatMap fun b => b.bars.map fun p => (b.id, BitVec.ofNat 4 p.1)).foldl (fun s p => barSettle s p.1 p.2) s

/-! ### Stores leaving the core (R103, R135) -/

/-- A store's or tag's update of its core's own L1 line, when it hits (R102). -/
def updateL1 (s : State) (f : Flight) : State :=
  match f.place with
  | .phys pa _ _ _ =>
    match ffind s.l1 (l1Key f.core (pa / 64)) with
    | some c => { s with l1 := fins s.l1 (l1Key f.core (pa / 64)) (c.take (pa / 64) f) }
    | none => s
  | _ => s

/-- The pseudo lane of a copy engine's requests. -/
abbrev copyLane : Nat := 64

/-- A request to a remote window, issued at `date`, is sent to the peer (R360); 0 is now. One to a peer that is given up
makes no attempt (R466). -/
def sendFor (s : State) (core bid task ctx wi lane date : Nat) (word va : Word64) (peer off : Nat) (a : Access)
    (ret : Option NetRet) : State :=
  let (p, s) := sendPacket s (dieOf core) peer
  let r : NetOut := ⟨p.id, if date = 0 then p.id else date, peer, off, a, p.seq, core, bid, task, ctx, wi, lane, word, va, none,
    0, p.port.getD 8, ret⟩
  { s with netOut := s.netOut ++ [r] }

/-- The same for a block's own access. -/
def sendRemote (s : State) (core bid wi lane date : Nat) (word va : Word64) (peer off : Nat) (a : Access)
    (ret : Option NetRet) : State :=
  match getBlock s bid with
  | some b => sendFor s core bid b.task b.ctx wi lane date word va peer off a ret
  | none => s

/-- The access table at the target lets the core write there; control space has its own rules (R119, R354). -/
def writeAllowed (s : State) (core : Nat) (p : Place) (n : Nat) : Bool :=
  match p with
  | .phys pa _ _ _ => if ctlBase ≤ pa then ctlOk s core (pa - ctlBase) n true else tableOk s (paTarget pa) core true
  | _ => true

/-- A request issued at `date` leaves the core as a flight; 0 is now. `paid` says that an earlier part of its store pays
for the line (R118). -/
def launchFlight (s : State) (b : Block) (wi lane date : Nat) (hint : BitVec 3) (word va : Word64) (p : Place)
    (op : FlightOp) (paid : Bool := false) : State :=
  let (id, s) := fresh s
  let f : Flight := ⟨id, if date = 0 then id else date, b.core.getD 0, b.id, wi, lane, b.ctx, ctxOwner s b.ctx, b.task, hint,
    word, va, p, op, false, 0, false, 0, paid⟩
  sendFlight (updateL1 { s with flights := s.flights ++ [f] } f) id

/-- A place further on. -/
def Place.plus (p : Place) (i : Nat) : Place := match p with
  | .phys pa c d m => .phys (pa + i) c d m
  | .remote q off => .remote q (off + i)
  | .spad off => .spad (off + i)
  | .regs off => .regs (off + i)

/-- The pieces of a store that are single accesses: each aligned 8-byte part of its own (R124), but a whole block
(R412). -/
def storePieces (va : Word64) (n : Nat) : List (Nat × Nat) :=
  let o := va.toNat % 8
  if n = 64 then [(0, 64)] else (List.range ((o + n + 7) / 8)).map fun i =>
    let lo := max o (8 * i)
    (lo - o, min (o + n) (8 * i + 8) - lo)

/-- Bytes stored through the register aperture at commit: the registers are full with them (R31). -/
def regStore (s : State) (w : Wave) (off : Nat) (bs : List Byte) : Wave :=
  let first := off / 4
  let last := (off + bs.length + 3) / 4
  (List.range (last - first)).foldl (fun w i =>
    let c := fget fullV w.vreg (first + i)
    let old := bytesOfNat 4 (if c.fill = .full then c.val else Config.emptyRegister s.freeIx).toNat
    let new := (List.range 4).map fun j =>
      let a := 4 * (first + i) + j
      if off ≤ a ∧ a < off + bs.length then (nth bs (a - off)).getD 0 else (nth old j).getD 0
    { w with vreg := fput fullV w.vreg (first + i) ⟨wordOf 32 new, .full⟩ }) w

/-- An exception found after commit, for lanes with their addresses, one record for each TP (R424). -/
def trapPost (s : State) (b : Block) (wi : Nat) (word : Word64) (e : Exc) (xs : List (Nat × Word64)) : State :=
  let s := modWave s b.id wi fun w => w.abandon (maskOf fun l => xs.any fun x => x.1 = l)
  match getWave s b.id wi with
  | none => s
  | some w =>
    let tps := (xs.map fun x => (laneOf w x.1).tp).eraseDups
    tps.foldl (fun s tp =>
      let mine := xs.filter fun x => (laneOf w x.1).tp = tp
      takePost s b wi tp word (maskOf fun l => mine.any fun x => x.1 = l) e 0 ((mine.head?).map (·.2)) true) s

/-- PROT found at the target (R424). -/
def denyPost (s : State) (b : Block) (wi : Nat) (word : Word64) (xs : List (Nat × Word64)) : State :=
  trapPost s b wi word .prot xs

/-- One store at its place. -/
def issueStore (s : State) (bid wi date : Nat) (hint : BitVec 3) (x : Store) : State :=
  match getBlock s bid with
  | none => s
  | some b =>
    match x.place with
    | .spad off => setBlock s (spadStore b off x.bytes)
    | .regs off => modWave s bid wi fun w => regStore s w off x.bytes
    | .phys .. => (storePieces x.va x.bytes.length).foldl (fun s p =>
        launchFlight s b wi x.lane date hint x.word (x.va + BitVec.ofNat 64 p.1) (x.place.plus p.1)
          (.store ((x.bytes.drop p.1).take p.2)) (decide (p.1 ≠ 0))) s
    | .remote p o => sendRemote s (b.core.getD 0) bid wi x.lane date x.word x.va p o (.write x.bytes) none

/-- One tag at its place. -/
def issueTag (s : State) (bid wi date : Nat) (x : TagWrite) : State :=
  match getBlock s bid with
  | none => s
  | some b =>
    match x.place with
    | .spad off => setBlock s { b with stag := fput 0 b.stag (off / 64) x.tag }
    | .phys .. => launchFlight s b wi x.lane date 0 x.word x.va x.place (.tag x.tag)
    | _ => s

/-- What an atomic asks of a peer (R360). -/
def atomAccess (a : Atom) : Access :=
  let n := atomLen a.sz
  match a.kind with
  | .rmw op => .atomic op n a.b
  | .swap => .swap n a.b
  | .cas => .cas n a.b a.c

/-- The registers of a returning atomic from its old value (R272). -/
def atomReturn (ds : List Dest) (sz : Bool) (old : Word64) : List (Dest × Word64) :=
  match ds with
  | [.s n] => [(.s n, if sz then old else low32 old)]
  | ds => ds.zip (if sz then [low32 old, old >>> 32] else [low32 old])

/-- One atomic at its place: false where its scratchpad line has P = 0 (R97). `ret` names a returning one's producer and
destinations; a scratchpad atomic's old value becomes a producer's data at once. -/
def issueAtom (s : State) (bid wi date : Nat) (x : Atom) (ret : Option (Nat × List Dest)) : State × Bool :=
  match getBlock s bid with
  | none => (s, true)
  | some b =>
    match x.place with
    | .spad off =>
      if absentIn b off (atomLen x.sz) then (s, false)
      else
        let poison := fget false b.spoison (off / 64)
        let (old, b) := spadAtom b off x
        let s := setBlock s b
        (match ret with
          | none => s
          | some (id, ds) =>
            let p : Pending := ⟨id, bid, wi, atomReturn ds x.sz old, poison, x.lane, x.va, noPa, true, none, id, none⟩
            { s with pendings := s.pendings ++ [p] }, true)
    | .phys .. => (launchFlight s b wi x.lane date 0 x.word x.va x.place (.atom x ret), true)
    | .remote p o => (sendRemote s (b.core.getD 0) bid wi x.lane date x.word x.va p o (atomAccess x)
        (ret.map fun r => ⟨r.1, r.2, false, []⟩), true)
    | .regs _ => (s, true)

/-- Atomics of one word in lane order, up to the first that must wait; the others are left. -/
def issueAtoms (s : State) (bid wi date : Nat) : List Atom → State × List Atom
  | [] => (s, [])
  | x :: xs =>
    match issueAtom s bid wi date x none with
    | (s, true) => issueAtoms s bid wi date xs
    | (s, false) => (s, x :: xs)

/-- The lines of DRAM that a copy owns, and the scratchpad lines whose presence it clears (R97, R141). Destination
addresses that do not translate now are met when the engine reaches them (R458). -/
def copyDestLines (c : CopyCmd) : List Word64 :=
  if c.rowBytes = 0 then [] else (List.range c.srcs.length).flatMap fun r =>
    let d := c.dst.toNat + r * c.dstStride.toNat
    let d := d % 2 ^ 64
    (List.range ((d + c.rowBytes + 63) / 64 - d / 64)).map fun i => BitVec.ofNat 64 ((d / 64 + i) * 64)

/-- A copy command enters the engine (R280). -/
def issueCopy (s : State) (bid : Nat) (m : Mask) (c : CopyCmd) : State :=
  match getBlock s bid with
  | none => s
  | some b =>
    let (id, s) := fresh s
    let lines := (copyDestLines c).eraseDups
    let w := whoOf s b 2
    let (s, owns) := lines.foldl (fun (x : State × List Nat) a =>
      if a.toNat / 2 ^ 56 = 0 then
        match translate x.1 w a true false with
        | (s, .ok (.phys pa _ _ _)) => (s, x.2 ++ [pa / 64])
        | (_, _) => x
      else x) (s, [])
    let s := owns.foldl (fun s line => dropStackLine (dropL1s s (line * 64 / dieSpan) line none) (dieOf w.core) line) s
    let far := lines.filter fun a => a.toNat / 2 ^ 56 = 0xF0
    let clear (m : FMap (List (Nat × BitVec 64))) : FMap (List (Nat × BitVec 64)) := far.foldl (fun m a =>
      let k := a.toNat % 2 ^ 56 / 64
      fins m k (fget [] m k ++ [(id, 0)])) m
    let s := modBlock s bid fun b => { b with absent := clear b.absent }
    { s with copies := s.copies ++ [⟨id, w.core, bid, b.ctx, (lowest m).getD 0, c, [], [], owns, none, [], []⟩] }

/-- R312: the producers of the wave's committed registers that are outstanding, deferred atomics among them; a write that
was cancelled is none, whether the arrival was issued before or after (R424, log 82). -/
def wavePends (w : Wave) : List Nat :=
  let f : Fill → List Nat := fun
    | .pend i => if i = 0 then [] else [i]
    | .defer i => [i]
    | .full => []
  ((w.vreg.flatMap fun p => f p.2.fill) ++ (w.sreg.flatMap fun p => f p.2.fill)).eraseDups

/-- One entry of the write path, and what is left of it where it must wait (R58, R97, R127, R274, R283); a tag write is no
4- or 8-byte access, and control space denies it (R354). -/
def issueItem (s : State) (bid wi : Nat) (r : PathRec) : State × Option TsbRec :=
  match getBlock s bid, getWave s bid wi with
  | some b, some w =>
    let core := b.core.getD 0
    if writeAhead s core bid wi r.id r.item.places || anyPageHeld s b wi r.id r.item.writes then (s, some r.item)
    else match r.item with
    | .store hint xs =>
      let bad := xs.filter fun x => !writeAllowed s core x.place x.bytes.length
      let s := denyPost s b wi (((bad.head?).map (·.word)).getD 0) (bad.map fun x => (x.lane, x.va))
      ((xs.filter fun x => writeAllowed s core x.place x.bytes.length).foldl (fun s x => issueStore s bid wi r.id hint x) s, none)
    | .tag xs =>
      let bad := xs.filter fun x => !writeAllowed s core x.place 2
      let s := denyPost s b wi (((bad.head?).map (·.word)).getD 0) (bad.map fun x => (x.lane, x.va))
      ((xs.filter fun x => writeAllowed s core x.place 2).foldl (fun s x => issueTag s bid wi r.id x) s, none)
    | .atom sc rel xs =>
      if rel && !r.ok && !releaseMet s core sc r.id then (s, some r.item)
      else
        let bad := xs.filter fun x => !writeAllowed s core x.place (atomLen x.sz)
        let s := denyPost s b wi (((bad.head?).map (·.word)).getD 0) (bad.map fun x => (x.lane, x.va))
        match issueAtoms s bid wi r.id (xs.filter fun x => writeAllowed s core x.place (atomLen x.sz)) with
        | (s, []) => (s, none)
        | (s, rest) => (s, some (.atom sc false rest))
    | .copy m c => (issueCopy s bid m c, none)
    | .qpost xs => (xs.foldl (fun s x =>
        let (id, s) := fresh s
        { s with posts := s.posts ++ [⟨id, core, bid, wi, x.1, b.ctx, x.2.1, x.2.2⟩] }) s, none)
    | .sqarr _ q =>
      let (id, s) := fresh s
      ({ s with arrivals := s.arrivals ++ [⟨id, bid, wi, q, wavePends w⟩] }, none)
    | .binit _ n sc k =>
      let x := getBar b n
      (barSettle (setBlock s (setBar b n { x with xa := k, bs := sc, ra := 0, pb := 0 })) bid n, none)
    | .bexp _ n v =>
      let x := getBar b n
      (barSettle (setBlock s (setBar b n { x with pb := x.pb + v })) bid n, none)
    | .barv n xs =>
      let x := getBar b n
      if !r.ok && !releaseMet s core x.bs r.id then (s, some r.item)
      else (barSettle (setBlock s (setBar b n { x with ra := xs.foldl (fun a y => a + y.2) x.ra })) bid n, none)
  | _, _ => (s, none)

/-- The write path from its head on, up to the first entry that must wait. -/
def drainFrom (s : State) (bid wi : Nat) : List PathRec → State × List PathRec
  | [] => (s, [])
  | r :: rs =>
    match issueItem s bid wi r with
    | (s, none) => drainFrom s bid wi rs
    | (s, some item) => (s, { r with item := item } :: rs)

/-- A wave's write path, as far as it goes. -/
def drain (s : State) (bid wi : Nat) : State :=
  match getWave s bid wi with
  | none => s
  | some w =>
    let (s, rest) := drainFrom s bid wi w.path
    modWave s bid wi fun w => { w with path := rest }

/-- The write paths that hold anything, on cores, in the order in which their oldest entries were issued. -/
def openPaths (s : State) : List (Nat × Nat) :=
  (sortBy (fun x y : Nat × Nat × Nat => decide (x.1 < y.1)) ((s.blocks.filter fun b => b.core.isSome).flatMap fun b =>
    ((List.range b.waves.length).zip b.waves).filterMap fun p => p.2.path.head?.map fun r => (r.id, b.id, p.1))).map (·.2)

end Sys2Proof.Machine
end

