-- ==== Sys2Proof/Machine/Trace.lean ====
section
/-! DEFINITION. The frame of a wave's word (R42 to R66, R191, R422, R433): its shape checks, the lanes it executes in,
and what becomes of its answer: the next word, a wait, an exception, lanes that leave, the commit of the trace. -/

namespace Sys2Proof.Machine

/-- A step's outcome. -/
abbrev Out := Host.Outcome State Fault Refusal

/-- What the meaning of a wave's word answers. -/
inductive Ans where
  /-- The word is done. -/
  | done (x : Iss)
  /-- The batch waits at the word (R36, R53, R97, R280). -/
  | wait (s : State)
  /-- Lanes stop at the word at this address; `decode` is R425's flag. -/
  | stop (s : State) (word : Word64) (decode : Bool) (rs : List Raise)
  /-- Lanes leave the trace with a new TP (R52, R53). -/
  | leave (x : Iss) (m : Mask) (alt : Word64)
  /-- The trace ends (R55, R56): where each committed lane goes, whether the wave yields, the operation after the commit. -/
  | close (x : Iss) (land : Nat → Lane → Lane) (yld : Bool) (post : State → State)

/-- Lanes stop at the word. -/
def Iss.stop (x : Iss) (rs : List Raise) : Ans := .stop x.s x.addr false rs

/-- The operand checks first, then the rest of the word. -/
def Iss.reading (x : Iss) (rs : List Read) (k : Ans) : Ans :=
  match x.checkReads rs with
  | .ok => k
  | .wait => .wait x.s
  | .stop a => x.stop a

/-- The operand checks first, then the rest of the word in the lanes that passed them; `k` has the stops so far. -/
def Iss.readingThen (x : Iss) (rs : List Read) (k : List Raise → Ans) : Ans :=
  match x.checkReads rs with
  | .ok => k []
  | .wait => .wait x.s
  | .stop a => k a

/-- More operand checks, by lanes that the first have not stopped: `acc` is what those stopped. -/
def Iss.readingAfter (x : Iss) (acc : List Raise) (rs : List Read) (k : Ans) : Ans :=
  match x.checkReadsFrom acc rs with
  | .ok => k
  | .wait => .wait x.s
  | .stop a => x.stop a

/-- The lanes of a list that nothing has stopped. -/
def goOn (rs : List Raise) (ls : List Nat) : List Nat := ls.filter fun l => rs.all fun r => r.1 ≠ l

/-- The lanes of a mask that no check has stopped. -/
def unstopped (m : Mask) (rs : List Raise) : Mask := maskOf fun l => m.getLsbD l && rs.all fun r => r.1 ≠ l

/-- A successor (R57). -/
def Iss.target (x : Iss) (o : BitVec 17) : Word64 := x.addr + (o.signExtend 64 <<< 4)

/-! ### The answer taken -/

/-- A trace past a word: the next repetition, or the next word (R65). -/
def TraceRun.advance (t : TraceRun) : TraceRun :=
  match t.rep with
  | none => { t with pos := t.pos + 1 }
  | some r =>
    if r.i < r.n then { t with rep := some { r with i := r.i + 1 } }
    else { t with pos := t.pos + 1, rep := none }

/-- The wave goes back into the state with its trace. -/
def Iss.store (x : Iss) (t : Option TraceRun) : State := modWave x.s x.bid x.wi fun _ => { x.w with trace := t }

/-- A word done: its entries are counted and the trace goes on. -/
def Iss.finish (x : Iss) (c : Ctl) : State :=
  let t := { x.t with twbUsed := x.t.twbUsed + x.need.twb, tsbUsed := x.t.tsbUsed + x.need.tsb }
  settle (x.store (some t.advance)) x.bid x.wi c.keep c.yld

/-- The batch waits at its word. -/
def holdWord (s : State) (bid wi : Nat) (keep : Bool) : State :=
  let s := modWave s bid wi fun w => { w with trace := w.trace.map fun t => { t with waiting := true } }
  settle s bid wi keep false

/-- The poison among stops: the lane, its addresses and the agent, in lane order. -/
def poisons (rs : List Raise) : List (Nat × Word64 × Nat × Nat) :=
  (sortBy (fun x y : Raise => decide (x.1 < y.1)) rs).filterMap fun r => match r.2 with
    | .poison va pa agent => some (r.1, va, pa, agent)
    | _ => none

/-- Lanes of a wave stop at a word (R421, R423); poison loses the context (R413). -/
def raiseWave (s : State) (bid wi : Nat) (tp word : Word64) (decode : Bool) (rs : List Raise) : State :=
  match getBlock s bid, getWave s bid wi with
  | some b, some w =>
    match poisons rs with
    | x :: xs => consumeAll s b.ctx ((x :: xs).map fun p => (lanePoison s b wi w p.1 tp p.2.1 p.2.2.1, p.2.2.2))
    | [] => settle (takeStops s b wi tp word decode rs) bid wi false false
  | _, _ => s

/-- Lanes leave a trace: Discard for each, TP := alt, and they stay runnable (R52); with none left the trace is over
(R54). -/
def Iss.leaveTo (x : Iss) (m : Mask) (alt : Word64) (c : Ctl) : State :=
  let w := x.w.modLanes m fun l y =>
    { y with tp := alt, draw := (nth x.t.draws l).getD y.draw, seq := (nth x.t.seqs l).getD y.seq }
  let t := x.t.drop m
  let x := { x with w := w, t := t }
  if t.live = 0 then settle ({ x with w := { w with det := t.det } }.store none) x.bid x.wi c.keep c.yld
  else x.finish c

/-! ### Commit (R58) -/

/-- A predicate's committed lanes take the trace's values; `base` is what was committed before. -/
def commitPred (m : Mask) (base : FMap Mask) (p : Nat × Mask × Mask) (r : FMap Mask) : FMap Mask :=
  let e := p.2.1 &&& m
  fput 0 r p.1 ((fget 0 base p.1 &&& ~~~e) ||| (p.2.2 &&& e))

/-- What the lanes of a mask have contributed to an accumulator in a trace (R50). -/
def contributions (t : TraceRun) (m : Mask) (k : Nat) : BitVec 128 :=
  (lanesOf m).foldl (fun v l => v + fget 0 t.kc (k * 32 + l)) 0

/-- The TWB entries of a trace written to registers for the lanes `m`; a scalar entry is written once. -/
def commitRegs (w : Wave) (t : TraceRun) (m : Mask) : Wave :=
  { w with
    vreg := t.ov.foldr (fun p r => if m.getLsbD (p.1 % 32) then fput fullV r p.1 p.2 else r) w.vreg
    sreg := t.os.foldr (fun p r => fput fullS r p.1 p.2) w.sreg
    preds := t.op.foldr (commitPred m w.preds) w.preds
    spec := fput 0 (t.om.foldr (fun p r => fput 0 r p.1 p.2) w.spec) 1 (fstatAfter w t m)
    kreg := (List.range 4).foldl (fun r k => fmod 0 r k (· + contributions t m k)) w.kreg
    gens := t.og.foldr (fun p r => fput .zero r p.1 p.2) w.gens }

/-- What of a TSB entry belongs to the lanes `m`; an effect made once for the word belongs to its executing lanes. -/
def TsbRec.restrict (m : Mask) : TsbRec → Option TsbRec
  | .store h xs => let ys := xs.filter fun x => m.getLsbD x.lane
      if ys = [] then none else some (.store h ys)
  | .tag xs => let ys := xs.filter fun x => m.getLsbD x.lane
      if ys = [] then none else some (.tag ys)
  | .atom sc rel xs => let ys := xs.filter fun x => m.getLsbD x.lane
      if ys = [] then none else some (.atom sc rel ys)
  | .copy e c => if e &&& m = 0 then none else some (.copy (e &&& m) c)
  | .qpost xs => let ys := xs.filter fun x => m.getLsbD x.1
      if ys = [] then none else some (.qpost ys)
  | .sqarr e q => if e &&& m = 0 then none else some (.sqarr (e &&& m) q)
  | .binit e b sc n => if e &&& m = 0 then none else some (.binit (e &&& m) b sc n)
  | .bexp e b n => if e &&& m = 0 then none else some (.bexp (e &&& m) b n)
  | .barv b xs => let ys := xs.filter fun x => m.getLsbD x.1
      if ys = [] then none else some (.barv b ys)

/-- The deferred atomics of one word enter the core's buffer (R148); the lanes' sequences advance. -/
def placeDet (s : State) (b : Block) (wi : Nat) (seqs : List Nat) (xs : List (Atom × Option (List Dest))) :
    State × List Nat :=
  xs.foldl (fun (p : State × List Nat) x =>
    let (id, s) := fresh p.1
    let l := x.1.lane
    let e : DetEntry := ⟨id, b.core.getD 0, b.id, b.task, b.ctx, b.lin, wi, l, (nth p.2 l).getD 0, x.1,
      globalAddr s b wi l x.1.va, x.2⟩
    ({ s with detbuf := s.detbuf ++ [e] }, modifyAt (· + 1) l p.2)) (s, seqs)

/-- The stores of an entry through the register aperture, and what of the entry goes to the write path. -/
def TsbRec.splitRegs : TsbRec → List (Nat × List Byte) × Option TsbRec
  | .store h xs =>
    let regs := xs.filterMap fun x => match x.place with
      | .regs off => some (off, x.bytes)
      | _ => none
    let rest := xs.filter fun x => match x.place with
      | .regs _ => false
      | _ => true
    (regs, if rest = [] then none else some (.store h rest))
  | r => ([], some r)

/-- Stores through the register aperture are written at commit, after the TWB entries (R31). -/
def commitAperture (s : State) (w : Wave) (rs : List TsbRec) : Wave × List TsbRec :=
  ((rs.flatMap fun r => r.splitRegs.1).foldl (fun w x => regStore s w x.1 x.2) w, rs.filterMap fun r => r.splitRegs.2)

/-- The lanes for which an entry is a release (R128). -/
def TsbRec.releasers : TsbRec → List Nat
  | .atom _ true xs => xs.map (·.lane)
  | .qpost xs => xs.map (·.1)
  | .barv _ xs => xs.map (·.1)
  | _ => []

/-- An entry of a wave is committed: loads of its lanes that its writes meet, and all loads of lanes that it releases for,
are read by then (R125, R129). -/
def pinItem (s : State) (bid wi : Nat) (r : TsbRec) : State :=
  pinLanes (pinWrites s bid wi r.writes) bid wi (maskOf fun l => decide (l ∈ r.releasers))

/-- The entries of a committed trace enter the write path, in program order; in a DET task the atomics enter the
deferred-atomic buffer instead (R148). -/
def enterPath (s : State) (b : Block) (wi : Nat) (det : Bool) (seqs : List Nat) : List TsbRec → State
  | [] => s
  | r :: rs =>
    match det, r with
    | true, .atom _ _ xs =>
      let (s, seqs) := placeDet (pinItem s b.id wi r) b wi seqs (xs.map fun x => (x, none))
      enterPath (modWave s b.id wi fun w => { w with det := w.det + xs.length }) b wi det seqs rs
    | _, _ =>
      let (id, s) := fresh (pinItem s b.id wi r)
      enterPath (modWave s b.id wi fun w => { w with path := w.path ++ [⟨id, false, r⟩] }) b wi det seqs rs

/-! ### Calls that cannot end (R437) -/

/-- The call site at which a lane waits. -/
def LaneState.site : LaneState → Option (Word64 × Bool)
  | .tcall site _ _ _ _ => some (site, true)
  | .tret site => some (site, false)
  | _ => none

/-- DIVCALL: nothing is runnable or trapped, every lane not exited waits at a call, and not at one TCALL or at TRETs
alone. Each site has a record. -/
def divCheck (s : State) (bid wi : Nat) : State :=
  match getBlock s bid, getWave s bid wi with
  | some b, some w =>
    let out := (w.lanes.map (·.st)).filter fun st => st ≠ .exited
    let sites := (out.filterMap LaneState.site).eraseDups
    let calls := sites.filter (·.2)
    if out = [] ∨ !(out.all fun st => st.site.isSome) then s
    else if 2 ≤ calls.length ∨ (calls ≠ [] ∧ calls.length < sites.length) then
      let s := sites.foldl (fun s site =>
        takePost s b wi site.1 site.1 (w.lanesWhere fun st => st.site = some site) .divcall 0 none true) s
      settle s bid wi false false
    else s
  | _, _ => s

/-! ### The end of a trace (R55, R56) -/

/-- Lanes that recorded a slot and have not checked it since (R435). -/
def uncheckedLanes (t : TraceRun) : Mask := maskOf fun l =>
  t.live.getLsbD l && t.watch.any fun r => decide (r.lane = l) && !r.checked

/-- The wave's registers as the commit of every lane still in the trace leaves them, and what goes to the write path. -/
def Iss.committed (x : Iss) : Wave × List TsbRec :=
  commitAperture x.s (commitRegs x.w x.t x.t.live) (x.t.buf.filterMap (TsbRec.restrict x.t.live))

/-- COMMIT of every lane still in the trace, then the boundary operation; calls that cannot end are found (R437). -/
def Iss.commit (x : Iss) (c : Ctl) (land : Nat → Lane → Lane) (yld : Bool) (post : State → State) : State :=
  let m := x.t.live
  let (w, rs) := x.committed
  let w := w.modLanes m fun l y => land l { y with gcount := 0, pass := none }
  let s := modWave x.s x.bid x.wi fun _ => { w with trace := none, det := x.t.det }
  let s := enterPath s x.b x.wi (taskDet s x.b.task) x.t.seqs rs
  let s := divCheck (post (drain s x.bid x.wi)) x.bid x.wi
  settle s x.bid x.wi c.keep (c.yld || yld)

/-- Lanes with an unchecked slot raise WUNCHK at the word that ends the trace (R435), whatever stops the others (R423). -/
def withUnchecked (t : TraceRun) (n : Need) (decode : Bool) (rs : List Raise) : List Raise :=
  if n.last && !decode then rs ++ (goOn rs (lanesOf (uncheckedLanes t))).map fun l => (l, .plain .wunchk) else rs

/-- The answer of a word taken. -/
def takeAns (c : Ctl) (n : Need) (t : TraceRun) (bid wi : Nat) (tp : Word64) : Ans → State
  | .done x => x.finish c
  | .wait s => holdWord s bid wi c.keep
  | .stop s word decode rs => raiseWave s bid wi tp word decode (withUnchecked t n decode rs)
  | .leave x m alt => x.leaveTo m alt c
  | .close x land yld post =>
    let bad := uncheckedLanes x.t
    if bad = 0 then x.commit c land yld post
    else raiseWave x.s bid wi tp x.addr false ((lanesOf bad).map fun l => (l, .plain .wunchk))

/-! ### The frame -/

/-- A word's shape and its entries fit its place in the trace (R42, R44, R433). -/
def shapeOk (t : TraceRun) (n : Need) : Bool :=
  (n.last == decide (t.pos = t.words)) && decide (t.twbUsed + n.twb ≤ t.twb) && decide (t.tsbUsed + n.tsb ≤ t.tsb)

/-- The address of the word at a position of the trace. -/
def TraceRun.addrOf (t : TraceRun) (pos : Nat) : Word64 := t.start + BitVec.ofNat 64 (16 * pos)

/-- The lanes in which a word with these guards executes (R6, R191). -/
def Iss.guarded (x : Iss) (c : Ctl) : Mask := maskOf fun l => x.t.live.getLsbD l && x.holds c.g1 l && x.holds c.g2 l

/-- Every lane still in the trace stops. -/
def allStop (t : TraceRun) (st : Stop) : List Raise := (lanesOf t.live).map fun l => (l, st)

/-- A WORD OF A WAVE: its meaning `k` in the lanes that execute it. -/
def runFree (s : State) (bid wi : Nat) (c : Ctl) (n : Need) (k : Iss → Ans) : State :=
  match getBlock s bid with
  | none => s
  | some b =>
    match nth b.waves wi with
    | none => s
    | some w =>
      match w.trace with
      | none => s
      | some t =>
        let x : Iss := ⟨s, bid, wi, b, w, t, t.addrOf t.pos, 0, n⟩
        takeAns c n t bid wi t.start (k { x with ex := x.guarded c })

/-- The shape checks first (R433). -/
def Iss.shaped (x : Iss) (n : Need) (k : Ans) : Ans :=
  if shapeOk x.t n then k else .stop x.s x.addr true (allStop x.t (.plain .trshape))

/-- A word whose shape is checked before its meaning. -/
def runWord (s : State) (bid wi : Nat) (c : Ctl) (n : Need) (k : Iss → Ans) : State :=
  runFree s bid wi c n fun x => x.shaped n (k x)

/-- A wave word in the sequencer stream raises SEQERR at decode; the stop of a block sequencer at its word. A denial by
frame ownership costs the context, like poison (R454, R413). -/
def seqStop (s : State) (bid : Nat) (st : Stop) (skip decode : Bool) : State :=
  match getBlock s bid with
  | none => s
  | some b =>
    match b.seq with
    | none => s
    | some q =>
      match st with
      | .poison va pa agent =>
        let core := b.core.getD 0
        let r := (errRec 2 0x0009).atUnit (dieOf core) core (17 + q.unit) 0xFF
        let r := ((if pa < 2 ^ 48 then r.atPa pa else r).atGlobal va).atTp q.pc |>.atBlk b.lin
        consumePoison s b.ctx { r with exc := 0x17 } agent
      | .park _ => loseContext s b.ctx 0x0030 1 false
      | st => takeSeq s b q.pc st skip decode

/-- A WAVE INSTRUCTION, for the actor that issues. -/
def waveWord (c : Ctl) (n : Need) (k : Iss → Ans) (s : State) : Out :=
  match s.actor with
  | .none => .fault .noActor
  | .wave bid wi => .next (runWord s bid wi c n k)
  | .seq bid => .next (seqStop s bid (.exc .seqerr 0xFF 1 none) false true)

/-- A wave instruction that checks its shape itself. -/
def waveFree (c : Ctl) (n : Need) (k : Iss → Ans) (s : State) : Out :=
  match s.actor with
  | .none => .fault .noActor
  | .wave bid wi => .next (runFree s bid wi c n k)
  | .seq bid => .next (seqStop s bid (.exc .seqerr 0xFF 1 none) false true)

/-! ### Needs -/

/-- A word that takes TWB and TSB entries. -/
abbrev Need.mk2 (twb tsb : Nat) : Need := ⟨twb, tsb, false⟩
abbrev Need.zero : Need := ⟨0, 0, false⟩
/-- A terminator or boundary word. -/
abbrev Need.final : Need := ⟨0, 0, true⟩

/-- No guard, HINT or SCH. -/
abbrev Ctl.plain : Ctl := ⟨⟨false, 0⟩, ⟨false, 0⟩, 0, false, false⟩

/-- Where committed lanes of a boundary word go: TP := E. -/
def landAt (tp : Word64) : Nat → Lane → Lane := fun _ l => { l with tp := tp }

end Sys2Proof.Machine
end

