-- ==== Sys2Proof/Machine/Boundary.lean ====
section
/-! DEFINITION. Boundary operations that take time (R56, R274, R276 to R278, R296): how one starts, when its release
condition lets it act, when its acquire side is done; tickets (R179); data arriving at registers (R37, R38). -/

namespace Sys2Proof.Machine

/-! ### Registers that a producer fills -/

/-- Sets a committed register. -/
def Wave.setDest (w : Wave) (d : Dest) (v : Word64) (f : Fill) : Wave :=
  match d with
  | .v ix lane => { w with vreg := fput fullV w.vreg (vkey ix lane) ⟨v.setWidth 32, f⟩ }
  | .s n => { w with sreg := fput fullS w.sreg n ⟨v, f⟩ }
  | .z _ => w

/-- Committed registers become empty, waiting for the producer `id`. -/
def Wave.emptyDests (w : Wave) (ds : List Dest) (f : Fill) : Wave := ds.foldl (fun w d => w.setDest d 0 f) w

/-- The trace's entry for a register, if the producer `id` is its latest. -/
def TraceRun.awaits (t : TraceRun) (d : Dest) (id : Nat) : Bool :=
  match d with
  | .v ix lane => t.live.getLsbD lane && ((ffind t.ov (vkey ix lane)).any fun c => decide (c.fill = .pend id))
  | .s n => (ffind t.os n).any fun c => decide (c.fill = .pend id)
  | .z _ => false

/-- The committed register waits for the producer. -/
def Wave.awaits (w : Wave) (d : Dest) (id : Nat) : Bool :=
  match d with
  | .v ix lane => decide ((fget fullV w.vreg (vkey ix lane)).fill = .pend id)
  | .s n => decide ((fget fullS w.sreg n).fill = .pend id)
  | .z _ => false

/-- One value of a producer lands in the entry or register that still waits for it, else it is dropped (R37, R38). -/
def Wave.land (w : Wave) (id : Nat) (p : Dest × Word64) : Wave :=
  let w := match w.trace with
    | some t => if t.awaits p.1 id then { w with trace := some (t.put p.1 p.2 .full) } else w
    | none => w
  if w.awaits p.1 id then w.setDest p.1 p.2 .full else w

/-- A wave's register still waits for the producer. -/
def Wave.wants (w : Wave) (id : Nat) (ws : List (Dest × Word64)) : Bool :=
  ws.any fun p => w.awaits p.1 id || (w.trace.any fun t => t.awaits p.1 id)

/-- The sequencer's z register takes a value (R326). -/
def seqLand (b : Block) (id : Nat) (p : Dest × Word64) : Block :=
  match p.1, b.seq with
  | .z n, some q => if (fget fullS q.z n).fill = .pend id then
      { b with seq := some { q with z := fput fullS q.z n ⟨p.2, .full⟩ } } else b
  | _, _ => b

/-- The pseudo lane of a sequencer's producers. -/
abbrev seqLane : Nat := 32

/-- One value of a drain lands (R323); a register that the wave has written since the drain issued ends with the value
of one of the two, chosen by the counter `ix` (R315). -/
def Wave.landDrain (w : Wave) (id ix : Nat) (p : Dest × Word64) : Wave :=
  match p.1 with
  | .v r lane =>
    if w.awaits p.1 id then w.setDest p.1 p.2 .full
    else if (fget fullV w.vreg (vkey r lane)).fill = .full && Config.raceValue ix then w.setDest p.1 p.2 .full
    else w
  | _ => w

/-- A drain's values land, a free value for each. -/
def landDrains (w : Wave) (id ix : Nat) : List (Dest × Word64) → Wave
  | [] => w
  | p :: ps => landDrains (w.landDrain id ix p) id (ix + 1) ps

/-- Acquire sides and arrivals have one producer less to wait for. -/
def dropWaits (s : State) (id : Nat) : State :=
  { s with
    ops := s.ops.map fun o => { o with waits := o.waits.filter fun w => w.2 ≠ id }
    arrivals := s.arrivals.map fun a => { a with waits := a.waits.filter fun i => i ≠ id } }

/-- What waited for the producer stays empty and waits for none (R424, R443). -/
def Fill.cancel (id : Nat) : Fill → Fill
  | .pend i => if i = id then .pend 0 else .pend i
  | f => f

/-- A producer's write into a wave's registers is cancelled: it leaves them empty. -/
def cancelProducer (s : State) (bid wi id : Nat) : State :=
  dropWaits (modWave s bid wi fun w => { w with
    vreg := w.vreg.map fun p => (p.1, { p.2 with fill := p.2.fill.cancel id })
    sreg := w.sreg.map fun p => (p.1, { p.2 with fill := p.2.fill.cancel id }) }) id

/-- DATA OF A PRODUCER ARRIVES (R37, R38): it fills what still waits for it; poisoned data that a register still waits
for is consumed, and nothing is written (R413). What its word has read of the same line is read by then (log 95). -/
def landData (s : State) (p : Pending) : State :=
  let s := pinLoads s fun x _ => decide (x.id = p.id)
  let s := dropWaits { s with pendings := s.pendings.filter fun x => x.id ≠ p.id } p.id
  match getBlock s p.bid, getWave s p.bid p.wave with
  | some b, some w =>
    if p.poison && w.wants p.id p.dests then
      consumePoison s b.ctx (lanePoison s b p.wave w p.lane (laneOf w p.lane).tp p.va p.pa) 0
    else if p.lane = seqLane then
      let ix := s.freeIx
      let s := modWave { s with freeIx := ix + p.dests.length } p.bid p.wave fun w =>
        if w.retired then w else landDrains w p.id ix p.dests
      modBlock s p.bid fun b => p.dests.foldl (fun b d => seqLand b p.id d) b
    else
      let s := modWave s p.bid p.wave fun w => p.dests.foldl (fun w d => w.land p.id d) w
      modBlock s p.bid fun b => p.dests.foldl (fun b d => seqLand b p.id d) b
  | some _, none => modBlock s p.bid fun b => p.dests.foldl (fun b d => seqLand b p.id d) b
  | _, _ => s

/-! ### Tickets (R179) -/

/-- The counter passes the indexes whose blocks have ended. -/
def passEnded : Nat → Task → Task
  | 0, t => t
  | n + 1, t =>
    if fget false t.endedAt t.ticket then
      passEnded n { t with endedAt := fdel t.endedAt t.ticket, ticket := t.ticket + 1 }
    else t

/-- Lanes that wait at TORDW for a turn that has come depart, acquiring at DEVICE (R179, R296). -/
def departTickets (s : State) (task : Nat) : State :=
  match getTask s task with
  | none => s
  | some t =>
    let go := s.blocks.filter fun b => decide (b.task = task) && decide (b.lin ≤ t.ticket) &&
      b.waves.any fun w => w.lanes.any fun l => match l.st with
        | .ticket _ => true
        | _ => false
    go.foldl (fun s b =>
      let s := modBlock s b.id fun b => departWhere b fun
        | .ticket succ => some succ
        | _ => none
      match b.core with
      | some core => acquireDrops s core .device
      | none => s) s

/-- The turn of an index is released: by TORDR of the block whose turn it is, or by the block's end. -/
def releaseTurn (s : State) (task lin : Nat) (ended : Bool) : State :=
  match getTask s task with
  | none => s
  | some t =>
    let t := if ended then { t with endedAt := fput false t.endedAt lin true } else
      (if t.ticket = lin then { t with ticket := t.ticket + 1 } else t)
    let t := passEnded t.endedAt.length t
    departTickets (modTask s task fun x => { x with ticket := t.ticket, endedAt := t.endedAt }.commit s) task

/-! ### Performing an operation -/

/-- PROT at the target for one lane of an operation (R424). -/
def opDenied (s : State) (b : Block) (o : BOp) (lane : Nat) (va : Word64) : State := denyPost s b o.wave o.word [(lane, va)]

/-- Atomics in lane order up to one that must wait (R273, R97). -/
def sendAtoms (s : State) (b : Block) (o : BOp) : List (Atom × Nat × List Dest) → State × List (Atom × Nat × List Dest)
  | [] => (s, [])
  | x :: xs =>
    if !writeAllowed s (b.core.getD 0) x.1.place (atomLen x.1.sz) then 
      sendAtoms (cancelProducer (opDenied s b o x.1.lane x.1.va) b.id o.wave x.2.1) b o xs
    else match issueAtom s b.id o.wave 0 x.1 (some x.2) with
      | (s, true) => sendAtoms s b o xs
      | (s, false) => (s, x :: xs)

/-- The registers of a load from its bytes (R261). -/
def loadValues (ds : List Dest) (bytes : List Byte) (sx : Bool) : List (Dest × Word64) :=
  let n := bytes.length
  let v := natOf bytes
  let size := match ds with
    | .s _ :: _ => 8
    | _ => 4
  let full := size * ds.length
  let neg := sx && decide (v / 2 ^ (8 * n - 1) % 2 = 1)
  let v := if neg && decide (n < full) then v + (2 ^ (8 * full) - 2 ^ (8 * n)) else v
  (List.range ds.length).zip ds |>.map fun p => (p.2, BitVec.ofNat 64 (v / 2 ^ (8 * size * p.1) % 2 ^ (8 * size)))

/-- LDA's loads in lane order; what must wait is kept (R276). A register of the aperture that has become deferred since
raises DEFRD (R439), after the commit (log 82). -/
def makeLoads (s : State) (b : Block) (w : Wave) (o : BOp) (wid : Nat) (sx : Bool) :
    List (Nat × Word64 × Place × Nat × List Dest) → State × List (Nat × Word64 × Place × Nat × List Dest)
  | [] => (s, [])
  | (l, a, p, id, ds) :: xs =>
    match readPlace s (whoOf s b 0) b w o.wave l a p (2 ^ wid) 0 with
    | (s, .wait) =>
      let (s, rest) := makeLoads s b w o wid sx xs
      (s, (l, a, p, id, ds) :: rest)
    | (s, .stop (.park _)) => (loseContext s b.ctx 0x0030 1 false, [])
    | (s, .stop (.exc .defrd ..)) =>
      makeLoads (cancelProducer (trapPost s b o.wave o.word .defrd [(l, a)]) b.id o.wave id) b w o wid sx xs
    | (s, .stop _) => makeLoads (cancelProducer (opDenied s b o l a) b.id o.wave id) b w o wid sx xs
    | (s, .got v _ poison pa copy) =>
      let k : Late := ⟨o.id, p, .run (2 ^ wid) sx, []⟩
      let home : Bool := match p with
        | .spad _ => true
        | .phys .. => decide (pa < dramEnd) && (copy.isNone || s.pendings.any fun q => q.again.any k.with)
        | _ => false
      let q : Pending := ⟨id, b.id, o.wave, loadValues ds v sx, poison, l, a, pa, false,
        sourceOfRead (b.core.getD 0) pa copy, s.nextId, if home then some k else none⟩
      makeLoads { s with pendings := s.pendings ++ [q] } b w o wid sx xs
    | (s, .remote peer off) =>
      makeLoads (sendRemote s (b.core.getD 0) b.id o.wave l 0 o.word a peer off (.read (2 ^ wid))
        (some ⟨id, ds, sx, []⟩)) b w o wid sx xs

/-- A block of a task that is on a core. -/
def residentCore (s : State) (task lin : Nat) : Option Nat :=
  (s.blocks.find? fun b => decide (b.task = task ∧ b.lin = lin)).bind (·.core)

/-- ACQR's drain of the victims' cores has finished (R144). -/
def victimsDrained (s : State) (task : Nat) (o : BOp) (vs : List Nat) : Bool :=
  vs.all fun v => match residentCore s task v with
    | none => true
    | some c => !pathHolds s c o.id && s.flights.all fun f => !(decide (f.core = c) && decide (f.date < o.id))

/-- A victim's core loses its L1, and its stack the untracked copies: what had reached its home before is visible to the
victim's later loads (R144, log 64). -/
def dropL1All (s : State) (core : Nat) : State :=
  acquireDrops { s with l1 := s.l1.filter fun p => p.1 / 2 ^ 48 ≠ core } core .device

/-- An earlier write of the operation's wave is in its write path, one of another wave goes first, or one to the same page
is held for a migration (R127, R140, R274, R456). -/
def opFollows (s : State) (b : Block) (w : Wave) (o : BOp) : Bool :=
  (w.path.any fun r => decide (r.id < o.id)) || writeAhead s (b.core.getD 0) b.id o.wave o.id o.body.places ||
  anyPageHeld s b o.wave o.id o.body.writes

/-- What of the operation remains to be performed; atomics and stores follow the core's earlier writes. -/
def performOp (s : State) (b : Block) (w : Wave) (o : BOp) : State × Option OpBody :=
  match o.body with
  | .atoms xs =>
    if opFollows s b w o then (s, some o.body)
    else match sendAtoms s b o xs with
      | (s, []) => (s, none)
      | (s, rest) => (s, some (.atoms rest))
  | .lda xs wid sx => match makeLoads s b w o wid sx xs with
    | (s, []) => (s, none)
    | (s, rest) => (s, some (.lda rest wid sx))
  | .stl xs => if opFollows s b w o then (s, some o.body) else
    (xs.foldl (fun s x =>
      if writeAllowed s (b.core.getD 0) x.place x.bytes.length then issueStore s b.id o.wave 0 0 x
      else opDenied s b o x.lane x.va) s, none)
  | .fence => (s, none)
  | .acqr vs =>
    if victimsDrained s b.task o vs then
      ((vs.filterMap (residentCore s b.task)).foldl dropL1All s, none)
    else (s, some o.body)
  | .tordr => (releaseTurn s b.task b.lin false, none)

/-- R128's sides of an ordering code. -/
def acquires : OrdCode → Bool
  | .acq | .ar => true
  | _ => false
def releases : OrdCode → Bool
  | .rel | .ar => true
  | _ => false

/-- The lanes of an operation whose acquire side is done go on at its successor (R274, R276, R277). -/
def finishLanes (s : State) (b : Block) (o : BOp) : State :=
  let go := maskOf fun l => o.lanes.getLsbD l && o.waits.all fun w => w.1 ≠ l
  let left := o.lanes &&& ~~~go
  let s := if acquires o.ord && decide (go ≠ 0) then acquireDrops s (b.core.getD 0) o.scope else s
  let s := modWave s b.id o.wave fun w => w.modLanes go fun _ y =>
    if y.st = .op o.id then { y with st := .runnable, tp := o.succ } else y
  if left = 0 then
    { s with ops := s.ops.filter fun x => x.id ≠ o.id, fences := s.fences.filter fun i => i ≠ o.id }
  else { s with ops := s.ops.map fun x => if x.id = o.id then { o with lanes := left } else x }

/-- AN OPERATION GOES AS FAR AS IT CAN. -/
def advanceOp (s : State) (id : Nat) : State :=
  match s.ops.find? fun o => o.id = id with
  | none => s
  | some o =>
    if !o.released then s
    else match getBlock s o.bid, getWave s o.bid o.wave with
      | some b, some w =>
        if b.core.isNone then s
        else if o.sent then finishLanes s b o
        else match performOp s b w o with
          | (s, some body) => { s with ops := s.ops.map fun x => if x.id = id then { x with body := body } else x }
          | (s, none) => match s.ops.find? fun o => o.id = id with
            | none => s
            | some o => finishLanes s b { o with sent := true }
      | _, _ => s

/-- Every operation is tried again after an event. -/
def pokeOps (s : State) : State := (s.ops.map (·.id)).foldl advanceOp s

/-- The producers that a lane's fence waits for: its loads and its returning atomics (R277). -/
def laneProducers (s : State) (bid wi lane : Nat) : List Nat :=
  ((s.pendings.filter fun p => decide (p.bid = bid ∧ p.wave = wi ∧ p.lane = lane)).map (·.id)) ++
  (s.flights.filterMap fun f => match f.op with
    | .atom a (some (id, _)) => if f.bid = bid ∧ f.wave = wi ∧ a.lane = lane then some id else none
    | _ => none) ++
  (s.netOut.filterMap fun n => if n.bid = bid ∧ n.wave = wi ∧ n.lane = lane then n.ret.map (·.id) else none)

/-- AN OPERATION STARTS in the committed lanes of `m` that are still runnable (a POST trap takes a lane out of it). What
these lanes have loaded before is read by then, where the operation is a release or writes the same bytes (R125, R129). -/
def startOp (s : State) (bid wi : Nat) (m : Mask) (word succ : Word64) (sc : Scope) (ord : OrdCode) (body : OpBody)
    (waits : List (Nat × Nat)) : State :=
  match getBlock s bid, getWave s bid wi with
  | some b, some w =>
    let m := m &&& w.runnable
    if m = 0 then s
    else
      let (id, s) := fresh (if releases ord then pinLanes s bid wi m
        else pinWrites s bid wi (body.writes.filter fun x => m.getLsbD x.1))
      let s := modWave s bid wi fun w => w.modLanes m fun _ y => { y with st := .op id }
      let ok := !releases ord || releaseMet s (b.core.getD 0) sc id
      let o : BOp := ⟨id, bid, wi, m, word, succ, sc, ord, body, ok, false, waits.filter fun x => m.getLsbD x.1⟩
      let s := { s with ops := s.ops ++ [o],
                        fences := if ord = .ar && body = .fence then s.fences ++ [id] else s.fences }
      advanceOp s id
  | _, _ => s

/-- The head of a write path is not held by a release condition. -/
def pathFree (w : Wave) : Bool :=
  match w.path with
  | [] => false
  | r :: _ => r.ok || (match r.item with
    | .atom _ rel _ => !rel
    | .barv .. => false
    | _ => true)

/-- Write paths that wait for a scratchpad line, or for an older write of the core, are tried again (R97, R127, R140). -/
def pokePaths (s : State) : State :=
  (openPaths s).foldl (fun s p =>
    match getWave s p.1 p.2 with
    | some w => if pathFree w then drain s p.1 p.2 else s
    | none => s) s

/-- Each round may free what another path's entry waits for. -/
def pokeRounds : Nat → State → State
  | 0, s => s
  | n + 1, s => pokeRounds n (pokeOps (pokePaths s))

/-- AFTER AN EVENT: what it made possible goes on. -/
def afterEvent (s : State) : State :=
  wakeAll (pokeRounds ((openPaths s).length + 1) (finishLosses s))

end Sys2Proof.Machine
end

