-- ==== Sys2Proof/Machine/Fetch.lean ====
section
/-! DEFINITION. Fetching a word (R190), admission of a trace (R43, R44, R422, R433), what a unit's slot issues next
(R174), and the repeated word of REP (R65, R66). -/

namespace Sys2Proof.Machine

/-! ### Fetch -/

inductive FetchRes where
  | wait
  | stop (st : Stop)
  /-- Frame ownership denies the line (R454). -/
  | denied
  | word (w : Word128)
  deriving DecidableEq, Repr, Inhabited

/-- A FETCH of the 16 bytes at an address, with the checks of R95 that a load passes (R190). Of code that changes under a
running task R190 allows the old value and the new: the model takes what the core's copies or the home give as the word
issues (DESIGN CHOICE, log 101). -/
def fetchWord (s : State) (w : Who) (a : Word64) : State × FetchRes :=
  if a.toNat / 2 ^ 56 ≠ 0 then (s, .stop (addrExc .apert a))
  else match translate s w a false false with
    | (s, .error st) => (s, .stop st)
    | (s, .ok (.phys pa cpol _ _)) =>
      if ctlBase ≤ pa then (s, .stop (addrExc .prot a))
      else match readLine s w pa cpol 0 with
        | (s, .wait) => (s, .wait)
        | (s, .table) => (s, .stop (addrExc .prot a))
        | (s, .owner o) => (logOwner s w pa o, .denied)
        | (s, .view v) =>
          if v.poison then (s, .stop (.poison a pa w.agent))
          else (s, .word (wordOfBytes ((v.bytes.drop (pa % 64)).take 16)))
    | (s, .ok (.remote peer _)) => match peerRead s w.core peer 16 with
      | (s, none) => (s, .wait)
      | (s, some (.ok bs)) => (s, .word (wordOfBytes bs))
      | (s, some (.error .refused)) => (s, .stop (addrExc .prot a))
      | (s, some (.error .poison)) => (s, .stop (.poison a noPa w.agent))
    | (s, .ok _) => (s, .stop (addrExc .prot a))

/-- A word as a look ahead finds it; none where its fetch would fail. -/
def peekWord (s : State) (w : Who) (a : Word64) : Option Word128 := match (fetchWord s w a).2 with
  | .word x => some x
  | _ => none

/-! ### Admission (R422 item 1) -/

/-- A CHKW among the trace's words names a slot that the mask lacks (R289). -/
def chkwOutside (s : State) (w : Who) (tp : Word64) (words : Nat) (mask : BitVec 16) : Bool :=
  (List.range words).any fun i => match peekWord s w (tp + BitVec.ofNat 64 (16 * (i + 1))) with
    | some x =>
      let r := Raw.ofWord x
      decide (r.op = 4) && isImm r.a && decide (r.a.extractLsb' 0 16 &&& ~~~mask ≠ 0)
    | none => false

/-- TRCAP, then the shape faults of the header's counts and mask. -/
def admissionStop (s : State) (w : Who) (tp : Word64) (words twb tsb mask : BitVec 17) : Option Stop :=
  if 64 < twb.toNat ∨ 64 < tsb.toNat then some (.plain .trcap)
  else if words = 0 ∨ 256 < words.toNat then some (.plain .trshape)
  else if chkwOutside s w tp words.toNat (mask.extractLsb' 0 16) then some (.plain .trshape)
  else none

/-- The trace as admission leaves it (R44, R51). -/
def newTrace (w : Wave) (tp : Word64) (m : Mask) (words twb tsb mask : BitVec 17) : TraceRun where
  start := tp
  batch := m
  live := m
  words := words.toNat
  twb := twb.toNat
  tsb := tsb.toNat
  wmask := mask.extractLsb' 0 16
  pos := 1
  twbUsed := 0
  tsbUsed := 0
  ov := []
  os := []
  op := []
  om := []
  og := []
  kc := []
  buf := []
  watch := []
  slots := 0
  flags := []
  draws := w.lanes.map (·.draw)
  seqs := w.lanes.map (·.seq)
  det := w.det
  rep := none
  waiting := false
  copies := 0

/-! ### What a wave or a sequencer executes next -/

inductive Issue where
  /-- Nothing executes. -/
  | done (s : State)
  /-- The instruction executes in the state. -/
  | run (i : Instr) (s : State)
  deriving Inhabited

/-- What stops a word that does not decode (R206). -/
def decodeStop : DecodeError → Stop
  | .illop => .plain .illop
  | .seqerr => .exc .seqerr 0xFF 1 none
  | .badfld n => .exc .badfld n 0 none

/-- A word with each register-form N moved by repetition `i` of its step (R65). -/
def stepField (f : BitVec 18) (step : BitVec 4) (i : Nat) : BitVec 18 :=
  if step = 0 then f
  else
    let n := BitVec.ofInt 8 ((f.extractLsb' 9 8).toNat + i * step.toInt)
    f.extractLsb' 17 1 ++ n ++ f.extractLsb' 0 9

/-- The repeated word of the repetition that runs: the first takes no step. -/
def repWord (r : RepState) : Word128 :=
  let x := Raw.ofWord r.word
  let st (k : Nat) : BitVec 4 := (nth r.steps k).getD 0
  { x with d := stepField x.d (st 0) (r.i - 1), a := stepField x.a (st 1) (r.i - 1), b := stepField x.b (st 2) (r.i - 1),
           c := stepField x.c (st 3) (r.i - 1), e := stepField x.e (st 4) (r.i - 1) }.toWord

/-- The next word of a wave's trace. -/
def issueNext (s : State) (b : Block) (wi : Nat) (w : Wave) (t : TraceRun) : Issue :=
  let addr := t.addrOf t.pos
  let found : State × FetchRes := match t.rep with
    | some r => (s, .word (repWord r))
    | none => fetchWord s (whoOf s b 0) addr
  match found with
  | (s, .wait) => .done (holdWord s b.id wi false)
  | (s, .stop st) => .done (raiseWave s b.id wi t.start addr false (allStop t st))
  | (s, .denied) => .done (raiseWave s b.id wi t.start addr false (allStop t (.park addr)))
  | (s, .word x) =>
    match decode (.trace w.ws) x with
    | .error e => .done (raiseWave s b.id wi t.start addr true (allStop t (decodeStop e)))
    | .ok i => .run i { s with actor := .wave b.id wi }

/-- The lanes of a batch that admission stops. -/
def admissionRaise (s : State) (b : Block) (wi : Nat) (tp : Word64) (m : Mask) (st : Stop) : State :=
  raiseWave s b.id wi tp tp true ((lanesOf m).map fun l => (l, st))

/-- The trap of a fetch names the batch's TP, which need not be a multiple of 16. -/
def Stop.atTp (tp : Word64) : Stop → Stop
  | .exc e f d (some _) => .exc e f d (some tp)
  | st => st

/-- A new batch reads its TRH (R44, R422 item 1); where TP is no multiple of 16 its line is fetched, and no TRH stands
there (R292). -/
def issueHeader (s : State) (b : Block) (wi : Nat) (tp : Word64) (m : Mask) : Issue :=
  match fetchWord s (whoOf s b 0) (tp &&& ~~~15) with
    | (s, .wait) => .done s
    | (s, .stop st) => .done (admissionRaise s b wi tp m (st.atTp tp))
    | (s, .denied) => .done (admissionRaise s b wi tp m (.park tp))
    | (s, .word x) =>
      let r := Raw.ofWord x
      if r.op ≠ 0 ∨ tp.toNat % 16 ≠ 0 then .done (admissionRaise s b wi tp m (.plain .trshape))
      else match trhForm r with
        | .error e => .done (admissionRaise s b wi tp m (decodeStop e))
        | .ok (d, a, k, c) =>
          match admissionStop s (whoOf s b 0) tp d a k c with
          | some st => .done (admissionRaise s b wi tp m st)
          | none =>
            match trhRest r with
            | .error e => .done (admissionRaise s b wi tp m (decodeStop e))
            | .ok _ => .run (.traceAdmission d a k c) { s with actor := .wave b.id wi }

/-- THE WAVE IN A SLOT ISSUES (R174, R176): one that is not ready gives its slot up unless it keeps it; an empty slot
takes the oldest ready pending wave. -/
def issueSlot (s : State) (core unit slot : Nat) : Issue :=
  if 8 ≤ slot then .done s
  else match waveAt s core unit slot with
    | none => match oldestPending s core unit with
      | some (bid, wi, _) => .done (activate s bid wi slot)
      | none => .done s
    | some (bid, wi, w) =>
      match getBlock s bid with
      | none => .done s
      | some b =>
        if (getCore s core).halted = some b.ctx then .done s
        else if !w.ready then .done (if w.keep then s else swapOut s bid wi)
        else match w.trace with
          | some t => issueNext s b wi w t
          | none => match w.batch with
            | some (tp, m) => issueHeader s b wi tp m
            | none => .done s

/-! ### REP (R65, R66) -/

/-- Words that REP may not repeat, by opcode. -/
def repBanned (op : Nat) : Bool :=
  op ∈ [0x000, 0x001, 0x002, 0x003, 0x004, 0x005, 0x006, 0x007, 0x008, 0x009, 0x00A, 0x00B, 0x00C, 0x00D, 0x00F, 0x010,
        0x0E8, 0x0EA, 0x0EB, 0x0EC, 0x0ED, 0x0EE, 0x0EF, 0x0F0]

/-- The fields D, A, B, C, E that a word may give in the register form, by R209's patterns and its MOD. -/
def regFields (op : Nat) (mod : BitVec 12) : List Bool :=
  let am := (mod.extractLsb' 10 2).toNat
  if op ∈ [0x00E, 0x011, 0x022, 0x023, 0x025, 0x028, 0x0C9, 0x0F7, 0x110] then [false, false, false, false, false]
  else if op ∈ [0x012, 0x026, 0x062, 0x0C5] then [true, false, false, false, false]
  else if op ∈ [0x013, 0x0F4, 0x0F5, 0x0F6] then [false, false, true, false, false]
  else if op ∈ [0x014, 0x020, 0x021, 0x0E9] then [false, true, true, false, false]
  else if op ∈ [0x0C6, 0x0C8] then [false, true, false, false, false]
  else if op ∈ [0x024, 0x027, 0x02B, 0x02C, 0x046, 0x047, 0x051, 0x05B, 0x05C, 0x05D, 0x05E, 0x061, 0x086, 0x087, 0x088,
      0x089, 0x08A, 0x08C, 0x08D, 0x08E, 0x08F, 0x090, 0x091, 0x092, 0x093, 0x095, 0x096, 0x0C0, 0x0C2, 0x112, 0x114] then
    [true, true, false, false, false]
  else if op = 0x029 then [true, true, true, decide (mod.extractLsb' 0 2 = 3), false]
  else if op ∈ [ 0x044, 0x045, 0x04C, 0x04D, 0x053, 0x058, 0x05A, 0x05F, 0x083, 0x099, 0x111, 0x113] then
    [true, true, true, true, false]
  else if op ∈ [0x0E0, 0x0E1, 0x0E2, 0x0E3, 0x0E4, 0x0E5, 0x0E6] then [true, true, decide (am = 1), false, false]
  else if op = 0x0E7 then [false, true, decide (am = 1), false, false]
  else [true, true, true, false, false]

/-- The register class of N under a window (R66): its first and last number. -/
def repClass (ws n : Nat) : Option (Nat × Nat) :=
  if n < ws then some (0, ws - 1) else if 192 ≤ n ∧ n < 240 then some (192, 239)
  else if 248 ≤ n then some (248, 255) else none

/-- A field's step meets R66 over `n` repetitions. -/
def repStepOk (ws n : Nat) (used : Bool) (f : BitVec 18) (step : BitVec 4) : Bool :=
  decide (step = 0) ||
  (used && !isImm f && match repClass ws (f.extractLsb' 9 8).toNat with
    | none => false
    | some (lo, hi) =>
      let last : Int := (f.extractLsb' 9 8).toNat + ((n : Int) - 1) * step.toInt
      decide ((lo : Int) ≤ last) && decide (last ≤ (hi : Int)))

/-- The first field, 6 to 10 for D to E, whose step breaks R66. -/
def repBadStep (ws n : Nat) (x : Raw) (steps : List (BitVec 4)) : Option Nat :=
  let used := regFields x.op.toNat x.mod
  let fs := [x.d, x.a, x.b, x.c, x.e]
  (List.range 5).findSome? fun i =>
    if repStepOk ws n ((nth used i).getD false) ((nth fs i).getD 0) ((nth steps i).getD 0) then none else some (6 + i)

end Sys2Proof.Machine
end

