-- ==== Sys2Proof/Machine/TraceControl.lean ====
section
/-! DEFINITION. Trace control and system instructions, 0x000 to 0x014 (R286 to R306). -/

namespace Sys2Proof.Machine

/-! ### Headers, terminators and early exits (R287 to R289) -/

/-- TRH, read at admission (R44): the batch's trace begins, with its entries and watch slots reserved. -/
def execTraceAdmission (words twb tsb mask : BitVec 17) (s : State) : Out :=
  match s.actor with
  | .none => .fault .noActor
  | .seq bid => .next (seqStop s bid (.exc .seqerr 0xFF 1 none) false true)
  | .wave bid wi =>
    match getBlock s bid, getWave s bid wi with
    | some b, some w =>
      match w.trace with
      | some t => .next (raiseWave s bid wi t.start (t.addrOf t.pos) true (allStop t (.plain .trshape)))
      | none => match w.batch with
        | none => .next s
        | some (tp, m) =>
          match admissionStop s (whoOf s b 0) tp words twb tsb mask with
          | some st => .next (admissionRaise s b wi tp m st)
          | none => .next (modWave s bid wi fun w => { w with trace := some (newTrace w tp m words twb tsb mask) })
    | _, _ => .next s

/-- TEND (R55, R288): p is read before the commit. -/
def execTend (c : Ctl) (p : PredSrc) (t f : BitVec 17) (s : State) : Out :=
  waveWord c .final (fun x => .close x (fun l y => { y with tp := if x.holds p l then x.target t else x.target f }) false id) s

/-- TEXIT (R55). -/
def execTexit (c : Ctl) (s : State) : Out :=
  waveWord c .final (fun x => .close x (fun _ y => { y with st := .exited }) false id) s

/-- A lane that fails a GRD word: the count of its consecutive failures there (R436). -/
def Lane.failGuard (y : Lane) (addr : Word64) : Lane :=
  if y.gaddr = addr then { y with gcount := y.gcount + 1 } else { y with gcount := 1, gaddr := addr }

/-- The failure would carry the count to 2^16. -/
def Lane.glive (y : Lane) (addr : Word64) : Bool := decide (65536 ≤ (y.failGuard addr).gcount)

/-- GRD (R52, R436). -/
def execGrd (c : Ctl) (p : PredSrc) (alt : BitVec 17) (s : State) : Out :=
  waveWord c .zero (fun x =>
    let bad := maskOf fun l => x.ex.getLsbD l && !x.holds p l
    let live := maskOf fun l => bad.getLsbD l && (laneOf x.w l).glive x.addr
    let w := x.w.modLanes (bad &&& ~~~live) fun _ y => y.failGuard x.addr
    if live = 0 then .leave { x with w := w } bad (x.target alt)
    else .stop (modWave x.s x.bid x.wi fun _ => w) x.addr false
      ((lanesOf live).map fun l => (l, .exc .glive 0xFF x.t.pos none))) s

/-- The watch records of a lane in named slots. -/
def watchesOf (t : TraceRun) (mask : BitVec 16) (l : Nat) : List Watch :=
  t.watch.filter fun r => decide (r.lane = l) && mask.getLsbD r.slot.toNat

/-- CHKW (R53); a slot that C lacks is refused here where admission could not fetch the word (R44, R289). -/
def execChkw (c : Ctl) (mask : BitVec 16) (alt : BitVec 17) (s : State) : Out :=
  waveWord c .zero (fun x =>
    if mask &&& ~~~x.t.wmask ≠ 0 then .stop x.s x.addr true (allStop x.t (.plain .trshape))
    else if (lanesOf x.ex).any fun l => (watchesOf x.t mask l).any fun r => match r.st with
        | .pending .. => true
        | _ => false then .wait x.s
    else
      let bad := maskOf fun l => x.ex.getLsbD l && (watchesOf x.t mask l).any fun r => decide (r.st = .struck)
      let mark (r : Watch) : Watch :=
        if x.ex.getLsbD r.lane && mask.getLsbD r.slot.toNat then { r with checked := true } else r
      .leave { x with t := { x.t with watch := x.t.watch.map mark } } bad (x.target alt)) s

/-! ### Wait states (R290, R291, R295, R296) -/

/-- Lanes of a mask that a POST trap has not taken enter a wait state. -/
def enterWait (s : State) (bid wi : Nat) (m : Mask) (f : LaneState) : State :=
  modWave s bid wi fun w => w.modLanes (m &&& w.runnable) fun _ y => { y with st := f }

/-- They arrive at a barrier, which is a release (R128): what they have loaded is read by then. -/
def arriveWait (s : State) (bid wi : Nat) (m : Mask) (f : LaneState) : State :=
  match getWave s bid wi with
  | some w => enterWait (pinLanes s bid wi (m &&& w.runnable)) bid wi m f
  | none => s

/-- TBAR (R290). -/
def execTbar (c : Ctl) (succ : BitVec 17) (s : State) : Out :=
  waveWord c .final (fun x =>
    let e := x.target succ
    .close x (landAt e) false fun s => arriveWait s x.bid x.wi x.t.live (.tbar e)) s

/-- TGBAR (R291): BADFLD without COOP, which names no field (log 93); the arrival releases at DEVICE scope. -/
def execTgbar (c : Ctl) (succ : BitVec 17) (s : State) : Out :=
  waveWord c .final (fun x =>
    let e := x.target succ
    match getTask x.s x.b.task with
    | some t => if t.coop then
        .close x (landAt e) false fun s =>
          let (id, s) := fresh s
          arriveWait s x.bid x.wi x.t.live (.tgbar e id)
      else x.stop (allStop x.t (.plain .badfld))
    | none => x.stop (allStop x.t (.plain .badfld))) s

/-- TWAIT (R295): departs at once where the phase differs, acquiring at the barrier's scope. -/
def execTwait (c : Ctl) (bar : BitVec 4) (ph : Bool) (succ : BitVec 17) (s : State) : Out :=
  waveWord c .final (fun x =>
    let e := x.target succ
    .close x (landAt e) false fun s =>
      match getBlock s x.bid with
      | none => s
      | some b =>
        let r := getBar b bar
        if r.ph = ph then enterWait s x.bid x.wi x.ex (.bytes bar ph e)
        else if x.ex = 0 then s
        else acquireDrops s (b.core.getD 0) r.bs) s

/-- TSQW (R295). -/
def execTsqw (c : Ctl) (bar : BitVec 4) (ph : Bool) (succ : BitVec 17) (s : State) : Out :=
  waveWord c .final (fun x =>
    let e := x.target succ
    .close x (landAt e) false fun s =>
      match getBlock s x.bid with
      | none => s
      | some b =>
        if (fget .init b.qbars bar.toNat).ph = ph then enterWait s x.bid x.wi x.ex (.seqBar bar ph e) else s) s

/-- TORDW (R179, R296). -/
def execTordw (c : Ctl) (succ : BitVec 17) (s : State) : Out :=
  waveWord c .final (fun x =>
    let e := x.target succ
    .close x (landAt e) false fun s => departTickets (enterWait s x.bid x.wi x.ex (.ticket e)) x.b.task) s

/-- TORDR (R179, R296). -/
def execTordr (c : Ctl) (succ : BitVec 17) (s : State) : Out :=
  waveWord c .final (fun x =>
    let e := x.target succ
    .close x (landAt e) false fun s => startOp s x.bid x.wi x.ex x.addr e .device .rel .tordr []) s

/-- TYIELD (R294). -/
def execTyield (c : Ctl) (succ : BitVec 17) (s : State) : Out :=
  waveWord c .final (fun x => .close x (landAt (x.target succ)) (decide (x.ex ≠ 0)) id) s

/-! ### Calls (R292, R293) -/

/-- TCALL: the callee is read before the commit, in every executing lane (R29, R36); the lanes wait for the call (R32). -/
def execTcall (c : Ctl) (callee : Callee) (k w : BitVec 17) (succ : BitVec 17) (s : State) : Out :=
  waveWord c .final (fun x =>
    let rs := match callee with
      | .off _ => []
      | .reg o => [x.readReg false 7 o 1]
    x.reading rs <|
      let entry := match callee with
        | .off o => x.target o
        | .reg o => x.regVal o.reg true false ((lowest x.ex).getD 0)
      .close x (landAt x.addr) false fun s =>
        enterWait s x.bid x.wi x.t.live (.tcall x.addr entry (x.target succ) k.toNat w.toNat)) s

/-- TRET: SEQERR on an empty frame stack. -/
def execTret (c : Ctl) (s : State) : Out :=
  waveWord c .final (fun x =>
    if x.w.depth = 0 then x.stop (allStop x.t (.exc .seqerr 0xFF 3 none))
    else .close x (landAt x.addr) false fun s => enterWait s x.bid x.wi x.t.live (.tret x.addr)) s

/-! ### NOP, REP, TRAP, BRK (R297 to R299) -/

/-- A word that a block sequencer executes and that only moves on (R308). -/
def seqNext (s : State) (bid : Nat) : State :=
  modBlock s bid fun b => { b with seq := b.seq.map fun q => { q with pc := q.pc + 16 } }

/-- NOP. -/
def execNop (c : Ctl) (s : State) : Out :=
  match s.actor with
  | .seq bid => .next (seqNext s bid)
  | _ => waveWord c .zero (fun x => .done x) s

/-- REP over the word found: its steps first, then its shape and the kinds that it may not repeat (R66, R422). -/
def Iss.rep (x : Iss) (n : BitVec 6) (steps : List (BitVec 4)) (w : Word128) : Ans :=
  let r := Raw.ofWord w
  match repBadStep x.w.ws (n.toNat + 1) r steps with
  | some f => .stop x.s x.addr true (allStop x.t (.exc .badfld f 0 none))
  | none => x.shaped .zero <|
    if repBanned r.op.toNat then .stop x.s x.addr true (allStop x.t (.plain .trshape))
    else .done { x with t := { x.t with pos := x.t.pos + 1, rep := some ⟨w, n.toNat + 1, 0, steps⟩ } }

/-- REP: the limits of R66 are checked; then the next word is repeated. At position D the word after the trace is only
looked at. -/
def execRep (n : BitVec 6) (sd sa sb sc se : BitVec 4) (s : State) : Out :=
  waveFree Ctl.plain .zero (fun x =>
    let next := x.addr + 16
    let steps := [sd, sa, sb, sc, se]
    if !shapeOk x.t .zero then match peekWord x.s (whoOf x.s x.b 0) next with
      | some w => x.rep n steps w
      | none => x.shaped .zero (.wait x.s)
    else match fetchWord x.s (whoOf x.s x.b 0) next with
      | (s, .wait) => .wait s
      | (s, .stop st) => .stop s next false (allStop x.t st)
      | (s, .denied) => .stop s next false (allStop x.t (.park next))
      | (s, .word w) => { x with s := s }.rep n steps w) s

/-- TRAP (R298): SWTRAP after the commit; for the sequencer, at its word. -/
def execTrap (c : Ctl) (code : BitVec 16) (succ : Option (BitVec 17)) (s : State) : Out :=
  match s.actor with
  | .seq bid => .next (seqStop s bid (.exc .swtrap 0xFF code.toNat none) true false)
  | _ => waveWord c .final (fun x =>
      let e := x.target (succ.getD 0)
      .close x (landAt e) false fun s =>
        match getBlock s x.bid, getWave s x.bid x.wi with
        | some b, some w => takePost s b x.wi e x.addr (x.ex &&& w.runnable) .swtrap code.toNat none true
        | _, _ => s) s

/-- BRK (R299): a lane's pass for this word is spent; the other executing lanes raise BRKPT. -/
def execBrk (c : Ctl) (code : BitVec 16) (s : State) : Out :=
  waveWord c .zero (fun x =>
    let pass := maskOf fun l => x.ex.getLsbD l && decide ((laneOf x.w l).pass = some x.addr)
    let w := x.w.modLanes pass fun _ y => { y with pass := none }
    let hit := x.ex &&& ~~~pass
    if hit = 0 then .done { x with w := w }
    else .stop (modWave x.s x.bid x.wi fun _ => w) x.addr false
      ((lanesOf hit).map fun l => (l, .exc .brkpt 0xFF code.toNat none))) s

/-! ### Special registers (R300 to R302) -/

/-- GRSTAT of a die (R106): zero in a DET task. -/
def grstat (s : State) (b : Block) : Word64 :=
  if taskDet s b.task then 0
  else
    let die := dieOf (b.core.getD 0)
    let (n, act) := fget (Config.refreshPhase die, false) s.refresh die
    BitVec.ofNat 64 ((if act then 32768 else 0) + n % 32 * 256 + (n + 31) % 32)

/-- A special register as SRD reads it in a lane (R301). -/
def Iss.readSpecial (x : Iss) (n lane : Nat) : Word64 :=
  if n = 2 then grstat x.s x.b
  else if n = 6 then (laneOf x.w lane).draw.setWidth 64
  else x.special n

/-- The values that a word writes to its destination: a scalar once, from the lowest executing lane (R29); a vector in
each executing lane; a constant nowhere (R28). -/
def Iss.results (x : Iss) (d : Reg) (f : Nat → Word64) : List (Dest × Word64) :=
  match d with
  | .s n => match lowest x.ex with
    | some l => [(.s n, f l)]
    | none => []
  | .v n => (lanesOf x.ex).map fun l => (.v (x.w.wo + n) l, f l)
  | _ => []

/-- SRD. -/
def execSrd (c : Ctl) (hi : Bool) (d : Reg) (sreg : BitVec 17) (s : State) : Out :=
  waveWord c (.mk2 1 0) (fun x => .done (x.putAll (x.results d fun l =>
    let v := x.readSpecial sreg.toNat l
    if hi then v >>> 32 else if isScalar d then v else low32 v))) s

/-- The bits of a special register that SWR may set (R300). -/
def sregMask (n : Nat) : Word64 :=
  if n = 0 then 0xFFFFFF else if n = 1 then 0x1F else if n = 3 then 0xFFFFFFFFFFFFFF00
  else if n = 4 then 0xFFFFFFFFFFFFFFFC else 0xFFFFFFFFFFFFFFFF

/-- What SWR writes from the value of B (R302). -/
def swrValue (n : Nat) (hi wide : Bool) (old v : Word64) : Word64 :=
  (if hi then (old &&& 0xFFFFFFFF) ||| (low32 v <<< 32) else if wide then v else low32 v) &&& sregMask n

/-- A source that names a scalar register. -/
def srcScalar : Src → Bool
  | .reg o => isScalar o.reg
  | .imm _ => false

/-- SWR. -/
def execSwr (c : Ctl) (hi : Bool) (sreg : BitVec 17) (b : Src) (s : State) : Out :=
  waveWord c (.mk2 1 0) (fun x =>
    x.reading (x.readSrc true 8 b 1) <|
      match lowest x.ex with
      | none => .done x
      | some l =>
        let n := sreg.toNat
        let wide := srcScalar b
        let v := x.val wide ⟨8, b, .z, false⟩ l
        let x := if n = 1 then x.dropFlags else x
        .done (x.putSpecial n (swrValue n hi wide (x.special n) v))) s

end Sys2Proof.Machine
end

