-- ==== Sys2Proof/Machine/SeqFrame.lean ====
section
/-! DEFINITION. The frame of a sequencer word (R205, R307, R308), and the shape of the words that compute registers
from registers (R210 to R212). -/

namespace Sys2Proof.Machine

/-! ### The sequencer's word -/

/-- A word executing in a block's sequencer. -/
structure Sq where
  s : State
  bid : Nat
  b : Block
  q : SeqState
  deriving Inhabited

/-- What the meaning of a sequencer word answers. -/
inductive SAns where
  /-- Done; the next word follows. -/
  | next (s : State)
  /-- Done; the next word is there. -/
  | jump (s : State) (pc : Word64)
  /-- A step of the word is done; others follow (R310). -/
  | step (s : State)
  /-- The sequencer waits at the word. -/
  | wait (s : State)
  /-- It stops at the word. -/
  | stop (s : State) (st : Stop)
  deriving Inhabited

/-- A sequencer run-time check that fails (R425: DETAIL 4). -/
abbrev seqCheck : Stop := .exc .seqerr 0xFF 4 none

/-- The z register N. -/
def Sq.z (x : Sq) (n : Nat) : SCell := fget fullS x.q.z n

/-- A source at 64 bits (R308); `sx` extends the constants by their sign. -/
def Sq.val (x : Sq) (k : Widen) (sx : Bool) (o : Src) : Word64 :=
  match o with
  | .imm v => widen k v
  | .reg r => match r.reg with
    | .z n => (x.z n).val
    | .ones => if sx then 0xFFFFFFFFFFFFFFFF else 0xFFFFFFFF
    | _ => 0

/-- The operand checks of the stream, in field order: an empty z register waits, or stops with EMPTYT (R205). -/
def Sq.reading (x : Sq) (rs : List (Nat × Src)) (k : SAns) : SAns :=
  match rs.find? fun r => match r.2 with
    | .reg o => (match o.reg with
      | .z n => decide ((x.z n).fill ≠ .full)
      | _ => false)
    | .imm _ => false with
  | none => k
  | some (f, .reg o) => if o.fe then .stop x.s (.exc .emptyt f 0 none) else .wait x.s
  | some (_, .imm _) => k

/-- The block with its sequencer changed. -/
def setSeq (s : State) (bid : Nat) (q : SeqState) : State := modBlock s bid fun b => { b with seq := some q }

/-- The drains that the sequencer's word has still to send. -/
def setSeqDrains (s : State) (bid : Nat) (ps : List Pending) : State :=
  modBlock s bid fun b => { b with seq := b.seq.map fun q => { q with drains := ps } }

/-- Writes a z register; a constant's write is discarded. -/
def Sq.put (x : Sq) (d : Reg) (v : Word64) (f : Fill) : State :=
  match d with
  | .z n => setSeq x.s x.bid { x.q with z := fput fullS x.q.z n ⟨v, f⟩ }
  | _ => x.s

/-- The next word of the stream is at `pc`; none of its steps is done. -/
def SeqState.goTo (q : SeqState) (pc : Word64) : SeqState := { q with pc := pc, reached := 0, drains := [], found := 0 }

/-- The step of a word of `n` steps that was due is done (R310). -/
def Sq.stepped (x : Sq) (n : Nat) (s : State) : SAns := if x.q.reached + 1 < n then .step s else .next s

/-- The answer taken. -/
def takeSAns (bid : Nat) (pc : Word64) : SAns → State
  | .next s => modBlock s bid fun b => { b with seq := b.seq.map fun q => q.goTo (pc + 16) }
  | .jump s dst => modBlock s bid fun b => { b with seq := b.seq.map fun q => q.goTo dst }
  | .step s => modBlock s bid fun b => { b with seq := b.seq.map fun q => { q with reached := q.reached + 1 } }
  | .wait s => s
  | .stop s st => seqStop s bid st false false

/-- A WORD OF THE STREAM. -/
def runSeq (s : State) (bid : Nat) (k : Sq → SAns) : State :=
  match getBlock s bid with
  | none => s
  | some b => match b.seq with
    | none => s
    | some q => if q.run = .running then takeSAns bid q.pc (k ⟨s, bid, b, q⟩) else s

/-- A sequencer instruction, for the actor that executes it: ILLOP in a trace. -/
def seqWord (k : Sq → SAns) (s : State) : Out :=
  match s.actor with
  | .none => .fault .noActor
  | .seq bid => .next (runSeq s bid k)
  | .wave bid wi => match getWave s bid wi with
    | some w => match w.trace with
      | some t => .next (raiseWave s bid wi t.start (t.addrOf t.pos) true (allStop t (.plain .illop)))
      | none => .next s
    | none => .next s

/-- A general word of either stream. -/
def eitherWord (c : Ctl) (n : Need) (k : Iss → Ans) (kz : Sq → SAns) (s : State) : Out :=
  match s.actor with
  | .seq bid => .next (runSeq s bid kz)
  | _ => waveWord c n k s

/-! ### Words that compute (R210 to R212) -/

/-- The operand A, B, C with its widening. -/
abbrev opA (a : Src) (k : Widen) (sx : Bool) : Opnd := ⟨7, a, k, sx⟩
abbrev opB (b : Src) (k : Widen) (sx : Bool) : Opnd := ⟨8, b, k, sx⟩
abbrev opC (c : Src) (k : Widen) (sx : Bool) : Opnd := ⟨9, c, k, sx⟩

/-- One operand: D := f w64 a. -/
def alu1 (c : Ctl) (d : Reg) (a : Opnd) (f : Bool → Word64 → Word64) (s : State) : Out :=
  let w := isScalar d
  waveWord c (.mk2 1 0) (fun x => x.reading (x.readOps w [a]) <|
    .done (x.putAll (x.results d fun l => f w (x.val w a l)))) s

/-- Two operands. -/
def alu2 (c : Ctl) (d : Reg) (a b : Opnd) (f : Bool → Word64 → Word64 → Word64) (s : State) : Out :=
  let w := isScalar d
  waveWord c (.mk2 1 0) (fun x => x.reading (x.readOps w [a, b]) <|
    .done (x.putAll (x.results d fun l => f w (x.val w a l) (x.val w b l)))) s

/-- Three operands. -/
def alu3 (c : Ctl) (d : Reg) (a b e : Opnd) (f : Bool → Word64 → Word64 → Word64 → Word64) (s : State) : Out :=
  let w := isScalar d
  waveWord c (.mk2 1 0) (fun x => x.reading (x.readOps w [a, b, e]) <|
    .done (x.putAll (x.results d fun l => f w (x.val w a l) (x.val w b l) (x.val w e l)))) s

/-- Two operands in the sequencer stream, at 64 bits. -/
def seqAlu2 (d : Reg) (a b : Opnd) (f : Word64 → Word64 → Word64) (x : Sq) : SAns :=
  x.reading [(a.field, a.src), (b.field, b.src)] <|
    .next (x.put d (f (x.val a.imm a.sx a.src) (x.val b.imm b.sx b.src)) .full)

/-- The width in bits. -/
abbrev bitsOf (w64 : Bool) : Nat := if w64 then 64 else 32

/-- A value cut to the width. -/
def cutTo (w64 : Bool) (v : Word64) : Word64 := if w64 then v else low32 v

end Sys2Proof.Machine
end

