-- ==== Sys2Proof/Machine/Integer.lean ====
section
/-! DEFINITION. Integer arithmetic, 0x040 to 0x04D (R218 to R222). -/

namespace Sys2Proof.Machine

/-- R219 at width w: D from the exact value of the operands. -/
def exact2 (u sat : Bool) (f : Int → Int → Int) (w64 : Bool) (a b : Word64) : Word64 :=
  let w := bitsOf w64
  intResult w u sat (f (readInt w u a) (readInt w u b))

def exact3 (u sat : Bool) (f : Int → Int → Int → Int) (w64 : Bool) (a b c : Word64) : Word64 :=
  let w := bitsOf w64
  intResult w u sat (f (readInt w u a) (readInt w u b) (readInt w u c))

/-- IADD or ISUB with a carry (R220). -/
def carryWord (sub : Bool) (c : Ctl) (u : Bool) (cy : Carry) (cp : BitVec 4) (d : Reg) (a b : Src) (s : State) : Out :=
  let w := isScalar d
  let out := cy = .co || cy = .cio
  let ins := cy = .ci || cy = .cio
  let oa := opA a .s (!u)
  let ob := opB b .s (!u)
  waveWord c (.mk2 (if out then 2 else 1) 0) (fun x => x.reading (x.readOps w [oa, ob]) <|
    let at_ (l : Nat) : Word64 × Bool := carryResult (bitsOf w) sub (x.val w oa l) (x.val w ob l) (ins && x.pred cp l)
    let first := (lowest x.ex).getD 0
    let co := if w then (if (at_ first).2 then x.ex else 0) else maskOf fun l => x.ex.getLsbD l && (at_ l).2
    let x' := x.putAll (x.results d fun l => (at_ l).1)
    .done (if out then x'.putPred cp x.ex co else x')) s

/-- IADD and ISUB in either stream. -/
def addSub (sub : Bool) (c : Ctl) (u sat : Bool) (cy : Carry) (cp : BitVec 4) (d : Reg) (a b : Src) (s : State) : Out :=
  let f (p q : Int) : Int := if sub then p - q else p + q
  match s.actor with
  | .seq bid => .next (runSeq s bid (seqAlu2 d (opA a .s true) (opB b .s true) fun p q => if sub then p - q else p + q))
  | _ => if cy = .none then alu2 c d (opA a .s (!u)) (opB b .s (!u)) (exact2 u sat f) s
    else carryWord sub c u cy cp d a b s

/-- IADD: a + b. -/
def execIadd (c : Ctl) (u sat : Bool) (cy : Carry) (cp : BitVec 4) (d : Reg) (a b : Src) (s : State) : Out :=
  addSub false c u sat cy cp d a b s

/-- ISUB: a − b. -/
def execIsub (c : Ctl) (u sat : Bool) (cy : Carry) (cp : BitVec 4) (d : Reg) (a b : Src) (s : State) : Out :=
  addSub true c u sat cy cp d a b s

/-- IMUL: a × b. -/
def execImul (c : Ctl) (u sat : Bool) (d : Reg) (a b : Src) (s : State) : Out :=
  alu2 c d (opA a .s (!u)) (opB b .s (!u)) (exact2 u sat fun p q => p * q) s

/-- IMULH: the high half of the product. -/
def execImulh (c : Ctl) (u : Bool) (d : Reg) (a b : Src) (s : State) : Out :=
  alu2 c d (opA a .s (!u)) (opB b .s (!u)) (fun w => exact2 u false (fun p q => p * q / 2 ^ bitsOf w) w) s

/-- IMAD: a × b + c. -/
def execImad (c : Ctl) (u sat : Bool) (d : Reg) (a b e : Src) (s : State) : Out :=
  alu3 c d (opA a .s (!u)) (opB b .s (!u)) (opC e .s (!u)) (exact3 u sat fun p q r => p * q + r) s

/-- The exact value of IMADW in a lane (R221). -/
def Iss.imadw (x : Iss) (w u : Bool) (a b e : Opnd) (l : Nat) : Int :=
  readInt (bitsOf w) u (x.val w a l) * readInt (bitsOf w) u (x.val w b l) + readInt (bitsOf w) u (x.val w e l)

/-- The next register of a pair. -/
def Reg.succ : Reg → Reg
  | .v n => .v (n + 1)
  | .s n => .s (n + 1)
  | r => r

/-- IMADW: the low half to D, the high half to D + 1 (R221). -/
def execImadw (c : Ctl) (u : Bool) (d : Reg) (a b e : Src) (s : State) : Out :=
  let w := isScalar d
  let oa := opA a .s (!u)
  let ob := opB b .s (!u)
  let oe := opC e .s (!u)
  waveWord c (.mk2 2 0) (fun x => x.reading (x.readOps w [oa, ob, oe]) <|
    let v (l : Nat) : Int := x.imadw w u oa ob oe l
    let lo (l : Nat) : Word64 := intResult (bitsOf w) true false (v l)
    let hi (l : Nat) : Word64 := intResult (bitsOf w) true false (v l / 2 ^ bitsOf w)
    .done ((x.putAll (x.results d lo)).putAll (x.results (Reg.succ d) hi))) s

/-- INEG: −a. -/
def execIneg (c : Ctl) (sat : Bool) (d : Reg) (a : Src) (s : State) : Out :=
  alu1 c d (opA a .s true) (fun w p => exact2 false sat (fun p _ => -p) w p 0) s

/-- IABS: |a|. -/
def execIabs (c : Ctl) (sat : Bool) (d : Reg) (a : Src) (s : State) : Out :=
  alu1 c d (opA a .s true) (fun w p => exact2 false sat (fun p _ => (p.natAbs : Int)) w p 0) s

/-- IMIN. -/
def execImin (c : Ctl) (u : Bool) (d : Reg) (a b : Src) (s : State) : Out :=
  alu2 c d (opA a .s (!u)) (opB b .s (!u)) (exact2 u false fun p q => min p q) s

/-- IMAX. -/
def execImax (c : Ctl) (u : Bool) (d : Reg) (a b : Src) (s : State) : Out :=
  alu2 c d (opA a .s (!u)) (opB b .s (!u)) (exact2 u false fun p q => max p q) s

/-- A word whose result lands later (R35): the destinations are empty, the flags are fixed at issue, those of a scalar
result with the lowest executing lane (log 76). -/
def lateWord (c : Ctl) (d : Reg) (ops : List Opnd) (f : Iss → Nat → Word64 × Flags) (s : State) : Out :=
  let w := isScalar d
  waveWord c (.mk2 1 0) (fun x => x.reading (x.readOps w ops) <|
    let y := (x.readers w).foldl (fun y l => y.addFlags l (f x l).2) x
    .done (y.putLate (x.results d fun l => (f x l).1) ((lowest x.ex).getD 0))) s

/-- Division in a lane (R222). -/
def Iss.divide (x : Iss) (rem u : Bool) (rnd : Rnd) (w : Bool) (a b : Opnd) (l : Nat) : Word64 × Flags :=
  let n := bitsOf w
  let p := readInt n u (x.val w a l)
  let q := readInt n u (x.val w b l)
  let r := intMode x.fmode rnd
  if rem then iremResult n u r p q else idivResult n u r p q

/-- IDIV. -/
def execIdiv (c : Ctl) (u : Bool) (rnd : Rnd) (d : Reg) (a b : Src) (s : State) : Out :=
  let oa := opA a .s (!u)
  let ob := opB b .s (!u)
  lateWord c d [oa, ob] (fun x l => x.divide false u rnd (isScalar d) oa ob l) s

/-- IREM. -/
def execIrem (c : Ctl) (u : Bool) (rnd : Rnd) (d : Reg) (a b : Src) (s : State) : Out :=
  let oa := opA a .s (!u)
  let ob := opB b .s (!u)
  lateWord c d [oa, ob] (fun x l => x.divide true u rnd (isScalar d) oa ob l) s

/-- ISAD: |a − b| + c. -/
def execIsad (c : Ctl) (u sat : Bool) (d : Reg) (a b e : Src) (s : State) : Out :=
  alu3 c d (opA a .s (!u)) (opB b .s (!u)) (opC e .s (!u)) (exact3 u sat fun p q r => ((p - q).natAbs : Int) + r) s

/-- ICLAMP: min(max(a, b), c). -/
def execIclamp (c : Ctl) (u : Bool) (d : Reg) (a b e : Src) (s : State) : Out :=
  alu3 c d (opA a .s (!u)) (opB b .s (!u)) (opC e .s (!u)) (exact3 u false fun p q r => min (max p q) r) s

end Sys2Proof.Machine
end

