-- ==== Sys2Proof/Machine/Logic.lean ====
section
/-! DEFINITION. Logic, shifts, bit fields, counts, byte permutes, selection and moves, 0x04E to 0x062 (R223 to R230). -/

namespace Sys2Proof.Machine

/-! ### Logic (R223) -/

/-- AND, in either stream. -/
def execAndw (c : Ctl) (d : Reg) (a b : Src) (s : State) : Out :=
  match s.actor with
  | .seq bid => .next (runSeq s bid (seqAlu2 d (opA a .s false) (opB b .s false) fun p q => p &&& q))
  | _ => alu2 c d (opA a .s false) (opB b .s false) (fun w p q => cutTo w (p &&& q)) s

/-- OR. -/
def execOrw (c : Ctl) (d : Reg) (a b : Src) (s : State) : Out :=
  alu2 c d (opA a .s false) (opB b .s false) (fun w p q => cutTo w (p ||| q)) s

/-- XOR. -/
def execXorw (c : Ctl) (d : Reg) (a b : Src) (s : State) : Out :=
  alu2 c d (opA a .s false) (opB b .s false) (fun w p q => cutTo w (p ^^^ q)) s

/-- NOT. -/
def execNotw (c : Ctl) (d : Reg) (a : Src) (s : State) : Out :=
  alu1 c d (opA a .s false) (fun w p => cutTo w (~~~p)) s

/-- ANDN: a AND NOT b. -/
def execAndn (c : Ctl) (d : Reg) (a b : Src) (s : State) : Out :=
  alu2 c d (opA a .s false) (opB b .s false) (fun w p q => cutTo w (p &&& ~~~q)) s

/-- A three-input table applied bitwise; `a` is the least significant index bit (R215, R223). -/
def lut3 (lut : BitVec 8) (a b c : Word64) : Word64 :=
  (List.range 8).foldl (fun r i =>
    if lut.getLsbD i then
      r ||| ((if i % 2 = 1 then a else ~~~a) &&& (if i / 2 % 2 = 1 then b else ~~~b) &&&
        (if i / 4 = 1 then c else ~~~c))
    else r) 0

/-- BLUT. -/
def execBlut (c : Ctl) (lut : BitVec 8) (d : Reg) (a b e : Src) (s : State) : Out :=
  alu3 c d (opA a .s false) (opB b .s false) (opC e .s false) (fun w p q r => cutTo w (lut3 lut p q r)) s

/-! ### Shifts and rotates (R224) -/

/-- a << n at width w; 0 when n ≥ w. -/
def shlTo (w64 : Bool) (a n : Word64) : Word64 :=
  if bitsOf w64 ≤ n.toNat then 0 else cutTo w64 (a <<< n.toNat)

/-- SHL, in either stream. -/
def execShl (c : Ctl) (d : Reg) (a b : Src) (s : State) : Out :=
  match s.actor with
  | .seq bid => .next (runSeq s bid (seqAlu2 d (opA a .z false) (opB b .z false) (shlTo true)))
  | _ => alu2 c d (opA a .z false) (opB b .z false) shlTo s

/-- a >> n, zeros shifted in. -/
def shrTo (w64 : Bool) (a n : Word64) : Word64 := if bitsOf w64 ≤ n.toNat then 0 else a >>> n.toNat

/-- SHR. -/
def execShr (c : Ctl) (d : Reg) (a b : Src) (s : State) : Out := alu2 c d (opA a .z false) (opB b .z false) shrTo s

/-- a >> n, copies of bit w − 1 shifted in. -/
def sarTo (w64 : Bool) (a n : Word64) : Word64 :=
  if w64 then a.sshiftRight (min n.toNat 63) else ((a.setWidth 32).sshiftRight (min n.toNat 31)).setWidth 64

/-- SAR. -/
def execSar (c : Ctl) (d : Reg) (a b : Src) (s : State) : Out := alu2 c d (opA a .z false) (opB b .z false) sarTo s

/-- a rotated left by n mod w. -/
def rotlTo (w64 : Bool) (a n : Word64) : Word64 :=
  if w64 then a.rotateLeft (n.toNat % 64) else ((a.setWidth 32).rotateLeft (n.toNat % 32)).setWidth 64

/-- ROTL. -/
def execRotl (c : Ctl) (d : Reg) (a b : Src) (s : State) : Out := alu2 c d (opA a .z false) (opB b .z false) rotlTo s

/-- The funnel shift of (a << w) | b by c mod w. -/
def funnel (right w64 : Bool) (a b c : Word64) : Word64 :=
  let w := bitsOf w64
  let v : BitVec 128 := (a.setWidth 128 <<< w) ||| (cutTo w64 b).setWidth 128
  let k := c.toNat % w
  cutTo w64 ((if right then v >>> k else (v <<< k) >>> w).setWidth 64)

/-- SHF. -/
def execShf (c : Ctl) (right : Bool) (d : Reg) (a b e : Src) (s : State) : Out :=
  alu3 c d (opA a .z false) (opB b .z false) (opC e .z false) (funnel right) s

/-! ### Bit fields (R225) -/

/-- The field a descriptor names at width w: position and length cut at the top of the word. -/
def fieldOf (w : Nat) (f : Word64) : Nat × Nat :=
  let pos := f.toNat % 256
  let len := f.toNat / 256 % 256
  (pos, min len (w - pos))

/-- BFE's result. -/
def bfeTo (u w64 : Bool) (a f : Word64) : Word64 :=
  let (pos, len) := fieldOf (bitsOf w64) f
  let v := (cutTo w64 a).toNat / 2 ^ pos % 2 ^ len
  if !u && decide (0 < len) && decide (v / 2 ^ (len - 1) = 1) then
    cutTo w64 (BitVec.ofInt 64 ((v : Int) - 2 ^ len)) else BitVec.ofNat 64 v

/-- BFE. -/
def execBfe (c : Ctl) (u : Bool) (d : Reg) (a f : Src) (s : State) : Out :=
  alu2 c d (opA a .z false) (opB f .z false) (bfeTo u) s

/-- BFI's result. -/
def bfiTo (w64 : Bool) (a b f : Word64) : Word64 :=
  let (pos, len) := fieldOf (bitsOf w64) f
  let m : Word64 := BitVec.ofNat 64 ((2 ^ len - 1) * 2 ^ pos)
  cutTo w64 ((a &&& ~~~m) ||| ((b <<< pos) &&& m))

/-- BFI. -/
def execBfi (c : Ctl) (d : Reg) (a b f : Src) (s : State) : Out :=
  alu3 c d (opA a .z false) (opB b .z false) (opC f .z false) bfiTo s

/-! ### Counts (R226) -/

/-- The number of 1 bits among the low `n` bits. -/
def countOnes (v : Word64) : Nat → Nat
  | 0 => 0
  | n + 1 => countOnes v n + (if v.getLsbD n then 1 else 0)

/-- POPC. -/
def execPopc (c : Ctl) (d : Reg) (a : Src) (s : State) : Out :=
  alu1 c d (opA a .s false) (fun w p => BitVec.ofNat 64 (countOnes p (bitsOf w))) s

/-- CLZ's result. -/
def clzTo (w64 : Bool) (a : Word64) : Word64 :=
  let v := (cutTo w64 a).toNat
  BitVec.ofNat 64 (if v = 0 then bitsOf w64 else bitsOf w64 - 1 - v.log2)

/-- CLZ. -/
def execClz (c : Ctl) (d : Reg) (a : Src) (s : State) : Out := alu1 c d (opA a .s false) clzTo s

/-- The low `n` bits reversed. -/
def reverseBits (v : Word64) (n : Nat) : Word64 :=
  (List.range n).foldl (fun r i => if v.getLsbD i then r ||| (1#64 <<< (n - 1 - i)) else r) 0

/-- BREV. -/
def execBrev (c : Ctl) (d : Reg) (a : Src) (s : State) : Out :=
  alu1 c d (opA a .s false) (fun w p => reverseBits p (bitsOf w)) s

/-- FFS's result: the index of the lowest 1 bit; all ones when a = 0. -/
def ffsTo (w64 : Bool) (a : Word64) : Word64 :=
  match (List.range (bitsOf w64)).find? fun i => a.getLsbD i with
  | some i => BitVec.ofNat 64 i
  | none => cutTo w64 0xFFFFFFFFFFFFFFFF

/-- FFS. -/
def execFfs (c : Ctl) (d : Reg) (a : Src) (s : State) : Out := alu1 c d (opA a .s false) ffsTo s

/-! ### Byte permutes (R227) -/

/-- One byte of BSWZ's result, from the pool and a selector. -/
def bswzByte (pool : Word64) (sel : BitVec 8) : BitVec 8 :=
  let p : BitVec 8 := (pool >>> (8 * (sel.toNat % 8))).setWidth 8
  match sel.toNat / 8 % 4 with
  | 0 => p
  | 1 => p.reverse
  | 2 => if p.getLsbD 7 then 0xFF else 0
  | _ => 0

/-- BSWZ's result. -/
def bswzTo (a b c : Word64) : Word64 :=
  let pool : Word64 := low32 a ||| (b <<< 32)
  let byte (i : Nat) : BitVec 8 := bswzByte pool ((c >>> (8 * i)).setWidth 8)
  (byte 3 ++ byte 2 ++ byte 1 ++ byte 0).setWidth 64

/-- BSWZ, always at 32 bits (R210). -/
def execBswz (c : Ctl) (d : Reg) (a b e : Src) (s : State) : Out :=
  let w := isScalar d
  let oa := opA a .z false
  let ob := opB b .z false
  let oe := opC e .z false
  waveWord c (.mk2 1 0) (fun x => x.reading (x.readOps w [oa, ob, oe]) <|
    .done (x.putAll (x.results d fun l => bswzTo (x.val false oa l) (x.val false ob l) (x.val false oe l)))) s

/-! ### Selection and moves (R228 to R230) -/

/-- SEL: every executing lane reads both operands, and keeps the one that its predicate selects (R36, R228). -/
def execSel (c : Ctl) (d : Reg) (a b : Src) (pc : PredSrc) (s : State) : Out :=
  let w := isScalar d
  waveWord c (.mk2 1 0) (fun x => x.reading (x.readOps w [opA a .s false, opB b .s false]) <|
      .done (x.putAll (x.results d fun l => if x.holds pc l then x.val w (opA a .s false) l else x.val w (opB b .s false) l))) s

/-- MOV, in either stream. -/
def execMov (c : Ctl) (d : Reg) (a : Src) (s : State) : Out :=
  match s.actor with
  | .seq bid => .next (runSeq s bid fun x => x.reading [(7, a)] (.next (x.put d (x.val .s false a) .full)))
  | _ => alu1 c d (opA a .s false) (fun _ p => p) s

/-- MOVI, in either stream. -/
def execMovi (c : Ctl) (d : Reg) (imm : Word64) (s : State) : Out :=
  match s.actor with
  | .seq bid => .next (runSeq s bid fun x => .next (x.put d imm .full))
  | _ => waveWord c (.mk2 1 0) (fun x => .done (x.putAll (x.results d fun _ => imm))) s

end Sys2Proof.Machine
end

