-- ==== Sys2Proof/Machine/Predicate.lean ====
section
/-! DEFINITION. Predicates, 0x020 to 0x024 (R213 to R217), and the cross-lane instructions, 0x025 to 0x02E (R247 to
R253). -/

namespace Sys2Proof.Machine

/-! ### PSET and FPSET (R213, R214) -/

/-- PSET's comparisons. -/
def icmp (c : Cmp) (a b : Int) : Bool :=
  match c with
  | .eq => decide (a = b)
  | .ne => decide (a ≠ b)
  | .lt => decide (a < b)
  | .le => decide (a ≤ b)
  | .gt => decide (b < a)
  | .ge => decide (b ≤ a)
  | .un => false
  | .ord => false

/-- COMB. -/
def combine (k : Comb) (t p : Bool) : Bool :=
  match k with
  | .none => t
  | .and => t && p
  | .or => t || p
  | .andn => t && !p

/-- A predicate from a test of two operands in each executing lane. -/
def testWord (c : Ctl) (comb : Comb) (cp q : BitVec 4) (a b : Opnd) (t : Iss → Nat → Bool) (s : State) : Out :=
  waveWord c (.mk2 1 0) (fun x => x.reading (x.readOps false [a, b]) <|
    .done (x.putPred q x.ex (maskOf fun l => x.ex.getLsbD l && combine comb (t x l) (x.pred cp l)))) s

/-- PSET. -/
def execPset (c : Ctl) (cmp : Cmp) (l u : Bool) (comb : Comb) (cp q : BitVec 4) (a b : Src) (s : State) : Out :=
  let oa := opA a .s (!u)
  let ob := opB b .s (!u)
  testWord c comb cp q oa ob (fun x i =>
    icmp cmp (readInt (bitsOf l) u (x.val l oa i)) (readInt (bitsOf l) u (x.val l ob i))) s

/-- A source's value as FP32. -/
def Iss.fp (x : Iss) (o : Opnd) (l : Nat) : FVal := Machine.fp ((x.val false o l).setWidth 32)

/-- FPSET. -/
def execFpset (c : Ctl) (cmp : Cmp) (comb : Comb) (cp q : BitVec 4) (a b : Src) (s : State) : Out :=
  let oa := opA a .f false
  let ob := opB b .f false
  testWord c comb cp q oa ob (fun x i => fcmp cmp (x.fp oa i) (x.fp ob i)) s

/-! ### PLOG, PMOV, PBITS (R215 to R217) -/

/-- PLOG. -/
def execPlog (c : Ctl) (lut : BitVec 8) (q : BitVec 4) (pa pb pc : PredSrc) (s : State) : Out :=
  waveWord c (.mk2 1 0) (fun x =>
    let t (l : Nat) : Bool := lut.getLsbD ((if x.holds pa l then 1 else 0) + (if x.holds pb l then 2 else 0) +
      (if x.holds pc l then 4 else 0))
    .done (x.putPred q x.ex (maskOf fun l => x.ex.getLsbD l && t l))) s

/-- PMOV. -/
def execPmov (c : Ctl) (q : BitVec 4) (pa : PredSrc) (s : State) : Out :=
  waveWord c (.mk2 1 0) (fun x => .done (x.putPred q x.ex (maskOf fun l => x.ex.getLsbD l && x.holds pa l))) s

/-- PBITS.GET. -/
def execPbitsGet (c : Ctl) (d : Reg) (mask : BitVec 16) (s : State) : Out :=
  waveWord c (.mk2 1 0) (fun x => .done (x.putAll (x.results d fun l =>
    (List.range 16).foldl (fun v i =>
      if mask.getLsbD i && x.pred (BitVec.ofNat 4 i) l then v ||| (1#64 <<< i) else v) 0))) s

/-- The predicates that PBITS.PUT writes. -/
def putBits (mask : BitVec 16) : List Nat := (List.range 16).filter fun i => mask.getLsbD i && decide (i ≠ 0)

/-- PBITS.PUT. -/
def execPbitsPut (c : Ctl) (mask : BitVec 16) (a : Src) (s : State) : Out :=
  let oa := opA a .z false
  waveWord c (.mk2 (putBits mask).length 0) (fun x => x.reading (x.readOps false [oa]) <|
    .done ((putBits mask).foldl (fun y i =>
      y.putPred (BitVec.ofNat 4 i) x.ex (maskOf fun l => x.ex.getLsbD l && (x.val false oa l).getLsbD i)) x)) s

/-! ### Votes (R248) -/

/-- VOTE. -/
def execVote (c : Ctl) (mode : VoteMode) (q : BitVec 4) (pa : PredSrc) (s : State) : Out :=
  waveWord c (.mk2 1 0) (fun x =>
    let m := maskOf fun l => x.ex.getLsbD l && x.holds pa l
    let t := match mode with
      | .all => decide (m = x.ex)
      | .any => decide (m ≠ 0)
      | .eq => decide (m = x.ex) || decide (m = 0)
    .done (x.putPred q x.ex (if t then x.ex else 0))) s

/-- BALLOT. -/
def execBallot (c : Ctl) (d : Reg) (pa : PredSrc) (s : State) : Out :=
  waveWord c (.mk2 1 0) (fun x =>
    let m := maskOf fun l => x.ex.getLsbD l && x.holds pa l
    .done (x.putAll (x.results d fun _ => m.setWidth 64))) s

/-- MATCH. -/
def execMatchLanes (c : Ctl) (d : Reg) (a : Src) (s : State) : Out :=
  let oa := opA a .s false
  waveWord c (.mk2 1 0) (fun x => x.reading (x.readOps false [oa]) <|
    .done (x.putAll (x.results d fun l =>
      (maskOf fun i => x.ex.getLsbD i && decide (x.val false oa i = x.val false oa l)).setWidth 64))) s

/-- ELECT. -/
def execElect (c : Ctl) (q : BitVec 4) (s : State) : Out :=
  waveWord c (.mk2 1 0) (fun x => .done (x.putPred q x.ex (match lowest x.ex with
    | some l => laneBit l
    | none => 0))) s

/-! ### Moves between lanes (R249, R250, R253) -/

/-- The lane that LGET reads, none for the fill (R249). -/
def lgetFrom (mode : LgetMode) (sg : BitVec 3) (l : Nat) (b : Word64) : Option Nat :=
  let sz := 32 / 2 ^ sg.toNat
  let base := l / sz * sz
  let r := l - base
  match mode with
  | .at => some (base + b.toNat % sz)
  | .rot => some (base + (r + b.toNat) % sz)
  | .mix => some (base + (r ^^^ (b.toNat % sz)))
  | .shift =>
    let t : Int := r + (b.setWidth 32).toInt
    if 0 ≤ t ∧ t < sz then some (base + t.toNat) else none

/-- The read of A by lane `l` from lane `src`, before A's own permutation (R49). -/
def readAcross (field : Nat) (o : Src) (ps : List (Nat × Nat)) : List Read :=
  match o with
  | .reg r => [⟨field, r.reg, r.fe, 1, ps.map fun p => (p.1, permLane r.perm p.2)⟩]
  | .imm _ => []

/-- LGET. The lane that A is read from depends on B, so B is checked first (log 90). -/
def execLget (c : Ctl) (mode : LgetMode) (sg : BitVec 3) (d : Reg) (a b : Src) (fill : Option Src) (s : State) : Out :=
  let oa := opA a .z false
  let ob := opB b .z false
  let oc := opC (fill.getD (.imm 0)) .z false
  waveWord c (.mk2 1 0) (fun x => x.readingThen (x.readOps false [ob]) fun rs =>
    let from_ (l : Nat) : Option Nat := lgetFrom mode sg l (x.val false ob l)
    let ls := goOn rs (lanesOf x.ex)
    x.readingAfter rs (readAcross 7 a (ls.filterMap fun l => (from_ l).map fun k => (l, k)) ++
        Iss.readIn (ls.filter fun l => (from_ l).isNone) 9 oc.src) <|
      .done (x.putAll (x.results d fun l => match from_ l with
        | some k => x.val false oa k
        | none => x.val false oc l))) s

/-- XCHG: every executing lane reads both operands, and keeps the one that its index bit selects (R36, R250). -/
def execXchg (c : Ctl) (n : BitVec 3) (d : Reg) (a b : Src) (s : State) : Out :=
  waveWord c (.mk2 1 0) (fun x =>
    let high (l : Nat) : Bool := l.testBit n.toNat
    x.reading (x.readOps false [opA a .z false, opB b .z false]) <|
      .done (x.putAll (x.results d fun l =>
        if high l then x.val false (opB b .z false) l else x.val false (opA a .z false) l))) s

/-- RDLANE. The lane that A is read from depends on B, so B is checked first (log 90). -/
def execRdlane (c : Ctl) (d : Reg) (a b : Src) (s : State) : Out :=
  waveWord c (.mk2 1 0) (fun x => x.reading (x.readSrc true 8 b 1) <|
    match lowest x.ex with
    | none => .done x
    | some f =>
      let k := (x.val false (opB b .z false) f).toNat % 32
      x.reading (readAcross 7 a ((x.readers (isScalar d)).map fun l => (l, k))) <|
        .done (x.putAll (x.results d fun _ => x.val false (opA a .z false) k))) s

/-- WRLANE. -/
def execWrlane (c : Ctl) (d : Reg) (a b : Src) (s : State) : Out :=
  waveWord c (.mk2 1 0) (fun x => x.reading (x.readSrc true 7 a 1 ++ x.readSrc true 8 b 1) <|
    match lowest x.ex with
    | none => .done x
    | some f =>
      let k := (x.val false (opB b .z false) f).toNat % 32
      match x.dest d 0 k with
      | some r => .done (if x.t.live.getLsbD k then x.putAll [(r, x.val false (opA a .z false) f)] else x)
      | none => .done x) s

/-! ### REDUCE and SCAN (R251, R252) -/

/-- One combination, with its flags. -/
def combine32 (md : Mode) (op : RedOp) (x y : Word32) : Word32 × Flags :=
  match op with
  | .add => (x + y, 0)
  | .smin => (if y.toInt < x.toInt then y else x, 0)
  | .smax => (if x.toInt < y.toInt then y else x, 0)
  | .umin => (if y.toNat < x.toNat then y else x, 0)
  | .umax => (if x.toNat < y.toNat then y else x, 0)
  | .and => (x &&& y, 0)
  | .or => (x ||| y, 0)
  | .xor => (x ^^^ y, 0)
  | .fadd => finish md .fp32 (addVal md.r (fp x) (fp y))
  | .fmin => (BitVec.ofNat 32 (minMaxCode .fp32 false x.toNat y.toNat), 0)
  | .fmax => (BitVec.ofNat 32 (minMaxCode .fp32 true x.toNat y.toNat), 0)

/-- Two nodes of the tree. -/
def joinNodes (md : Mode) (op : RedOp) : Option (Word32 × Flags) → Option (Word32 × Flags) → Option (Word32 × Flags)
  | none, y => y
  | x, none => x
  | some (x, f), some (y, g) =>
    let (v, h) := combine32 md op x y
    some (v, f ||| g ||| h)

/-- One level of the tree. -/
def reduceLevel (md : Mode) (op : RedOp) : List (Option (Word32 × Flags)) → List (Option (Word32 × Flags))
  | x :: y :: rest => joinNodes md op x y :: reduceLevel md op rest
  | rest => rest

/-- The five levels (R251). -/
def reduceTree (md : Mode) (op : RedOp) (xs : List (Option (Word32 × Flags))) : Option (Word32 × Flags) :=
  ((List.range 5).foldl (fun ys _ => reduceLevel md op ys) xs).head?.join

/-- REDUCE. -/
def execReduce (c : Ctl) (op : RedOp) (d : Reg) (a : Src) (s : State) : Out :=
  let oa := opA a .s false
  waveWord c (.mk2 1 0) (fun x => x.reading (x.readOps false [oa]) <|
    let leaf (l : Nat) : Option (Word32 × Flags) :=
      if x.ex.getLsbD l then some ((x.val false oa l).setWidth 32, 0) else none
    match reduceTree (modeFor x.fmode .dyn .fp32) op (allLanes.map leaf) with
    | none => .done x
    | some (v, f) =>
      let y := (lanesOf x.ex).foldl (fun y l => y.addFlags l f) x
      .done (y.putAll (x.results d fun _ => v.setWidth 64))) s

/-- The identities of R252. -/
def scanIdentity : RedOp → Word32
  | .add | .or | .xor | .umax => 0
  | .smin => 0x7FFFFFFF
  | .smax | .fadd => 0x80000000
  | .umin | .and => 0xFFFFFFFF
  | .fmin => 0x7F800000
  | .fmax => 0xFF800000

/-- SCAN's results: each executing lane's value and the flags of the steps up to and including its own. -/
def scanLanes (md : Mode) (op : RedOp) (ex : Bool) (v : Nat → Word32) : Word32 → Flags → List Nat →
    List (Nat × Word32 × Flags)
  | _, _, [] => []
  | acc, f, l :: ls =>
    let (acc', g) := combine32 md op acc (v l)
    (l, if ex then acc else acc', f ||| g) :: scanLanes md op ex v acc' (f ||| g) ls

/-- SCAN. -/
def execScan (c : Ctl) (op : RedOp) (ex : Bool) (d : Reg) (a : Src) (s : State) : Out :=
  let oa := opA a .s false
  waveWord c (.mk2 1 0) (fun x => x.reading (x.readOps false [oa]) <|
    let rs := scanLanes (modeFor x.fmode .dyn .fp32) op ex (fun l => (x.val false oa l).setWidth 32) (scanIdentity op) 0
      (lanesOf x.ex)
    let y := rs.foldl (fun y r => y.addFlags r.1 r.2.2) x
    .done (y.putAll (rs.filterMap fun r => (x.dest d 0 r.1).map fun e => (e, r.2.1.setWidth 64)))) s

end Sys2Proof.Machine
end

