-- ==== Sys2Proof/Machine/Trans.lean ====
section
/-! DEFINITION. The transcendental functions of R76, in fixed point with 256 fraction bits: every result is the exact
value cut to far more bits than FP32 keeps, marked inexact except where the value is exact (powers of two, the special
operands), so that one rounding gives the nearest FP32 value. -/

namespace Sys2Proof.Machine

/-- The fraction bits of the fixed-point values. -/
abbrev fracBits : Nat := 256

/-- 1.0. -/
abbrev fixOne : Nat := 2 ^ fracBits

/-- The terms of Σ ±z^(2k+1) / (2k+1) from the power `p` = z^(2k+1) on. -/
def arcSum (alt : Bool) (zz : Nat) : Nat → Nat → Nat → Int → Int
  | 0, _, _, acc => acc
  | n + 1, k, p, acc =>
    let t : Int := p / (2 * k + 1)
    arcSum alt zz n (k + 1) (p * zz / fixOne) (if alt && k % 2 = 1 then acc - t else acc + t)

/-- atanh z for 0 ≤ z ≤ 1/3. -/
def atanhFix (z : Nat) : Int := arcSum false (z * z / fixOne) 90 0 z 0

/-- atan (1/n) for n ≥ 5. -/
def atanInv (n : Nat) : Int := arcSum true (fixOne / (n * n)) 64 0 (fixOne / n) 0

/-- ln 2 = 2 atanh (1/3). -/
def ln2Fix : Nat := (2 * atanhFix (fixOne / 3)).toNat

/-- π, by Machin's formula. -/
def piFix : Nat := (4 * (4 * atanInv 5 - atanInv 239)).toNat

/-- Σ t^k / k! from the term `p` = t^k / k! on. -/
def expSum (t : Nat) : Nat → Nat → Nat → Nat → Nat
  | 0, _, _, acc => acc
  | n + 1, k, p, acc =>
    if p = 0 then acc else expSum t n (k + 1) (p * t / fixOne / (k + 1)) (acc + p)

/-- e^t for 0 ≤ t < 1. -/
def expFix (t : Nat) : Nat := expSum t 70 0 fixOne 0

/-- e^t for t ≥ 0, as m × 2^k. -/
def expBig (t : Nat) : Nat × Nat :=
  let k := t / ln2Fix
  (expFix (t % ln2Fix), k)

/-- A finite value below 2^200 in magnitude as a fixed-point magnitude. -/
def Ex.fix (x : Ex) : Nat :=
  let e : Int := x.e + fracBits
  if 0 ≤ e then x.m * 2 ^ e.toNat else x.m / 2 ^ (-e).toNat

/-- ⌊log2 |x|⌋ is at least `n`. -/
def Ex.atLeast (x : Ex) (n : Int) : Bool := decide (x.m ≠ 0) && decide (n ≤ log2Ex x)

/-- 2^x of a finite value. -/
def exp2Ex (x : Ex) : Ex :=
  if x.m = 0 then ⟨false, 1, 0⟩
  else if x.atLeast 10 then cutEx false 1 (if x.neg then -1200 else 1200) false
  else
    let f := x.fix
    let whole : Int := if x.neg then -(((f + fixOne - 1) / fixOne : Nat) : Int) else (f / fixOne : Nat)
    let part : Nat := if x.neg then (fixOne - f % fixOne) % fixOne else f % fixOne
    if part = 0 then ⟨false, 1, whole⟩
    else cutEx false (expFix (part * ln2Fix / fixOne)) (whole - fracBits) false

/-- FEXP2. -/
def exp2Val : FVal → Raised
  | .nan => (.nan, 0)
  | .inf true => (.fin ⟨false, 0, 0⟩, 0)
  | .inf false => (.inf false, 0)
  | .fin x => (.fin (exp2Ex x), 0)

/-- A fixed-point integer as an inexact value. -/
def cutFix (v : Int) : Ex := cutEx (decide (v < 0)) v.natAbs (-(fracBits : Int)) false

/-- log2 x of a positive finite value. -/
def log2Val1 (x : Ex) : Ex :=
  let k := log2Ex x
  let l := x.m.log2
  if x.m = 2 ^ l then Ex.ofInt k
  else
    let m := x.m * 2 ^ fracBits / 2 ^ l
    let z := (m - fixOne) * fixOne / (m + fixOne)
    let ln := 2 * atanhFix z
    cutFix (k * fixOne + ln * fixOne / (ln2Fix : Int))

/-- FLOG2. -/
def log2Val : FVal → Raised
  | .nan => (.nan, 0)
  | .inf false => (.inf false, 0)
  | .inf true => (.nan, flNV)
  | .fin x => if x.m = 0 then (.inf true, flDZ) else if x.neg then (.nan, flNV) else (.fin (log2Val1 x), 0)

/-- The alternating sum Σ ±t^j / j! over every second j, from the term `p` on. -/
def trigSum (rr : Nat) : Nat → Nat → Nat → Int → Int
  | 0, _, _, acc => acc
  | n + 1, j, p, acc =>
    if p = 0 then acc else trigSum rr n (j + 2) (p * rr / fixOne / ((j + 1) * (j + 2))) (if j / 2 % 2 = 1 then acc - p else acc + p)

/-- sin r and cos r for 0 ≤ r < 1. -/
def sinFix (r : Nat) : Int := trigSum (r * r / fixOne) 40 1 r 0
def cosFix (r : Nat) : Int := trigSum (r * r / fixOne) 40 0 fixOne 0

/-- sin |x|, or cos |x|, after the reduction by π / 2. -/
def trigFix (cos : Bool) (x : Nat) : Int :=
  let h := piFix / 2
  let q := (x + h / 2) / h
  let r : Int := (x : Int) - ((q * piFix / 2 : Nat) : Int)
  let sn : Int := if r < 0 then -(sinFix r.natAbs) else sinFix r.natAbs
  let cn : Int := cosFix r.natAbs
  match (if cos then q + 1 else q) % 4 with
  | 0 => sn
  | 1 => cn
  | 2 => -sn
  | _ => -cn

/-- sin x of a nonzero value below 2^−40: less than x by less than one part in 2^64. -/
def sinTiny (x : Ex) : Ex := cutEx x.neg (x.m * 2 ^ 64 - 1) (x.e - 64) false

/-- FSIN and FCOS. -/
def trigVal (cos : Bool) : FVal → Raised
  | .nan => (.nan, 0)
  | .inf _ => (.nan, flNV)
  | .fin x =>
    if x.m = 0 then (.fin (if cos then ⟨false, 1, 0⟩ else x), 0)
    else if x.atLeast 20 then (.nan, flNV)
    else if !cos && !x.atLeast (-40) then (.fin (sinTiny x), 0)
    else
      let v := trigFix cos x.fix
      (.fin (cutFix (if x.neg && !cos then -v else v)), 0)

/-- p / q of naturals as an inexact value of a sign. -/
def ratio (neg : Bool) (p q : Nat) : Ex := cutEx neg (p * 2 ^ (2 * fracBits) / q) (-(2 * fracBits : Nat)) false

/-- tanh of a nonzero finite value. -/
def tanhEx (x : Ex) : Ex :=
  if x.atLeast 6 then ratio x.neg (fixOne - 1) fixOne
  else
    let (m, k) := expBig (2 * x.fix)
    ratio x.neg (m * 2 ^ k - fixOne) (m * 2 ^ k + fixOne)

/-- FTANH. -/
def tanhVal : FVal → Raised
  | .nan => (.nan, 0)
  | .inf n => (.fin ⟨n, 1, 0⟩, 0)
  | .fin x => (.fin (if x.m = 0 then x else tanhEx x), 0)

/-- 1 / (1 + e^−x) of a nonzero finite value. -/
def sigmEx (x : Ex) : Ex :=
  if x.atLeast 8 then (if x.neg then cutEx false 1 (-300) false else ratio false (fixOne - 1) fixOne)
  else
    let (m, k) := expBig x.fix
    if x.neg then ratio false fixOne (m * 2 ^ k + fixOne) else ratio false (m * 2 ^ k) (m * 2 ^ k + fixOne)

/-- FSIGM. -/
def sigmVal : FVal → Raised
  | .nan => (.nan, 0)
  | .inf true => (.fin ⟨false, 0, 0⟩, 0)
  | .inf false => (.fin ⟨false, 1, 0⟩, 0)
  | .fin x => (.fin (if x.m = 0 then ⟨false, 1, -1⟩ else sigmEx x), 0)

end Sys2Proof.Machine
end

