-- ==== Sys2Proof/Machine/Float.lean ====
section
/-! DEFINITION. FP32 arithmetic, 0x080 to 0x096, and packed halves, 0x097 to 0x09B (R232 to R241). -/

namespace Sys2Proof.Machine

/-! ### The shape of these words (R232) -/

/-- A word whose 32-bit result and flags are formed at issue. -/
def fpWord (c : Ctl) (d : Reg) (ops : List Opnd) (f : Iss → Nat → Word32 × Flags) (s : State) : Out :=
  let w := isScalar d
  waveWord c (.mk2 1 0) (fun x => x.reading (x.readOps w ops) <|
    let y := (x.readers w).foldl (fun y l => y.addFlags l (f x l).2) x
    .done (y.putAll (x.results d fun l => (f x l).1.setWidth 64))) s

/-- The same for a producer of R233. -/
def fpLate (c : Ctl) (d : Reg) (ops : List Opnd) (f : Iss → Nat → Word32 × Flags) (s : State) : Out :=
  lateWord c d ops (fun x l => ((f x l).1.setWidth 64, (f x l).2)) s

/-- A source of these words. -/
abbrev fA (a : Src) : Opnd := opA a .f false
abbrev fB (b : Src) : Opnd := opB b .f false
abbrev fC (c : Src) : Opnd := opC c .f false

/-- FP32's rounding for a word (R201). -/
def Iss.mode32 (x : Iss) (rnd : Rnd) : Mode := modeFor x.fmode rnd .fp32

/-! ### Arithmetic (R234) -/

/-- FADD. -/
def execFadd (c : Ctl) (rnd : Rnd) (d : Reg) (a b : Src) (s : State) : Out :=
  fpWord c d [fA a, fB b] (fun x l =>
    finish (x.mode32 rnd) .fp32 (addVal (x.mode32 rnd).r (x.fp (fA a) l) (x.fp (fB b) l))) s

/-- FSUB. -/
def execFsub (c : Ctl) (rnd : Rnd) (d : Reg) (a b : Src) (s : State) : Out :=
  fpWord c d [fA a, fB b] (fun x l =>
    finish (x.mode32 rnd) .fp32 (addVal (x.mode32 rnd).r (x.fp (fA a) l) (negVal (x.fp (fB b) l)))) s

/-- FMUL. -/
def execFmul (c : Ctl) (rnd : Rnd) (d : Reg) (a b : Src) (s : State) : Out :=
  fpWord c d [fA a, fB b] (fun x l => finish (x.mode32 rnd) .fp32 (mulVal (x.fp (fA a) l) (x.fp (fB b) l))) s

/-- FDIV. -/
def execFdiv (c : Ctl) (rnd : Rnd) (d : Reg) (a b : Src) (s : State) : Out :=
  fpLate c d [fA a, fB b] (fun x l => finish (x.mode32 rnd) .fp32 (divVal (x.fp (fA a) l) (x.fp (fB b) l))) s

/-- FFMA. -/
def execFfma (c : Ctl) (rnd : Rnd) (d : Reg) (a b e : Src) (s : State) : Out :=
  fpWord c d [fA a, fB b, fC e] (fun x l =>
    finish (x.mode32 rnd) .fp32 (fmaVal (x.mode32 rnd).r (x.fp (fA a) l) (x.fp (fB b) l) (x.fp (fC e) l))) s

/-! ### Minimum, maximum, sign (R235) -/

/-- The FP32 code of a source. -/
def Iss.code (x : Iss) (o : Opnd) (l : Nat) : Nat := (x.val false o l).toNat

/-- FMIN. -/
def execFmin (c : Ctl) (d : Reg) (a b : Src) (s : State) : Out :=
  fpWord c d [fA a, fB b] (fun x l =>
    (BitVec.ofNat 32 (minMaxCode .fp32 false (x.code (fA a) l) (x.code (fB b) l)), 0)) s

/-- FMAX. -/
def execFmax (c : Ctl) (d : Reg) (a b : Src) (s : State) : Out :=
  fpWord c d [fA a, fB b] (fun x l =>
    (BitVec.ofNat 32 (minMaxCode .fp32 true (x.code (fA a) l) (x.code (fB b) l)), 0)) s

/-- A code with its sign bit changed; a NaN gives the canonical NaN. -/
def signWith (f : Word32 → Word32) (v : Word32) : Word32 := if fp v = .nan then nan32 else f v

/-- FABS. -/
def execFabs (c : Ctl) (d : Reg) (a : Src) (s : State) : Out :=
  fpWord c d [fA a] (fun x l => (signWith (· &&& 0x7FFFFFFF) ((x.val false (fA a) l).setWidth 32), 0)) s

/-- FNEG. -/
def execFneg (c : Ctl) (d : Reg) (a : Src) (s : State) : Out :=
  fpWord c d [fA a] (fun x l => (signWith (· ^^^ 0x80000000) ((x.val false (fA a) l).setWidth 32), 0)) s

/-! ### Roots and reciprocals (R236), transcendental functions (R237) -/

/-- FRCP. -/
def execFrcp (c : Ctl) (rnd : Rnd) (d : Reg) (a : Src) (s : State) : Out :=
  fpLate c d [fA a] (fun x l => finish (x.mode32 rnd) .fp32 (rcpVal (x.fp (fA a) l))) s

/-- FRSQ. -/
def execFrsq (c : Ctl) (rnd : Rnd) (d : Reg) (a : Src) (s : State) : Out :=
  fpLate c d [fA a] (fun x l => finish (x.mode32 rnd) .fp32 (rsqVal (x.fp (fA a) l))) s

/-- FSQRT. -/
def execFsqrt (c : Ctl) (rnd : Rnd) (d : Reg) (a : Src) (s : State) : Out :=
  fpLate c d [fA a] (fun x l => finish (x.mode32 rnd) .fp32 (sqrtVal (x.fp (fA a) l))) s

/-- FEXP2. -/
def execFexp2 (c : Ctl) (d : Reg) (a : Src) (s : State) : Out :=
  fpLate c d [fA a] (fun x l => finish .plain .fp32 (exp2Val (x.fp (fA a) l))) s

/-- FLOG2. -/
def execFlog2 (c : Ctl) (d : Reg) (a : Src) (s : State) : Out :=
  fpLate c d [fA a] (fun x l => finish .plain .fp32 (log2Val (x.fp (fA a) l))) s

/-- FSIN. -/
def execFsin (c : Ctl) (d : Reg) (a : Src) (s : State) : Out :=
  fpLate c d [fA a] (fun x l => finish .plain .fp32 (trigVal false (x.fp (fA a) l))) s

/-- FCOS. -/
def execFcos (c : Ctl) (d : Reg) (a : Src) (s : State) : Out :=
  fpLate c d [fA a] (fun x l => finish .plain .fp32 (trigVal true (x.fp (fA a) l))) s

/-- FTANH. -/
def execFtanh (c : Ctl) (d : Reg) (a : Src) (s : State) : Out :=
  fpLate c d [fA a] (fun x l => finish .plain .fp32 (tanhVal (x.fp (fA a) l))) s

/-- FSIGM. -/
def execFsigm (c : Ctl) (d : Reg) (a : Src) (s : State) : Out :=
  fpLate c d [fA a] (fun x l => finish .plain .fp32 (sigmVal (x.fp (fA a) l))) s

/-! ### The representation of a value (R238, R239) -/

/-- FRND's result: an integral value keeps its sign when it is zero. -/
def frndTo (r : RMode) (v : Word32) : Word32 :=
  match fp v with
  | .nan => nan32
  | .inf _ => v
  | .fin x =>
    if x.m = 0 ∨ 0 ≤ x.e then v
    else BitVec.ofNat 32 (roundFloat .plain 8 23 127 ⟨x.neg, (roundShift r x.neg x.m (-x.e).toNat).1, 0⟩).1

/-- FRND. -/
def execFrnd (c : Ctl) (rnd : Rnd) (d : Reg) (a : Src) (s : State) : Out :=
  fpWord c d [fA a] (fun x l => (frndTo (x.mode32 rnd).r ((x.val false (fA a) l).setWidth 32), 0)) s

/-- FFRAC's value. -/
def fracVal : FVal → Raised
  | .nan => (.nan, 0)
  | .inf _ => (.nan, flNV)
  | .fin x => (.fin (if x.m = 0 then ⟨false, 0, 0⟩ else x.add (floorEx x).negate), 0)

/-- FFRAC. -/
def execFfrac (c : Ctl) (rnd : Rnd) (d : Reg) (a : Src) (s : State) : Out :=
  fpWord c d [fA a] (fun x l => finish (x.mode32 rnd) .fp32 (fracVal (x.fp (fA a) l))) s

/-- a × 2^n. -/
def scaleVal (n : Int) : FVal → FVal
  | .fin x => .fin (x.scale n)
  | v => v

/-- FSCALE. -/
def execFscale (c : Ctl) (rnd : Rnd) (d : Reg) (a b : Src) (s : State) : Out :=
  let ob := opB b .s false
  fpWord c d [fA a, ob] (fun x l =>
    finish (x.mode32 rnd) .fp32 (scaleVal ((x.val false ob l).setWidth 32).toInt (x.fp (fA a) l), 0)) s

/-- FGEXP's result. -/
def fgexpTo (v : Word32) : Word32 :=
  match fp v with
  | .nan => 0x80000000
  | .inf _ => 0x7FFFFFFF
  | .fin x => if x.m = 0 then 0x80000000 else BitVec.ofInt 32 (log2Ex x)

/-- FGEXP. -/
def execFgexp (c : Ctl) (d : Reg) (a : Src) (s : State) : Out :=
  fpWord c d [fA a] (fun x l => (fgexpTo ((x.val false (fA a) l).setWidth 32), 0)) s

/-- The bit of FCLASS. -/
def classBit (v : Word32) : Nat :=
  match fp v with
  | .nan => 8
  | .inf n => if n then 0 else 7
  | .fin x =>
    let normal := decide (v &&& 0x7F800000 ≠ 0)
    if x.m = 0 then (if x.neg then 3 else 4)
    else if x.neg then (if normal then 1 else 2) else (if normal then 6 else 5)

/-- FCLASS. -/
def execFclass (c : Ctl) (d : Reg) (a : Src) (s : State) : Out :=
  fpWord c d [fA a] (fun x l => (1#32 <<< classBit ((x.val false (fA a) l).setWidth 32), 0)) s

/-! ### Packed halves (R240, R241) -/

/-- The format that B selects. -/
def halfFmt (bf : Bool) : Fmt := if bf then .bf16 else .fp16

/-- Element `i` of a packed source. -/
def halfAt (v : Word64) (i : Nat) : Nat := v.toNat / 2 ^ (16 * i) % 65536

/-- Two elements computed apart, their codes packed and their flags joined. -/
def halves (f : Nat → Word32 × Flags) : Word32 × Flags :=
  let (p, fp) := f 0
  let (q, fq) := f 1
  ((p &&& 0xFFFF) ||| (q <<< 16), fp ||| fq)

/-- The packed sources. -/
abbrev hA (a : Src) : Opnd := opA a .h false
abbrev hB (b : Src) : Opnd := opB b .h false
abbrev hC (c : Src) : Opnd := opC c .h false

/-- The value of an element. -/
def Iss.half (x : Iss) (bf : Bool) (o : Opnd) (l i : Nat) : FVal := decodeElem (halfFmt bf) (halfAt (x.val false o l) i)

/-- HADD2. -/
def execHadd2 (c : Ctl) (bf : Bool) (rnd : Rnd) (d : Reg) (a b : Src) (s : State) : Out :=
  let m (x : Iss) : Mode := modeFor x.fmode rnd (halfFmt bf)
  fpWord c d [hA a, hB b] (fun x l => halves fun i =>
    finish (m x) (halfFmt bf) (addVal (m x).r (x.half bf (hA a) l i) (x.half bf (hB b) l i))) s

/-- HMUL2. -/
def execHmul2 (c : Ctl) (bf : Bool) (rnd : Rnd) (d : Reg) (a b : Src) (s : State) : Out :=
  fpWord c d [hA a, hB b] (fun x l => halves fun i =>
    finish (modeFor x.fmode rnd (halfFmt bf)) (halfFmt bf) (mulVal (x.half bf (hA a) l i) (x.half bf (hB b) l i))) s

/-- HFMA2. -/
def execHfma2 (c : Ctl) (bf : Bool) (rnd : Rnd) (d : Reg) (a b e : Src) (s : State) : Out :=
  let m (x : Iss) : Mode := modeFor x.fmode rnd (halfFmt bf)
  fpWord c d [hA a, hB b, hC e] (fun x l => halves fun i =>
    finish (m x) (halfFmt bf) (fmaVal (m x).r (x.half bf (hA a) l i) (x.half bf (hB b) l i) (x.half bf (hC e) l i))) s

/-- HMIN2 or HMAX2. -/
def minMaxHalves (mx : Bool) (c : Ctl) (bf : Bool) (d : Reg) (a b : Src) (s : State) : Out :=
  fpWord c d [hA a, hB b] (fun x l => halves fun i =>
    (BitVec.ofNat 32 (minMaxCode (halfFmt bf) mx (halfAt (x.val false (hA a) l) i) (halfAt (x.val false (hB b) l) i)), 0)) s

/-- HMIN2. -/
def execHmin2 (c : Ctl) (bf : Bool) (d : Reg) (a b : Src) (s : State) : Out := minMaxHalves false c bf d a b s

/-- HMAX2. -/
def execHmax2 (c : Ctl) (bf : Bool) (d : Reg) (a b : Src) (s : State) : Out := minMaxHalves true c bf d a b s

end Sys2Proof.Machine
end

