-- ==== Sys2Proof/Machine/Convert.lean ====
section
/-! DEFINITION. Conversions, 0x0C0 to 0x0C4 (R242 to R246). -/

namespace Sys2Proof.Machine

/-- Element `n` of width `w` in a register (R70). -/
def elemAt (w n : Nat) (v : Word64) : Nat := v.toNat / 2 ^ (w * n) % 2 ^ w

/-- CVT: a narrow result has zeros above it. -/
def execCvt (c : Ctl) (df sf : Fmt) (rnd : Rnd) (d : Reg) (a : Src) (s : State) : Out :=
  let oa := opA a .z false
  fpWord c d [oa] (fun x l =>
    finish (modeFor x.fmode rnd df) df (decodeElem sf (elemAt sf.width 0 (x.val false oa l)), 0)) s

/-- A register with element `n` of width `w` replaced. -/
def insertElem (w n : Nat) (v : Word32) (e : Word32) : Word32 :=
  let m : Word32 := BitVec.ofNat 32 ((2 ^ w - 1) * 2 ^ (w * n))
  (v &&& ~~~m) ||| ((e <<< (w * n)) &&& m)

/-- PACK. -/
def execPack (c : Ctl) (el : BitVec 3) (df : Fmt) (rnd : Rnd) (d : Reg) (a b : Src) (s : State) : Out :=
  let oa := opA a .z false
  let ob := opB b .z false
  fpWord c d [oa, ob] (fun x l =>
    let (e, fl) := finish (modeFor x.fmode rnd df) df (x.fp ob l, 0)
    (insertElem df.width el.toNat ((x.val false oa l).setWidth 32) e, fl)) s

/-- UNPK. -/
def execUnpk (c : Ctl) (el : BitVec 3) (sf : Fmt) (d : Reg) (a : Src) (s : State) : Out :=
  let oa := opA a .z false
  fpWord c d [oa] (fun x l =>
    finish .plain .fp32 (decodeElem sf (elemAt sf.width el.toNat (x.val false oa l)), 0)) s

/-- QENC; `rn` selects the same rule (R245). -/
def execQenc (c : Ctl) (el : BitVec 3) (_rn : Bool) (d : Reg) (a g : Src) (s : State) : Out :=
  fpWord c d [fA a, fB g] (fun x l =>
    let (q, fl) := encodeQ16 (x.fp (fA a) l) (x.fp (fB g) l)
    (BitVec.ofNat 32 q <<< (4 * el.toNat), fl)) s

/-- level(code) × G: code 0 gives +0 for every finite G, and the NaN with NV for every other (R246). -/
def q16Val (code : Nat) (g : FVal) : Raised :=
  match g with
  | .fin x => if code = 0 then (.fin ⟨false, 0, 0⟩, 0) else (.fin ((q16Level code).mul x), 0)
  | g => if code = 0 then (.nan, flNV) else mulVal (.fin (q16Level code)) g

/-- QDEC. -/
def execQdec (c : Ctl) (el : BitVec 3) (d : Reg) (a g : Src) (s : State) : Out :=
  let oa := opA a .z false
  let og := opB g .z false
  fpWord c d [oa, og] (fun x l =>
    finish (x.mode32 .dyn) .fp32 (q16Val (elemAt 4 el.toNat (x.val false oa l)) (x.fp og l))) s

end Sys2Proof.Machine
end

