-- ==== Sys2Proof/Machine/Random.lean ====
section
/-! DEFINITION. Random numbers and mixing, 0x0C5 to 0x0C7 (R254 to R257), and checksums, 0x0C8 and 0x0C9 (R258,
R259). -/

namespace Sys2Proof.Machine

/-! ### Random numbers (R254 to R256) -/

/-- The mixer's counter for a lane. -/
def randCounter (lin wi lane : Nat) (draw : BitVec 22) : Word64 :=
  (BitVec.ofNat 64 (lin % 2 ^ 32) <<< 32) ||| (BitVec.ofNat 64 wi <<< 27) ||| (BitVec.ofNat 64 lane <<< 22) |||
    draw.setWidth 64

/-- The launch seed of a block's task. -/
def taskSeed (s : State) (id : Nat) : Word64 := match getTask s id with
  | some t => t.f.seed
  | none => 0

/-- RAND's mixer output in a lane. -/
def Iss.mixed (x : Iss) (l : Nat) : Word64 :=
  mix64 (taskSeed x.s x.b.task ^^^ x.special 5) (randCounter x.b.lin x.wi l (laneOf x.w l).draw)

/-- What RAND makes of the mixer's output. -/
def randValue (m : Mode) (mode : RandMode) (h : Word64) : Word32 × Flags :=
  match mode with
  | .raw => ((h >>> 32).setWidth 32, 0)
  | .uni => (uniformVal h, 0)
  | .gauss => finish m .fp32 (gaussVal h (.fin ⟨false, 1, 0⟩), 0)

/-- RAND: every lane still in the trace advances its counter (R51). -/
def execRand (c : Ctl) (mode : RandMode) (d : Reg) (s : State) : Out :=
  waveWord c (.mk2 1 0) (fun x =>
    let v (l : Nat) : Word32 × Flags := randValue (x.mode32 .dyn) mode (x.mixed l)
    let y := (lanesOf x.ex).foldl (fun y l => y.addFlags l (v l).2) x
    let y := y.putAll (x.results d fun l => (v l).1.setWidth 64)
    .done { y with w := y.w.modLanes x.t.live fun _ z => { z with draw := z.draw + 1 } }) s

/-- RKEY: SK := a, whole from a scalar register, else from the lowest executing lane. -/
def execRkey (c : Ctl) (a : Src) (s : State) : Out :=
  waveWord c (.mk2 1 0) (fun x => x.reading (x.readSrc true 7 a 1) <|
    match lowest x.ex with
    | none => .done x
    | some l => .done (x.putSpecial 5 (x.val (srcScalar a) (opA a .z false) l))) s

/-! ### HMIX (R257) -/

/-- HMIX: 64 bits into a scalar, the high half of the output into a vector. -/
def execHmix (c : Ctl) (d : Reg) (a k : Src) (s : State) : Out :=
  alu2 c d (opA a .z false) (opB k .z false) (fun w x k => if w then mix64 k x else mix64 k x >>> 32) s

/-! ### Checksums (R50, R258, R259) -/

/-- A contribution at 128 bits. -/
def csTerm (u neg wide : Bool) (v : Word64) : BitVec 128 :=
  let e : BitVec 128 := if wide then (if u then v.setWidth 128 else v.signExtend 128)
    else if u then (v.setWidth 32).setWidth 128 else (v.setWidth 32).signExtend 128
  if neg then -e else e

/-- A contribution held with a lane. -/
def Iss.contribute (x : Iss) (k : BitVec 2) (lane : Nat) (v : BitVec 128) : Iss :=
  { x with t := { x.t with kc := fmod 0 x.t.kc (k.toNat * 32 + lane) (· + v) } }

/-- CSACC: a scalar contributes once. -/
def execCsacc (c : Ctl) (u neg : Bool) (k : BitVec 2) (a : Src) (s : State) : Out :=
  let once := srcScalar a
  let oa := opA a .s false
  waveWord c (.mk2 1 0) (fun x => x.reading (x.readSrc once 7 a 1) <|
    .done ((x.readers once).foldl (fun y l => y.contribute k l (csTerm u neg once (x.val once oa l))) x)) s

/-- An accumulator as the trace reads it (R50). -/
def Iss.checksum (x : Iss) (k : BitVec 2) : BitVec 128 :=
  (lanesOf x.t.live).foldl (fun v l => v + fget 0 x.t.kc (k.toNat * 32 + l)) (fget 0 x.w.kreg k.toNat)

/-- CSCHK. Its form in the sequencer stream has MOD[4] = 1. -/
def execCschk (c : Ctl) (k : BitVec 2) (s : State) : Out :=
  match s.actor with
  | .seq bid => .next (seqStop s bid (.exc .badfld 1 0 none) false true)
  | _ => waveWord c .zero (fun x =>
    if x.ex = 0 ∨ x.checksum k = 0 then .done x else x.stop ((lanesOf x.ex).map fun l => (l, .plain .ckfail))) s

/-- CSCHK.Z: CKFAIL unless the pair is zero. In a trace MOD[4] = 1 is a bad field. -/
def execCschkZ (n : BitVec 4) (s : State) : Out :=
  match s.actor with
  | .seq bid => .next (runSeq s bid fun x =>
      let lo := x.z n.toNat
      let hi := x.z (n.toNat + 1)
      if lo.fill ≠ .full ∨ hi.fill ≠ .full then .wait x.s
      else if lo.val = 0 ∧ hi.val = 0 then .next x.s else .stop x.s (.plain .ckfail))
  | _ => waveWord Ctl.plain .zero (fun x => .stop x.s x.addr true (allStop x.t (.exc .badfld 1 0 none))) s

end Sys2Proof.Machine
end

