-- ==== Sys2Proof/Machine/LoadStore.lean ====
section
/-! DEFINITION. Loads, stores, described accesses, tags, the granary, prefetch and watched loads, 0x0E0 to 0x0E8 (R202 to
R204, R261 to R271), and QPOST (R303, R304). -/

namespace Sys2Proof.Machine

/-! ### 64-bit operands and addresses (R200, R203) -/

/-- The registers of an address or of another 64-bit operand. -/
def wideSpan : Reg → Nat
  | .v _ => 2
  | _ => 1

/-- The read of such an operand. -/
def Iss.readWide (x : Iss) (once : Bool) (field : Nat) (o : RegOp) : Read := x.readReg once field o (wideSpan o.reg)

/-- Its value: a scalar, or an even pair from one source lane. -/
def Iss.wide (x : Iss) (o : RegOp) (lane : Nat) : Word64 :=
  let k := permLane o.perm lane
  match o.reg with
  | .v n => (x.vcell n k).val.setWidth 64 ||| ((x.vcell (n + 1) k).val.setWidth 64 <<< 32)
  | r => x.regVal r true false k

/-- The operand reads of an address. -/
def Iss.readAddr (x : Iss) (once : Bool) (a : Addr) : List Read :=
  x.readWide once 7 a.base :: match a.mode with
    | .idx _ i => x.readSrc once 8 i 1
    | _ => []

/-- Idx(B), sign-extended (R203). -/
def Iss.index (x : Iss) (i : Src) (lane : Nat) : Word64 := x.val true (opB i .s true) lane

/-- A modulo register's buffer: its first address and its length (R204). -/
def Iss.modBuffer (x : Iss) (m : BitVec 3) : Nat × Nat :=
  let v := x.special (8 + m.toNat)
  (0xF000000000000000 + (low32 v).toNat, (v >>> 32).toNat)

/-- A base lies in its modulo buffer. -/
def Iss.inBuffer (x : Iss) (m : BitVec 3) (a : Word64) : Bool :=
  let (bb, len) := x.modBuffer m
  decide (bb ≤ a.toNat) && decide (a.toNat < bb + len)

/-- The address that a lane forms. -/
def Iss.address (x : Iss) (a : Addr) (lane : Nat) : Except Stop Word64 :=
  let base := x.wide a.base lane
  match a.mode with
  | .off o => .ok (base + o.signExtend 64)
  | .idx sc i => .ok (base + (x.index i lane <<< sc.toNat))
  | .post _ => .ok base
  | .postMod m _ => if x.inBuffer m base then .ok base else .error (addrExc .apert base)

/-- The base after the access; one outside its buffer is left as it is (R270). -/
def Iss.newBase (x : Iss) (a : Addr) (lane : Nat) : Word64 :=
  let base := x.wide a.base lane
  match a.mode with
  | .off _ | .idx _ _ => base
  | .post o => base + o.signExtend 64
  | .postMod m o =>
    let (bb, len) := x.modBuffer m
    if x.inBuffer m base then
      BitVec.ofNat 64 (bb + (((base.toNat : Int) - bb + o.toInt) % (len : Int)).toNat)
    else base

/-- A 64-bit value written to a scalar register or to a pair in one lane. -/
def Iss.putWide (x : Iss) (r : Reg) (lane : Nat) (v : Word64) : Iss :=
  match r with
  | .v n => x.putAll [(.v (x.w.wo + n) lane, low32 v), (.v (x.w.wo + n + 1) lane, v >>> 32)]
  | .s n => x.putAll [(.s n, v)]
  | _ => x

/-- The base written back in the lanes that act: a scalar once, from the lowest of them. -/
def Iss.writeBase (x : Iss) (a : Addr) (ls : List Nat) : Iss :=
  if !a.mode.writes then x
  else
    let ls := if isScalar a.base.reg then ls.take 1 else ls
    ls.foldl (fun y l => y.putWide a.base.reg l (x.newBase a l)) x

/-- The TWB entries of a write-back. -/
def baseNeed (a : Addr) : Nat := if a.mode.writes then wideSpan a.base.reg else 0

/-! ### Accesses of a word's lanes -/

/-- A lane's address, and where it lies. -/
structure Hit where
  lane : Nat
  va : Word64
  place : Place
  deriving DecidableEq, Repr, Inhabited

/-- The address checks of lanes (R95 steps 1 to 3): the lanes that stop, and the places of the others. -/
def Iss.hits (x : Iss) (s : State) (ls : List Nat) (addr : Nat → Except Stop Word64) (n : Nat) (al : Word64 → Nat)
    (k : Acc) : State × List Raise × List Hit :=
  ls.foldl (fun r l => match addr l with
    | .error st => (r.1, r.2.1 ++ [(l, st)], r.2.2)
    | .ok a => match checkAddr r.1 (whoOf x.s x.b 0) x.b x.w x.wi l a n (al a) k with
      | (s, .error st) => (s, r.2.1 ++ [(l, st)], r.2.2)
      | (s, .ok p) => (s, r.2.1, r.2.2 ++ [⟨l, a, p⟩])) (s, [], [])

/-- What the lanes read: stops, whether one must wait, the results. -/
def Iss.readHits (x : Iss) (s : State) (n : Nat) (hint : BitVec 3) (hs : List Hit) :
    State × List Raise × Bool × List (Hit × ReadRes) :=
  hs.foldl (fun r h => match readPlace r.1 (whoOf x.s x.b 0) x.b x.w x.wi h.lane h.va h.place n hint with
    | (s, .wait) => (s, r.2.1, true, r.2.2.2)
    | (s, .stop st) => (s, r.2.1 ++ [(h.lane, st)], r.2.2.1, r.2.2.2)
    | (s, v) => (s, r.2.1, r.2.2.1, r.2.2.2 ++ [(h, v)])) (s, [], false, [])

/-- A word goes on where no lane stops and none must wait. -/
def Iss.settled (x : Iss) (s : State) (rs : List Raise) (wait : Bool) (k : Iss → Ans) : Ans :=
  if rs ≠ [] then ({ x with s := s }).stop rs
  else if wait then .wait s
  else k { x with s := s }

/-! ### Forwarding (R47, R266) -/

/-- The lane's own stores of the trace, oldest first. -/
def Iss.ownStores (x : Iss) (lane : Nat) : List Store :=
  (x.t.buf.flatMap fun
    | .store _ xs => xs
    | _ => []).filter fun y => y.lane = lane

/-- The bytes that the lane's own stores give, by their place in the access. -/
def Iss.own (x : Iss) (lane : Nat) (va : Word64) (n : Nat) : FMap Byte :=
  let ss := x.ownStores lane
  (List.range n).filterMap fun i =>
    (ss.foldl (fun r y =>
      let a := va.toNat + i
      if y.va.toNat ≤ a ∧ a < y.va.toNat + y.bytes.length then nth y.bytes (a - y.va.toNat) else r) none).map
        fun b => (i, b)

/-- Bytes with the lane's own in their places. -/
def overlayOwn (own : FMap Byte) (bs : List Byte) : List Byte :=
  ((List.range bs.length).zip bs).map fun p => fget p.2 own p.1

/-- A tag that the lane's own TAGST gives. -/
def Iss.ownTag (x : Iss) (lane : Nat) (va : Word64) : Option (BitVec 16) :=
  (x.t.buf.flatMap fun
    | .tag xs => xs
    | _ => []).foldl (fun r (y : TagWrite) => if y.lane = lane ∧ y.va.toNat / 64 = va.toNat / 64 then some y.tag else r) none

/-! ### LD and LDWT (R261 to R264, R271) -/

/-- Registers of a run of `n` bytes (R261). -/
def runRegs (n : Nat) : Reg → Nat
  | .s _ => (n + 7) / 8
  | _ => (n + 3) / 4

/-- The registers of a run in a lane. -/
def Iss.run (x : Iss) (d : Reg) (count lane : Nat) : List Dest := (List.range count).filterMap fun i => x.dest d i lane

/-- The line of a global access; none elsewhere. -/
def Hit.line (h : Hit) : Option Nat := match h.place with
  | .phys pa _ _ _ => some (pa / 64)
  | _ => none

/-- The word has fetched the line from its home, where the stamp of the copy that the lane took still stands: the fetch
confirms it (R145, R392). -/
def fetchedHere (s : State) (gs : List (Hit × ReadRes)) (h : Hit) : ReadRes → Bool
  | .got _ _ _ _ (some (i, n)) => (h.line.bind (ffind s.stamps)).any (fun e => decide (e = ⟨i, n⟩)) &&
    gs.any fun g => g.1.line = h.line && match g.2 with
      | .got _ _ _ _ none => true
      | _ => false
  | _ => false

/-- A read of memory that its word may still make later: of a scratchpad, or of a line that the word has from its home
(R122, R134, log 95). -/
def readsLate (s : State) (gs : List (Hit × ReadRes)) (h : Hit) : Bool := match h.place with
  | .spad _ => true
  | .phys pa _ _ _ => decide (pa < dramEnd) && gs.any fun g => g.1 = h && match g.2 with
    | .got _ _ _ _ none => true
    | r => fetchedHere s gs h r
  | _ => false

/-- What of a run's read stays open: nothing where the lane's own stores give all of it. -/
def Iss.lateRun (x : Iss) (word n : Nat) (sx : Bool) (h : Hit) : Option Late :=
  let own := x.own h.lane h.va n
  if own.length < n then some ⟨word, h.place, .run n sx, own⟩ else none

/-- The run waits for what the lane read, or for the peer's answer (R48, R360); `late` is of a read that is still open. -/
def Iss.deliver (x : Iss) (ds : List Dest) (n : Nat) (sx : Bool) (late : Option Late) (h : Hit) (r : ReadRes) : Iss :=
  let own := x.own h.lane h.va n
  match r with
  | .got bs _ poison pa copy =>
    x.putLoad (loadValues ds (overlayOwn own bs) sx) (poison && decide (own.length < n)) h.lane h.va pa
      (sourceOfRead (x.b.core.getD 0) pa copy) late
  | .remote peer off =>
    let (id, s) := fresh x.s
    let s := sendRemote s (x.b.core.getD 0) x.bid x.wi h.lane 0 x.addr h.va peer off (.read n) (some ⟨id, ds, sx, own⟩)
    { x with s := s }.putEmpty ds id
  | _ => x

/-- A store that the core would see on its way to the line has not reached the home: a watched read waits for it, since
what it confirms is last at the home (R127, R146). -/
def Iss.unsettledLine (x : Iss) (s : State) (h : Hit) : Bool := match h.place with
  | .phys pa _ _ _ => s.flights.any fun f => seenBy (x.b.core.getD 0) f && decide (flightPa f / 64 = pa / 64)
  | _ => false

/-- A LOAD into D's run: `k` is what else a lane's read leaves, with what all lanes have read. -/
def Iss.loadRun (x : Iss) (d : Reg) (a : Addr) (n : Nat) (sx watched : Bool) (hint : BitVec 3)
    (k : List (Hit × ReadRes) → Iss → Hit → ReadRes → Iss) : Ans :=
  let once := isScalar d
  x.readingThen (x.readAddr once a) fun rs =>
    let (s, rs1, hs) := x.hits x.s (goOn rs (x.readers once)) (x.address a) n (fun _ => n) .read
    if watched && rs = [] && rs1 = [] && hs.any (x.unsettledLine s) then .wait s
    else
    let (s, rs2, wait, gs) := x.readHits s n hint hs
    x.settled s (rs ++ rs1 ++ rs2) wait fun y =>
      let late (h : Hit) : Option Late := if !watched && readsLate s gs h then x.lateRun s.nextId n sx h else none
      .done (gs.foldl (fun y g => k gs (y.deliver (y.run d (runRegs n d) g.1.lane) n sx (late g.1) g.1 g.2) g.1 g.2)
        (y.writeBase a (x.readers once)))

/-- LD. -/
def execLd (c : Ctl) (wid : BitVec 3) (sx : Bool) (d : Reg) (a : Addr) (s : State) : Out :=
  let n := 2 ^ wid.toNat
  waveWord c (.mk2 (runRegs n d + baseNeed a) 0) (fun x => x.loadRun d a n sx false c.hint fun _ y _ _ => y) s

/-- How a watched read resolves (R145, R271): a copy of a line of the global window is resolved at the home. -/
def watchState (det : Bool) (h : Hit) (settled : Bool) : ReadRes → WatchState
  | .got _ _ _ _ (some (i, n)) => if det ∨ settled ∨ h.va.toNat / 2 ^ 56 ≠ 0 then .confirmed else .pending i n
  | _ => .confirmed

/-- The record of a watched read. -/
def Iss.record (x : Iss) (slot : BitVec 4) (st : WatchState) (h : Hit) : Iss :=
  let (id, s) := fresh x.s
  let line := match h.place with
    | .phys pa _ _ _ => pa / 64
    | _ => 0
  { x with s := s, t := { x.t with watch := x.t.watch ++ [⟨id, slot, h.lane, line, st, false⟩] } }

/-- LDWT: TRSHAPE for a slot that the mask lacks or that the trace has named before; in a DET task it reads from the home. -/
def execLdwt (c : Ctl) (wid : BitVec 3) (slot : BitVec 4) (d : Reg) (a : Addr) (s : State) : Out :=
  let n := 2 ^ wid.toNat
  waveWord c (.mk2 (runRegs n d + baseNeed a) 0) (fun x =>
    let det := taskDet x.s x.b.task
    if !x.t.wmask.getLsbD slot.toNat || x.t.slots.getLsbD slot.toNat then
      .stop x.s x.addr true (allStop x.t (.plain .trshape))
    else
      let y := { x with t := { x.t with slots := x.t.slots ||| (1#16 <<< slot.toNat) } }
      y.loadRun d a n false true (if det then 3 else c.hint) fun gs z h r =>
        z.record slot (watchState det h (decide ((x.own h.lane h.va n).length = n) || fetchedHere z.s gs h r) r) h) s

/-! ### ST (R261, R264) -/

/-- The bytes of store data in a lane: a run from its first register, an immediate sign-extended to the width, or one of
the constants 240 to 243, which a width above 32 bits repeats in every word (DESIGN CHOICE, log 101). -/
def Iss.storeBytes (x : Iss) (d : Src) (n lane : Nat) : List Byte :=
  match d with
  | .imm v => bytesOfNat n (BitVec.ofInt (8 * n) v.toInt).toNat
  | .reg o =>
    let k := permLane o.perm lane
    let all := (List.range (runRegs n o.reg)).flatMap fun i => match o.reg with
      | .v m => bytesOfNat 4 (x.vcell (m + i) k).val.toNat
      | .s m => bytesOfNat 8 (x.scell (m + i)).val.toNat
      | r => bytesOfNat 4 (x.regVal r false false k).toNat
    all.take n

/-- The read of store data. -/
def Iss.readData (x : Iss) (d : Src) (n : Nat) : List Read :=
  match d with
  | .reg o => [x.readReg false 6 o (runRegs n o.reg)]
  | .imm _ => []

/-- An access through the register aperture that reaches a deferred register of the wave raises DEFRD (R439). -/
def deferStop (w : Wave) (n : Nat) (h : Hit) : Option Raise :=
  match h.place with
  | .regs off => match readRegs w h.va off n with
    | .stop st => some (h.lane, st)
    | _ => none
  | _ => none

/-- The stores of a word's lanes become one TSB entry. -/
def Iss.putStores (x : Iss) (hint : BitVec 3) (xs : List Store) : Iss := if xs = [] then x else x.putTsb (.store hint xs)

/-- ST. -/
def execSt (c : Ctl) (wid : BitVec 3) (d : Src) (a : Addr) (s : State) : Out :=
  let n := 2 ^ wid.toNat
  waveWord c (.mk2 (baseNeed a) 1) (fun x => x.readingThen (x.readData d n ++ x.readAddr false a) fun rs =>
    let (s, rs1, hs) := x.hits x.s (goOn rs (lanesOf x.ex)) (x.address a) n (fun _ => n) .write
    x.settled s (rs ++ rs1 ++ hs.filterMap (deferStop x.w n)) false fun y =>
      .done ((y.writeBase a (lanesOf x.ex)).putStores c.hint
        (hs.map fun h => ⟨h.lane, x.addr, h.va, h.place, x.storeBytes d n h.lane⟩))) s

/-! ### Tags (R268) -/

/-- The place of the block that holds an address. -/
def blockPlace : Place → Place
  | .phys pa cp d m => .phys (pa / 64 * 64) cp d m
  | .spad off => .spad (off / 64 * 64)
  | p => p

/-- Accesses to a tag: the register aperture has none. -/
abbrev Acc.tagRead : Acc := ⟨false, false, false⟩
abbrev Acc.tagWrite : Acc := ⟨true, true, false⟩

/-- The answers of peers to reads made at once: the stops, whether one must wait, the results. -/
def settlePeers (s : State) (core n : Nat) (gs : List (Hit × ReadRes)) : State × List Raise × Bool × List (Hit × ReadRes) :=
  gs.foldl (fun r g => match g.2 with
    | .remote peer _ => match peerRead r.1 core peer n with
      | (s, none) => (s, r.2.1, true, r.2.2.2)
      | (s, some (.ok bs)) => (s, r.2.1, r.2.2.1, r.2.2.2 ++ [(g.1, .got bs 0 false noPa none)])
      | (s, some (.error e)) => (s, r.2.1 ++ [(g.1.lane, peerStop e g.1.va)], r.2.2.1, r.2.2.2)
    | _ => (r.1, r.2.1, r.2.2.1, r.2.2.2 ++ [g])) (s, [], false, [])

/-- A read of a tag that stays open. -/
def lateTag (word : Nat) (h : Hit) : Late := ⟨word, blockPlace h.place, .tag, []⟩

/-- TAGLD; a peer is asked, and a remote window has no tags (R467, log 71). -/
def execTagld (c : Ctl) (d : Reg) (a : Addr) (s : State) : Out :=
  let once := isScalar d
  waveWord c (.mk2 (1 + baseNeed a) 0) (fun x => x.readingThen (x.readAddr once a) fun rs =>
    let (s, rs1, hs) := x.hits x.s (goOn rs (x.readers once)) (x.address a) 64 (fun _ => 64) .tagRead
    let (s, rs2, wait, gs) := x.readHits s 64 c.hint hs
    let (s, rs3, later, gs) := settlePeers s (x.b.core.getD 0) 64 gs
    x.settled s (rs ++ rs1 ++ rs2 ++ rs3) (wait || later) fun y =>
      .done (gs.foldl (fun y g =>
        let own := x.ownTag g.1.lane g.1.va
        let (tag, poison, pa, copy) := match g.2 with
          | .got _ t p pa c => (t, p, pa, c)
          | _ => (0, false, 0, none)
        y.putLoad ((y.run d 1 g.1.lane).map fun e => (e, (own.getD tag).setWidth 64)) (poison && own.isNone) g.1.lane g.1.va pa
          (sourceOfRead (x.b.core.getD 0) pa copy)
          (if own.isNone && readsLate s gs g.1 then some (lateTag s.nextId g.1) else none))
        (y.writeBase a (x.readers once)))) s

/-- A tag that TAGST refuses. -/
def badTag (t : BitVec 16) : Bool :=
  let f := t.toNat % 256
  let k := t.toNat / 256
  decide (10 < f) || (decide (k = 255) && decide (f ≠ 0) && decide (f ≠ 8) && decide (f ≠ 10)) ||
  (decide (k ≠ 0) && (decide (f = 0) || decide (f = 10)))

/-- TAGST. -/
def execTagst (c : Ctl) (d : Src) (a : Addr) (s : State) : Out :=
  waveWord c (.mk2 (baseNeed a) 1) (fun x => x.readingThen (x.readData d 4 ++ x.readAddr false a) fun rs =>
    let (s, rs1, hs) := x.hits x.s (goOn rs (lanesOf x.ex)) (x.address a) 64 (fun _ => 64) .tagWrite
    let tag (l : Nat) : BitVec 16 := wordOf 16 (x.storeBytes d 2 l)
    let bad := hs.filterMap fun h => if badTag (tag h.lane) then some (h.lane, addrExc .tagfmt h.va) else none
    x.settled s (rs ++ rs1 ++ bad) false fun y =>
      let y := y.writeBase a (lanesOf x.ex)
      .done (if hs = [] then y else y.putTsb (.tag (hs.map fun h => ⟨h.lane, x.addr, h.va, h.place, tag h.lane⟩)))) s

/-! ### LDD and STD (R265 to R267) -/

/-- What the tag of a lane's block says about its elements: format, scale byte, super-scale, bytes of the span. -/
inductive DescRes where
  | wait
  | stop (st : Stop)
  | got (f : Fmt) (sc : Nat) (super : Word32) (bytes : List Byte) (pa : Nat) (copy : Option (Nat × Nat))
  deriving DecidableEq, Repr, Inhabited

/-- The address of the group's super-scale (R266). -/
def superAddr (qsd qst va : Word64) : Word64 := qst + 4 * (((va &&& ~~~255) - qsd) >>> 8)

/-- The code of a Q16 group's super-scale, read at once. -/
def Iss.superScale (x : Iss) (s : State) (lane : Nat) (va : Word64) : State × Except (Option Stop) Word32 :=
  let a := superAddr (x.special 3) (x.special 4) va
  if a.toNat / 2 ^ 56 ≠ 0 then (s, .error (some (addrExc .apert a)))
  else match checkAddr s (whoOf x.s x.b 0) x.b x.w x.wi lane a 4 4 .read with
    | (s, .error st) => (s, .error (some st))
    | (s, .ok p) => match readPlace s (whoOf x.s x.b 0) x.b x.w x.wi lane a p 4 0 with
      | (s, .wait) => (s, .error none)
      | (s, .stop st) => (s, .error (some st))
      | (s, .got bs _ poison pa _) =>
        let own := x.own lane a 4
        if poison && decide (own.length < 4) then (s, .error (some (.poison a pa 0)))
        else (s, .ok (wordOf 32 (overlayOwn own bs)))
      | (s, .remote peer _) => match peerRead s (x.b.core.getD 0) peer 4 with
        | (s, none) => (s, .error none)
        | (s, some (.ok bs)) => (s, .ok (wordOf 32 (overlayOwn (x.own lane a 4) bs)))
        | (s, some (.error e)) => (s, .error (some (peerStop e a)))

/-- The format that a tag names. -/
def tagFmt (t : BitVec 16) : Option Fmt := if t.toNat / 16 % 16 = 0 then fmtOf (t.setWidth 4) else none

/-- The described elements at a lane's address; a peer is asked, and a remote window has no tag to describe them (R467,
log 71). -/
def Iss.describe (x : Iss) (s : State) (cnt : Nat) (hint : BitVec 3) (h : Hit) : State × DescRes :=
  let bva := h.va &&& ~~~63
  let bad := Stop.exc .tagfmt 0xFF 0 (some h.va)
  match readPlace s (whoOf x.s x.b 0) x.b x.w x.wi h.lane h.va (blockPlace h.place) 64 hint with
  | (s, .wait) => (s, .wait)
  | (s, .stop st) => (s, .stop st)
  | (s, .remote peer _) => match peerRead s (x.b.core.getD 0) peer 64 with
    | (s, none) => (s, .wait)
    | (s, some (.ok _)) => (s, .stop bad)
    | (s, some (.error e)) => (s, .stop (peerStop e h.va))
  | (s, .got bs tag poison pa copy) =>
    let tag := (x.ownTag h.lane h.va).getD tag
    if poison then (s, .stop (.poison h.va pa 0))
    else match tagFmt tag with
      | none => (s, .stop bad)
      | some f =>
        let bits := 2 ^ cnt * f.width
        let sc := tag.toNat / 256
        if bits % 8 ≠ 0 then (s, .stop bad)
        else if h.va.toNat % (bits / 8) ≠ 0 then (s, .stop (addrExc .align h.va))
        else if f ≠ .q16 ∧ sc = 255 then (s, .stop bad)
        else
          let span := ((overlayOwn (x.own h.lane bva 64) bs).drop (h.va.toNat % 64)).take (bits / 8)
          if f = .q16 then
            match x.superScale s h.lane h.va with
            | (s, .error none) => (s, .wait)
            | (s, .error (some st)) => (s, .stop st)
            | (s, .ok g) => (s, .got f sc g span pa copy)
          else (s, .got f sc 0 span pa copy)

/-- The described elements of the lanes. -/
def Iss.describeAll (x : Iss) (s : State) (cnt : Nat) (hint : BitVec 3) (hs : List Hit) :
    State × List Raise × Bool × List (Hit × DescRes) :=
  hs.foldl (fun r h => match x.describe r.1 cnt hint h with
    | (s, .wait) => (s, r.2.1, true, r.2.2.2)
    | (s, .stop st) => (s, r.2.1 ++ [(h.lane, st)], r.2.2.1, r.2.2.2)
    | (s, v) => (s, r.2.1, r.2.2.1, r.2.2.2 ++ [(h, v)])) (s, [], false, [])

/-- G = S × q × 2^−8 (R78). -/
def groupScale (super : FVal) (q : Nat) : FVal :=
  match super with
  | .fin x => .fin ⟨x.neg, x.m * q, x.e - 8⟩
  | v => v

/-- The value of a code under its block's tag (R267). -/
def taggedVal (f : Fmt) (sc : Nat) (super : FVal) (c : Nat) : Raised :=
  if f = .q16 then (if sc = 0 then (.fin ⟨false, 0, 0⟩, 0) else q16Val c (groupScale super sc))
  else (scaleVal ((sc : Int) - 127) (decodeElem f c), 0)

/-- Element `i` of width `w` in a number. -/
def natElem (w i v : Nat) : Nat := v / 2 ^ (w * i) % 2 ^ w

/-- Codes packed from element 0 up, and their flags together. -/
def packCodes (w : Nat) (xs : List (Nat × Flags)) : Nat × Flags :=
  ((xs.foldr (fun x r => x.1 + 2 ^ w * r) 0), xs.foldl (fun f x => f ||| x.2) 0)

/-- LDD's conversion of a span. -/
def lddRun (md : Mode) (rf f : Fmt) (sc : Nat) (super : Word32) (cnt : Nat) (bs : List Byte) : Nat × Flags :=
  packCodes rf.width ((List.range (2 ^ cnt)).map fun i =>
    let r := finish md rf (taggedVal f sc (Machine.fp super) (natElem f.width i (natOf bs)))
    (r.1.toNat, r.2))

/-- The read that gave the elements. -/
def DescRes.read : DescRes → ReadRes
  | .got _ _ _ bs pa cp => .got bs 0 false pa cp
  | .stop st => .stop st
  | .wait => .wait

/-- What of a described read stays open. -/
def Iss.lateDescribed (x : Iss) (word cnt : Nat) (rf : Fmt) (h : Hit) (f : Fmt) (sc : Nat) (super : Word32) (fl : Flags) : Late :=
  ⟨word, blockPlace h.place, .described x.fmode rf f sc super cnt fl (x.ownTag h.lane h.va).isSome,
    x.own h.lane (h.va &&& ~~~63) 64⟩

/-- LDD. -/
def execLdd (c : Ctl) (cnt : BitVec 3) (rf : Fmt) (d : Reg) (a : Addr) (s : State) : Out :=
  let regs := runD cnt.toNat rf
  waveWord c (.mk2 (regs + baseNeed a) 0) (fun x => x.readingThen (x.readAddr false a) fun rs =>
    let (s, rs1, hs) := x.hits x.s (goOn rs (lanesOf x.ex)) (x.address a) 1 (fun _ => 1) .tagRead
    let (s, rs2, wait, gs) := x.describeAll s cnt.toNat c.hint hs
    x.settled s (rs ++ rs1 ++ rs2) wait fun y =>
      .done (gs.foldl (fun y g => match g.2 with
        | .got f sc super bs pa cp =>
          let (v, fl) := lddRun (modeFor x.fmode .dyn rf) rf f sc super cnt.toNat bs
          (y.putLoad (loadValues (y.run d regs g.1.lane) (bytesOfNat (4 * regs) v) false) false g.1.lane g.1.va pa
            (sourceOfRead (x.b.core.getD 0) pa cp)
            (if readsLate s (gs.map fun g => (g.1, g.2.read)) g.1 then
              some (x.lateDescribed s.nextId cnt.toNat rf g.1 f sc super fl) else none)).addFlags
            g.1.lane fl
        | _ => y) (y.writeBase a (lanesOf x.ex)))) s

/-- STD's conversion of a run. -/
def stdRun (md : Mode) (rf f : Fmt) (sc : Nat) (super : Word32) (cnt run : Nat) : Nat × Flags :=
  packCodes f.width ((List.range (2 ^ cnt)).map fun i =>
    let v := decodeElem rf (natElem rf.width i run)
    if f = .q16 then encodeQ16 v (groupScale (Machine.fp super) sc)
    else
      let r := finish md f (scaleVal (127 - (sc : Int)) v, 0)
      (r.1.toNat, r.2))

/-- STD: it reads the tag, so the page must allow reads too. -/
def execStd (c : Ctl) (cnt : BitVec 3) (rf : Fmt) (d : Src) (a : Addr) (s : State) : Out :=
  let n := (2 ^ cnt.toNat * rf.width + 7) / 8
  waveWord c (.mk2 (baseNeed a) 1) (fun x => x.readingThen (x.readData d n ++ x.readAddr false a) fun rs =>
    let (s, rs1, _) := x.hits x.s (goOn rs (lanesOf x.ex)) (x.address a) 1 (fun _ => 1) .tagWrite
    let (s, rs2, hs) := x.hits s (goOn (rs ++ rs1) (lanesOf x.ex)) (x.address a) 1 (fun _ => 1) .tagRead
    let (s, rs3, wait, gs) := x.describeAll s cnt.toNat c.hint hs
    x.settled s (rs ++ rs1 ++ rs2 ++ rs3) wait fun y =>
      let conv (g : Hit × DescRes) : Option (Store × Flags) := match g.2 with
        | .got f sc super bs _ _ =>
          let (v, fl) := stdRun (modeFor x.fmode .dyn f) rf f sc super cnt.toNat (natOf (x.storeBytes d n g.1.lane))
          some (⟨g.1.lane, x.addr, g.1.va, g.1.place, bytesOfNat bs.length v⟩, fl)
        | _ => none
      let xs := gs.filterMap conv
      .done (xs.foldl (fun y z => y.addFlags z.1.lane z.2)
        ((y.writeBase a (lanesOf x.ex)).putStores c.hint (xs.map (·.1))))) s

/-! ### LDG and PREF (R269, R270, R104, R105) -/

/-- The granary offset of a lane. -/
def Iss.granOffset (x : Iss) (a : Src) (mode : AddrMode) (lane : Nat) : Word64 :=
  x.val true (opA a .s false) lane + match mode with
    | .off o => o.signExtend 64
    | .idx sc i => x.index i lane <<< sc.toNat
    | _ => 0

/-- A context's granary map names a region of the die that the range meets (R104). -/
def mapsRegion (s : State) (d : CtxDesc) (die off bytes : Nat) : Bool :=
  (List.range 512).any fun i =>
    let e := natOf (s.dram.readN (d.gmap + 4 * i) 4)
    decide (2 ^ 31 ≤ e) && decide (e / 2 ^ 7 % 4 = die) &&
      rangesMeet (e % 128 * 2 ^ 21) (2 ^ 21) off bytes

/-- The context's granary map translates an offset (R104); the map is read under the context's owner, after the core's
earlier requests to its home (R358): none where it must wait. -/
def granMap (s : State) (w : Who) (g : Word64) : State × Except (Option Stop) (Nat × Nat) :=
  let prot : Option Stop := some (addrExc .prot g)
  match (getCtx s w.ctx).desc with
  | none => (s, .error prot)
  | some d =>
    let pa := d.gmap + 4 * (g.toNat / 2 ^ 21)
    if dramEnd ≤ pa then (s, .error prot)
    else if requestsAhead s w.core pa then (s, .error none)
    else match homeAns s w.master w.owner pa false with
      | .table => (s, .error prot)
      | .owner o => (logOwner s w pa o, .error (some (.park g)))
      | .ok =>
        let s := eccCheck (roundTrip (pinHome s w.core pa) (dieOf w.core) (paDie pa)) (pa / 64)
        if fget false s.dpoison (pa / 64) then (s, .error (some (.poison g pa w.agent)))
        else
          let e := natOf (s.dram.readN pa 4)
          let die := e / 128 % 4
          if e / 2 ^ 31 = 0 ∨ e / 512 % 2 ^ 22 ≠ 0 ∨ !tableOk s (64 + die) w.master false then (s, .error prot)
          else (claimRegion s die (e % 128) w.owner, .ok (die, e % 128 * 2 ^ 21 + g.toNat % 2 ^ 21))

/-- The checks of a granary offset. -/
def granCheckAt (s : State) (w : Who) (g : Word64) (al : Nat) : State × Except (Option Stop) (Nat × Nat) :=
  if 2 ^ 30 ≤ g.toNat then (s, .error (some (addrExc .apert g)))
  else if g.toNat % al ≠ 0 then (s, .error (some (addrExc .align g)))
  else granMap s w g

/-- The granary places of lanes (R104): the lanes that stop; whether one must wait; lane, offset, die and place of the
others. -/
def Iss.granHits (x : Iss) (s : State) (ls : List Nat) (off : Nat → Word64) (al : Nat) :
    State × List Raise × Bool × List (Nat × Word64 × Nat × Nat) :=
  ls.foldl (fun r l => match granCheckAt r.1 (whoOf x.s x.b 0) (off l) al with
    | (s, .error none) => (s, r.2.1, true, r.2.2.2)
    | (s, .error (some st)) => (s, r.2.1 ++ [(l, st)], r.2.2.1, r.2.2.2)
    | (s, .ok (die, loc)) => (s, r.2.1, r.2.2.1, r.2.2.2 ++ [(l, off l, die, loc)])) (s, [], false, [])

/-- A lane's read of `n` bytes of a granary, or of a block's tag. -/
def Iss.granRead (x : Iss) (d : Reg) (regs n : Nat) (sx tg : Bool) (h : Nat × Word64 × Nat × Nat) : Iss :=
  let (l, g, die, loc) := h
  let blk := die * 2 ^ 22 + loc / 64
  let core := x.b.core.getD 0
  let s := granCheck (roundTrip x.s (dieOf core) die) blk x.b.ctx
  let x := { x with s := s }
  let bs := if tg then bytesOfNat 2 (fget 0 s.gtag blk).toNat else s.gran.readN (die * 2 ^ 28 + loc) n
  x.putLoad (loadValues (x.run d regs l) bs sx) (fget false s.gpoison blk) l g (2 ^ 48 + die * 2 ^ 28 + loc)
    (routeOf core (64 + die) die)

/-- LDG. -/
def execLdg (c : Ctl) (wid : BitVec 3) (sx tg : Bool) (d : Reg) (a : Src) (mode : AddrMode) (s : State) : Out :=
  let once := isScalar d
  let n := 2 ^ wid.toNat
  let regs := if tg then 1 else runRegs n d
  waveWord c (.mk2 regs 0) (fun x =>
    let idx := match mode with
      | .idx _ i => x.readSrc once 8 i 1
      | _ => []
    x.readingThen (x.readSrc once 7 a 1 ++ idx) fun rs =>
      let (s, rs1, wait, hs) := x.granHits x.s (goOn rs (x.readers once)) (x.granOffset a mode) (if tg then 64 else n)
      x.settled s (rs ++ rs1) wait fun y => .done (hs.foldl (fun y h => y.granRead d regs n sx tg h) y)) s

/-- A fetch of a line into its home slice: the home checks it, and records a denial (R270, R447, R454). -/
def fetchToHome (s : State) (w : Who) (pa : Nat) : State :=
  if requestsAhead s w.core pa then s
  else match homeAns s w.master w.owner pa false with
    | .ok => eccCheck (spendToken (sendTraffic (pinHome s w.core pa) (dieOf w.core) (paDie pa)) pa w.ctx) (pa / 64)
    | .owner o => logOwner s w pa o
    | .table => s

/-- A lane's prefetch: a read of the line whose copies stay; whatever would stop it, or poison, does nothing. -/
def Iss.prefetch (x : Iss) (s : State) (a : Addr) (hint : BitVec 3) (l2 : Bool) (lane : Nat) : State :=
  match x.address a lane with
  | .error _ => s
  | .ok va =>
    let ap := va.toNat / 2 ^ 56
    if hint = 3 || hint = 5 || decide (ap = 0xF0) || decide (ap = 0xF2) then s
    else match checkAddr s (whoOf x.s x.b 0) x.b x.w x.wi lane va 1 1 .tagRead with
      | (s, .ok (.phys pa cpol _ _)) =>
        if ctlBase ≤ pa then s
        else if l2 then fetchToHome s (whoOf x.s x.b 0) pa
        else match readLine s (whoOf x.s x.b 0) pa cpol hint with
          | (s, .owner o) => logOwner s (whoOf x.s x.b 0) pa o
          | (s, _) => s
      | (s, _) => s

/-- PREF. -/
def execPref (c : Ctl) (l2 : Bool) (a : Addr) (s : State) : Out :=
  waveWord c (.mk2 (baseNeed a) 0) (fun x => x.reading (x.readAddr false a) <|
    let s := (lanesOf x.ex).foldl (fun s l => x.prefetch s a c.hint l2 l) x.s
    .done ({ x with s := s }.writeBase a (lanesOf x.ex))) s

/-! ### QPOST (R303) -/

/-- The alignment of a record's `n` bytes: within one line, and natural where an access of that size has one (R95). -/
def lineAlign (n : Nat) (a : Word64) : Nat :=
  if 64 < a.toNat % 64 + n then 2 ^ 65 else if n = 8 ∨ n = 16 then n else 1

/-- The 8-byte words of bytes. -/
def wordsOf (bs : List Byte) (k : Nat) : List Word64 := (List.range k).map fun i => wordOf 64 ((bs.drop (8 * i)).take 8)

/-- QPOST. The queue number of a scalar A is all 64 bits of it (DESIGN CHOICE, log 101). -/
def execQpost (c : Ctl) (q : Src) (a : RegOp) (words : BitVec 3) (s : State) : Out :=
  let k := words.toNat + 1
  let n := 8 * k
  waveWord c (.mk2 0 1) (fun x => x.readingThen (x.readSrc false 7 q 1 ++ [x.readWide false 8 a]) fun rs =>
    let (s, rs1, hs) := x.hits x.s (goOn rs (lanesOf x.ex)) (fun l => .ok (x.wide a l)) n (lineAlign n) .read
    let (s, rs2, wait, gs) := x.readHits s n c.hint hs
    let (s, rs4, later, gs) := settlePeers s (x.b.core.getD 0) n gs
    let rs3 : List Raise := gs.filterMap fun g => match g.2 with
      | .got _ _ true pa _ =>
        if (x.own g.1.lane g.1.va n).length < n then some (g.1.lane, .poison g.1.va pa 0) else none
      | _ => none
    x.settled s (rs ++ rs1 ++ rs2 ++ rs4 ++ rs3) (wait || later) fun y =>
      let rec_ (g : Hit × ReadRes) : Nat × Nat × List Word64 :=
        let bs := match g.2 with
          | .got bs _ _ _ _ => bs
          | _ => []
        (g.1.lane, (x.val true (opA q .z false) g.1.lane).toNat, wordsOf (overlayOwn (x.own g.1.lane g.1.va n) bs) k)
      .done (if gs = [] then y else y.putTsb (.qpost (gs.map rec_)))) s

end Sys2Proof.Machine
end

