-- ==== Sys2Proof/Machine/Atomic.lean ====
section
/-! DEFINITION. Atomics, acquire loads, release stores, fences and promotion, 0x0E9 to 0x0F0 (R272 to R278). -/

namespace Sys2Proof.Machine

/-! ### Operands (R272) -/

/-- The reads of a value of 32 or 64 bits. -/
def Iss.readSized (x : Iss) (once : Bool) (field : Nat) (sz : Bool) (o : Src) : List Read :=
  match o with
  | .reg r => [x.readReg once field r (if sz then wideSpan r.reg else 1)]
  | .imm _ => []

/-- The value. -/
def Iss.sized (x : Iss) (sz : Bool) (o : Src) (lane : Nat) : Word64 :=
  match o with
  | .imm v => if sz then v.signExtend 64 else low32 (v.signExtend 64)
  | .reg r => if sz then x.wide r lane else low32 (x.regVal r.reg false false (permLane r.perm lane))

/-! ### Deferred atomics (R148, R275, R440) -/

/-- The bound of R440 in the block's task. -/
def Iss.deta (x : Iss) : Nat := match getTask x.s x.b.task with
  | some t => t.deta
  | none => 0

/-- The lanes whose entry would carry the wave's count past the bound. -/
def Iss.detCap (x : Iss) (ls : List Nat) : List Raise :=
  if taskDet x.s x.b.task then
    ((List.range ls.length).zip ls).filterMap fun p =>
      if x.deta < x.w.det + p.1 + 1 then some (p.2, .plain .detcap) else none
  else []

/-- In a DET task the lanes' sequences and the wave's count advance. Lanes that leave the trace later stay counted against
R440's bound until it ends (DESIGN CHOICE, log 101). -/
def Iss.countDet (x : Iss) (ls : List Nat) : Iss :=
  if taskDet x.s x.b.task then
    let w := x.w.modLanes (maskOf fun l => l ∈ ls) fun _ y => { y with seq := y.seq + 1 }
    { x with w := { w with det := w.det + ls.length } }
  else x

/-- The returning atomics of committed lanes enter the buffer; their registers wait for the flush. -/
def deferAtoms (s : State) (bid wi : Nat) (xs : List (Atom × List Dest)) : State :=
  xs.foldl (fun s x =>
    match getBlock s bid, getWave s bid wi with
    | some b, some w =>
      let id := s.nextId
      let (s, _) := placeDet s b wi (w.lanes.map fun l => l.seq - 1) [(x.1, some x.2)]
      modWave s bid wi fun w => { w.emptyDests x.2 (.defer id) with det := w.det + 1 }
    | _, _ => s) s

/-! ### Atomics (R272 to R274) -/

/-- The atomics that a word's lanes ask for. -/
def Iss.atomsOf (x : Iss) (kind : AtomKind) (sz : Bool) (b e : Src) (hs : List Hit) : List Atom :=
  hs.map fun h => ⟨h.lane, x.addr, h.va, h.place, kind, sz, x.sized sz b h.lane, x.sized sz e h.lane⟩

/-- ATOM: a TSB entry (R274), deferred in a DET task. -/
def execAtom (c : Ctl) (scope : Scope) (ord : OrdCode) (op : RedOp) (sz : Bool) (a : RegOp) (b : Src) (o : BitVec 17)
    (s : State) : Out :=
  waveWord c (.mk2 0 1) (fun x => x.readingThen (x.readWide false 7 a :: x.readSized false 8 sz b) fun rs =>
    let n := atomLen sz
    let (s, rs1, hs) := x.hits x.s (goOn rs (lanesOf x.ex)) (fun l => .ok (x.wide a l + o.signExtend 64)) n (fun _ => n) .atomic
    x.settled s (rs ++ rs1 ++ x.detCap (hs.map (·.lane))) false fun y =>
      let xs := x.atomsOf (.rmw op) sz b (.imm 0) hs
      .done (if xs = [] then y else (y.countDet (hs.map (·.lane))).putTsb (.atom scope (releases ord) xs))) s

/-- Each access of a boundary word gets a producer, and its committed registers become empty. -/
def startProducers (s : State) (bid wi : Nat) (xs : List (Nat × List Dest)) : State × List (Nat × Nat) :=
  xs.foldl (fun r x =>
    let (id, s) := fresh r.1
    (modWave s bid wi fun w => w.emptyDests x.2 (.pend id), r.2 ++ [(x.1, id)])) (s, [])

/-- The lanes of a wave that can still start their operation. -/
def startable (s : State) (bid wi : Nat) (m : Mask) : Mask := match getWave s bid wi with
  | some w => m &&& w.runnable
  | none => 0

/-- The producers that each lane's acquire side waits for: its own, or a scalar destination's. -/
def waitsFor (once : Bool) (m : Mask) (ids : List (Nat × Nat)) : List (Nat × Nat) :=
  if once then (lanesOf m).flatMap fun l => ids.map fun p => (l, p.2) else ids

/-- ATOMR, CAS and EXCH. -/
def returning (c : Ctl) (scope : Scope) (ord : OrdCode) (kind : AtomKind) (sz : Bool) (d : Reg) (a : RegOp) (b e : Src)
    (succ : BitVec 17) (s : State) : Out :=
  let once := isScalar d
  waveWord c .final (fun x =>
    x.readingThen (x.readWide once 7 a :: x.readSized once 8 sz b ++ x.readSized once 9 sz e) fun rs =>
      let n := atomLen sz
      let (s, rs1, hs) := x.hits x.s (goOn rs (x.readers once)) (fun l => .ok (x.wide a l)) n (fun _ => n) .atomic
      x.settled s (rs ++ rs1 ++ x.detCap (hs.map (·.lane))) false fun y =>
        let dst := x.target succ
        let xs := x.atomsOf kind sz b e hs
        let ds (l : Nat) : List Dest := x.run d (runRegs n d) l
        .close (y.countDet (hs.map (·.lane))) (landAt dst) false fun s =>
          let m := startable s x.bid x.wi x.ex
          let xs := xs.filter fun z => m.getLsbD z.lane
          if taskDet s x.b.task then deferAtoms s x.bid x.wi (xs.map fun z => (z, ds z.lane))
          else
            let (s, ids) := startProducers s x.bid x.wi (xs.map fun z => (z.lane, ds z.lane))
            let body := (xs.zip ids).map fun p => (p.1, p.2.2, ds p.1.lane)
            startOp s x.bid x.wi m x.addr dst scope ord (.atoms body) (if acquires ord then waitsFor once m ids else [])) s

/-- ATOMR. -/
def execAtomr (c : Ctl) (scope : Scope) (ord : OrdCode) (op : RedOp) (sz : Bool) (d : Reg) (a : RegOp) (b : Src)
    (succ : BitVec 17) (s : State) : Out :=
  returning c scope ord (.rmw op) sz d a b (.imm 0) succ s

/-- CAS. -/
def execCas (c : Ctl) (scope : Scope) (ord : OrdCode) (sz : Bool) (d : Reg) (a : RegOp) (b e : Src) (succ : BitVec 17)
    (s : State) : Out :=
  returning c scope ord .cas sz d a b e succ s

/-- EXCH. -/
def execExch (c : Ctl) (scope : Scope) (ord : OrdCode) (sz : Bool) (d : Reg) (a : RegOp) (b : Src) (succ : BitVec 17)
    (s : State) : Out :=
  returning c scope ord .swap sz d a b (.imm 0) succ s

/-! ### LDA and STL (R276) -/

/-- LDA: an acquire; a deferred register that it would reach stops it at issue (R439); TP := E when the value has arrived. -/
def execLda (c : Ctl) (scope : Scope) (sx : Bool) (wid : BitVec 3) (d : Reg) (a : RegOp) (succ : BitVec 17) (s : State) :
    Out :=
  let once := isScalar d
  let n := 2 ^ wid.toNat
  waveWord c .final (fun x => x.readingThen [x.readWide once 7 a] fun rs =>
    let (s, rs1, hs) := x.hits x.s (goOn rs (x.readers once)) (fun l => .ok (x.wide a l)) n (fun _ => n) .read
    x.settled s (rs ++ rs1 ++ hs.filterMap (deferStop x.committed.1 n)) false fun y =>
      let dst := x.target succ
      let ds (l : Nat) : List Dest := x.run d (runRegs n d) l
      .close y (landAt dst) false fun s =>
        let m := startable s x.bid x.wi x.ex
        let hs := hs.filter fun h => m.getLsbD h.lane
        let (s, ids) := startProducers s x.bid x.wi (hs.map fun h => (h.lane, ds h.lane))
        let body := (hs.zip ids).map fun p => (p.1.lane, p.1.va, p.1.place, p.2.2, ds p.1.lane)
        startOp s x.bid x.wi m x.addr dst scope .acq (.lda body wid.toNat sx) (waitsFor once m ids)) s

/-- STL: a release; the store leaves once R136 holds. -/
def execStl (c : Ctl) (scope : Scope) (wid : BitVec 3) (d : Src) (a : RegOp) (succ : BitVec 17) (s : State) : Out :=
  let n := 2 ^ wid.toNat
  waveWord c .final (fun x => x.readingThen (x.readData d n ++ [x.readWide false 7 a]) fun rs =>
    let (s, rs1, hs) := x.hits x.s (goOn rs (lanesOf x.ex)) (fun l => .ok (x.wide a l)) n (fun _ => n) .write
    x.settled s (rs ++ rs1 ++ hs.filterMap (deferStop x.committed.1 n)) false fun y =>
      let dst := x.target succ
      let xs : List Store := hs.map fun h => ⟨h.lane, x.addr, h.va, h.place, x.storeBytes d n h.lane⟩
      .close y (landAt dst) false fun s =>
        let m := startable s x.bid x.wi x.ex
        startOp s x.bid x.wi m x.addr dst scope .rel (.stl (xs.filter fun z => m.getLsbD z.lane)) []) s

/-! ### FENCE and ACQR (R277, R278) -/

/-- FENCE: its acquire side waits for what each lane has outstanding. -/
def execFence (c : Ctl) (scope : Scope) (ord : OrdCode) (succ : BitVec 17) (s : State) : Out :=
  waveWord c .final (fun x =>
    let dst := x.target succ
    .close x (landAt dst) false fun s =>
      let m := startable s x.bid x.wi x.ex
      let waits := if acquires ord then
          (lanesOf m).flatMap fun l => (laneProducers s x.bid x.wi l).map fun id => (l, id)
        else []
      startOp s x.bid x.wi m x.addr dst scope ord .fence waits) s

/-- The number of blocks of a task's grid. -/
def gridSize (s : State) (id : Nat) : Nat := match getTask s id with
  | some t => t.f.gx * t.f.gy * t.f.gz
  | none => 0

/-- ACQR: BADFLD at issue for an index outside the grid; then R144, a DEVICE-scope acquire. -/
def execAcqr (c : Ctl) (victim : Src) (succ : BitVec 17) (s : State) : Out :=
  waveWord c .final (fun x => x.readingThen (x.readSrc false 7 victim 1) fun rs =>
    let v (l : Nat) : Nat := (x.val true (opA victim .z false) l).toNat
    let bad := (goOn rs (lanesOf x.ex)).filterMap fun l =>
      if gridSize x.s x.b.task ≤ v l then some (l, .exc .badfld 7 0 none) else none
    x.settled x.s (rs ++ bad) false fun y =>
      let dst := x.target succ
      .close y (landAt dst) false fun s =>
        let m := startable s x.bid x.wi x.ex
        startOp s x.bid x.wi m x.addr dst .device .acq (.acqr ((lanesOf m).map v).eraseDups) []) s

end Sys2Proof.Machine
end

