-- ==== Sys2Proof/Machine/Sm3.lean ====
section
/-! DEFINITION. SM3, the digest of GB/T 32905 that boot and the root of trust use (R364, R365, R367). -/

namespace Sys2Proof.Machine

/-- Words of a block, first byte highest. -/
def sm3Words : List Byte → List Word32
  | a :: b :: c :: d :: rest => (a ++ b ++ c ++ d) :: sm3Words rest
  | _ => []

def sm3P0 (x : Word32) : Word32 := x ^^^ x.rotateLeft 9 ^^^ x.rotateLeft 17
def sm3P1 (x : Word32) : Word32 := x ^^^ x.rotateLeft 15 ^^^ x.rotateLeft 23

/-- The expansion of a block to 68 words; the list is kept with its newest word first. -/
def sm3Expand : Nat → List Word32 → List Word32
  | 0, w => w
  | n + 1, w =>
    let x (i : Nat) : Word32 := (nth w (i - 1)).getD 0
    sm3Expand n ((sm3P1 (x 16 ^^^ x 9 ^^^ (x 3).rotateLeft 15) ^^^ (x 13).rotateLeft 7 ^^^ x 6) :: w)

/-- The eight working words. -/
structure Sm3V where
  a : Word32
  b : Word32
  c : Word32
  d : Word32
  e : Word32
  f : Word32
  g : Word32
  h : Word32
  deriving DecidableEq, Repr, Inhabited

/-- One round. -/
def sm3Round (v : Sm3V) (j : Nat) (w w' : Word32) : Sm3V :=
  let t : Word32 := if j < 16 then 0x79CC4519 else 0x7A879D8A
  let ss1 := (v.a.rotateLeft 12 + v.e + t.rotateLeft (j % 32)).rotateLeft 7
  let ss2 := ss1 ^^^ v.a.rotateLeft 12
  let ff := if j < 16 then v.a ^^^ v.b ^^^ v.c else (v.a &&& v.b) ||| (v.a &&& v.c) ||| (v.b &&& v.c)
  let gg := if j < 16 then v.e ^^^ v.f ^^^ v.g else (v.e &&& v.f) ||| (~~~v.e &&& v.g)
  let tt1 := ff + v.d + ss2 + w'
  let tt2 := gg + v.h + ss1 + w
  ⟨tt1, v.a, v.b.rotateLeft 9, v.c, sm3P0 tt2, v.e, v.f.rotateLeft 19, v.g⟩

/-- One block. -/
def sm3Block (v : Sm3V) (block : List Byte) : Sm3V :=
  let w := (sm3Expand 52 (sm3Words block).reverse).reverse
  let r := (List.range 64).foldl (fun r j =>
    let x := (nth w j).getD 0
    sm3Round r j x (x ^^^ (nth w (j + 4)).getD 0)) v
  ⟨r.a ^^^ v.a, r.b ^^^ v.b, r.c ^^^ v.c, r.d ^^^ v.d, r.e ^^^ v.e, r.f ^^^ v.f, r.g ^^^ v.g, r.h ^^^ v.h⟩

/-- The blocks of a padded message. -/
def sm3Blocks : Nat → Sm3V → List Byte → Sm3V
  | 0, v, _ => v
  | n + 1, v, m => sm3Blocks n (sm3Block v (m.take 64)) (m.drop 64)

/-- A number in `n` bytes, highest first. -/
def bytesHigh (n x : Nat) : List Byte := ((List.range n).map fun i => BitVec.ofNat 8 (x / 2 ^ (8 * i))).reverse

/-- SM3 of a message: 32 bytes. -/
def sm3 (m : List Byte) : List Byte :=
  let padded := m ++ [0x80] ++ List.replicate ((119 - m.length % 64) % 64) 0 ++ bytesHigh 8 (8 * m.length)
  let v := sm3Blocks (padded.length / 64)
    ⟨0x7380166F, 0x4914B2B9, 0x172442D7, 0xDA8A0600, 0xA96F30BC, 0x163138AA, 0xE38DEE4D, 0xB0FB0E4E⟩ padded
  [v.a, v.b, v.c, v.d, v.e, v.f, v.g, v.h].flatMap fun x => bytesHigh 4 x.toNat

end Sys2Proof.Machine
end

