-- ==== Sys2Proof/Machine/Boot.lean ====
section
/-! DEFINITION. Limewash zeroing (R116), the two resets (R368), the boot of R363 and R364, measurement (R365), and the
halt of the module (R419). -/

namespace Sys2Proof.Machine

/-! ### Limewash (R116, R412, R448) -/

/-- The limewash engine's master identity (R119). -/
abbrev washMaster : Nat := 0x4B

/-- A line of the frame, at a slice that lets the limewash engine write (R119). -/
def washes (s : State) (f line : Nat) : Bool := decide (line / 1024 = f) && tableOk s (paSlice (line * 64)) washMaster true

/-- Entries of other lines stay; `line` gives the line of a key. -/
def unwashed {α : Type} (s : State) (f : Nat) (line : Nat → Nat) (m : FMap α) : FMap α := m.filter fun p => !washes s f (line p.1)

/-- EVENT 0x0032 of each slice of the frame's die that denies the engine (R119, log 98). -/
def logUnwashed (s : State) (f : Nat) : State :=
  (List.range 16).foldl (fun t c =>
    let i := 16 * paDie (f * 65536) + c
    if tableOk s i washMaster true then t
    else logErr t false ((((errRec 4 0x0032).atPa (f * 65536)).atUnit (i / 16) 0xFF 21 c).det washMaster)) s

/-- Every cached copy of the frame's lines is invalidated, every die flash-invalidates its untracked copies, and every
block is zero with tag 0x0000 and no poison, at the slices that let the engine write. -/
def limewash (s : State) (f : Nat) : State :=
  logUnwashed ((List.range 4).foldl flashStack { s with
    l1 := s.l1.filter fun p => p.1 % 2 ^ 48 / 1024 ≠ f
    stack := s.stack.filter fun p => p.1 % 2 ^ 48 / 1024 ≠ f
    stamps := s.stamps.filter fun p => p.1 / 1024 ≠ f
    dram := unwashed s f (· / 64) s.dram
    dtag := unwashed s f id s.dtag
    dpoison := unwashed s f id s.dpoison
    upsets := unwashed s f id s.upsets }) f

/-! ### The halt of the module (R419) -/

/-- A class-3 event: its record, the fatal report through AER and the platform event. -/
def fatalRecord (s : State) (r : ErrRec) : State :=
  emit (emit { logErr s false r with halted := true } .aerFatal) (.pldmEvent r.event.toNat)

/-- A class-3 event of a die. -/
def fatalHalt (s : State) (event detail die : Nat) : State :=
  fatalRecord s { (errRec 3 event).det detail with die := BitVec.ofNat 8 die }

/-! ### Resets (R368) -/

/-- What the retirement record keeps of a core. -/
def keptCore (p : Nat × CoreSt) : Option (Nat × CoreSt) :=
  let x : CoreSt := { CoreSt.init with retired := p.2.retired, spare := p.2.spare }
  if x = .init then none else some (p.1, x)

/-- Boot step 3 with BOOTSRC = 1: the host may write at the slices of BD0. -/
def bootAccess (src : Bool) : FMap (BitVec 2) :=
  if src then (List.range 16).map fun t => (t * 128 + 0x49, 2) else []

/-- A reset, and steps 1 and 2 of the boot that follows it. -/
def resetModule (s : State) (warm : Bool) : State :=
  let z := State.reset
  { z with
    agenda := s.agenda
    freeIx := s.freeIx
    tick := s.tick
    nextId := s.nextId
    outbox := s.outbox
    live := s.live
    cores := s.cores.filterMap keptCore
    retiredSlices := s.retiredSlices
    retiredBanks := s.retiredBanks
    access := bootAccess s.rot.bootsrc
    buckets := if warm then s.buckets else []
    plog := if warm then { z.plog with seq := s.plog.seq, fatbuf := s.plog.fatbuf } else z.plog
    power := if warm then s.power else z.power
    thermal := if warm then s.thermal else z.thermal
    dvfs := if warm then s.dvfs else z.dvfs
    portsUp := s.portsUp
    rot := { z.rot with
      keys := s.rot.keys
      revoked := s.rot.revoked
      bootsrc := s.rot.bootsrc
      attempts := if warm then s.rot.attempts else 0
      phase := if s.rot.bootsrc then .waitGo else .fetching } }

/-! ### Boot (R363, R364, R420) -/

abbrev bootRegion : Nat := 0x40000000

/-- A field of the image staged at 0. -/
def imageField (s : State) (off n : Nat) : Nat := natOf (s.dram.readN off n)

/-- BOOTSTAT's result for the staged image. -/
def bootResult (s : State) : Nat :=
  let slot := imageField s 6 1
  let len := imageField s 8 8
  let load := imageField s 16 8
  let entry := imageField s 24 8
  let digest := s.dram.readN 32 32
  if s.dram.readN 0 4 ≠ [0x42, 0x4C, 0x4D, 0x31] ∨ imageField s 4 2 ≠ 1 then 2
  else if 4 ≤ slot ∨ s.rot.revoked.getLsbD slot then 3
  else if sm3 (s.dram.readN 0 32 ++ s.dram.readN 128 len) ≠ digest then 4
  else if !Config.sm2Verify ((nth s.rot.keys slot).getD 0) (natOf digest) (imageField s 64 64) then 5
  else if bootRegion < load + len ∨ load < 128 + len ∨ entry < load ∨ load + len ≤ entry then 6
  else 1

/-- MRi := SM3(MRi ‖ d). A measurement is held as the number its 32 bytes spell, lowest first. -/
def extendMr (s : State) (i d : Nat) : State :=
  let f (old : Nat) : Nat := natOf (sm3 (bytesOfNat 32 old ++ bytesOfNat 32 d))
  { s with rot := { s.rot with mr := modifyAt f i s.rot.mr } }

/-- A failed attempt (R420). -/
def bootFailed (s : State) (r : Nat) : State :=
  let s := { s with rot := { s.rot with
    result := BitVec.ofNat 8 r, attempts := s.rot.attempts + 1, phase := .retryWait } }
  emit (logErr s false ((errRec 4 0x0040).det r)) (.pldmEvent 0x0040)

/-- A block of the range is poisoned. -/
def rangePoisoned (s : State) (pa n : Nat) : Bool := s.dpoison.any fun p => p.2 && decide (pa / 64 ≤ p.1 ∧ p.1 * 64 < pa + n)

/-- Steps 4 and 5. Poison that reeve 0 reads is a load access fault, and the attempt ends as one whose DIGEST does not match
(R413, log 53). -/
def bootVerify (s : State) : State :=
  let s := checkRange s 0 128
  let s := checkRange s 128 (imageField s 8 8)
  let r := bootResult s
  if rangePoisoned s 0 128 || rangePoisoned s 128 (imageField s 8 8) then bootFailed (emit s (.reeveFault 0)) 4
  else if r ≠ 1 then bootFailed s r
  else
    let len := imageField s 8 8
    let load := imageField s 16 8
    let entry := imageField s 24 8
    let digest := imageField s 32 32
    let payload := s.dram.readN 128 len
    let s := extendMr s 0 digest
    let s := extendMr s 1 (natOf (sm3 (Config.fuseBytes s.rot.keys s.rot.revoked s.rot.bootsrc)))
    let s := cpPut s load payload
    emit { s with rot := { s.rot with result := 1, attempts := s.rot.attempts + 1, phase := .done } } (.bootEntry entry)

/-- The staging frames: those of the boot region in which the refused image has left anything. -/
def stagingFrames (s : State) : List Nat :=
  let lines := s.dpoison.map Prod.fst ++ s.upsets.map Prod.fst ++ s.dtag.map Prod.fst
  (((s.dram.map fun (c : Host.Cell) => c.1 / 65536) ++ lines.map (· / 1024)).foldl insertNat []).filter fun f => f < bootRegion / 65536

/-! ### Boot and reset events -/

/-- BOOT_IMAGE_FETCHED: the image stands at the staging address, or the fetch failed. -/
def execBootImageFetched (image : Option (List Byte)) (s : State) : Host.Outcome State Fault Refusal :=
  .next <| if s.rot.phase ≠ .fetching then s
  else match image with
    | none => bootFailed s 7
    | some bs => if bootRegion < bs.length then bootFailed s 7 else bootVerify (cpPut s 0 bs)

/-- BOOT_RETRY: the staging frames are limewashed, and step 3 runs again. -/
def execBootRetry (s : State) : Host.Outcome State Fault Refusal :=
  .next <| if s.rot.phase ≠ .retryWait then s
  else
    let s := (stagingFrames s).foldl limewash s
    { s with rot := { s.rot with result := 0, phase := if s.rot.bootsrc then .waitGo else .fetching } }

/-- POWER_ON_RESET. -/
def execPowerOnReset (s : State) : Host.Outcome State Fault Refusal := .next (resetModule s false)

/-- WARM_RESET: every cause has the same effect. -/
def execWarmReset (_cause : WarmCause) (s : State) : Host.Outcome State Fault Refusal := .next (resetModule s true)

end Sys2Proof.Machine
end

