-- ==== Sys2Proof/Machine/Remote.lean ====
section
/-! DEFINITION. What a peer's answer does at the requesting module (R359, R360, R466, R467). -/

namespace Sys2Proof.Machine

/-- The network ports, as the source of data for a core. -/
abbrev netSource : Nat := 69

def isRead : Access → Bool
  | .read _ => true
  | _ => false

def isWrite : Access → Bool
  | .write _ => true
  | _ => false

/-- The request leaves the list of the outstanding. -/
def dropNet (s : State) (id : Nat) : State := { s with netOut := s.netOut.filter fun n => n.id ≠ id }

/-- The trace of a wave still waits in this lane for a request's answer. -/
def awaitsAnswer (w : Wave) (n : NetOut) : Option TraceRun :=
  match w.trace, n.ret with
  | some t, some r => if isRead n.access && r.dests.any fun d => t.awaits d r.id then some t else none
  | _, _ => none

/-- A committed register of the wave waits for the answer. -/
def wantsAnswer (w : Wave) (n : NetOut) : Bool := n.ret.any fun r => r.dests.any fun d => w.awaits d r.id

/-- The producer of a request that failed never arrives. -/
def dropAnswer (s : State) (n : NetOut) : State := match n.ret with
  | some r => cancelProducer s n.bid n.wave r.id
  | none => s

/-- A request of a block that has ended completes as refused: a copy's costs the context, a write or an atomic traps with
POST (R467, log 99). -/
def refusedLate (s : State) (n : NetOut) : State :=
  if n.core = iodAgent then s
  else if n.lane = copyLane then loseContext s n.ctx 0x0032 1 false
  else match n.late with
    | some r => (holdTrap s r).2
    | none => s

/-- A request completes as refused: PROT for a read whose trace still stands, PROT with POST after the commit; a copy's
costs the context. -/
def remoteRefused (s : State) (n : NetOut) : State :=
  let s := dropNet s n.id
  match getBlock s n.bid, getWave s n.bid n.wave with
  | some b, some w =>
    if n.lane = copyLane then loseContext s b.ctx 0x0032 1 false
    else match awaitsAnswer w n with
    | some t => dropAnswer (raiseWave s n.bid n.wave t.start n.word false [(n.lane, addrExc .prot n.va)]) n
    | none =>
      if isRead n.access && !wantsAnswer w n then dropAnswer s n
      else dropAnswer (denyPost s b n.wave n.word [(n.lane, n.va)]) n
  | _, _ => refusedLate s n

/-- Poison at the peer: a read or an atomic loses the context; a store has merged there. An atomic of a block that has ended
names no unit (log 99). -/
def remotePoisoned (s : State) (n : NetOut) : State :=
  let s := dropNet s n.id
  match getBlock s n.bid, getWave s n.bid n.wave with
  | some b, some w =>
    if isWrite n.access || (isRead n.access && (awaitsAnswer w n).isNone && !wantsAnswer w n) then dropAnswer s n
    else
      let r := lanePoison s b n.wave w n.lane (laneOf w n.lane).tp n.va noPa
      if isRead n.access then consumePoison s b.ctx r 0 else consumePoison s b.ctx { r with exc := 0 } 4
  | _, _ =>
    if isWrite n.access || isRead n.access then s
    else consumePoison s n.ctx (((errRec 2 0x0009).atUnit (dieOf n.core) n.core 0xFF 0xFF).atGlobal n.va) 4

/-- The answer's data for its registers, with the bytes that the lane's own stores gave (R47), on its way from the ports, die
4, to its core (R10, R358). -/
def answerData (n : NetOut) (r : NetRet) (bytes : List Byte) (sent : Nat) : Pending :=
  let bs := (List.range bytes.length).zip bytes |>.map fun p => (ffind r.own p.1).getD p.2
  ⟨r.id, n.bid, n.wave, loadValues r.dests bs r.sx, false, n.lane, n.va, noPa, !isRead n.access,
    routeOf n.core netSource 4, sent, none⟩

/-- The answer of the peer arrives at the ports with these bytes, none for a write, and goes on to its core. -/
def remoteAnswered (s : State) (n : NetOut) (bytes : List Byte) : State :=
  let s := sendTraffic (dropNet s n.id) 4 (dieOf n.core)
  match n.ret with
  | some r => { s with pendings := s.pendings ++ [answerData n r bytes s.nextId] }
  | none => s

/-- Every request still outstanding to a peer completes as refused. -/
def refusePeer (s : State) (peer : Nat) : State :=
  (s.netOut.filter fun n => n.peer = peer).foldl remoteRefused s

/-! ### The events -/

/-- TRANSPORT_ACK: the peer's answer, unless the peer has been given up (R466); a read's has as many bytes as it asked for,
an atomic's its old value. -/
def execTransportAck (id : Nat) (bytes : List Byte) (s : State) : Out :=
  .next <| match s.netOut.find? fun n => n.id = id with
    | none => s
    | some n =>
      let want := match n.access with
        | .read k => k
        | .write _ => 0
        | .atomic _ k _ => k
        | .swap k _ => k
        | .cas k _ _ => k
      if !peerUp s n.peer then remoteRefused s n
      else if bytes.length = want then remoteAnswered s n bytes else s

/-- TRANSPORT_RETRANSMIT: the next attempt, on the next up port where one is, while the entry's STATE is 1. -/
def execTransportRetransmit (id : Nat) (s : State) : Out :=
  .next <| match s.netOut.find? fun n => n.id = id with
    | none => s
    | some n =>
      if !peerUp s n.peer then remoteRefused s n
      else
        let p := nextPort s n.peer n.port
        let s := { s with netOut := s.netOut.map fun x =>
          if x.id = id then { x with attempt := x.attempt + 1, port := p.getD x.port } else x }
        netAttempt s id (n.attempt + 1) p

/-- REMOTE_ERROR_RESPONSE. -/
def execRemoteErrorResponse (id : Nat) (e : RemoteError) (s : State) : Out :=
  .next <| match s.netOut.find? fun n => n.id = id with
    | none => s
    | some n => match (if peerUp s n.peer then e else .refused) with
      | .refused => remoteRefused s n
      | .poison => remotePoisoned s n

end Sys2Proof.Machine
end

