-- ==== Sys2Proof/Machine/Regs.lean ====
section
/-! DEFINITION. Writes to control space (R354) and what the registers with an effect of their own do: doorbells (R155),
the rings of R411 and R426, the peer table (R466), the time unit (R369), the root of trust (R363, R365, R368). -/

namespace Sys2Proof.Machine

/-! ### Fields of registers -/

/-- A field of `w` bytes with `n` bytes of `v` written from its byte `o` on. -/
def mergeField (old w o n v : Nat) : Nat :=
  natOf ((List.range w).map fun i => if o ≤ i ∧ i < o + n then byteAt v (i - o) else byteAt old i)

/-- The write of `n` bytes at `o` reaches the byte `i`. -/
def reaches (o n i : Nat) : Bool := decide (o ≤ i) && decide (i < o + n)

/-- A field of a structure at `base` as the write of `n` bytes of `v` at `o` leaves it. -/
def fieldAt (old base w o n v : Nat) : Nat :=
  natOf ((List.range w).map fun i => if reaches o n (base + i) then byteAt v (base + i - o) else byteAt old i)

/-! ### Queues' doorbells (R155) -/

/-- A queue stops being served (R418). -/
def freezeQueue (s : State) (q : Nat) : State := modQueue s q fun x => { x with frozen := true }

/-- An error record of a queue. -/
def queueErr (s : State) (q event : Nat) (detail : Nat) : State :=
  let x := getQueue s q
  logErr s true { (((errRec 4 event).atCtx s x.ctx).det detail) with queue := BitVec.ofNat 16 q }

/-- The doorbell's write: WIDX, or the queue freezes where the ring would hold more than its depth. -/
def ringDoorbell (s : State) (q : Nat) (v : BitVec 32) : State :=
  let x := getQueue s q
  if !x.enabled || x.frozen then s
  else if 2 ^ x.logd < (v - x.ridx).toNat then queueErr (freezeQueue s q) q 0x0021 0
  else modQueue s q fun x => { x with widx := v }

/-! ### Rings (R411, R426) -/

/-- The descriptor of a ring as a write leaves it; RO fields keep their values. -/
def writeRing (r : Ring) (o n v : Nat) : Ring :=
  { r with
    base := BitVec.ofNat 64 (fieldAt r.base.toNat 0 8 o n v)
    log := BitVec.ofNat 8 (fieldAt r.log.toNat 8 1 o n v)
    v := decide (fieldAt (if r.v then 1 else 0) 9 1 o n v = 1)
    ridx := BitVec.ofNat 32 (fieldAt r.ridx.toNat 20 4 o n v) }

/-- The ring lies wholly in frames owned by 0xFFFF. -/
def ringOk (s : State) (r : Ring) : Bool := ownedByHyp s r.base.toNat (64 * 2 ^ r.log.toNat)

/-- A write to a ring's descriptor: one that leaves it enabled with a ring elsewhere is refused. -/
def ringWrite (s : State) (c : Nat) (old : Ring) (put : Ctx → Ring → Ctx) (o n v : Nat) : State :=
  let r := writeRing old o n v
  if r.v && (reaches o n 9 || reaches o n 8 || decide (o < 8)) && !ringOk s r then
    logErr s false ((errRec 4 0x0037).det c)
  else modCtx s c fun x => put x r

/-! ### The regions of control space (R354); none where the offset is unassigned -/

/-- The CP command interface and the physical log (R357, R410). -/
def writeCp (s : State) (o n v : Nat) : Option State :=
  let f (old : Word64) (base : Nat) : Word64 := BitVec.ofNat 64 (fieldAt old.toNat base 8 o n v)
  if o < 0x18 then
    some { s with cp := { s.cp with ring := f s.cp.ring 0, log := f s.cp.log 8, widx := f s.cp.widx 0x10 } }
  else if o < 0x20 then some s
  else if 0x40 ≤ o ∧ o < 0x48 then some { s with plog := { s.plog with base := f s.plog.base 0x40 } }
  else if o = 0x48 then some { s with plog := { s.plog with log := BitVec.ofNat 8 v } }
  else if o = 0x58 then some { s with plog := { s.plog with ridx := BitVec.ofNat 32 v } }
  else if o = 0x50 ∨ o = 0x60 ∨ (0x1000 ≤ o ∧ o < 0x2000) then some s
  else none

/-- The bits of a byte of the peer and window tables that hold anything (R361); the others read as zero (R4). -/
def netMask (o : Nat) : Byte :=
  if o < 0x4000 then (if o % 64 < 21 then 0xFF else 0)
  else if o % 32 = 18 then 3
  else if o % 32 < 20 then 0xFF else 0

/-- The peer and window tables (R361): a STATE left 0 gives the peer's outstanding requests up (R466). -/
def writeNet (s : State) (o n v : Nat) : Option State :=
  if 0x6000 ≤ o then none
  else
    let s := { s with netTab := (List.range n).foldl (fun t i => fput 0 t (o + i) (byteAt v i &&& netMask (o + i))) s.netTab }
    let peer := o / 64
    if o < 0x4000 ∧ reaches o n (64 * peer + 20) ∧ fget 0 s.netTab (64 * peer + 20) = 0 then some (refusePeer s peer)
    else some s

/-- The time unit (R369, R359). -/
def writeTime (s : State) (o n v : Nat) : Option State :=
  if o < 0x10 then some s
  else if o < 0x18 then
    let a : Word64 := BitVec.ofNat 64 (fieldAt s.time.adj.toNat 0x10 8 o n v)
    some { s with time := { s.time with adj := a, ptp := Config.timeAfter s.time.ptp a } }
  else if o = 0x100 then some { s with time := { s.time with port := BitVec.ofNat 16 v } }
  else none

/-- The masters whose write to RSTREQ resets the module (R368). -/
def mayReset (m : Nat) : Bool := decide (0x40 ≤ m ∧ m ≤ 0x47) || decide (m = 0x49)

/-- The root of trust (R363, R365, R368, R420). -/
def writeRot (s : State) (m o n v : Nat) : Option State :=
  if o = 0x8 then
    some (if m = 0x49 ∧ v % 2 ^ 32 = 1 ∧ s.rot.phase = .waitGo then bootVerify s else s)
  else if o = 0x10 then some s
  else if o = 0x18 then some (if v % 2 ^ 32 = 1 ∧ mayReset m then resetModule s true else s)
  else if 0x100 ≤ o ∧ o < 0x120 then
    some { s with rot := { s.rot with staged := fieldAt s.rot.staged 0x100 32 o n v } }
  else if o = 0x140 then
    let i := v % 2 ^ 32
    some (if 2 ≤ i ∧ i ≤ 7 then extendMr s i s.rot.staged else s)
  else if 0x1000 ≤ o then some s
  else none

/-- The control register files: HOSTOWN, the access tables, the meters, the rings of contexts. -/
def writeFiles (s : State) (o n v : Nat) : Option State :=
  if o = 0x1000000 then some { s with hostown := BitVec.ofNat 16 v }
  else if accessWindow ≤ o ∧ o < accessWindow + 75 * 128 then
    some { s with access := (List.range n).foldl (fun t i =>
      let k := o - accessWindow + i
      if k % 128 < 0x4E then fput (accessDefault (k % 128)) t k ((byteAt v i).setWidth 2) else t) s.access }
  else if meterWindowAt ≤ o ∧ o < meterWindowAt + 256 then
    some { s with meters := (List.range 2).foldl (fun t j =>
      let i := (o - meterWindowAt) / 4 + j
      if 4 * j < n then fmod .init t i fun x => { x with srate := v / 2 ^ (32 * j) % 2 ^ 32 } else t) s.meters }
  else if 0x1800000 ≤ o ∧ o < 0x1820000 then
    let c := (o - 0x1800000) / 32
    some (ringWrite s c (getCtx s c).vq (fun x r => { x with vq := r }) ((o - 0x1800000) % 32) n v)
  else if 0x1A00000 ≤ o ∧ o < 0x1A20000 then
    let c := (o - 0x1A00000) / 32
    some (ringWrite s c (getCtx s c).xq (fun x r => { x with xq := r }) ((o - 0x1A00000) % 32) n v)
  else none

/-- A permitted write. -/
def ctlStore (s : State) (m o n v : Nat) : Option State :=
  if o < 0x100000 then writeCp s o n v
  else if o < 0x108000 then
    if o % 8 = 0 then some (ringDoorbell s ((o - 0x100000) / 8) (BitVec.ofNat 32 v)) else none
  else if o < 0x200000 then none
  else if o < 0x200C00 then some s
  else if o < 0x300000 then none
  else if o < 0x400000 then writeNet s (o - 0x300000) n v
  else if o < 0x500000 then writeTime s (o - 0x400000) n v
  else if o < 0x510000 then writeRot s m (o - 0x500000) n v
  else if o < 0x1000000 then none
  else writeFiles s o n v

/-- BOOTGO's own rule (R363). -/
def bootgoOk (s : State) (m o n : Nat) : Bool :=
  decide (m = 0x49 ∧ o = 0x500008 ∧ n = 4) && decide (s.rot.phase = .waitGo)

/-- EVENT 0x0032: an access table denies a master other than a lane. -/
def logDenied (s : State) (m : Nat) : State := if m < 0x40 then s else logErr s false ((errRec 4 0x0032).det m)

/-- A WRITE TO CONTROL SPACE: denied, performed, or dropped and logged at an unassigned offset. -/
def ctlWrite (s : State) (m o n v : Nat) : State :=
  if !(ctlOk s m o n true || bootgoOk s m o n) then logDenied s m
  else match ctlStore s m o n v with
    | some s => s
    | none => logErr s false ((errRec 4 0x0034).det (o % 65536))

/-! ### The events -/

/-- A reeve that does nothing of its own yet: until the boot is done the ROM holds reeves 1 to 7, and reeve 0's accesses
are the boot's own steps (R363). -/
def masterHeld (s : State) (m : Nat) : Bool := decide (0x40 ≤ m ∧ m ≤ 0x47) && s.rot.phase ≠ .done

/-- What a master does, if it runs. -/
def byMaster (s : State) (m : Nat) (k : State) : Out := .next (if masterHeld s m then s else k)

/-- QUEUE_DOORBELL. -/
def execQueueDoorbell (q : Nat) (widx : BitVec 32) (s : State) : Out :=
  .next (if q < 4096 then ringDoorbell s q widx else s)

/-- CONTROL_REGISTER_WRITE. -/
def execControlRegisterWrite (master off size : Nat) (value : Word64) (s : State) : Out :=
  byMaster s master (ctlWrite s master off size value.toNat)

/-- VIRTUAL_ERROR_QUEUE_ENABLE: a write of bytes 8 to 15 of the descriptor. -/
def execVirtualErrorQueueEnable (master ctx : Nat) (value : Word64) (s : State) : Out :=
  byMaster s master (if ctx < 4096 then ctlWrite s master (0x1800000 + 32 * ctx + 8) 8 value.toNat else s)

/-- EXCEPTION_QUEUE_ENABLE. -/
def execExceptionQueueEnable (master ctx : Nat) (value : Word64) (s : State) : Out :=
  byMaster s master (if ctx < 4096 then ctlWrite s master (0x1A00000 + 32 * ctx + 8) 8 value.toNat else s)

/-- PEER_TABLE_DISABLE: STATE := 0. -/
def execPeerTableDisable (master peer : Nat) (s : State) : Out :=
  byMaster s master (if peer < 256 then ctlWrite s master (0x300000 + 64 * peer + 20) 4 0 else s)

/-- TIME_ADJUST. -/
def execTimeAdjust (master : Nat) (value : Word64) (s : State) : Out :=
  byMaster s master (ctlWrite s master 0x400010 8 value.toNat)

/-- MR_EXTEND. -/
def execMrExtend (master index : Nat) (s : State) : Out := byMaster s master (ctlWrite s master 0x500140 4 index)

/-- BOOTGO. -/
def execBootgo (master : Nat) (value : BitVec 32) (s : State) : Out :=
  byMaster s master (ctlWrite s master 0x500008 4 value.toNat)

/-- RSTREQ. -/
def execRstreq (master : Nat) (value : BitVec 32) (s : State) : Out :=
  byMaster s master (ctlWrite s master 0x500018 4 value.toNat)

/-- TRAP_RECORD_WRITE: a held record goes into its context's ring when a unit is free and V = 1 (R426, R427). -/
def execTrapRecordWrite (ctx : Nat) (s : State) : Out :=
  let x := getCtx s ctx
  .next <| match x.held with
    | [] => s
    | r :: rest =>
      if !x.xq.v ∨ 2 ^ x.xq.log.toNat ≤ (x.xq.widx - x.xq.ridx).toNat then s
      else
        let s := cpPut s (x.xq.base.toNat + 64 * (x.xq.widx.toNat % 2 ^ x.xq.log.toNat)) r.bytes
        announce (modCtx s ctx fun x => { x with held := rest, xq := { x.xq with widx := x.xq.widx + 1 } })

end Sys2Proof.Machine
end

