-- ==== Sys2Proof/Machine/Homes.lean ====
section
/-! DEFINITION. Stores, tag writes and atomics on their way (R84, R135) and at their homes (R115, R273, R412, R449,
R454), and writes held for a migration (R456). -/

namespace Sys2Proof.Machine

/-- A flight that has been performed leaves the list. -/
def dropFlight (s : State) (id : Nat) : State :=
  let s := match s.flights.find? fun f => f.id = id with
    | some f => takeFlit s f
    | none => s
  { s with flights := s.flights.filter fun f => f.id ≠ id }

/-- One that will not be performed does, and the copies that have taken it go. -/
def undoFlight (s : State) (f : Flight) : State :=
  let s := undoCopies (leaveFlit s f) f
  { s with flights := s.flights.filter fun g => g.id ≠ f.id }

/-- `f` follows `g` to the home. An earlier flight of its core: to the same line, to the same home on another die
(R127, R358). A store to the line that another core of the stack made visible before
`f` was issued, or before `f` was made visible there (R125, R135). -/
def flightBefore (s : State) (f g : Flight) : Bool :=
  let a := flightPa f
  let b := flightPa g
  (decide (g.id < f.id ∧ g.core = f.core) &&
    (decide (a / 64 = b / 64) ||
      (decide (dieOf f.core ≠ homeDie a) && decide (homeOf a = homeOf b) && !g.held && !recalled s g))) ||
  (g.die && decide (g.core ≠ f.core ∧ dieOf g.core = dieOf f.core ∧ a / 64 = b / 64) &&
    (decide (g.dieAt < f.id) || (f.die && decide (g.dieAt < f.dieAt))))

/-- The flight may reach its home now; a line that a copy owns recalls it (R141). One with a migration mark changes nothing
there and goes behind none (R456, log 97). -/
def flightReady (s : State) (f : Flight) : Bool :=
  !f.held && flightThere s f &&
  (f.place.mig || (!(s.flights.any fun g => flightBefore s f g) && !copyOwns s (flightPa f / 64)))

/-- The stack's copy takes a store: on top where the store passes now, and with it the L1 copies of the other cores go;
below what later stores have left there where it had not passed before it came home (R135). -/
def updateStack (s : State) (f : Flight) (passing : Bool) : State :=
  let line := flightPa f / 64
  let die := dieOf f.core
  match stackCopy s die line with
  | none => s
  | some c =>
    let c := c.takeAll line (f :: if passing then [] else stackFlights s die)
    dropL1s { s with stack := fins s.stack (stackKey die line) c } die line (if passing then some f.core else none)

/-- The flight's home is on another stack, whose lines its own may hold copies of. -/
def passesStack (f : Flight) : Bool := match f.place, f.op with
  | .phys pa _ _ _, .store _ => decide (pa < dramEnd ∧ paDie pa ≠ dieOf f.core)
  | .phys pa _ _ _, .tag _ => decide (pa < dramEnd ∧ paDie pa ≠ dieOf f.core)
  | _, _ => false

/-- A REQUEST PASSES ITS STACK on its way: a store updates the copy, if one is present, and every core of the stack sees
it from then on; with none it creates none, and its die point is the home (R135). -/
def passDie (s : State) (f : Flight) : State :=
  if f.dieAt ≠ 0 then s
  else
    let seen := passesStack f && (stackCopy s (dieOf f.core) (flightPa f / 64)).isSome
    let (n, s) := fresh s
    let s := if seen then updateStack s f true else s
    { s with flights := s.flights.map fun g => if g.id = f.id then { g with die := seen, dieAt := n } else g }

/-- An atomic at its home: the old value. -/
def homeAtomic (s : State) (pa : Nat) (a : Atom) : State × Word64 :=
  let old : Word64 := wordOf 64 (s.dram.readN pa (atomLen a.sz))
  (match atomResult a.kind a.sz old a.b a.c with
    | some v => homePut s pa (bytesOfNat (atomLen a.sz) v.toNat)
    | none => s, old)

/-- The home keeps an atomic's answer (R462), and the old value of a returning one is on its way back. -/
def sendOld (s : State) (f : Flight) (a : Atom) (ret : Option (Nat × List Dest)) (old : Word64) : State :=
  match ret with
  | none => recordResult s (dieOf f.core) (flightHome f) f.id none
  | some (id, ds) =>
    let (source, die) := (homeOf (flightPa f), homeDie (flightPa f))
    let s := sendTraffic s die (dieOf f.core)
    let p : Pending := ⟨id, f.bid, f.wave, atomReturn ds a.sz old, false, f.lane, f.va, noPa, true,
      routeOf f.core source die, s.nextId, none⟩
    recordResult { s with pendings := s.pendings ++ [p] } (dieOf f.core) (flightHome f) f.id (some p)

/-- Poison consumed by an atomic at the home (R413). -/
def homePoison (s : State) (f : Flight) (pa : Nat) : State :=
  let r := ((errRec 2 0x0009).atUnit (paDie pa) 0xFF 21 (paChannel pa)).atPa pa
  consumePoison s f.ctx (r.atGlobal (globalVa s f)) 4

/-- What a flight does at a permitted home in DRAM. -/
def performHome (s : State) (f : Flight) (pa : Nat) : State :=
  let blk := pa / 64
  let s := if f.paid then s else spendToken s pa f.ctx
  match f.op with
  | .store bs => homePut (if bs.length = 64 then s else eccCheck s blk) pa bs
  | .tag t => homePutTag (eccCheck s blk) blk t
  | .atom a ret =>
    let s := eccCheck s blk
    if fget false s.dpoison blk then homePoison s f pa
    else
      let (s, old) := homeAtomic s pa a
      sendOld (dropStackLine s (dieOf f.core) blk) f a ret old

/-- What a flight does in control space. -/
def performControl (s : State) (f : Flight) (off : Nat) : State :=
  match f.op with
  | .store bs => ctlWrite s f.core off bs.length (natOf bs)
  | .tag _ => s
  | .atom a ret =>
    let old : Word64 := wordOf 64 (ctlBytes s off (atomLen a.sz))
    let s := match atomResult a.kind a.sz old a.b a.c with
      | some v => ctlWrite s f.core off (atomLen a.sz) v.toNat
      | none => s
    sendOld s f a ret old

/-- A FLIGHT REACHES ITS HOME: a leaf under migration answers RETRY, an owner's denial costs the context, else it is
performed. -/
def arriveHome (s : State) (f : Flight) : State :=
  match f.place with
  | .phys pa _ _ mig =>
    if ctlBase ≤ pa then performControl (dropFlight s f.id) f (pa - ctlBase)
    else if mig then
      let s := leaveFlit s f
      { s with flights := s.flights.map fun g => if g.id = f.id then { g with held := true } else g }
    else if ownerOk s f.owner pa then
      let s := dropFlight s f.id
      performHome (if passesStack f && !f.die then updateStack s f false else s) f pa
    else
        let s := undoFlight s f
        let o := frameOwner s (pa / 65536)
        loseContext (logErr s false ((((errRec 4 0x0030).atCtx s f.ctx).atPa pa).det o)) f.ctx 0x0030 1 false
  | _ => dropFlight s f.id

/-- WRITE_THROUGH_AT_HOME. -/
def execWriteThroughAtHome (id : Nat) (s : State) : Out :=
  .next <| match s.flights.find? fun f => f.id = id with
    | some f => if flightReady s f then arriveHome s f else s
    | none => s

/-- A request passes its stack ahead of reaching its home, behind the core's earlier ones to the line or to the same
home on another die (R135, R358). -/
def reachDie (s : State) (id : Nat) : State :=
  match s.flights.find? fun f => f.id = id with
  | some f =>
    if s.flights.any fun g => decide (g.id < f.id ∧ g.core = f.core ∧ g.dieAt = 0) && !g.held &&
        (decide (flightPa g / 64 = flightPa f / 64) || decide (homeOf (flightPa g) = homeOf (flightPa f)))
    then s else passDie s f
  | none => s

/-! ### Held writes (R456) -/

/-- A held write's lane takes PROT with POST, and the write is dropped. -/
def dropHeld (s : State) (f : Flight) : State :=
  let s := undoFlight s f
  match getBlock s f.bid with
  | some b =>
    let s := denyPost s b f.wave f.word [(f.lane, f.va)]
    match f.op with
    | .atom _ (some r) => cancelProducer s f.bid f.wave r.1
    | _ => s
  | none => s

/-- A flight's length in bytes, and whether it writes a tag. -/
def FlightOp.size : FlightOp → Nat
  | .store bs => bs.length
  | .tag _ => 2
  | .atom a _ => atomLen a.sz

def FlightOp.isTag : FlightOp → Bool
  | .tag _ => true
  | _ => false

/-- A held write whose leaf now names a peer's window is issued to the peer, as old as it was (R360, R456). -/
def sendHeld (s : State) (f : Flight) (peer off : Nat) : State :=
  let send (a : Access) (ret : Option NetRet) : State :=
    sendFor (undoFlight s f) f.core f.bid f.task f.ctx f.wave f.lane f.date f.word f.va peer off a ret
  match f.op with
  | .store bs => send (.write bs) none
  | .tag _ => dropHeld s f
  | .atom a ret => send (atomAccess a) (ret.map fun r => ⟨r.1, r.2, false, []⟩)

/-- A held write is issued to another place: the copies of the old line that have taken it go, and those of the new line,
which a fill then makes with it (R125, R127, R135). -/
def retarget (s : State) (f : Flight) (p : Place) : State :=
  let g : Flight := { f with place := p, held := false, dieAt := if f.die then f.dieAt else 0 }
  let s := undoCopies s f
  let s := { s with flights := s.flights.map fun x => if x.id = f.id then g else x }
  sendFlight (dropStackLine s (dieOf f.core) (flightPa g / 64)) f.id

/-- An earlier write of the core to the page is still under migration (R456). -/
def retryWaits (s : State) (f : Flight) : Bool :=
  s.flights.any fun g => decide (g.id < f.id ∧ g.core = f.core) && g.place.mig &&
    samePage s f.ctx (globalVa s f).toNat f.place g

/-- The write is translated again: it stays held, or is issued again to where the leaf now points, in the order of the
page's writes. -/
def retryHeld (s : State) (f : Flight) : State :=
  if retryWaits s f then s
  else match translate s (flightWho f) (globalVa s f) true f.op.isTag with
  | (s, .ok (.remote peer off)) => sendHeld s f peer off
  | (s, .ok p) =>
    if p.mig then s
    else if !writeAllowed s f.core p f.op.size then dropHeld s f
    else retarget s f p
  | (s, .error (.park _)) => loseContext (undoFlight s f) f.ctx 0x0030 1 false
  | (s, .error (.poison va pa agent)) =>
    consumePoison s f.ctx ((((errRec 2 0x0009).atPa pa).atUnit (dieOf f.core) f.core 20 0xFF).atGlobal va) agent
  | (s, .error (.exc .prot ..)) => dropHeld s f
  | (s, .error _) => s

/-- MIGRATION_RETRY. -/
def execMigrationRetry (id : Nat) (s : State) : Out :=
  .next <| match s.flights.find? fun f => f.id = id with
    | some f => if f.held then retryHeld s f else s
    | none => s

end Sys2Proof.Machine
end

