-- ==== Sys2Proof/Machine/Barriers.lean ====
section
/-! DEFINITION. The completion of TBAR and TGBAR (R290, R291), the flush of deferred atomics (R149, R150, R424) and the
adjustment of the islands at barriers (R186). -/

namespace Sys2Proof.Machine

/-! ### Islands (R14, R186, R371) -/

/-- A core island's range under its stack's thermal response. -/
def islandLimit (s : State) (die v : Nat) : Nat :=
  match fget .normal s.thermal die with
  | .normal => min 700 (max 400 v)
  | .capped => min 600 (max 400 v)
  | .throttled => 400

/-- Points that a raise would give: the module stays within its power limit, or nothing is raised (R14, R186). -/
def withinPower (s : State) (points : FMap Nat) : FMap Nat := if Config.drawnPower points ≤ s.power then points else s.dvfs

/-- The controller moves a core's seven islands, down or up; the amount is its own (log 14). -/
def moveIslands (s : State) (core : Nat) (up : Bool) : State :=
  (List.range 7).foldl (fun s i =>
    let k := core * 7 + i
    let (ix, s) := freeIx s
    let old := fget 600 s.dvfs k
    let want := islandLimit s (dieOf core) (Config.dvfsPoint k ix)
    { s with dvfs := if up then withinPower s (fput 600 s.dvfs k (max old want)) else fput 600 s.dvfs k (min old want) }) s

/-- The cores whose blocks arrived before the last are slowed, and the last one's is raised. -/
def adjustIslands (s : State) (cores : List Nat) : State :=
  match cores.getLast? with
  | none => s
  | some last => moveIslands ((cores.dropLast.filter fun c => c ≠ last).foldl (fun s c => moveIslands s c false) s) last true

/-- A task's resident blocks in the order of a list of block indexes: their cores. -/
def coresOf (s : State) (task : Nat) (lins : List Nat) : List Nat :=
  lins.filterMap fun i => (s.blocks.find? fun b => decide (b.task = task ∧ b.lin = i)).bind (·.core)

/-- A block arrives at a TBAR: the order is kept until every resident block of the task has arrived. -/
def arriveOrder (s : State) (b : Block) : State :=
  let old := fget [] s.order b.task
  let list := if b.lin ∈ old then [b.lin] else old ++ [b.lin]
  if s.blocks.all fun x => x.task ≠ b.task || x.core.isNone || decide (x.lin ∈ list) then
    adjustIslands { s with order := fdel s.order b.task } (coresOf s b.task list)
  else { s with order := fput [] s.order b.task list }

/-! ### Deferred atomics at a flush point (R148 to R150) -/

/-- The key's order. -/
def detBefore (x y : DetEntry) : Bool :=
  decide (x.lin < y.lin) || (decide (x.lin = y.lin) && (decide (x.wave < y.wave) || (decide (x.wave = y.wave) &&
    (decide (x.lane < y.lane) || (decide (x.lane = y.lane) && decide (x.seq < y.seq))))))

def DetEntry.onSpad (e : DetEntry) : Bool := match e.atom.place with
  | .spad _ => true
  | _ => false

def DetEntry.onPeer (e : DetEntry) : Bool := match e.atom.place with
  | .remote .. => true
  | _ => false

/-- The scratchpad line of an entry is present in its block, or the block is gone (R97). -/
def detPresent (s : State) (e : DetEntry) : Bool :=
  match e.atom.place, getBlock s e.bid with
  | .spad off, some b => !absentIn b off (atomLen e.atom.sz)
  | _, _ => true

/-- The registers that still wait for the entry take its value; a retired wave's are gone (R443). -/
def fillDeferred (s : State) (e : DetEntry) (old : Word64) : State :=
  match e.ret with
  | none => s
  | some ds => modWave (dropWaits s e.id) e.bid e.wave fun w =>
    if w.retired then w
    else (atomReturn ds e.atom.sz old).foldl (fun w p =>
      let waits : Bool := match p.1 with
        | .v ix lane => decide ((fget fullV w.vreg (vkey ix lane)).fill = .defer e.id)
        | .s n => decide ((fget fullS w.sreg n).fill = .defer e.id)
        | .z _ => false
      if waits then w.setDest p.1 p.2 .full else w) w

/-- A deferred scratchpad atomic. -/
def flushSpad (s : State) (e : DetEntry) (off : Nat) : State :=
  match getBlock s e.bid, getWave s e.bid e.wave with
  | some b, some w =>
    if fget false b.spoison (off / 64) && e.ret.isSome && !w.retired then
      consumePoison s b.ctx (lanePoison s b e.wave w e.lane (laneOf w e.lane).tp e.atom.va noPa) 0
    else
      let (old, b) := spadAtom b off e.atom
      fillDeferred (setBlock s b) e old
  | _, _ => s

/-- The request of a deferred atomic crosses to its home with its pair number (R10, R462). -/
def flushSend (s : State) (e : DetEntry) (pa : Nat) : State :=
  countPair (sendTraffic (pinHome s e.core pa) (dieOf e.core) (homeDie pa)) (dieOf e.core) (homeDie pa)

/-- Its home keeps the answer (R462), and a returning one's old value crosses back to its registers. -/
def flushAnswer (s : State) (e : DetEntry) (pa : Nat) (old : Word64) : State :=
  let (here, home) := (dieOf e.core, homeDie pa)
  let s := if e.ret.isSome then sendTraffic s home here else s
  let p : Option Pending := e.ret.map fun ds => ⟨e.id, e.bid, e.wave, atomReturn ds e.atom.sz old, false, e.lane, e.atom.va, noPa,
    true, routeOf e.core (homeOf pa) home, s.nextId, none⟩
  fillDeferred (recordResult s here home e.id p) e old

/-- A deferred global atomic at its mill: a denial traps no lane, is recorded and costs the context (R119, R424, log 98). -/
def flushHome (s : State) (e : DetEntry) (pa : Nat) : State :=
  let n := atomLen e.atom.sz
  if !writeAllowed s e.core e.atom.place n then
    loseContext (logErr s false ((((errRec 4 0x0032).atCtx s e.ctx).atPa pa).det e.core)) e.ctx 0x0032 1 false
  else if ctlBase ≤ pa then
    let s := flushSend s e pa
    let old : Word64 := wordOf 64 (ctlBytes s (pa - ctlBase) n)
    let s := match atomResult e.atom.kind e.atom.sz old e.atom.b e.atom.c with
      | some v => ctlWrite s e.core (pa - ctlBase) n v.toNat
      | none => s
    flushAnswer s e pa old
  else
    let owner := ctxOwner s e.ctx
    if !ownerOk s owner pa then
      loseContext (logErr s false ((((errRec 4 0x0030).atCtx s e.ctx).atPa pa).det (frameOwner s (pa / 65536))))
        e.ctx 0x0030 1 false
    else
      let blk := pa / 64
      let s := eccCheck (spendToken (flushSend s e pa) pa e.ctx) blk
      if fget false s.dpoison blk then
        let r := ((errRec 2 0x0009).atUnit (paDie pa) 0xFF 21 (paChannel pa)).atPa pa
        consumePoison s e.ctx (r.atGlobal e.gva) 4
      else
        let (s, old) := homeAtomic s pa e.atom
        flushAnswer (dropStackLine s (dieOf e.core) blk) e pa old

/-- One entry, if it is still in the buffer. -/
def flushOne (s : State) (e : DetEntry) : State :=
  if s.detbuf.all fun x => x.id ≠ e.id then s
  else
    let s := { s with detbuf := s.detbuf.filter fun x => x.id ≠ e.id }
    match e.atom.place with
    | .spad off => flushSpad s e off
    | .phys pa _ _ _ => flushHome s e pa
    | _ => s

/-- Entries in key order. -/
def flushAll (s : State) (es : List DetEntry) : State := (sortBy detBefore es).foldl flushOne s

/-- The new translation of an entry whose leaf was under migration: none while it still is, or its page is not mapped. A walk
that the home denies or that meets poison costs the context, as does a leaf that does not let the atomic write (R413, R424,
R454). -/
def detMoved (s : State) (e : DetEntry) : State × Option Place :=
  match e.atom.place with
  | .phys _ _ _ true =>
    match translate s ⟨e.core, ctxOwner s e.ctx, e.ctx, e.task, e.core, 0⟩ e.gva true false with
    | (s, .ok p) => (s, if p.mig then none else some p)
    | (s, .error (.park _)) => (loseContext s e.ctx 0x0030 1 false, none)
    | (s, .error (.poison va pa agent)) =>
      (consumePoison s e.ctx ((((errRec 2 0x0009).atPa pa).atUnit (dieOf e.core) e.core 20 0xFF).atGlobal va) agent, none)
    | (s, .error (.exc .pgflt ..)) => (s, none)
    | (s, .error (.exc ..)) => (loseContext s e.ctx 0x0032 1 false, none)
    | (s, .error .stale) => (s, none)
  | p => (s, some p)

/-- The entry at its place. -/
def DetEntry.moved (e : DetEntry) (p : Place) : DetEntry := { e with atom := { e.atom with place := p } }

/-- Entries at their places; none where one has none now. -/
def moveAll (s : State) : List DetEntry → State × Option (List DetEntry)
  | [] => (s, some [])
  | e :: es => match detMoved s e with
    | (s, none) => (s, none)
    | (s, some p) => match moveAll s es with
      | (s, some xs) => (s, some (e.moved p :: xs))
      | (s, none) => (s, none)

/-- An entry to a remote window leaves for its peer (R360); its registers wait for the answer. -/
def sendDeferred (s : State) (e : DetEntry) : State :=
  match e.atom.place with
  | .remote peer off =>
    let s := { s with detbuf := s.detbuf.filter fun x => x.id ≠ e.id }
    let s := modWave s e.bid e.wave fun w => match e.ret with
      | some ds => ds.foldl (fun w d =>
          let waits : Bool := match d with
            | .v ix lane => decide ((fget fullV w.vreg (vkey ix lane)).fill = .defer e.id)
            | .s n => decide ((fget fullS w.sreg n).fill = .defer e.id)
            | .z _ => false
          if waits then w.setDest d 0 (.pend e.id) else w) w
      | none => w
    sendFor s e.core e.bid e.task e.ctx e.wave e.lane 0 e.atom.word e.atom.va peer off (atomAccess e.atom)
      (e.ret.map fun ds => ⟨e.id, ds, false, []⟩)
  | _ => s

/-- What the task's requests to peers still have outstanding. -/
def peersBusy (s : State) (task : Nat) : Bool := s.netOut.any fun n => decide (n.task = task) && !isRead n.access

/-- A store that a block of the task has committed is not at its home, or in its scratchpad (R149). -/
def storesOut (s : State) (task : Nat) : Bool :=
  (s.flights.any fun f => decide (f.task = task)) ||
  s.blocks.any fun b => decide (b.task = task) && b.waves.any fun w => w.path.any fun r => r.item.places ≠ []

/-- The entry's line of DRAM belongs to a copy that has still to write it (R141). -/
def detOwned (s : State) (e : DetEntry) : Bool := match e.atom.place with
  | .phys pa _ _ _ => copyOwns s (pa / 64)
  | _ => false

/-- An earlier request of the entry's core to the same home is still on its way (R358). -/
def detFollows (s : State) (e : DetEntry) : Bool := match e.atom.place with
  | .phys pa _ _ _ => requestsAhead s e.core pa
  | _ => false

/-- THE FLUSH OF A TASK: none while it cannot finish yet; the state says how far it has come. Entries to peers go one at a
time in key order, each once every earlier request of the task to a peer has been acknowledged (R149). -/
def flushTask (s : State) (task : Nat) : State × Bool :=
  match moveAll s (s.detbuf.filter fun e => e.task = task) with
  | (s, none) => (s, false)
  | (s, some es) =>
    if !(es.all (detPresent s)) ∨ es.any (detOwned s) ∨ es.any (detFollows s) ∨ storesOut s task ∨ peersBusy s task then
      (s, false)
    else match (sortBy detBefore es).find? DetEntry.onPeer with
      | some e => (sendDeferred s e, false)
      | none => (flushAll s es, true)

/-- A new epoch begins: counts and sequences start at 0 (R148, R440). -/
def newEpoch (s : State) (task : Nat) : State :=
  let wave (w : Wave) : Wave := { w with det := 0, lanes := w.lanes.map fun l => { l with seq := 0 } }
  { s with blocks := s.blocks.map fun b => if b.task = task then { b with waves := b.waves.map wave } else b }

/-! ### TBAR -/

/-- Every lane of the wave has exited or waits in a state that `p` accepts. -/
def Wave.arrived (w : Wave) (p : LaneState → Bool) : Bool :=
  w.retired || w.lanes.all fun l => decide (l.st = .exited) || p l.st

def atTbar : LaneState → Bool
  | .tbar _ => true
  | _ => false

/-- Some lane of the block waits in such a state. -/
def Block.waits (b : Block) (p : LaneState → Bool) : Bool := b.waves.any fun w => w.lanes.any fun l => p l.st

/-- A store of the block to a deferred atomic's bytes is still in a write path: the atomic follows it (R125, R150). -/
def storeHeld (b : Block) (e : DetEntry) : Bool := b.waves.any fun w => w.path.any fun r =>
  anyInOrder true r.item.places [(e.atom.place, atomLen e.atom.sz)]

/-- BLOCK_BARRIER_COMPLETE: every lane that has not exited waits at a TBAR. -/
def completeTbar (s : State) (b : Block) : State :=
  let es := if taskDet s b.task then s.detbuf.filter fun e => decide (e.bid = b.id) && e.onSpad else []
  if !(es.all fun e => detPresent s e && !storeHeld b e) then s
  else
    let s := arriveOrder (flushAll s es) b
    modBlock s b.id fun b => departWhere b fun
      | .tbar succ => some succ
      | _ => none

/-- A TBAR of the block completes, if it can. -/
def tryTbar (s : State) (bid : Nat) : State := match getBlock s bid with
  | none => s
  | some b => if b.core.isSome && b.waits atTbar && b.waves.all fun w => w.arrived atTbar then completeTbar s b else s

def execBlockBarrierComplete (bid : Nat) (s : State) : Out := .next (tryTbar s bid)

/-! ### TGBAR -/

/-- A lane waits at TGBAR and its arrival's release is complete; a saved block's was before the save (R181). -/
def atTgbar (s : State) (core : Option Nat) : LaneState → Bool
  | .tgbar _ rel => match core with
    | some c => releaseMet s c .device rel
    | none => true
  | _ => false

/-- A block's arrival. -/
def Block.gridArrived (s : State) (b : Block) : Bool := b.waves.all fun w => w.arrived (atTgbar s b.core)

/-- Every block of the grid has been launched, and has ended or arrived, and some lane waits; a DET task's flush needs
every block resident (R387). -/
def gridReady (s : State) (t : Task) : Bool :=
  let bs := s.blocks.filter fun b => b.task = t.id
  (!t.det || bs.all fun b => b.core.isSome) && decide (bs.length + t.ended = t.f.gx * t.f.gy * t.f.gz) && bs.all (Block.gridArrived s) &&
  bs.any fun b => b.waits fun
    | .tgbar .. => true
    | _ => false

/-- When a block's last lane arrived. -/
def Block.arrivedAt (b : Block) : Nat := b.waves.foldl (fun n w => w.lanes.foldl (fun n l => match l.st with
  | .tgbar _ rel => max n rel
  | _ => n) n) 0

/-- The waiting lanes of a task depart from TGBAR, acquiring at DEVICE scope. -/
def departGrid (s : State) (task : Nat) : State :=
  let bs := s.blocks.filter fun b => b.task = task
  bs.foldl (fun s b =>
    let s := modBlock s b.id fun b => departWhere b fun
      | .tgbar succ _ => some succ
      | _ => none
    match b.core with
    | some c => acquireDrops s c .device
    | none => s) s

/-- GRID_BARRIER_COMPLETE. -/
def completeTgbar (s : State) (t : Task) : State :=
  let order := (sortBy (fun a b => decide (a.arrivedAt < b.arrivedAt)) (s.blocks.filter fun b => b.task = t.id)).map (·.lin)
  let cores := coresOf s t.id order
  let go (s : State) : State := departGrid (adjustIslands { s with order := fdel s.order t.id } cores) t.id
  if t.det then
    match flushTask s t.id with
    | (s, false) => s
    | (s, true) => go (newEpoch s t.id)
  else go s

def execGridBarrierComplete (task : Nat) (s : State) : Out :=
  .next <| match getTask s task with
    | none => s
    | some t => if gridReady s t then completeTgbar s t else s

end Sys2Proof.Machine
end

