-- ==== Sys2Proof/Machine/Calls.lean ====
section
/-! DEFINITION. The completion of TCALL and TRET and the spill engine (R32 to R34, R99, R438). -/

namespace Sys2Proof.Machine

/-! ### The spill engine's accesses -/

/-- What stops a step. -/
inductive SpillStop where
  /-- A stale translation was purged, or a line is owned: the step is taken again. -/
  | again
  | fault (e : Exc) (va : Word64)
  /-- Pages to be resolved, each with its lane. -/
  | pages (xs : List Raise)
  /-- A denial or poison: the context is lost. -/
  | lost
  deriving DecidableEq, Repr, Inhabited

/-- The private address of a lane, as the program would write it. -/
def privateVa (off : Nat) : Word64 := BitVec.ofNat 64 (0xF1 * 2 ^ 56 + off)

/-- The global address of a lane's private offset; none beyond the global window (R99). -/
def spillAddr (s : State) (b : Block) (wi lane off n : Nat) : Option Word64 :=
  match (getCtx s b.ctx).desc with
  | none => none
  | some d =>
    let g := d.pbase + ((b.frame * 32 + wi) * 32 + lane) * 2 ^ d.psz + off
    if 2 ^ 56 < g + n then none else some (BitVec.ofNat 64 g)

/-- The places of one step's accesses, a lane each, with its private offset and what stops the step. -/
def spillPlaces (s : State) (b : Block) (wi off n : Nat) (wr : Bool) :
    List Nat → State × Except SpillStop (List (Nat × Word64 × Place))
  | [] => (s, .ok [])
  | l :: ls =>
    match spillAddr s b wi l off n with
    | none => (s, .error (.fault .stkovf (privateVa off)))
    | some a =>
      match translate s (whoOf s b 0) a wr false with
      | (s, .ok p) =>
        if wr && !writeAllowed s (b.core.getD 0) p 8 then (s, .error (.fault .prot (privateVa off)))
        else match spillPlaces s b wi off n wr ls with
          | (s, .ok ps) => (s, .ok ((l, privateVa off, p) :: ps))
          | r => r
      | (s, .error (.exc .pgflt f d _)) =>
        match spillPlaces s b wi off n wr ls with
        | (s, .ok _) => (s, .error (.pages [(l, .exc .pgflt f d (some a))]))
        | (s, .error (.pages xs)) => (s, .error (.pages ((l, .exc .pgflt f d (some a)) :: xs)))
        | r => r
      | (s, .error .stale) => (s, .error .again)
      | (s, .error (.park _)) => (loseContext s b.ctx 0x0030 1 false, .error .lost)
      | (s, .error (.poison va pa agent)) =>
        (match getWave s b.id wi with
          | some w => consumePoison s b.ctx (lanePoison s b wi w l (laneOf w l).tp va pa) agent
          | none => s, .error .lost)
      | (s, .error _) => (s, .error (.fault .prot (privateVa off)))

/-- The bytes of the sixteen registers from index `low` of a lane. -/
def rowBytes (w : Wave) (low lane : Nat) : List Byte :=
  (List.range 16).flatMap fun i => bytesOfNat 4 (fget fullV w.vreg (vkey (low + i) lane)).val.toNat

/-- Registers of a range of indexes are released: where the wider window of an outer caller shows an index of them again,
it reads as 0 and full, which the spec leaves open (log 85). -/
def Wave.release (w : Wave) (p : Nat → Bool) : Wave := { w with vreg := w.vreg.filter fun x => !p (x.1 / 32) }

/-- Every register of a range of indexes is full; one that a cancelled write has left empty is not, and a spill waits for
it (R34, log 82). -/
def Wave.allFull (w : Wave) (p : Nat → Bool) : Bool := w.vreg.all fun x => !p (x.1 / 32) || decide (x.2.fill = .full)

/-- A step of the spill: sixteen rows of 32 lanes leave for the private apertures. Those inside the new window, from
`wo` on, stay in the wave, which goes on to use them (R32, log 45). -/
def spillStep (s : State) (b : Block) (wi wo : Nat) (site : Word64) : State × Option SpillStop :=
  match getWave s b.id wi with
  | none => (s, some .lost)
  | some w =>
    let inRow (i : Nat) : Bool := decide (w.low ≤ i) && decide (i < w.low + 16)
    if !w.allFull inRow then (s, some .again)
    else match spillPlaces s b wi (4 * w.low) 64 true allLanes with
      | (s, .error e) => (s, some e)
      | (s, .ok ps) =>
        if anyPageHeld s b wi s.nextId (ps.map fun p => (p.1, p.2.1, p.2.2, 64)) then (s, some .again)
        else
        let s := ps.foldl (fun s p => issueStore s b.id wi 0 0 ⟨p.1, site, p.2.1, p.2.2, rowBytes w w.low p.1⟩) s
        (modWave s b.id wi fun w =>
          let kept := if w.kept = w.low then max w.low (min wo (w.low + 16)) else w.kept
          { w.release (fun i => inRow i && decide (i < kept)) with low := w.low + 16, kept := kept }, none)

/-- The bytes of one refill or descriptor read. -/
def spillRead (s : State) (b : Block) (wi : Nat) (w : Wave) (p : Nat × Word64 × Place) (n : Nat) :
    State × Except SpillStop (List Byte) :=
  match readPlace s (whoOf s b 0) b w wi p.1 p.2.1 p.2.2 n 0 with
  | (s, .wait) => (s, .error .again)
  | (s, .stop (.park _)) => (loseContext s b.ctx 0x0030 1 false, .error .lost)
  | (s, .stop _) => (s, .error (.fault .prot p.2.1))
  | (s, .got v _ poison pa _) =>
    if poison then (consumePoison s b.ctx (lanePoison s b wi w p.1 (laneOf w p.1).tp p.2.1 pa) 0, .error .lost)
    else (s, .ok v)
  | (s, .remote peer _) => match peerRead s (b.core.getD 0) peer n with
    | (s, none) => (s, .error .again)
    | (s, some (.ok v)) => (s, .ok v)
    | (s, some (.error .refused)) => (s, .error (.fault .prot p.2.1))
    | (s, some (.error .poison)) =>
      (consumePoison s b.ctx (lanePoison s b wi w p.1 (laneOf w p.1).tp p.2.1 noPa) 0, .error .lost)

/-- Reads one after another. -/
def spillReads (s : State) (b : Block) (wi : Nat) (w : Wave) (n : Nat) :
    List (Nat × Word64 × Place) → State × Except SpillStop (List (Nat × List Byte))
  | [] => (s, .ok [])
  | p :: ps => match spillRead s b wi w p n with
    | (s, .error e) => (s, .error e)
    | (s, .ok v) => match spillReads s b wi w n ps with
      | (s, .error e) => (s, .error e)
      | (s, .ok vs) => (s, .ok ((p.1, v) :: vs))

/-- A lane's sixteen registers from index `low` take bytes, but those that never left the wave (R33). -/
def putRow (w : Wave) (low lane : Nat) (bs : List Byte) : Wave :=
  (List.range 16).foldl (fun w i => if w.kept ≤ low + i then w else
    { w with vreg := fput fullV w.vreg (vkey (low + i) lane) ⟨wordOf 32 ((bs.drop (4 * i)).take 4), .full⟩ }) w

/-- A step of the refill: the sixteen rows below LOW come back. -/
def refillStep (s : State) (b : Block) (wi : Nat) : State × Option SpillStop :=
  match getWave s b.id wi with
  | none => (s, some .lost)
  | some w =>
    let low := w.low - 16
    match spillPlaces s b wi (4 * low) 64 false allLanes with
    | (s, .error e) => (s, some e)
    | (s, .ok ps) => match spillReads s b wi w 64 ps with
      | (s, .error e) => (s, some e)
      | (s, .ok vs) =>
        (modWave s b.id wi fun w => { vs.foldl (fun w v => putRow w low v.1 v.2) w with low := low, kept := min w.kept low }, none)

/-- The outcome of the steps taken so far. -/
def spillOutcome (s : State) (b : Block) (wi : Nat) (site : Word64) (m : Mask) (e : SpillStop) : State :=
  match e, getWave s b.id wi with
  | .fault x va, some _ => takePost s b wi site site m x 0 (if x = .stkovf then none else some va) true
  | .pages xs, some _ => takePageFaults s b wi site site false xs
  | _, _ => s

/-! ### Descriptors (R34) -/

/-- A descriptor's sixteen bytes. -/
def Frame.bytes (f : Frame) : List Byte :=
  bytesOfNat 8 f.rettp.toNat ++ bytesOfNat 4 f.wo ++ bytesOfNat 2 f.ws ++ [0, 0]

/-- The context's SPLIM. -/
def spillLimit (s : State) (b : Block) : Nat := match (getCtx s b.ctx).desc with
  | some d => d.splim
  | none => 0

/-- The descriptor that a seventeenth pushes out goes to lane 0's private aperture. -/
def writeFrame (s : State) (b : Block) (wi depth : Nat) (f : Frame) (site : Word64) : State × Option SpillStop :=
  let sp := spillLimit s b
  if sp < 16 * (depth + 1) then (s, some (.fault .stkovf 0))
  else match spillPlaces s b wi (sp - 16 * (depth + 1)) 16 true [0] with
    | (s, .error e) => (s, some e)
    | (s, .ok ps) =>
      if anyPageHeld s b wi s.nextId (ps.map fun p => (p.1, p.2.1, p.2.2, 16)) then (s, some .again)
      else (ps.foldl (fun s p => issueStore s b.id wi 0 0 ⟨p.1, site, p.2.1, p.2.2, f.bytes⟩) s, none)

/-- A descriptor in memory. -/
def readFrame (s : State) (b : Block) (wi : Nat) (w : Wave) (depth : Nat) : State × Except SpillStop Frame :=
  match spillPlaces s b wi (spillLimit s b - 16 * (depth + 1)) 16 false [0] with
  | (s, .error e) => (s, .error e)
  | (s, .ok ps) => match spillReads s b wi w 16 ps with
    | (s, .error e) => (s, .error e)
    | (s, .ok vs) =>
      let v := vs.flatMap (·.2)
      (s, .ok ⟨wordOf 64 (v.take 8), natOf ((v.drop 8).take 4), natOf ((v.drop 12).take 2)⟩)

/-! ### TCALL -/

/-- SpillUntil(TOP − LOW ≤ RPL) at call depth `d`, in at most `n` steps, for a window from `wo` to `top`. -/
def spillUntil (s : State) (b : Block) (wi wo top d : Nat) (site : Word64) : Nat → State × Option SpillStop
  | 0 => (s, none)
  | n + 1 =>
    match getWave s b.id wi with
    | none => (s, some .lost)
    | some w =>
      if top ≤ w.low + b.shape.rpl then (s, none)
      else if spillLimit s b < 4 * (w.low + 16) + 16 * d then (s, some (.fault .stkovf 0))
      else match spillStep s b wi wo site with
        | (s, none) => spillUntil s b wi wo top d site n
        | r => r

/-- The call's own effect: the frame is pushed, the window moves, new registers are zero, the lanes go on. -/
def Wave.enter (w : Wave) (callee ret : Word64) (k ws' : Nat) (m : Mask) : Wave :=
  let wo' := w.wo + k
  let fresh (i : Nat) : Bool := decide (w.wo + w.ws ≤ i) && decide (i < wo' + ws')
  { ((w.release fresh).modLanes m fun _ y => { y with st := .runnable, tp := callee }) with
    wo := wo', ws := ws', frames := (⟨ret, w.wo, w.ws⟩ :: w.frames).take 16, depth := w.depth + 1 }

/-- The one TCALL at which every lane that has not exited waits; where lanes came to it with different values of the
callee's register, the lowest one's counts (log 86). -/
def Wave.callSite (w : Wave) : Option (Word64 × Word64 × Word64 × Nat × Nat) :=
  let out : List LaneState := (w.lanes.map (·.st)).filter fun st => st ≠ .exited
  match out with
  | .tcall site callee ret k ws' :: _ =>
    if out.all fun st => st.site = some (site, true) then some (site, callee, ret, k, ws') else none
  | _ => none

/-- CALL_COMPLETE. -/
def completeCall (s : State) (b : Block) (wi : Nat) (w : Wave) (site callee ret : Word64) (k ws' : Nat) : State :=
  let m := maskOf fun l => (laneOf w l).st ≠ .exited
  let d := w.depth + 1
  let (s, e) : State × Option SpillStop := match nth w.frames 15 with
    | some f => writeFrame s b wi (w.depth - 16) f site
    | none => (s, none)
  match e with
  | some e => spillOutcome s b wi site m e
  | none =>
    let top := w.wo + k + ws'
    match spillUntil s b wi (w.wo + k) top d site (top / 16 + 1) with
    | (s, some e) => spillOutcome s b wi site m e
    | (s, none) => modWave s b.id wi fun w => w.enter callee ret k ws' m

def execCallComplete (bid w : Nat) (s : State) : Out :=
  .next <| match getBlock s bid, getWave s bid w with
    | some b, some x =>
      match x.callSite with
      | some (site, callee, ret, k, ws') =>
        if b.core.isSome && x.parked.isEmpty then completeCall s b w x site callee ret k ws' else s
      | none => s
    | _, _ => s

/-! ### TRET -/

/-- RefillUntil(LOW ≤ WO), in at most `n` steps. -/
def refillUntil (s : State) (b : Block) (wi wo : Nat) : Nat → State × Option SpillStop
  | 0 => (s, none)
  | n + 1 =>
    match getWave s b.id wi with
    | none => (s, some .lost)
    | some w =>
      if w.low ≤ wo then (s, none)
      else match refillStep s b wi with
        | (s, none) => refillUntil s b wi wo n
        | r => r

/-- The return's own effect: the frame is popped, the callee's registers above its window are released, the lanes go on. -/
def Wave.leave (w : Wave) (f : Frame) (m : Mask) : Wave :=
  { ((w.release fun i => decide (f.wo + f.ws ≤ i) && decide (i < w.wo + w.ws)).modLanes m fun _ y => { y with st := .runnable, tp := f.rettp }) with
    wo := f.wo, ws := f.ws, frames := w.frames.drop 1, depth := w.depth - 1 }

/-- Every lane that has not exited waits at a TRET: the site of the lowest. -/
def Wave.returnSite (w : Wave) : Option Word64 :=
  let out : List LaneState := (w.lanes.map (·.st)).filter fun st => st ≠ .exited
  match out with
  | .tret site :: _ => if out.all fun st => match st with
      | .tret _ => true
      | _ => false then some site else none
  | _ => none

/-- RETURN_COMPLETE. -/
def completeReturn (s : State) (b : Block) (wi : Nat) (w : Wave) (site : Word64) : State :=
  let m := maskOf fun l => (laneOf w l).st ≠ .exited
  let (s, f) : State × Except SpillStop Frame := match w.frames with
    | f :: _ => (s, .ok f)
    | [] => readFrame s b wi w (w.depth - 1)
  match f with
  | .error e => spillOutcome s b wi site m e
  | .ok f =>
    if !w.allFull fun i => decide (f.wo + f.ws ≤ i) then s
    else match refillUntil s b wi f.wo (w.low / 16 + 1) with
      | (s, some e) => spillOutcome s b wi site m e
      | (s, none) => modWave s b.id wi fun w => w.leave f m

def execReturnComplete (bid w : Nat) (s : State) : Out :=
  .next <| match getBlock s bid, getWave s bid w with
    | some b, some x =>
      match x.returnSite with
      | some site => if b.core.isSome && x.parked.isEmpty && decide (0 < x.depth) then completeReturn s b w x site else s
      | none => s
    | _, _ => s

end Sys2Proof.Machine
end

