-- ==== Sys2Proof/Machine/Place.lean ====
section
/-! DEFINITION. Room on a core and placement (R24, R98, R167 to R172), the state of a launched block (R39, R97, R117,
R307). -/

namespace Sys2Proof.Machine

/-! ### Room (R24, R171, R172) -/

/-- The shape of R158's field 3. -/
def shapeOf (v : Word64) : Shape :=
  ⟨(v.extractLsb' 0 6).toNat, 16 * (v.extractLsb' 8 8).toNat, (v.extractLsb' 16 13).toNat, (v.extractLsb' 32 3).toNat,
    v.getLsbD 35⟩

/-- The free slots of a unit, active ones first (R172). -/
def freeSlots (s : State) (core unit : Nat) : List Nat :=
  let used := (unitWaves s core unit).map fun p => p.2.2.slot
  (List.range 16).filter fun i => i ∉ used

/-- The unit and slot of each wave of a block of `n` waves; none where a unit has too few free slots. -/
def wavePlaces (s : State) (core n : Nat) : Option (List (Nat × Nat)) :=
  let b := (getCore s core).nextUnit
  let ps := (List.range n).filterMap fun w =>
    let u := (b + w) % 16
    (nth (freeSlots s core u) (w / 16)).map fun slot => (u, slot)
  if ps.length = n then some ps else none

/-- A core has room for a block of the shape. -/
def hasRoom (s : State) (core : Nat) (x : Shape) : Bool :=
  let bs := residents s core
  decide (sumOf (fun b => granules b.shape) bs + granules x ≤ 112) &&
  decide (sumOf (fun b => b.shape.tiles) bs + x.tiles ≤ 4) &&
  (!x.seq || decide ((bs.filter fun b => b.shape.seq).length < 2)) &&
  (wavePlaces s core x.w).isSome

/-- The deferred-atomic buffer has room for one more block of a DET task (R352). -/
def detRoom (s : State) (core : Nat) (t : Task) (x : Shape) : Bool :=
  !t.det || decide (x.w * t.deta + sumOf (fun b => match getTask s b.task with
    | some u => if u.det then b.shape.w * u.deta else 0
    | none => 0) (residents s core) ≤ 4096)

/-- B_core of R170. -/
def blocksPerCore (x : Shape) : Nat :=
  let n := 256 / x.w
  let n := if granules x = 0 then n else min n (112 / granules x)
  let n := if x.tiles = 0 then n else min n (4 / x.tiles)
  if x.seq then min n 2 else n

/-! ### Block frames (R98) -/

/-- The frames F that no resident or saved block of the context holds. -/
def freeFrames (s : State) (ctx : Nat) : List Nat :=
  let used := (s.blocks.filter fun b => b.ctx = ctx).map (·.frame)
  match (getCtx s ctx).desc with
  | some d => (List.range d.pblocks).filter fun f => f ∉ used
  | none => []

/-! ### Deterministic placement (R169) -/

/-- The logical core of a DET block: the first of 256 probes that is in service. -/
def detCore (s : State) (t : Task) (lin : Nat) : Option Nat :=
  let n := s.live.length
  let x := t.tseq.toNat * 2 ^ 32 + lin % 2 ^ 32
  (List.range 256).findSome? fun i =>
    let c := (mix64 t.f.seed (BitVec.ofNat 64 (x + i * 2 ^ 56))).toNat % n
    match physicalOf s c with
    | some p => if inService s p then some c else none
    | none => none

/-- The blocks of a task's grid. -/
def taskSize (t : Task) : Nat := t.f.gx * t.f.gy * t.f.gz

/-! ### A launched block -/

/-- A lane at launch. -/
def laneAtLaunch (entry : Word64) : Lane := ⟨entry, .runnable, 0, 0, 0, none, 0⟩

/-- R39's scalar registers. -/
def scalarsAtLaunch (f : Fields) (x : Shape) (lin bx by' bz : Nat) : FMap SCell :=
  let vs : List Word64 := f.arg :: f.inl.take 8 ++
    [BitVec.ofNat 64 lin, BitVec.ofNat 64 (bx + by' * 2 ^ 32), BitVec.ofNat 64 bz,
     BitVec.ofNat 64 (f.gx + f.gy * 2 ^ 32), BitVec.ofNat 64 f.gz, BitVec.ofNat 64 x.w]
  ((List.range vs.length).zip vs).foldl (fun m p => fput fullS m p.1 ⟨p.2, .full⟩) []

/-- A wave at launch (R30, R39). -/
def waveAtLaunch (f : Fields) (x : Shape) (lin bx by' bz : Nat) (place : Nat × Nat) (tick : Nat) : Wave where
  vreg := []
  sreg := scalarsAtLaunch f x lin bx by' bz
  preds := []
  spec := []
  kreg := []
  gens := []
  lanes := List.replicate 32 (laneAtLaunch f.entry)
  wo := 0
  ws := min x.rpl 192
  low := 0
  kept := 0
  frames := []
  depth := 0
  trace := none
  parked := []
  unit := place.1
  slot := place.2
  readyAt := if 8 ≤ place.2 then some tick else none
  since := some tick
  demote := false
  keep := false
  det := 0
  path := []
  retired := false

/-- The sequencer at launch (R307). -/
def seqAtLaunch (f : Fields) (x : Shape) (lin unit : Nat) : Option SeqState :=
  if x.seq then
    some ⟨f.seqEntry, fput fullS (fput fullS [] 0 ⟨BitVec.ofNat 64 lin, .full⟩) 1 ⟨BitVec.ofNat 64 x.w, .full⟩, .running, unit, 0, [], 0⟩
  else none

/-- The block of an index of a task on a core, with frame F and its waves' places (R20, R117). -/
def blockAtLaunch (t : Task) (id lin core frame unit : Nat) (places : List (Nat × Nat)) (tick : Nat) : Block :=
  let x := shapeOf t.f.shape
  let bx := lin % t.f.gx
  let by' := lin / t.f.gx % t.f.gy
  let bz := lin / (t.f.gx * t.f.gy)
  { id := id, task := t.id, ctx := t.ctx, lin := lin, x := bx, y := by', z := bz, core := some core, frame := frame,
    shape := x, waves := places.map fun p => waveAtLaunch t.f x lin bx by' bz p tick, spad := [], stag := [],
    spoison := [], absent := [], bars := [], qbars := [], tiles := List.replicate x.tiles .zero,
    seq := seqAtLaunch t.f x lin unit, saveFrames := [], ended := none }

/-! ### Which block launches where (R167 to R169) -/

/-- A core takes blocks: in service, not closing (R415), not halted for a save. -/
def takesBlocks (s : State) (p : Nat) : Bool :=
  inService s p && (getCore s p).closing.isNone && (getCore s p).halted.isNone && !fget false s.deadDisp (dieOf p)

/-- Every smaller index of a DET task that is placed on the logical core has been launched. -/
def detInOrder (s : State) (t : Task) (c ix : Nat) : Bool :=
  (List.range ix).all fun j => fget false t.launched j || detCore s t j ≠ some c

/-- The lowest index of a task without DET that no core has claimed: one to be handed out again, or the counter's. -/
def unclaimed (t : Task) : Option Nat :=
  match t.again with
  | i :: _ => some i
  | [] => if t.next < taskSize t then some t.next else none

/-- The index is taken from the counter, or from what is to be handed out again. -/
def Task.take (t : Task) : Task := match t.again with
  | _ :: is => { t with again := is }
  | [] => { t with next := t.next + 1 }

/-- The task has a block to place on the core: one it has claimed, or one that it may claim (R168, R445). -/
def hasBlock (t : Task) (p : Nat) : Bool := (ffind t.claims p).isSome || (unclaimed t).isSome

/-- The next index of the task that the core may take: its claim, or the claim that it makes at once; `ix` is the index
asked for with DET. -/
def nextIndex (s : State) (t : Task) (c ix : Nat) : Option Nat :=
  if t.det then
    if ix < taskSize t ∧ !fget false t.launched ix ∧ detCore s t ix = some c ∧ detInOrder s t c ix then some ix else none
  else match (physicalOf s c).bind (ffind t.claims) with
    | some i => some i
    | none => unclaimed t

/-- The lowest index of a DET task waiting for the logical core. -/
def detWaiting (s : State) (t : Task) (c : Nat) : Option Nat :=
  (List.range (taskSize t)).find? fun j => !fget false t.launched j && detCore s t j = some c

/-- The task can launch a block on the core at once. -/
def canLaunch (s : State) (t : Task) (c p : Nat) : Bool :=
  decide (t.st = .placing) && !(getCtx s t.ctx).lost && takesBlocks s p && hasRoom s p (shapeOf t.f.shape) &&
  detRoom s p t (shapeOf t.f.shape) && (freeFrames s t.ctx ≠ []) &&
  (if t.det then (detWaiting s t c).isSome else hasBlock t p)

/-- U stands ahead of T: higher TPRI, or earlier in the accept order of their context. -/
def ahead (u t : Task) : Bool :=
  decide (t.pri < u.pri) || (decide (u.pri = t.pri) && decide (u.ctx = t.ctx) && decide (u.accept < t.accept))

/-- The task's own record of a launch on a core: with DET the index; else its claim is over, or it was claimed at once. -/
def Task.launch (t : Task) (p lin : Nat) : Task :=
  if t.det then { t with launched := fput false t.launched lin true }
  else if (ffind t.claims p).isSome then { t with claims := fdel t.claims p }
  else t.take

/-- The sequencer of a core that a block with one takes: the lower that no other has (R407). -/
def freeSeq (s : State) (p : Nat) : Nat :=
  if (residents s p).any fun b => b.seq.any fun q => q.unit = 0 then 1 else 0

/-- THE BLOCK JOINS THE CORE, whose L1 gives up the granules it takes (R96); its start acquires at DEVICE scope what its
task is ordered after (R128, R190, R353). -/
def placeBlock (s : State) (t : Task) (lin p : Nat) : State :=
  match wavePlaces s p (shapeOf t.f.shape).w with
  | none => s
  | some places =>
    let (k, s) := freeIx s
    let fs := freeFrames s t.ctx
    match nth fs (Config.frameChoice k % fs.length) with
    | none => s
    | some frame =>
      let (id, s) := fresh s
      let b := blockAtLaunch t id lin p frame (freeSeq s p) places s.tick
      let s := acquireDrops (shrinkL1 { s with blocks := s.blocks ++ [b] } p) p .device
      let s := modCore s p fun x => { x with nextUnit := (x.nextUnit + b.shape.w) % 16 }
      modTask s t.id fun x => ({ x.launch p lin with start := if x.begun then x.start else s.time.ptp, begun := true }).commit s

end Sys2Proof.Machine
end

