-- ==== Sys2Proof/Machine/Care.lean ====
section
/-! DEFINITION. What the device does by itself: patrol scrub (R447), meter windows (R118), granary refresh (R105), bucket
leaks (R414), spare lanes (R415, R468), dispatchers' heartbeats and failure (R445, R446), power and temperature (R370,
R371). -/

namespace Sys2Proof.Machine

/-! ### Scrub, meters, refresh -/

/-- A refresh window of the die's granary is in progress. -/
def refreshOn (s : State) (die : Nat) : Bool := (fget (Config.refreshPhase die, false) s.refresh die).2

/-- PATROL_SCRUB of a block: of DRAM by its number, or above them of the granaries, inside a refresh window (R447). -/
def execPatrolScrub (block : Nat) (s : State) : Out :=
  .next <|
    let n := dramEnd / 64
    if block < n then eccCheck s block
    else if block - n < 2 ^ 24 ∧ refreshOn s ((block - n) / 2 ^ 22) then granCheck s (block - n) 0xFFFF
    else s

/-- One context's part in the start of a window: its bucket, and what goes to the spare pool. -/
def refill (m : MeterSt) (c : Nat) (d : CtxDesc) : MeterSt :=
  let b := fget 0 m.bucket c
  let add := min d.rt (d.bu - b)
  { m with bucket := fput 0 m.bucket c (b + add), spare := m.spare + (d.rt - add) }

/-- METER_WINDOW. -/
def execMeterWindow (slice : Nat) (s : State) : Out :=
  .next <| if slice < 64 then
      let m := s.ctxs.foldl (fun m p => match p.2.desc with
        | some d => refill m p.1 d
        | none => m) (getMeter s slice)
      { s with meters := fput .init s.meters slice { m with spare := min m.spare m.srate, borrowed := [] } }
    else s

/-- GRANARY_REFRESH_WINDOW: a window of the die begins, or ends. -/
def execGranaryRefreshWindow (die : Nat) (s : State) : Out :=
  .next <| if die < 4 then
      let (n, on) := fget (Config.refreshPhase die, false) s.refresh die
      { s with refresh := fins s.refresh die (if on then (n, false) else (n + 1, true)) }
    else s

/-! ### Buckets, lanes, cores -/

/-- BUCKET_LEAK. -/
def execBucketLeak (b : BucketId) (s : State) : Out :=
  .next { s with buckets := fmod 0 s.buckets (bucketKey b) (· - 1) }

/-- A core goes out of service, with its record (R19); an escalation's names its bucket. -/
def retireCore (s : State) (b : Option BucketId) (p : Nat) : State :=
  if !inService s p then s
  else
    let s := modCore s p fun x => { x with retired := true, closing := none }
    let r := (errRec 4 0x0012).atUnit (dieOf p) p 0xFF 0xFF
    logErr (changeTable s) false (match b with
      | some b => r.level b
      | none => r)

/-- The lanes of a core whose buckets are full and which no spare serves; `more` is the one recorded. -/
def fullLanes (s : State) (p : Nat) (more : Nat × Nat) : List (Nat × Nat) :=
  ((List.range 16).flatMap fun u => (List.range 33).map fun l => (u, l)).filter fun x =>
    (decide (x = more) || decide (bucketLimit (.lane p x.1 x.2) ≤ fget 0 s.buckets (bucketKey (.lane p x.1 x.2)))) &&
    decide (ffind (getCore s p).spare x.1 ≠ some x.2)

/-- A lane is steered to its unit's spare; with the spare in use the core is retired (R468). The unused spare, lane 32, with
a full bucket is treated as any lane: it is steered to itself, and SPARE(u) then reads 0x80 (log 69). -/
def steerLane (s : State) (p : Nat) (x : Nat × Nat) : State :=
  if !inService s p then s
  else match ffind (getCore s p).spare x.1 with
    | some _ => retireCore s (some (.lane p x.1 x.2)) p
    | none =>
      let s := modCore s p fun c => { c with spare := fins c.spare x.1 x.2 }
      logErr (changeTable s) false (((errRec 4 0x0011).atUnit (dieOf p) p x.1 x.2).det x.2 |>.level (.lane p x.1 x.2))

/-- SPARE_LANE_STEER: a core that launches no more, once it holds no block. -/
def execSpareLaneSteer (core : Nat) (s : State) : Out :=
  .next <| if residents s core ≠ [] then s
    else match (getCore s core).closing with
      | none => s
      | some none => retireCore s (some (.core core)) core
      | some (some x) =>
        let s := (fullLanes s core x).foldl (fun s y => steerLane s core y) s
        modCore s core fun c => { c with closing := none }

/-! ### Dispatchers -/

/-- DISPATCHER_HEARTBEAT: the die's dispatcher has missed none. -/
def execDispatcherHeartbeat (die : Nat) (s : State) : Out :=
  .next (if die < 4 ∧ !fget false s.deadDisp die then emit { s with beats := fdel s.beats die } (.heartbeat die) else s)

/-- The block is resident on the die, or saved with a DET placement there. -/
def onDie (s : State) (die : Nat) (b : Block) : Bool :=
  match b.core, getTask s b.task with
  | some p, _ => dieOf p = die
  | none, some t => t.det && ((detCore s t b.lin).bind (physicalOf s)).any fun p => dieOf p = die
  | none, none => false

/-- A surviving task's counters in its new leader are that die's mirror of them, and what the failed die's cores had
claimed is handed out again before any higher index (R446). -/
def Task.follow (t : Task) (die : Nat) (d : Option Nat) : Task :=
  let lost := t.claims.filter fun p => dieOf p.1 = die
  let t := { t with
    claims := t.claims.filter fun p => dieOf p.1 ≠ die
    again := lost.foldl (fun is p => insertNat is p.2) t.again }
  match d with
  | some d => if t.leader = die then
      let m := fget (0, 0) t.mirror d
      { t with leader := d, next := m.1, ticket := m.2 }
    else t
  | none => t

/-- A dispatcher has failed (R446). -/
def failDispatcher (s : State) (die : Nat) : State :=
  let lost := ((s.blocks.filter (onDie s die)).map (·.ctx)).foldl insertNat []
  let s := { s with deadDisp := fput false s.deadDisp die true, beats := fdel s.beats die }
  let s := (s.live.filter fun p => dieOf p = die).foldl (fun s p => retireCore s none p) s
  let s := lost.foldl (fun s c => loseContext s c 0x0012 1 false) s
  let d := (List.range 4).find? fun d => !fget false s.deadDisp d && s.live.any fun p => dieOf p = d
  { s with tasks := s.tasks.map fun t => t.follow die d }

/-- DISPATCHER_FAILURE: it reports an uncorrectable error in its own state. -/
def execDispatcherFailure (die : Nat) (s : State) : Out :=
  .next (if 4 ≤ die ∨ fget false s.deadDisp die then s else failDispatcher s die)

/-- The others miss a heartbeat of a die's dispatcher: the fourth in a row fails it (R445). -/
def missHeartbeat (s : State) (die : Nat) : State :=
  if 4 ≤ die ∨ fget false s.deadDisp die then s
  else if 3 ≤ fget 0 s.beats die then failDispatcher s die
  else { s with beats := fmod 0 s.beats die (· + 1) }

/-- A core of a task without DET claims the next index where it could launch the block at once; a claim whose core takes
no blocks any more is given back (R168, R445). -/
def claimBlock (s : State) (task p : Nat) : State :=
  match getTask s task, logicalOf s p with
  | some t, some c =>
    match ffind t.claims p with
    | some i => if takesBlocks s p then s
      else modTask s task fun t => { t with claims := fdel t.claims p, again := insertNat t.again i }
    | none =>
      if t.det || !canLaunch s t c p || (s.tasks.any fun u => ahead u t && canLaunch s u c p) then s
      else match unclaimed t with
        | some i => modTask s task fun t => ({ t.take with claims := fins t.claims p i }).commit s
        | none => s
  | _, _ => s

/-! ### Power and temperature -/

/-- The live cores' islands, and those of the base dies and the fabric, from island 448, at their lowest points (R371). -/
def leastPoints (s : State) : FMap Nat :=
  let p := (s.live.flatMap fun c => (List.range 7).map fun i => 7 * c + i).foldl (fun p i => fput 600 p i 400) s.dvfs
  (List.range 56).foldl (fun p i => fput 1200 p (448 + i) 1000) p

/-- THE MODULE IS HELD WITHIN ITS POWER LIMIT (R371): where it draws more, the controller lowers the live cores' islands,
and where that does not do every island goes to its lowest point. -/
def holdPower (s : State) : State :=
  let t := s.live.foldl (fun s c => moveIslands s c false) s
  let points := if Config.drawnPower s.dvfs ≤ s.power then s.dvfs
    else if Config.drawnPower t.dvfs ≤ s.power then t.dvfs else leastPoints s
  { t with dvfs := points }

/-- POWER_LIMIT_SET: 1.0 to 2.8 kW. -/
def execPowerLimitSet (milliwatt : Nat) (s : State) : Out :=
  .next (if 1000000 ≤ milliwatt ∧ milliwatt ≤ 2800000 then holdPower { s with power := milliwatt } else s)

/-- The islands of a stack's cores take a point of at most `core`, those of its base die at most `base`; the points in
MHz, by island: seven a core, then twelve a base die from 448. -/
def limitIslands (s : State) (die core base : Nat) : State :=
  let s := (List.range 112).foldl (fun s i => { s with dvfs := fmod 600 s.dvfs (die * 112 + i) (min core) }) s
  (List.range 12).foldl (fun s i => { s with dvfs := fmod 1200 s.dvfs (448 + die * 12 + i) (min base) }) s

/-- The record of a thermal response. -/
def thermalRec (s : State) (cls die : Nat) : State :=
  let (ix, s) := freeIx s
  logErr s false { errRec cls 0x000D with die := BitVec.ofNat 8 die, detail := Config.temperature ix }

/-- THERMAL_CAP. -/
def execThermalCap (die : Nat) (s : State) : Out :=
  .next <| if die < 4 ∧ fget .normal s.thermal die = .normal then
      limitIslands (thermalRec { s with thermal := fput .normal s.thermal die .capped } 4 die) die 600 1200
    else s

/-- THERMAL_THROTTLE. -/
def execThermalThrottle (die : Nat) (s : State) : Out :=
  .next (if die < 4 then limitIslands { s with thermal := fput .normal s.thermal die .throttled } die 400 1000 else s)

/-- THERMAL_HALT. -/
def execThermalHalt (die : Nat) (s : State) : Out :=
  .next <| if die < 5 then
      let (ix, s) := freeIx s
      fatalHalt s 0x000D (Config.temperature ix).toNat die
    else s

end Sys2Proof.Machine
end

