-- ==== Sys2Proof/Machine/Queues.lean ====
section
/-! DEFINITION. The CP's service of the queues (R153 to R160, R454): reading a record, its fields and their limits, the
accesses that the CP makes for a context, SIGNAL and WAITSIG. -/

namespace Sys2Proof.Machine

/-! ### The CP's reads of physical memory -/

inductive CpRead where
  | ok (bytes : List Byte)
  | table
  | owner (pa o : Nat)
  | poison (pa : Nat)
  deriving DecidableEq, Repr, Inhabited

/-- Bytes of one block, read by the CP with an owner. -/
def cpReadIn (s : State) (o ctx pa n : Nat) : State × CpRead :=
  if dramEnd ≤ pa then (s, .owner pa 0)
  else match homeAns s cpMaster o pa false with
    | .table => (s, .table)
    | .owner o => (s, .owner pa o)
    | .ok =>
      let s := iodAccess s (paDie pa) true
      let s := eccCheck (if ctx < 4096 then spendToken s pa ctx else s) (pa / 64)
      if fget false s.dpoison (pa / 64) then (s, .poison pa) else (s, .ok (s.dram.readN pa n))

/-- Bytes over as many blocks as they reach. -/
def cpReadBlocks (s : State) (o ctx : Nat) : Nat → Nat → Nat → State × CpRead
  | 0, _, _ => (s, .ok [])
  | k + 1, pa, n =>
    if n = 0 then (s, .ok [])
    else
      let m := min n (64 - pa % 64)
      match cpReadIn s o ctx pa m with
      | (s, .ok bs) => match cpReadBlocks s o ctx k (pa + m) (n - m) with
        | (s, .ok cs) => (s, .ok (bs ++ cs))
        | r => r
      | r => r

/-- A READ BY THE CP. -/
def cpRead (s : State) (o ctx pa n : Nat) : State × CpRead := cpReadBlocks s o ctx (n / 64 + 2) pa n

/-- Poison that the CP consumes for a context, the queue that it served, and the address that it read through, where there
is one; what a peer holds has no physical address here (R407, R413). -/
def cpPoison (s : State) (ctx : Nat) (queue : Option Nat) (pa : Nat) (va : Option Word64) : State :=
  let r := (errRec 2 0x0009).atUnit 4 0xFF 25 0xFF
  let r := if pa < 2 ^ 48 then r.atPa pa else r
  consumePoison s ctx { va.elim r r.atVa with queue := BitVec.ofNat 16 (queue.getD 0xFFFF) } 3

/-! ### Records (R157, R158) -/

/-- R157's header. -/
def hdrSeq (h : Word64) : BitVec 16 := h.extractLsb' 48 16
def hdrKind (h : Word64) : Nat := (h.extractLsb' 40 8).toNat
def hdrLen (h : Word64) : Nat := (h.extractLsb' 32 8).toNat
def hdrMask (h : Word64) (f : Nat) : Bool := h.getLsbD f
def hdrReserved (h : Word64) : Bool := h.extractLsb' 19 13 ≠ 0

/-- The physical address of a unit (R155). -/
def unitAddr (q : QueueSt) (i : Nat) : Nat := q.ring + 8 * (i % 2 ^ q.logd)

/-- Units from RIDX on, each its own read. -/
def readUnits (s : State) (q : QueueSt) : Nat → Nat → State × Except CpRead (List Word64)
  | 0, _ => (s, .ok [])
  | n + 1, i =>
    match cpRead s (ctxOwner s q.ctx) q.ctx (unitAddr q i) 8 with
    | (s, .ok bs) => match readUnits s q n (i + 1) with
      | (s, .ok ws) => (s, .ok (wordOf 64 bs :: ws))
      | r => r
    | (s, e) => (s, .error e)

/-- The words of a field at the head of a list. -/
def fieldWords (f : Nat) (ws : List Word64) : Option Nat :=
  if f = 2 ∨ f = 17 then some 2
  else if f = 15 ∨ f = 16 then ws.head?.map fun c => 1 + (c.extractLsb' 0 8).toNat
  else some 1

/-- A range word. -/
def rangeOf (w : Word64) : TileRange := ⟨(w.extractLsb' 0 40).toNat, (w.extractLsb' 40 16).toNat + 1, w.getLsbD 56⟩

/-- A field's value replaces another's. -/
def setField (x : Fields) (f : Nat) (ws : List Word64) : Fields :=
  let w (i : Nat) : Word64 := (nth ws i).getD 0
  if f = 0 then { x with entry := w 0 }
  else if f = 1 then { x with seqEntry := w 0 }
  else if f = 2 then { x with
    gx := ((w 0).extractLsb' 0 32).toNat, gy := ((w 0).extractLsb' 32 32).toNat, gz := (w 1).toNat }
  else if f = 3 then { x with shape := w 0 }
  else if f = 4 then { x with arg := w 0 }
  else if f ≤ 12 then { x with inl := modifyAt (fun _ => w 0) (f - 5) x.inl }
  else if f = 13 then { x with seed := w 0 }
  else if f = 14 then { x with flags := w 0 }
  else if f = 15 then { x with rset := (ws.drop 1).map rangeOf }
  else if f = 16 then { x with wset := (ws.drop 1).map rangeOf }
  else if f = 17 then { x with sigAddr := w 0, sigVal := w 1 }
  else { x with stamp := w 0 }

/-- Reserved bits of a tile set's words are zero (R161); `rd` is a read set, in which OVW is reserved too. -/
def setOk (rd : Bool) (ws : List Word64) : Bool :=
  ((nth ws 0).getD 0).extractLsb' 8 56 = 0 && decide ((((nth ws 0).getD 0).extractLsb' 0 8).toNat ≤ 254) &&
  (ws.drop 1).all fun w => w.extractLsb' 57 7 = 0 && !(rd && w.getLsbD 56)

/-- Reserved bits of a field's words are zero (R158). -/
def fieldOk (f : Nat) (ws : List Word64) : Bool :=
  let w (i : Nat) : Word64 := (nth ws i).getD 0
  if f = 2 then (w 1).extractLsb' 32 32 = 0
  else if f = 3 then (w 0).extractLsb' 6 2 = 0 && (w 0).extractLsb' 29 3 = 0 && (w 0).extractLsb' 36 28 = 0
  else if f = 14 then (w 0).extractLsb' 2 2 = 0 && (w 0).extractLsb' 6 58 = 0
  else if f = 15 then setOk true ws
  else if f = 16 then setOk false ws
  else if f = 18 then (w 0).extractLsb' 2 62 = 0
  else true

/-- The tiles that ranges cover, each once. -/
def coverCount (rs : List TileRange) : Nat :=
  ((sortBy (fun a b : TileRange => decide (a.first < b.first)) rs).foldl (fun (x : Nat × Nat) r =>
    (max x.1 (r.first + r.count), x.2 + (r.first + r.count - max x.1 r.first))) (0, 0)).2

/-- The fields that a record gives, from the words after its header: none where LEN does not fit; the flag says that
their reserved bits are zero. -/
def takeFields (h : Word64) : List Nat → Fields → Bool → List Word64 → Option (Fields × Bool)
  | [], x, ok, ws => if ws = [] then some (x, ok) else none
  | f :: fs, x, ok, ws =>
    if hdrMask h f then
      match fieldWords f ws with
      | none => none
      | some n =>
        if ws.length < n then none
        else
          let v := ws.take n
          takeFields h fs (setField x f v) (ok && fieldOk f v) (ws.drop n)
    else takeFields h fs x ok ws

/-- The limits of R158 and R24 on a LAUNCH's effective fields (R159). -/
def launchOk (x : Fields) : Bool :=
  let sh := shapeOf x.shape
  x.entry.extractLsb' 0 4 = 0 && x.seqEntry.extractLsb' 0 4 = 0 &&
  decide (1 ≤ x.gx ∧ 1 ≤ x.gy ∧ 1 ≤ x.gz ∧ x.gz < 2 ^ 32) && decide (x.gx * x.gy * x.gz ≤ 2 ^ 48) &&
  decide (1 ≤ sh.w ∧ sh.w ≤ 32 ∧ 16 ≤ sh.rpl ∧ sh.rpl ≤ 2048 ∧ sh.sp ≤ 7168 ∧ sh.tiles ≤ 4) &&
  x.shape.extractLsb' 6 2 = 0 && x.shape.extractLsb' 29 3 = 0 && x.shape.extractLsb' 36 28 = 0 &&
  decide (granules sh ≤ 112) && !(sh.seq && x.seqEntry = 0) &&
  x.flags.extractLsb' 2 2 = 0 && x.flags.extractLsb' 6 58 = 0 &&
  x.sigAddr.extractLsb' 0 3 = 0 && x.stamp.extractLsb' 2 62 = 0 &&
  decide (coverCount (x.rset ++ x.wset) ≤ 32768)

/-! ### The CP's accesses through a context's page tables (R187) -/

/-- R408's DETAIL of EVENT 0x0025. -/
inductive SigFail where
  | translation | permission | table | owner (pa o : Nat) | poison (pa : Nat) (va : Word64)
  /-- No port of the peer is up: the CP asks again (R466). -/
  | later
  deriving DecidableEq, Repr, Inhabited

/-- The place of a 64-bit word at a context's address, for the CP. -/
def cpPlace (s : State) (ctx : Nat) (va : Word64) (wr : Bool) : State × Except SigFail Place :=
  match (getCtx s ctx).desc with
  | none => (s, .error .translation)
  | some d =>
    if va.toNat / 2 ^ 56 ≠ 0 ∨ va.toNat % 8 ≠ 0 then (s, .error .translation)
    else match walkFrom s ⟨cpMaster, d.owner, ctx, 0, iodAgent, 3⟩ va.toNat 3 d.ptroot with
      | (s, .leaf e sh) =>
        let off := va.toNat % 2 ^ sh
        let pa := pteAddr e + off
        if (wr && !pteWr e) || (!wr && !pteRd e) then (s, .error .permission)
        else if pteRem e then (s, .ok (.remote (e.extractLsb' 40 8).toNat ((e.extractLsb' 8 32).toNat * 256 + off)))
        else if dramEnd ≤ pa ∧ pa < ctlBase then (s, .error .translation)
        else (s, .ok (.phys pa (pteCpol e) (pteDesc e) (pteMig e)))
      | (s, .table _) => (s, .error .table)
      | (s, .owner pa o) => (s, .error (.owner pa o))
      | (s, .poison pa) => (s, .error (.poison pa va))
      | (s, .malformed l) => (logErr s false ((((errRec 4 0x0033).atCtx s ctx).atVa va).det l), .error .translation)
      | (s, _) => (s, .error .translation)

/-- A 64-bit word at a context's address, as the CP reads it. -/
def cpLoad (s : State) (ctx : Nat) (va : Word64) : State × Except SigFail Word64 :=
  match cpPlace s ctx va false with
  | (s, .error e) => (s, .error e)
  | (s, .ok (.phys pa _ _ _)) =>
    if ctlBase ≤ pa then
      if ctlOk s cpMaster (pa - ctlBase) 8 false then (s, .ok (wordOf 64 (ctlBytes s (pa - ctlBase) 8)))
      else (s, .error .table)
    else match cpRead s (ctxOwner s ctx) ctx pa 8 with
      | (s, .ok bs) => (s, .ok (wordOf 64 bs))
      | (s, .table) => (s, .error .table)
      | (s, .owner pa o) => (s, .error (.owner pa o))
      | (s, .poison pa) => (s, .error (.poison pa va))
  | (s, .ok (.remote peer _)) => match peerRead s iodAgent peer 8 with
    | (s, none) => (s, .error .later)
    | (s, some (.ok bs)) => (s, .ok (wordOf 64 bs))
    | (s, some (.error .refused)) => (s, .error .table)
    | (s, some (.error .poison)) => (s, .error (.poison noPa va))
  | (s, .ok _) => (s, .error .translation)

/-- The denial of an access that the CP made for a context: EVENT 0x0032 or 0x0030 (R119, R454). -/
def logCpDenial (s : State) (ctx : Nat) : SigFail → State
  | .table => logErr s false ((errRec 4 0x0032).det cpMaster)
  | .owner pa o => logErr s false ((((errRec 4 0x0030).atCtx s ctx).atPa pa).det o)
  | _ => s

/-! ### The contract record (R350, R352) -/

/-- Words at a context's address. -/
def cpLoads (s : State) (ctx : Nat) : Nat → Word64 → State × Except SigFail (List Word64)
  | 0, _ => (s, .ok [])
  | n + 1, va => match cpLoad s ctx va with
    | (s, .error e) => (s, .error e)
    | (s, .ok w) => match cpLoads s ctx n (va + 8) with
      | (s, .error e) => (s, .error e)
      | (s, .ok ws) => (s, .ok (w :: ws))

/-- The contract lets a LAUNCH of these fields go on: its DETA. -/
def contractOk (f : Fields) (ws : List Word64) : Option Nat :=
  let w (i : Nat) : Word64 := (nth ws i).getD 0
  let x := shapeOf f.shape
  let tiles := ((w 1).extractLsb' 24 8).toNat
  let deta := ((w 1).extractLsb' 32 16).toNat
  let regs := ((w 1).extractLsb' 48 16).toNat
  let sp := ((w 2).extractLsb' 0 16).toNat
  let waves := ((w 2).extractLsb' 16 8).toNat
  let seq := ((w 2).extractLsb' 24 8).toNat
  if (w 0).extractLsb' 0 16 ≠ 0x4C43 ∨ (w 0).extractLsb' 16 8 ≠ 1 then none
  else if x.w < waves ∨ x.rpl < regs ∨ x.sp < sp ∨ x.tiles < tiles ∨ (if x.seq then 1 else 0) < seq then none
  else if (w 0).getLsbD 25 && !f.flags.getLsbD 1 then none
  else if deta ≠ 0 ∧ !f.flags.getLsbD 0 then none
  else some deta

/-! ### Taking a record -/

/-- What the CP finds at the head of a queue. -/
inductive Head where
  /-- No record is complete. -/
  | none
  /-- The ring cannot be read: the queue freezes without a completion record (R454). -/
  | denied (pa : Nat) (o : Option Nat)
  | poison (pa : Nat) (va : Option Word64)
  /-- Refused under R157. -/
  | refused (h : Word64)
  /-- A record with the effective fields that it leaves, and a LAUNCH's DETA. -/
  | record (h : Word64) (f : Fields) (deta : Nat)
  deriving DecidableEq, Repr, Inhabited

def headOfRead : CpRead → Head
  | .owner pa o => .denied pa (some o)
  | .poison pa => .poison pa Option.none
  | .table => .denied 0 Option.none
  | .ok _ => .none

/-- THE HEAD OF A QUEUE. A header with a reserved KIND, a reserved MASK bit or LEN 0 is refused as soon as it is read, as
R157 says of a LEN above the depth (DESIGN CHOICE, log 100). -/
def queueHead (s : State) (q : Nat) : State × Head :=
  let x := getQueue s q
  let have' := (x.widx - x.ridx).toNat
  if !x.enabled || x.frozen || x.blocked.isSome || decide (have' = 0) then (s, .none)
  else match readUnits s x 1 x.ridx.toNat with
    | (s, .error e) => (s, headOfRead e)
    | (s, .ok hs) =>
      let h := (hs.head?).getD 0
      let n := hdrLen h
      if n = 0 ∨ 2 ^ x.logd < n ∨ hdrReserved h ∨ hdrKind h = 0 ∨ 3 < hdrKind h then (s, .refused h)
      else if have' < n then (s, .none)
      else match readUnits s x (n - 1) (x.ridx.toNat + 1) with
        | (s, .error e) => (s, headOfRead e)
        | (s, .ok ws) =>
          match takeFields h (List.range 19) x.inh true ws with
          | Option.none => (s, .refused h)
          | some (f, ok) =>
            if !ok then (s, .refused h)
            else if hdrKind h ≠ 1 then (s, .record h f 0)
            else if !launchOk f then (s, .refused h)
            else match cpLoads s x.ctx 4 (f.entry - 32) with
              | (s, .error (.poison pa va)) => (s, .poison pa (some va))
              | (s, .error .later) => (s, .none)
              | (s, .error e) => (logCpDenial s x.ctx e, .refused h)
              | (s, .ok ws) => match contractOk f ws with
                | some deta => (s, .record h f deta)
                | Option.none => (s, .refused h)

/-- A refused record freezes its queue; RIDX stays at it (R157, R418). -/
def refuseRecord (s : State) (q : Nat) (h : Word64) : State :=
  let x := getQueue s q
  let s := queueErr (freezeQueue s q) q 0x0020 (x.ridx.toNat % 65536)
  postCompletion s q (hdrSeq h) (hdrKind h) 1 0 0 0

/-- A ring that the CP cannot read: EVENT 0x0030 or 0x0032, then the queue freezes. -/
def denyRing (s : State) (q pa : Nat) (o : Option Nat) : State :=
  let x := getQueue s q
  let s := match o with
    | some o => logErr s false ((((errRec 4 0x0030).atCtx s x.ctx).atPa pa).det o)
    | none => logErr s false ((errRec 4 0x0032).det cpMaster)
  queueErr (freezeQueue s q) q 0x0020 (x.ridx.toNat % 65536)

/-- The record is passed and its fields are inherited (R155, R159). -/
def passRecord (s : State) (q : Nat) (h : Word64) (f : Fields) : State :=
  modQueue s q fun x => { x with ridx := x.ridx + BitVec.ofNat 32 (hdrLen h), inh := f }

/-! ### The completion signal (R187) -/

/-- A signal's write: none while its page is being migrated (R456). -/
def cpSignal (s : State) (ctx : Nat) (va val : Word64) : State × Option (Option SigFail) :=
  match cpPlace s ctx va true with
  | (s, .error e) => (s, some (some e))
  | (s, .ok (.phys pa _ _ mig)) =>
    if ctlBase ≤ pa then
      if ctlOk s cpMaster (pa - ctlBase) 8 true then (ctlWrite s cpMaster (pa - ctlBase) 8 val.toNat, some none)
      else (s, some (some .table))
    else match homeAns s cpMaster (ctxOwner s ctx) pa true with
      | .table => (s, some (some .table))
      | .owner o => (s, some (some (.owner pa o)))
      | .ok =>
        if mig then (s, none)
        else (masterPut (spendToken s pa ctx) pa (bytesOfNat 8 val.toNat), some none)
  | (s, .ok (.remote p o)) => (sendFor s iodAgent 0 0 ctx 0 copyLane 0 0 va p o (.write (bytesOfNat 8 val.toNat)) none, some none)
  | (s, .ok _) => (s, some (some .translation))

/-- EVENT 0x0025, after the record of the denial itself (R119, R454). -/
def logSignal (s : State) (q ctx : Nat) (va : Word64) (e : SigFail) : State :=
  let n := match e with
    | .translation => 1
    | .permission => 2
    | .table => 3
    | .owner .. => 4
    | .poison .. => 1
    | .later => 1
  let s := logCpDenial s ctx e
  logErr s true { ((((errRec 4 0x0025).atCtx s ctx).atVa va).det n) with queue := BitVec.ofNat 16 q }

/-! ### SIGNAL and WAITSIG (R160, R187) -/

/-- The stamps of a record's own completion: no block launched, so START is 0. -/
def recordEnd (s : State) (q : Nat) : Word64 := if (getQueue s q).inh.stamp.getLsbD 1 then s.time.ptp else 0

def unblock (s : State) (q : Nat) : State := modQueue s q fun x => { x with blocked := none }

/-- SIGNAL_FIRE: every task of the queue's earlier records has completed. -/
def fireSignal (s : State) (q : Nat) (seq : BitVec 16) (addr val : Word64) : State :=
  let ctx := (getQueue s q).ctx
  if addr = 0 then postCompletion (unblock s q) q seq 2 0 0 0 (recordEnd s q)
  else match cpSignal s ctx addr val with
    | (s, none) => s
    | (s, some none) => postCompletion (unblock s q) q seq 2 0 0 0 (recordEnd s q)
    | (s, some (some (.poison pa va))) => cpPoison s ctx (some q) pa (some va)
    | (s, some (some e)) => postCompletion (logSignal (unblock s q) q ctx addr e) q seq 2 5 0 0 (recordEnd s q)

def execSignalFire (q : Nat) (s : State) : Out :=
  .next <| match (getQueue s q).blocked with
    | some (.signal seq addr val) => if s.tasks.any fun t => t.queue = q then s else fireSignal s q seq addr val
    | _ => s

/-- WAITSIG_RELEASE: the value has reached the record's, or cannot be read. -/
def releaseWaitsig (s : State) (q : Nat) (seq : BitVec 16) (addr val : Word64) : State :=
  let ctx := (getQueue s q).ctx
  if addr = 0 then postCompletion (unblock s q) q seq 3 0 0 0 (recordEnd s q)
  else match cpLoad s ctx addr with
    | (s, .ok v) => if v.toNat < val.toNat then s else postCompletion (unblock s q) q seq 3 0 0 0 (recordEnd s q)
    | (s, .error (.poison pa va)) => cpPoison s ctx (some q) pa (some va)
    | (s, .error .later) => s
    | (s, .error e) =>
      postCompletion (logSignal (freezeQueue (unblock s q) q) q ctx addr e) q seq 3 5 0 0 (recordEnd s q)

def execWaitsigRelease (q : Nat) (s : State) : Out :=
  .next <| match (getQueue s q).blocked with
    | some (.waitsig seq addr val) => releaseWaitsig s q seq addr val
    | _ => s

end Sys2Proof.Machine
end

