-- ==== Sys2Proof/Machine/Tasks.lean ====
section
/-! DEFINITION. Tasks: entry in the dependence table (R160, R161, R163), versions of arena tiles (R164 to R166), dispatch
(R167 to R170), launch of blocks (R171), their end (R173), completion (R187). -/

namespace Sys2Proof.Machine

/-! ### Tile sets -/

def tilesOf (rs : List TileRange) : List Nat := (rs.flatMap fun r => (List.range r.count).map (r.first + ·)).eraseDups

/-- The write set names the tile with OVW. -/
def overwrites (rs : List TileRange) (tile : Nat) : Bool :=
  rs.any fun r => decide (r.first ≤ tile ∧ tile < r.first + r.count) && r.ovw

def inSet (rs : List TileRange) (tile : Nat) : Bool := rs.any fun r => decide (r.first ≤ tile ∧ tile < r.first + r.count)

/-- The tile lies in the context's arena. -/
def inArena (s : State) (ctx tile : Nat) : Bool := match (getCtx s ctx).sched with
  | some r => decide (r.abase / 65536 ≤ tile ∧ tile < r.abase / 65536 + r.atiles)
  | none => false

/-- The context's tasks that are not complete. -/
def liveTasks (s : State) (ctx : Nat) : List Task := s.tasks.filter fun t => t.ctx = ctx

def readsTile (t : Task) (tile : Nat) : Bool := inSet t.f.rset tile
def writesTile (t : Task) (tile : Nat) : Bool := inSet t.f.wset tile

/-! ### Versions (R164, R165) -/

/-- The head of a tile's chain: the newest version. -/
def newestVersion (s : State) (ctx tile : Nat) : Option Version :=
  leastBy (fun v => s.nextId - v.id) (s.versions.filter fun v => decide (v.ctx = ctx ∧ v.tile = tile))

/-- The writer of a version has completed. -/
def writerDone (s : State) (v : Version) : Bool := match v.writer with
  | none => true
  | some t => (getTask s t).isNone

/-- The frames that the list at FPOOL names and the context owns. -/
def poolFrames (s : State) (ctx : Nat) : List Nat :=
  match (getCtx s ctx).sched with
  | none => []
  | some r => (List.range r.fcount).filterMap fun i =>
    match (cpRead s 0xFFFF 0xFFFF (r.fpool + 8 * i) 8).2 with
    | .ok bs =>
      let f := natOf bs
      if f % 65536 = 0 ∧ f + 65536 ≤ dramEnd ∧ frameOwner s (f / 65536) = ctxOwner s ctx then some f else none
    | _ => none

/-- The first entry of the list at FPOOL that the CP cannot read for its poison (R413). -/
def poolPoison (s : State) (ctx : Nat) : Option Nat := (getCtx s ctx).sched.bind fun r =>
  (List.range r.fcount).findSome? fun i => match (cpRead s 0xFFFF 0xFFFF (r.fpool + 8 * i) 8).2 with
    | .poison pa => some pa
    | _ => none

/-- The denials of a list at FPOOL that holds a LAUNCH up are logged (R115, R119). -/
def poolDenied (s : State) (ctx : Nat) : State := match (getCtx s ctx).sched with
  | some r => match masterAns s cpMaster 0xFFFF r.fpool (8 * r.fcount) false with
    | some d => masterDenied s cpMaster d
    | none => s
  | none => s

/-- The blocks of the list at FPOOL are read from their homes and checked (R10, R447). -/
def checkPool (s : State) (ctx : Nat) : State := match (getCtx s ctx).sched with
  | some r =>
    checkRange ((piecesOf r.fpool (8 * r.fcount)).foldl (fun s p => iodAccess s (paDie p.1) true) s) r.fpool (8 * r.fcount)
  | none => s

/-- The frames of FPOOL that no version holds. -/
def freeArena (s : State) (ctx : Nat) : List Nat :=
  let used := (s.versions.filter fun v => v.ctx = ctx).map (·.frame)
  (poolFrames s ctx).filter fun f => f ∉ used

/-- The arena tiles of the sets that take a frame: those without a version, and those of the write set that an earlier
task reads or writes (R164). -/
def newTiles (s : State) (ctx : Nat) (f : Fields) : List Nat :=
  (tilesOf f.rset ++ tilesOf f.wset).eraseDups.filter fun tile => inArena s ctx tile &&
    ((newestVersion s ctx tile).isNone ||
      (inSet f.wset tile && (liveTasks s ctx).any fun u => readsTile u tile || writesTile u tile))

/-- The table's entries in use: live versions, and tiles outside the arenas with a pending task (R165). -/
def tableUse (s : State) : Nat :=
  s.versions.length +
  ((s.tasks.flatMap fun t => ((tilesOf t.f.rset ++ tilesOf t.f.wset).filter fun tile => !inArena s t.ctx tile).map
    fun tile => (t.ctx, tile)).eraseDups).length

/-- The entries that a LAUNCH's sets would add. -/
def tableNeed (s : State) (ctx : Nat) (f : Fields) : Nat :=
  ((tilesOf f.rset ++ tilesOf f.wset).eraseDups.filter fun tile =>
    if inArena s ctx tile then tile ∈ newTiles s ctx f
    else !(liveTasks s ctx).any fun u => readsTile u tile || writesTile u tile).length

/-- The context has an arena, and its FPOOL is empty. -/
def poolEmpty (s : State) (ctx : Nat) : Bool :=
  ((getCtx s ctx).sched.any fun r => decide (r.atiles ≠ 0)) && decide (freeArena s ctx = [])

/-- The context can take a LAUNCH now: the table is not full and FPOOL not empty, and the LAUNCH fits (R165, R416). One
without a scheduling record has no arena (log 88). -/
def launchRoom (s : State) (ctx : Nat) (f : Fields) : Bool :=
  !(getCtx s ctx).lost && !poolEmpty s ctx && decide (tableUse s < 32768) &&
  decide ((newTiles s ctx f).length ≤ (freeArena s ctx).length) &&
  decide (tableUse s + tableNeed s ctx f ≤ 32768)

/-! ### Entry in the dependence table (R163, R164) -/

/-- The newest version; a tile's first user makes the first, in a frame of FPOOL as the frame stands. -/
def baseVersion (s : State) (ctx tile : Nat) : Version × State :=
  match newestVersion s ctx tile with
  | some v => (v, s)
  | none =>
    let (id, s) := fresh s
    let v : Version := ⟨id, ctx, tile, (freeArena s ctx).head?.getD 0, none, none, true⟩
    (v, { s with versions := s.versions ++ [v] })

/-- What entering a task works out tile by tile. -/
structure Entering where
  s : State
  deps : List Nat
  copies : List Nat
  tiles : FMap Nat
  deriving Inhabited

def addDeps (ds : List Nat) (ts : List Task) : List Nat := ts.foldl (fun ds t => insertNat ds t.id) ds

/-- A tile outside the arena. -/
def enterOutside (e : Entering) (ctx : Nat) (rd wr : Bool) (tile : Nat) : Entering :=
  { e with deps := addDeps e.deps ((liveTasks e.s ctx).filter fun u =>
      (rd && writesTile u tile) || (wr && (readsTile u tile || writesTile u tile))) }

/-- An arena tile of a read set only: the newest version, after its own writer alone (log 75). -/
def enterReader (e : Entering) (ctx tile : Nat) : Entering :=
  let (v, s) := baseVersion e.s ctx tile
  { e with
    s := s
    deps := if writerDone s v then e.deps else addDeps e.deps (v.writer.bind (getTask s)).toList
    tiles := fins e.tiles tile v.id }

/-- An arena tile of a write set: in place where no earlier task touches it, else a new version. -/
def enterWriter (e : Entering) (ctx id : Nat) (rd ovw : Bool) (tile : Nat) : Entering :=
  let (v, s) := baseVersion e.s ctx tile
  let met := (liveTasks s ctx).any fun u => readsTile u tile || writesTile u tile
  let wait := if rd || !ovw then (if writerDone s v then e.deps else addDeps e.deps (v.writer.bind (getTask s)).toList)
    else e.deps
  if !met then
    { e with
      s := { s with versions := s.versions.map fun x => if x.id = v.id then { x with writer := some id } else x }
      deps := wait
      tiles := fins e.tiles tile v.id }
  else match freeArena s ctx with
    | [] => { e with s := s }
    | f :: _ =>
      let (vid, s) := fresh s
      let n : Version := ⟨vid, ctx, tile, f, some id, if ovw then none else some v.id, false⟩
      { s := { s with versions := s.versions ++ [n] }
        deps := wait
        copies := e.copies ++ [vid]
        tiles := fins e.tiles tile vid }

/-- Every tile of the sets. -/
def enterTiles (s : State) (ctx id : Nat) (f : Fields) : Entering :=
  ((tilesOf f.rset ++ tilesOf f.wset).eraseDups).foldl (fun e tile =>
    let rd := inSet f.rset tile
    let wr := inSet f.wset tile
    if !inArena e.s ctx tile then enterOutside e ctx rd wr tile
    else if wr then enterWriter e ctx id rd (overwrites f.wset tile) tile
    else enterReader e ctx tile) ⟨s, [], [], []⟩

/-- LAUNCH creates the task (R160). -/
def createTask (s : State) (q : Nat) (h : Word64) (f : Fields) (deta : Nat) : State :=
  let ctx := (getQueue s q).ctx
  let (id, s) := fresh s
  let e := enterTiles s ctx id f
  let t : Task := {
    id := id, ctx := ctx, queue := q, tseq := hdrSeq h, accept := (getCtx s ctx).accept, f := f, st := .waiting,
    deps := e.deps, copies := e.copies, tiles := e.tiles, leader := 0, next := 0, launched := [], claims := [],
    again := [], mirror := [], begun := false, ticket := 0, endedAt := [], ended := 0, preempt := 0, start := 0, deta := deta }
  modCtx { e.s with tasks := e.s.tasks ++ [t] } ctx fun x => { x with accept := x.accept + 1 }

/-! ### The CP takes the next record (R156, R160) -/

/-- The head of a queue is ready to be taken. -/
def headReady (s : State) (q : Nat) : Bool :=
  match (queueHead s q).2 with
  | .none => false
  | .record h f _ =>
    let c := (getQueue s q).ctx
    if hdrKind h = 1 then !(getCtx s c).lost && ((poolPoison s c).isSome || launchRoom s c f) else true
  | _ => true

/-- THE CP TAKES A QUEUE'S RECORD. A SIGNAL or WAITSIG that leaves a field out acts on the inherited one (log 87). -/
def takeRecord (s : State) (q : Nat) : State :=
  let x := getQueue s q
  let s := { s with cp := { s.cp with served := modifyAt (fun _ => q) x.qpri s.cp.served } }
  match queueHead s q with
  | (s, .none) => s
  | (s, .denied pa o) => denyRing s q pa o
  | (s, .poison pa va) => cpPoison s x.ctx (some q) pa va
  | (s, .refused h) => refuseRecord s q h
  | (s, .record h f deta) =>
    if hdrKind h = 1 then match poolPoison s x.ctx with
      | some pa => cpPoison (checkPool s x.ctx) x.ctx (some q) pa none
      | none => createTask (passRecord (checkPool s x.ctx) q h f) q h f deta
    else
      let b : Block1 := if hdrKind h = 2 then .signal (hdrSeq h) f.sigAddr f.sigVal else .waitsig (hdrSeq h) f.sigAddr f.sigVal
      modQueue (passRecord s q h f) q fun x => { x with blocked := some b }

/-- The queues that can be served, in ascending number. -/
def readyQueues (s : State) : List Nat := (s.queues.map (·.1)).filter (headReady s)

/-- The next queue in turn: the highest QPRI; in it the first above the one served last, else the lowest (R156). -/
def nextQueue (s : State) : Option Nat :=
  let qs := readyQueues s
  [3, 2, 1, 0].findSome? fun p =>
    let mine := qs.filter fun q => (getQueue s q).qpri = p
    (mine.find? fun q => (nth s.cp.served p).getD 0 < q).or mine.head?

/-- Where the CP can take nothing, it has found again what keeps it from the frame lists of waiting LAUNCHes (log 84). -/
def poolDenials (s : State) : State :=
  s.queues.foldl (fun t q => match (queueHead s q.1).2 with
    | .record h _ _ => if hdrKind h = 1 then poolDenied t q.2.ctx else t
    | _ => t) s

/-- KIND of the record at a queue's head. -/
def headKind (s : State) (q : Nat) : Option Nat := match (queueHead s q).2 with
  | .record h _ _ => some (hdrKind h)
  | .refused h => some (hdrKind h)
  | _ => none

/-- The record of this kind at the queue's head is taken, if the queue is next. -/
def takeKind (s : State) (q kind : Nat) : State :=
  if nextQueue s = some q ∧ headKind s q = some kind then takeRecord s q else s

def execLaunch (q : Nat) (s : State) : Out := .next (takeKind s q 1)
def execSignal (q : Nat) (s : State) : Out := .next (takeKind s q 2)
def execWaitsig (q : Nat) (s : State) : Out := .next (takeKind s q 3)

/-! ### VERSION_COPY (R164) -/

/-- What the CP may not reach of a copy of a frame, with the owner of the context whose version it makes (R115, R119). -/
def copyDenied (s : State) (o src dst : Nat) : Option (Nat × HomeAns) :=
  (masterAns s cpMaster o src 65536 false).or (masterAns s cpMaster o dst 65536 true)

/-- The blocks of a frame written from another, with their tags and marks. -/
def copyFrame (s : State) (src dst : Nat) : State :=
  (List.range 1024).foldl (fun s i =>
    let a := src / 64 + i
    let b := dst / 64 + i
    let s := eccCheck (iodAccess (iodAccess s (paDie src) true) (paDie dst) false) a
    let bytes := s.dram.readN (a * 64) 64
    let tag := fget 0 s.dtag a
    let poison := fget false s.dpoison a
    let s := homePutTag (homePut s (b * 64) bytes) b (if poison then 0 else tag)
    if poison then { s with dpoison := fput false s.dpoison b true } else s) s

/-- A version copied from another by the CP; a denial is recorded and costs the context (R454, log 98). -/
def copyVersion (s : State) (ctx src dst : Nat) : State :=
  match copyDenied s (ctxOwner s ctx) src dst with
  | none => copyFrame s src dst
  | some (pa, .owner o) =>
    loseContext (logErr s false ((((errRec 4 0x0030).atCtx s ctx).atPa pa).det o)) ctx 0x0030 1 false
  | some (pa, _) =>
    loseContext (logErr s false ((((errRec 4 0x0032).atCtx s ctx).atPa pa).det cpMaster)) ctx 0x0032 1 false

def execVersionCopy (id : Nat) (s : State) : Out :=
  let done (s : State) : State := { s with versions := s.versions.map fun x => if x.id = id then { x with ready := true } else x }
  .next <| match s.versions.find? fun v => decide (v.id = id) && !v.ready with
    | none => s
    | some v => match v.src with
      | none => done (limewash s (v.frame / 65536))
      | some src => match s.versions.find? fun x => x.id = src with
        | none => s
        | some x =>
          if !writerDone s x then s else done (copyVersion s v.ctx x.frame v.frame)

/-! ### TASK_DISPATCH (R167, R170) -/

/-- The newest version of a tile whose writer has completed (R166). -/
def completedVersion (s : State) (ctx tile : Nat) : Option Version :=
  leastBy (fun v => s.nextId - v.id)
    (s.versions.filter fun v => decide (v.ctx = ctx ∧ v.tile = tile) && v.ready && writerDone s v)

/-- The versions that a starting task finds for the arena tiles outside its sets. -/
def startTiles (s : State) (t : Task) : FMap Nat :=
  ((s.versions.filter fun v => v.ctx = t.ctx).map (·.tile)).eraseDups.foldl (fun m tile =>
    if (ffind t.tiles tile).isSome then m
    else match completedVersion s t.ctx tile with
      | some v => fins m tile v.id
      | none => m) t.tiles

/-- Versions that a completed task frees (R165); one that a copy has still to read stays (R164). -/
def freeVersions (s : State) (ctx : Nat) : State :=
  { s with versions := s.versions.filter fun v => decide (v.ctx ≠ ctx) ||
      (s.versions.any fun n => !n.ready && decide (n.src = some v.id)) ||
      !(s.versions.any (fun n => decide (n.ctx = v.ctx ∧ n.tile = v.tile ∧ v.id < n.id) && n.ready && writerDone s n) &&
        s.tasks.all fun t => t.tiles.all fun p => p.2 ≠ v.id) }

/-- EVENT 0x0023 and STATUS 4; its own versions stay, as those of a task that has completed (log 75), and versions that
waited only for it are freed (R165). -/
def refusePlacement (s : State) (t : Task) : State :=
  let r := { (((errRec 4 0x0023).atCtx s t.ctx).det t.tseq.toNat) with queue := BitVec.ofNat 16 t.queue }
  freeVersions (closeTask (logErr (evict s fun b => b.task = t.id) true r) t 4) t.ctx

/-- The grid of a COOP task fits (R170). -/
def coopFits (s : State) (t : Task) : Bool :=
  let x := shapeOf t.f.shape
  let cores := s.live.filter (inService s)
  let each := blocksPerCore x
  let blocks := match (getCtx s t.ctx).desc with
    | some d => d.pblocks
    | none => 0
  decide (taskSize t ≤ blocks) &&
  if t.det then
    (List.range s.live.length).all fun c =>
      decide (((List.range (taskSize t)).filter fun j => detCore s t j = some c).length ≤ each)
  else decide (taskSize t ≤ each * cores.length)

/-- The dispatchers that run: of every die that has not failed. -/
def liveDispatchers (s : State) : List Nat := [0, 1, 2, 3].filter fun d => !fget false s.deadDisp d

def execTaskDispatch (task : Nat) (s : State) : Out :=
  .next <| match getTask s task with
    | none => s
    | some t =>
      let met := t.deps.all (fun d => (getTask s d).isNone) &&
        t.copies.all fun v => s.versions.any fun x => decide (x.id = v) && x.ready
      match t.st, liveDispatchers s with
      | .waiting, d :: _ =>
        if !met ∨ (getCtx s t.ctx).lost then s
        else if t.coop && !coopFits s t then refusePlacement s t
        else if t.det && !(List.range (taskSize t)).all fun j => (detCore s t j).isSome then refusePlacement s t
        else modTask s task fun x => { x with st := .placing, leader := d, tiles := startTiles s t }
      | _, _ => s

/-! ### BLOCK_LAUNCH (R168, R169, R171) -/

/-- The dispatcher of the core launches the task's next block there. -/
def launchBlock (s : State) (t : Task) (c p ix : Nat) : State :=
  if s.tasks.any fun u => ahead u t && canLaunch s u c p then s
  else match nextIndex s t c ix with
    | some lin => placeBlock s t lin p
    | none => s

def execBlockLaunch (task core ix : Nat) (s : State) : Out :=
  .next <| match getTask s task, physicalOf s core with
    | some t, some p =>
      if t.det && decide (t.st = .placing) && !(getCtx s t.ctx).lost && decide (ix < taskSize t) && !fget false t.launched ix &&
          (detCore s t ix).isNone then refusePlacement s t
      else if canLaunch s t core p then launchBlock s t core p ix else s
    | _, _ => s

/-! ### BLOCK_END (R173) -/

/-- Every wave has retired, the sequencer has ended, the copy queue is empty. -/
def blockDone (s : State) (b : Block) : Bool :=
  (b.waves.all (·.retired)) && (b.seq.all fun q => decide (q.run = .ended)) && s.copies.all fun c => c.bid ≠ b.id

/-- The requests to peers that a block leaves behind keep the record that a refusal will write (R425, R467). -/
def keepTraps (s : State) (b : Block) : State :=
  let rec_ (n : NetOut) : TrapRec :=
    let tp := ((nth b.waves n.wave).map fun w => (laneOf w n.lane).tp).getD 0
    { trapWave s b n.wave 0 .prot (laneBit n.lane) tp n.word with va := n.va, flags := trapFlags true true false }
  { s with netOut := s.netOut.map fun n =>
      if n.bid = b.id ∧ n.lane < 32 ∧ !isRead n.access then { n with late := some (rec_ n) } else n }

/-- The block leaves; its turn is released; the last one ends its task. -/
def endBlock (s : State) (b : Block) : State :=
  let s := dropBlock (keepTraps s b) b.id
  let s := { s with arrivals := s.arrivals.filter fun a => a.bid ≠ b.id,
                    pendings := s.pendings.filter fun p => p.bid ≠ b.id }
  let s := modTask s b.task fun t => { t with ended := t.ended + 1 }
  let s := releaseTurn s b.task b.lin true
  let s := match b.core with
    | some p => if (getCore s p).halted.any fun c => (residents s p).all fun x => x.ctx ≠ c then
        modCore s p fun x => { x with halted := none } else s
    | none => s
  modTask s b.task fun t => if t.ended = taskSize t then { t with st := .ending } else t

def execBlockEnd (bid : Nat) (s : State) : Out :=
  .next <| match getBlock s bid with
    | none => s
    | some b => match b.core with
      | none => s
      | some core =>
        if !blockDone s b then s
        else match b.ended with
          | none =>
            let (id, s) := fresh s
            let s := modBlock s bid fun b => { b with ended := some id }
            if releaseMet s core .device id then endBlock s b else s
          | some id => if releaseMet s core .device id then endBlock s b else s

/-! ### TASK_COMPLETION (R149, R173, R187) -/

/-- The signal, the completion record and the end of the task. -/
def completeTask (s : State) (t : Task) : State :=
  let fin (s : State) (status : Nat) : State := freeVersions (closeTask s t status) t.ctx
  if t.f.sigAddr = 0 then fin s 0
  else match cpSignal s t.ctx t.f.sigAddr t.f.sigVal with
    | (s, none) => s
    | (s, some none) => fin s 0
    | (s, some (some (.poison pa va))) => cpPoison s t.ctx (some t.queue) pa (some va)
    | (s, some (some e)) => fin (logSignal s t.queue t.ctx t.f.sigAddr e) 5

def execTaskCompletion (task : Nat) (s : State) : Out :=
  .next <| match getTask s task with
    | none => s
    | some t =>
      if t.st ≠ .ending ∨ (getCtx s t.ctx).lost then s
      else match (if t.det then flushTask s task else (s, true)) with
        | (s, false) => s
        | (s, true) => match getTask s task with
          | none => s
          | some t =>
            if s.flights.any (fun f => f.task = task) || peersBusy s task then s else completeTask s t

end Sys2Proof.Machine
end

