-- ==== Sys2Proof/Machine/Commands.lean ====
section
/-! DEFINITION. The CP's command ring (R357) and its commands (R107, R108, R112, R116, R154, R162, R182, R367, R415 to
R417, R429, R455, R459). -/

namespace Sys2Proof.Machine

/-! ### The ring -/

/-- A field of a command or a descriptor: `n` bytes at `o`. -/
def argOf (bs : List Byte) (o n : Nat) : Nat := natOf ((bs.drop o).take n)

/-- Bytes that a layout does not assign are zero: `used` lists the assigned ranges. -/
def restZero (bs : List Byte) (used : List (Nat × Nat)) : Bool :=
  ((List.range bs.length).zip bs).all fun p => decide (p.2 = 0) || used.any fun u => decide (u.1 ≤ p.1 ∧ p.1 < u.1 + u.2)

/-- The address of the next command. -/
def cmdAddr (s : State) : Nat := s.cp.ring.toNat + 64 * (s.cp.ridx.toNat % 2 ^ s.cp.log.toNat)

/-- A command from its bytes (R357). -/
def decodeCmd (bs : List Byte) : Instr :=
  let f := argOf bs
  let h (used : List (Nat × Nat)) : CmdHead := ⟨BitVec.ofNat 16 (f 2 2), !restZero bs ([(0, 1), (2, 6)] ++ used)⟩
  match f 0 1 with
  | 0x01 => .ctxset (h [(8, 2), (16, 8)]) (f 8 2) (f 16 8)
  | 0x02 => .schedset (h [(8, 2), (16, 8)]) (f 8 2) (f 16 8)
  | 0x03 => .qset (h [(8, 2), (16, 8)]) (f 8 2) (f 16 8)
  | 0x04 => .qstop (h [(8, 2)]) (f 8 2)
  | 0x05 => .savepool (h [(8, 2), (16, 8), (24, 4)]) (f 8 2) (f 16 8) (f 24 4)
  | 0x06 => .ownset (h [(16, 8), (24, 4), (28, 2)]) (f 16 8) (f 24 4) (f 28 2)
  | 0x07 => .tlbinv (h [(8, 3), (16, 8)]) (f 8 2) (f 10 1) (f 16 8)
  | 0x08 => .pgdone (h [(8, 2), (16, 8)]) (f 8 2) (f 16 8)
  | 0x09 => .grancopy (h [(8, 2), (12, 4), (16, 16)]) (f 8 2) (f 12 4) (f 16 8) (f 24 8)
  | 0x0A => .meter (h [(8, 2), (12, 4)]) (f 8 2) (f 12 4)
  | 0x0B => .resume (h [(8, 8)]) (f 8 8)
  | 0x0C => .kill (h [(8, 2)]) (f 8 2)
  | 0x0D => .quote (h [(16, 16)]) (f 16 8) (f 24 8)
  | c => .cpCommandUnknown (h []) (BitVec.ofNat 8 c)

/-- The CP's read for a command: refused and logged where it cannot reach the bytes; poison of a descriptor or list costs
the context that the command names (R413). -/
def cmdRead (s : State) (ctx : Option Nat) (pa n : Nat) : State × Option (List Byte) :=
  match cpRead s 0xFFFF 0xFFFF pa n with
  | (s, .ok bs) => (s, some bs)
  | (s, .table) => (logErr s false ((errRec 4 0x0032).det cpMaster), none)
  | (s, .owner pa o) => (logErr s false (((errRec 4 0x0030).atPa pa).det o), none)
  | (s, .poison pa) => match ctx with
    | some c => (cpPoison s c none pa none, none)
    | none => (logErr s true ((((errRec 2 0x0009).atUnit 4 0xFF 25 0xFF).atPa pa).det 3), none)

/-- The CP reads the command at the ring's head: none where the ring is empty or cannot be read, which it tries again at
its next turn (log 84). -/
def fetchCommand (s : State) : State × Option Instr :=
  if s.cp.widx = s.cp.ridx ∨ s.cp.log.toNat < 4 ∨ 12 < s.cp.log.toNat then (s, none)
  else match cmdRead s none (cmdAddr s) 64 with
    | (s, some bs) => (s, some (decodeCmd bs))
    | (s, none) => (s, none)

/-- The next command. -/
def nextCommand (s : State) : Option Instr := (fetchCommand s).2

/-- STATUS is written, CRIDX advances, MSI-X vector 0 is signalled. -/
def finishCommand (s : State) (status : Nat) : State :=
  let s := cpPut s (cmdAddr s + 4) (bytesOfNat 4 status)
  emit { s with cp := { s.cp with ridx := s.cp.ridx + 1 } } (.msix 0)

/-- A command, if it is the next one of the ring: its effect and STATUS; none while it is not complete. -/
def runCommand (i : Instr) (h : CmdHead) (s : State) (k : State → State × Option Nat) : Out :=
  .next <| match fetchCommand s with
    | (z, j) =>
      if j ≠ some i then s
      else if h.resv then finishCommand z 1
      else match k z with
        | (z, some n) => finishCommand z n
        | (z, none) => z

/-! ### CTXSET, SCHEDSET, SAVEPOOL -/

/-- R108's descriptor, none where a field is out of range; an aligned address of any size is in range (log 73). -/
def ctxDesc (bs : List Byte) : Option CtxDesc :=
  let f := argOf bs
  let d : CtxDesc := ⟨f 0 2, f 2 2, f 8 8, f 16 8, f 24 1, f 28 4, f 32 4, f 40 8, f 48 2, f 50 2⟩
  if d.asid < 4096 ∧ 1 ≤ d.owner ∧ d.owner ≤ 0xFFFE ∧ d.ptroot % 65536 = 0 ∧ d.pbase % 65536 = 0 ∧ 12 ≤ d.psz ∧
      d.psz ≤ 20 ∧ d.splim % 16 = 0 ∧ d.splim ≤ 2 ^ d.psz ∧ 1 ≤ d.pblocks ∧ d.pblocks ≤ 2 ^ 20 ∧ d.gmap % 4096 = 0 ∧
      1 ≤ d.bu ∧ d.rt ≤ d.bu ∧ restZero bs [(0, 4), (8, 17), (28, 8), (40, 12)] then some d
  else none

/-- A task of the context is live. -/
def ctxBusy (s : State) (c : Nat) : Bool := s.tasks.any fun t => t.ctx = c

def execCtxset (h : CmdHead) (ctx addr : Nat) (s : State) : Out :=
  runCommand (.ctxset h ctx addr) h s fun s =>
    if 4096 ≤ ctx then (s, some 1)
    else match cmdRead s (some ctx) addr 64 with
      | (s, none) => (s, some 1)
      | (s, some bs) => match ctxDesc bs with
        | none => (s, some 1)
        | some d =>
          if ctxBusy s ctx then (s, some 2)
          else (claimMap (modCtx s ctx fun x => { x with desc := some d, lost := false }) d, some 0)

/-- R162's record. -/
def schedRec (bs : List Byte) : Option SchedRec :=
  let f := argOf bs
  let r : SchedRec := ⟨f 0 4, f 4 4, f 8 8, f 16 8, f 24 4⟩
  if 50 ≤ r.slice ∧ r.slice ≤ 100000 ∧ r.atiles ≤ 2 ^ 24 ∧ r.abase % 65536 = 0 ∧ r.fpool % 65536 = 0 ∧
      restZero bs [(0, 28)] then some r
  else none

/-- SCHEDSET (R162): the versions of tiles and their frames stay as they are (DESIGN CHOICE, log 100). -/
def execSchedset (h : CmdHead) (ctx addr : Nat) (s : State) : Out :=
  runCommand (.schedset h ctx addr) h s fun s =>
    if 4096 ≤ ctx then (s, some 1)
    else match cmdRead s (some ctx) addr 32 with
      | (s, none) => (s, some 1)
      | (s, some bs) => match schedRec bs with
        | none => (s, some 1)
        | some r =>
          if ctxBusy s ctx then (s, some 2) else (modCtx s ctx fun x => { x with sched := some r }, some 0)

/-- The frames that a list of 8-byte physical addresses names. -/
def frameList (bs : List Byte) (n : Nat) : List Nat := (List.range n).map fun i => argOf bs (8 * i) 8

def execSavepool (h : CmdHead) (ctx list count : Nat) (s : State) : Out :=
  runCommand (.savepool h ctx list count) h s fun s =>
    if 4096 ≤ ctx then (s, some 1)
    else match cmdRead s (some ctx) list (8 * count) with
      | (s, none) => (s, some 1)
      | (s, some bs) =>
        let fs := frameList bs count
        if fs.all fun a => decide (a % 65536 = 0) && ownedByHyp s a 65536 then
          (modCtx s ctx fun x => { x with pool := fs.map (· / 65536) }, some 0)
        else (s, some 1)

/-! ### QSET, QSTOP, METER -/

/-- R154's descriptor. A SIGNAL or WAITSIG that still waits is dropped with the old configuration (`blocked`), without a
completion record (DESIGN CHOICE, log 100). -/
def queueDesc (bs : List Byte) : Option QueueSt :=
  let f := argOf bs
  let q : QueueSt := { ring := f 0 8, logd := f 8 1, qpri := f 9 1, ctx := f 10 2, carea := f 16 8, logc := f 24 1,
                       widx := BitVec.ofNat 32 (f 32 4), ridx := BitVec.ofNat 32 (f 36 4), cidx := BitVec.ofNat 32 (f 40 4),
                       enabled := true, frozen := false, inh := .zero, blocked := none }
  if 6 ≤ q.logd ∧ q.logd ≤ 20 ∧ q.ring % (8 * 2 ^ q.logd) = 0 ∧ q.qpri ≤ 3 ∧ q.ctx < 4096 ∧ 4 ≤ q.logc ∧ q.logc ≤ 16 ∧
      q.carea % (32 * 2 ^ q.logc) = 0 ∧ restZero bs [(0, 12), (16, 9), (32, 12)] then some q
  else none

/-- The context that a queue serves, if it is configured. -/
def queueOwner (s : State) (q : Nat) : Option Nat := (ffind s.queues q).map (·.ctx)

def execQset (h : CmdHead) (q addr : Nat) (s : State) : Out :=
  runCommand (.qset h q addr) h s fun s =>
    if 4096 ≤ q then (s, some 1)
    else match cmdRead s (queueOwner s q) addr 64 with
      | (s, none) => (s, some 1)
      | (s, some bs) => match queueDesc bs with
        | none => (s, some 1)
        | some x =>
          if !ownedByHyp s x.carea (32 * 2 ^ x.logc) then (s, some 1)
          else if (getCtx s x.ctx).desc.isNone then (s, some 2)
          else (modQueue s q fun _ => x, some 0)

def execQstop (h : CmdHead) (q : Nat) (s : State) : Out :=
  runCommand (.qstop h q) h s fun s =>
    if 4096 ≤ q then (s, some 1) else (modQueue s q fun x => { x with enabled := false }, some 0)

def execMeter (h : CmdHead) (slice srate : Nat) (s : State) : Out :=
  runCommand (.meter h slice srate) h s fun s =>
    if 64 ≤ slice then (s, some 1)
    else ({ s with meters := fmod .init s.meters slice fun m => { m with srate := srate } }, some 0)

/-! ### OWNSET (R116, R415) -/

/-- One frame is limewashed and takes its owner; one whose retirement was requested is retired by owner 0. -/
def changeOwner (s : State) (f o : Nat) : State :=
  let s := setOwner (limewash s f) f o
  if o = 0 && fget false s.asked f then
    { s with asked := fdel s.asked f, gone := fput false s.gone f true }
  else s

def execOwnset (h : CmdHead) (frame count owner : Nat) (s : State) : Out :=
  runCommand (.ownset h frame count owner) h s fun s =>
    if dramEnd / 65536 < frame + count then (s, some 1)
    else
      let fs := (List.range count).map (frame + ·)
      if fs.any fun f => fget false s.gone f then (s, some 2)
      else (fs.foldl (fun s f => changeOwner s f owner) s, some 0)

/-! ### TLBINV (R112, R455) -/

/-- Every TLB. -/
def allTlbs : List Nat := List.range 68

/-- The address lies in the 1 GiB region, the largest page, that the command's address names; with mode 1 any does. -/
def nearAddr (mode addr : Nat) (va : Word64) : Bool := decide (mode = 1 ∨ va.toNat / 2 ^ 30 = addr / 2 ^ 30)

/-- The ASID of a context. -/
def hasAsid (s : State) (asid c : Nat) : Bool := (getCtx s c).desc.any fun d => d.asid = asid

/-- A write translated already is on its way to a peer (R360). -/
def peerWrites (s : State) (asid mode addr : Nat) : Bool :=
  s.netOut.any fun n => !isRead n.access && hasAsid s asid n.ctx &&
    nearAddr mode addr (match getBlock s n.bid with
      | some b => globalAddr s b n.wave n.lane n.va
      | none => n.va)

/-- The entries of a wave's write path and of its trace, each with its identity; those of the trace come last. -/
def Wave.entries (w : Wave) (last : Nat) : List (Nat × TsbRec) :=
  w.path.map (fun r => (r.id, r.item)) ++ (match w.trace with
    | some t => t.buf.map fun r => (last, r)
    | none => [])

/-- A write of an entry or an operation that a purge must await: one of the page that does not queue behind a held one. -/
def awaited (s : State) (b : Block) (wi mode addr date : Nat) (xs : List (Nat × Word64 × Place × Nat)) : Bool :=
  !anyPageHeld s b wi date xs && xs.any fun x => nearAddr mode addr (globalAddr s b wi x.1 x.2.1)

/-- A write of a context with the ASID, translated already, has neither reached its home nor been held in its core, at its
home's RETRY or behind a held write (R455, R456). -/
def writesPending (s : State) (asid mode addr : Nat) : Bool :=
  let mine (c : Nat) : Bool := hasAsid s asid c
  peerWrites s asid mode addr ||
  (s.flights.any fun f => mine f.ctx && !f.held && nearAddr mode addr (globalVa s f)) ||
  s.blocks.any fun b => mine b.ctx && (
    (((List.range b.waves.length).zip b.waves).any fun w => (w.2.entries s.nextId).any fun r =>
      awaited s b w.1 mode addr r.1 r.2.writes) ||
    (s.ops.filter fun o => o.bid = b.id ∧ !o.sent).any fun o => awaited s b o.wave mode addr o.id o.body.writes)

/-- The place as one that a leaf with MIG = 1 gave. -/
def Place.marked : Place → Place
  | .phys pa c d _ => .phys pa c d true
  | p => p

/-- A waiting entry whose writes are translated anew: each carries the mark (R456, log 97). -/
def TsbRec.marked : TsbRec → TsbRec
  | .store h xs => .store h (xs.map fun x => { x with place := x.place.marked })
  | .tag xs => .tag (xs.map fun x => { x with place := x.place.marked })
  | .atom sc rel xs => .atom sc rel (xs.map fun x => { x with place := x.place.marked })
  | r => r

def OpBody.marked : OpBody → OpBody
  | .atoms xs => .atoms (xs.map fun x => ({ x.1 with place := x.1.place.marked }, x.2))
  | .stl xs => .stl (xs.map fun x => { x with place := x.place.marked })
  | o => o

/-- What queues behind a held write of the page when a purge completes goes to its leaf's new page with it. -/
def remarkQueued (s : State) (asid : Nat) : State :=
  let item (b : Block) (wi date : Nat) (r : TsbRec) : TsbRec := if anyPageHeld s b wi date r.writes then r.marked else r
  let wave (b : Block) (p : Nat × Wave) : Wave := { p.2 with
    path := p.2.path.map fun r => { r with item := item b p.1 r.id r.item }
    trace := p.2.trace.map fun t => { t with buf := t.buf.map (item b p.1 s.nextId) } }
  { s with
    blocks := s.blocks.map fun b => if hasAsid s asid b.ctx then
      { b with waves := ((List.range b.waves.length).zip b.waves).map (wave b) } else b
    ops := s.ops.map fun o => match getBlock s o.bid with
      | some b =>
        if hasAsid s asid b.ctx && anyPageHeld s b o.wave o.id o.body.writes then { o with body := o.body.marked } else o
      | none => o }

/-- A deferred atomic is translated anew at its flush. -/
def remarkDeferred (s : State) (asid mode addr : Nat) : State :=
  { s with detbuf := s.detbuf.map fun e =>
      if hasAsid s asid e.ctx && nearAddr mode addr e.gva then
        match e.atom.place with
        | .phys pa c d _ => e.moved (.phys pa c d true)
        | _ => e
      else e }

def execTlbinv (h : CmdHead) (asid mode addr : Nat) (s : State) : Out :=
  runCommand (.tlbinv h asid mode addr) h s fun s =>
    if 4096 ≤ asid ∨ 1 < mode then (s, some 1)
    else
      let s := tlbPurge s allTlbs fun e => decide (e.asid = asid) && (decide (mode = 1) || decide (e.page = addr / 2 ^ e.shift))
      let s := remarkDeferred s asid mode addr
      if writesPending s asid mode addr then (s, none) else (remarkQueued s asid, some 0)

/-! ### PGDONE (R185, R190, R458) -/

/-- The page is resolved for what is parked on it. -/
def resolvePage (s : State) (ctx page : Nat) : State :=
  { s with
    blocks := s.blocks.map fun b =>
      if b.ctx = ctx then { b with
        waves := b.waves.map fun w => { w with parked := w.parked.filter fun p => p ≠ page }
        seq := b.seq.map fun q => if q.run = .faulted page then { q with run := .running } else q }
      else b
    copies := s.copies.map fun c => if c.ctx = ctx ∧ c.stopped = some page then { c with stopped := none } else c }

def execPgdone (h : CmdHead) (ctx addr : Nat) (s : State) : Out :=
  runCommand (.pgdone h ctx addr) h s fun s =>
    if 4096 ≤ ctx then (s, some 1) else (resolvePage s ctx (addr / 65536), some 0)

/-! ### GRANCOPY (R107, R459) -/

/-- The granary maps that the CP reads are checked (R447). -/
def checkMaps (s : State) : State := s.ctxs.foldl (fun s p => match p.2.desc with
  | some d => checkRange (iodAccess s (paDie d.gmap) true) d.gmap 2048
  | none => s) s

/-- A task of a context that owns the region runs. -/
def regionBusy (s : State) (die off bytes : Nat) : Bool :=
  s.tasks.any fun t => decide (t.st ≠ .waiting) && match (getCtx s t.ctx).desc with
    | some d => mapsRegion s d die off bytes
    | none => false

/-- A granary block takes 64 bytes, a tag and a mark. -/
def putGranary (s : State) (blk : Nat) (bytes : List Byte) (tag : BitVec 16) (poison : Bool) : State :=
  { s with
    gran := s.gran.writeN (blk * 64) bytes
    gtag := fput 0 s.gtag blk (if poison then 0 else tag)
    gpoison := fput false s.gpoison blk poison
    gupsets := fdel s.gupsets blk }

/-- One block of the copy. -/
def granBlock (s : State) (blk src : Nat) : State :=
  let s := iodAccess (iodAccess s (paDie src) true) (blk / 2 ^ 22) false
  let s := eccCheck (eccCheck s (src / 64)) ((src + 63) / 64)
  putGranary s blk (s.dram.readN src 64) (fget 0 s.dtag (src / 64))
    (fget false s.dpoison (src / 64) || fget false s.dpoison ((src + 63) / 64))

/-- Owners that the copy's reads may present: the CP's, and those of the contexts whose maps name the region. -/
def copyOwners (s : State) (die off bytes : Nat) : List Nat :=
  0xFFFF :: s.ctxs.filterMap fun p => match p.2.desc with
    | some d => if mapsRegion s d die off bytes then some d.owner else none
    | none => none

/-- The regions of the range are claimed for the owners whose maps name them (R117). -/
def claimRange (s : State) (die off bytes : Nat) : State :=
  s.ctxs.foldl (fun s p => match p.2.desc with
    | some d => ((List.range 128).filter fun r => rangesMeet (r * 2 ^ 21) (2 ^ 21) off bytes &&
        mapsRegion s d die (r * 2 ^ 21) (2 ^ 21)).foldl (fun s r => claimRegion s die r d.owner) s
    | none => s) s

/-- A block of the range, copied after the regions' claims. -/
def copyRange (s : State) (die off src bytes : Nat) : State :=
  (List.range (bytes / 64)).foldl (fun s i => granBlock s (die * 2 ^ 22 + off / 64 + i) (src + 64 * i))
    (claimRange s die off bytes)

/-- The first denial of a read of the source range, where no owner lets the CP read (R107, R119). -/
def sourceDenied (s : State) (os : List Nat) (src bytes : Nat) : Option (Nat × HomeAns) :=
  (piecesOf src bytes).findSome? fun p =>
    if dramEnd ≤ p.1 then some (p.1, .owner 0)
    else if os.any fun o => homeAns s cpMaster o p.1 false = .ok then none
    else some (p.1, homeAns s cpMaster 0xFFFF p.1 false)

def execGrancopy (h : CmdHead) (die off src bytes : Nat) (s : State) : Out :=
  runCommand (.grancopy h die off src bytes) h s fun s =>
    if 4 ≤ die ∨ 2 ^ 28 < off + bytes ∨ off % 64 ≠ 0 ∨ bytes % 64 ≠ 0 then (s, some 1)
    else if !tableOk s (64 + die) cpMaster true then (logErr s false ((errRec 4 0x0032).det cpMaster), some 1)
    else
      let s := checkMaps s
      match sourceDenied s (copyOwners s die off bytes) src bytes with
      | some d => (masterDenied s cpMaster d, some 1)
      | none =>
        if regionBusy s die off bytes then
          (logErr s false { (errRec 4 0x0036).det die with exc := 0x15, die := BitVec.ofNat 8 die }, some 2)
        else if (List.range 32).any fun b => fget false s.retiredBanks (32 * die + b) then (s, some 2)
        else (copyRange s die off src bytes, some 0)

/-! ### RESUME (R429) -/

/-- R421: a record of this code is refused, or one with POST set of a PROT. -/
def resumeRefused (e : Exc) (post : Bool) : Bool := match e with
  | .pgflt | .divcall | .stkovf => true
  | .prot => post
  | _ => false

/-- The lane is trapped by the record. -/
def trappedBy (n : Nat) (l : Lane) : Option (Exc × Bool × Word64) := match l.st with
  | .trapped r e p w => if r % 2 ^ 32 = n then some (e, p, w) else none
  | _ => none

/-- A lane goes on. -/
def resumeLane (n : Nat) (l : Lane) : Lane := match trappedBy n l with
  | some (e, p, w) =>
    if resumeRefused e p then l
    else { l with
      st := .runnable
      pass := if e = .brkpt then some w else l.pass
      gcount := if e = .glive then 0 else l.gcount }
  | none => l

/-- A sequencer goes on. -/
def resumeSeq (n : Nat) (q : SeqState) : SeqState := match q.run with
  | .stopped r skip =>
    if r % 2 ^ 32 ≠ n then q
    else if skip then { q.goTo (q.pc + 16) with run := .running }
    else { q with run := .running }
  | _ => q

/-- Something can go on by the record. -/
def resumable (n : Nat) (b : Block) : Bool :=
  (b.waves.any fun w => w.lanes.any fun l => match trappedBy n l with
    | some (e, p, _) => !resumeRefused e p
    | none => false) ||
  b.seq.any fun q => match q.run with
    | .stopped r _ => decide (r % 2 ^ 32 = n)
    | _ => false

def resumeRecord (s : State) (ctx n : Nat) : State :=
  { s with blocks := s.blocks.map fun b =>
      if b.ctx = ctx then { b with
        waves := b.waves.map fun w => { w with lanes := w.lanes.map (resumeLane n) }
        seq := b.seq.map (resumeSeq n) }
      else b }

def execResume (h : CmdHead) (ident : Nat) (s : State) : Out :=
  runCommand (.resume h ident) h s fun s =>
    let ctx := ident / 2 ^ 32
    let n := ident % 2 ^ 32
    if 4096 ≤ ctx || (getCtx s ctx).lost || ((getCtx s ctx).held.any fun r => decide (r.seq % 2 ^ 32 = n)) ||
        !(s.blocks.any fun b => decide (b.ctx = ctx) && resumable n b) then (s, some 2)
    else (resumeRecord s ctx n, some 0)

/-! ### KILL (R416, R417) -/

def execKill (h : CmdHead) (ctx : Nat) (s : State) : Out :=
  runCommand (.kill h ctx) h s fun s =>
    if 4096 ≤ ctx then (s, some 1)
    else if (getCtx s ctx).losing.isSome then (s, none)
    else if ctxBusy s ctx then
      let s := loseContext s ctx 0xFFFF 1 true
      (s, if (getCtx s ctx).losing.isSome then none else some 0)
    else (s, some 0)

/-! ### QUOTE (R367) -/

/-- MR0 to MR7 and the digest of the enumeration table. -/
def quoteBody (s : State) : List Byte :=
  s.rot.mr.flatMap (bytesOfNat 32) ++ sm3 ((List.range 3072).map fun i => BitVec.ofNat 8 (enumByte s i))

def execQuote (h : CmdHead) (nonce out : Nat) (s : State) : Out :=
  runCommand (.quote h nonce out) h s fun s =>
    match (masterAns s cpMaster 0xFFFF nonce 32 false).or (masterAns s cpMaster 0xFFFF out 352 true) with
    | some d => (masterDenied s cpMaster d, some 1)
    | none => match cmdRead s none nonce 32 with
      | (s, none) => (s, some 1)
      | (s, some n) =>
        let body := quoteBody s
        let (ix, s) := freeIx s
        let sig := Config.sm2Sign (natOf (sm3 (n ++ body))) ix
        let sig := (List.range 64).map fun i => (nth sig i).getD 0
        (cpPut s out (body ++ sig), some 0)

/-! ### Any other code -/

def execCpCommandUnknown (h : CmdHead) (code : BitVec 8) (s : State) : Out :=
  runCommand (.cpCommandUnknown h code) h s fun s => (s, some 1)

end Sys2Proof.Machine
end

