-- ==== Sys2Proof/Machine/Copying.lean ====
section
/-! DEFINITION. Copies and byte-counting barriers, 0x0F1 to 0x0F7 (R279 to R283). -/

namespace Sys2Proof.Machine

/-! ### The checks of a copy word (R280) -/

/-- A range lies in the global window or in the block's scratchpad. -/
def copyExtent (b : Block) (a : Word64) (n : Nat) : Bool :=
  let off := a.toNat % 2 ^ 56
  if a.toNat / 2 ^ 56 = 0 then decide (off + n ≤ 2 ^ 56)
  else decide (a.toNat / 2 ^ 56 = 0xF0) && decide (off + n ≤ b.shape.sp * 1024)

/-- The first range that fails R95 step 1, else the first misaligned address. -/
def copyFault (b : Block) (rs : List (Word64 × Nat)) : Option Stop :=
  match rs.find? fun r => !copyExtent b r.1 r.2 with
  | some r => some (addrExc .apert r.1)
  | none => (rs.find? fun r => decide (r.1.toNat % 16 ≠ 0)).map fun r => addrExc .align r.1

/-- The entries of the core's copy queue in use: commands issued, committed, and reserved by traces. -/
def copyEntries (s : State) (core : Nat) : Nat :=
  (s.copies.filter fun c => decide (c.core = core) && residentCopy s c).length +
  ((s.blocks.filter fun b => b.core = some core).flatMap fun b => b.waves.map fun w =>
    (match w.trace with
      | some t => t.copies
      | none => 0) +
    (w.path.filter fun r => match r.item with
      | .copy .. => true
      | _ => false).length).foldl (· + ·) 0

/-- The address that row `r` is written to. -/
def rowDest (dst stride : Word64) (r : Nat) : Word64 := dst + BitVec.ofNat 64 r * stride

/-- A copy word's command takes a queue entry and a TSB entry, or the batch waits for an entry; `big` is a limit passed,
`odd` a size or stride that is no multiple of 16, `more` the stops of lanes that gave a row of their own. -/
def Iss.issueCopyCmd (x : Iss) (l0 : Nat) (cmd : CopyCmd) (ranges : List (Word64 × Nat)) (big odd : Bool)
    (more : List Raise) : Ans :=
  let st : Option Stop := if big then some (.exc .badfld 8 0 none)
    else (copyFault x.b ranges).or (if odd then some (.plain .align) else none)
  let rs := (st.map fun z => (l0, z)).toList ++ more
  if rs ≠ [] then x.stop rs
  else if 64 ≤ copyEntries x.s (x.b.core.getD 0) then .wait x.s
  else .done ({ x with t := { x.t with copies := x.t.copies + 1 } }.putTsb (.copy x.ex cmd))

/-- The parts of a command that its word fixes. -/
def Iss.copyCmd (x : Iss) (c : Ctl) (scope : Scope) (bar : BitVec 4) (srcs : List Word64) (dst stride : Word64)
    (rowBytes : Nat) : CopyCmd := ⟨srcs, dst, stride, rowBytes, bar, scope, c.hint, x.addr, x.t.start⟩

/-- CPY: one row of `count` bytes. -/
def execCpy (c : Ctl) (scope : Scope) (bar : BitVec 4) (d a : RegOp) (b : Src) (s : State) : Out :=
  waveWord c (.mk2 0 1) (fun x =>
    x.reading ([x.readWide true 6 d, x.readWide true 7 a] ++ x.readSrc true 8 b 1) <|
      match lowest x.ex with
      | none => .done x
      | some l =>
        let dst := x.wide d l
        let src := x.wide a l
        let n := (x.val true (opB b .z false) l).toNat
        x.issueCopyCmd l (x.copyCmd c scope bar [src] dst 0 n) [(dst, n), (src, n)]
          (decide (2 ^ 32 - 16 < n)) (decide (n % 16 ≠ 0)) []) s

/-- The next scalar registers of CPYT's descriptor. -/
def scalarAt (r : Reg) (i : Nat) : Nat := match r with
  | .s n => n + i
  | _ => 0

/-- CPYT: rows with a source and a destination stride. -/
def execCpyt (c : Ctl) (scope : Scope) (bar : BitVec 4) (d a b : RegOp) (s : State) : Out :=
  waveWord c (.mk2 0 1) (fun x =>
    x.reading [x.readWide true 6 d, x.readWide true 7 a, x.readReg true 8 b 3] <|
      match lowest x.ex with
      | none => .done x
      | some l =>
        let dst := x.wide d l
        let src := x.wide a l
        let sh := (x.scell (scalarAt b.reg 0)).val
        let ss := (x.scell (scalarAt b.reg 1)).val
        let ds := (x.scell (scalarAt b.reg 2)).val
        let n := (low32 sh).toNat
        let rows := (sh >>> 32).toNat
        let big := decide (2 ^ 32 - 16 < n) || decide (2 ^ 16 < rows)
        let odd := decide (n % 16 ≠ 0) || decide (ss.toNat % 16 ≠ 0) || decide (ds.toNat % 16 ≠ 0)
        let rs := if big then [] else List.range rows
        let ranges := if rs = [] then [(dst, 0), (src, 0)]
          else rs.flatMap fun r => [(rowDest dst ds r, n), (rowDest src ss r, n)]
        x.issueCopyCmd l (x.copyCmd c scope bar (rs.map (rowDest src ss)) dst ds n) ranges big odd []) s

/-- CPYG: each executing lane gives one source row, from the base that the lowest has read; where that lane stops at an
operand, the others' own checks are made as far as there is a base (R422, R423). -/
def execCpyg (c : Ctl) (rsz : BitVec 4) (scope : Scope) (bar : BitVec 4) (d : RegOp) (a b : Src) (s : State) : Out :=
  let n := 2 ^ (rsz.toNat + 4)
  waveWord c (.mk2 0 1) (fun x =>
    x.readingThen (x.readWide true 6 d :: x.readSrc true 7 a 1 ++ x.readSrc false 8 b 1) fun rs =>
      match lowest x.ex with
      | none => .done x
      | some l0 =>
        let dst := x.wide d l0
        let base := x.val true (opA a .z false) l0
        let src (l : Nat) : Word64 := base + x.val false (opB b .z false) l * BitVec.ofNat 64 n
        let ls := lanesOf x.ex
        let ranges := ((List.range ls.length).map fun j => (rowDest dst (BitVec.ofNat 64 n) j, n)) ++ [(src l0, n)]
        let more := (goOn rs (ls.drop 1)).filterMap fun l => (copyFault x.b [(src l, n)]).map fun st => (l, st)
        if rs.any fun r => r.1 = l0 then x.stop (rs ++ if x.checkReads (x.readSrc true 7 a 1) = .ok then more else [])
        else x.issueCopyCmd l0 (x.copyCmd c scope bar (ls.map src) dst (BitVec.ofNat 64 n) n) ranges false false (rs ++ more)) s

/-! ### Byte-counting barriers (R282, R283) -/

/-- BINIT: a count of 0 means 65536. -/
def execBinit (c : Ctl) (bar : BitVec 4) (scope : Scope) (count : Src) (s : State) : Out :=
  waveWord c (.mk2 0 1) (fun x => x.reading (x.readSrc true 8 count 1) <|
    match lowest x.ex with
    | none => .done x
    | some l =>
      let n := (x.val true (opB count .z false) l).toNat % 65536
      .done (x.putTsb (.binit x.ex bar scope (if n = 0 then 65536 else n)))) s

/-- BEXP. -/
def execBexp (c : Ctl) (bar : BitVec 4) (b : Src) (s : State) : Out :=
  waveWord c (.mk2 0 1) (fun x => x.reading (x.readSrc true 8 b 1) <|
    match lowest x.ex with
    | none => .done x
    | some l => .done (x.putTsb (.bexp x.ex bar (x.val true (opB b .z false) l)))) s

/-- BARV. -/
def execBarv (c : Ctl) (bar : BitVec 4) (b : Src) (s : State) : Out :=
  waveWord c (.mk2 0 1) (fun x => x.reading (x.readSrc false 8 b 1) <|
    if x.ex = 0 then .done x
    else .done (x.putTsb (.barv bar ((lanesOf x.ex).map fun l => (l, (x.val false (opB b .z false) l).setWidth 32))))) s

/-- BTEST: performed at once. -/
def execBtest (c : Ctl) (q bar : BitVec 4) (ph : Bool) (s : State) : Out :=
  waveWord c (.mk2 1 0) (fun x => .done (x.putPred q x.ex (if (getBar x.b bar).ph != ph then x.ex else 0))) s

end Sys2Proof.Machine
end

