-- ==== Sys2Proof/Machine/Engine.lean ====
section
/-! DEFINITION. The copy engine (R97, R141, R142, R280, R281, R448, R458). -/

namespace Sys2Proof.Machine

/-! ### Chunks: addresses, counts and strides are multiples of 16 (R280) -/

/-- The source address of the 16 bytes at destination address `a`: the last row that covers it. -/
def sourceOf (c : CopyCmd) (a : Nat) : Option Nat :=
  ((List.range c.srcs.length).zip c.srcs).foldl (fun acc p =>
    let d := (c.dst.toNat + p.1 * c.dstStride.toNat) % 2 ^ 64
    let i := (a + 2 ^ 64 - d) % 2 ^ 64
    if i < c.rowBytes then some ((p.2.toNat + i) % 2 ^ 64) else acc) none

/-- The destination's lines, in the order of their first row. -/
def linesOf (c : CopyCmd) : List Word64 := (copyDestLines c).eraseDups

/-- The chunks of a destination line that the copy writes: their index and their source. -/
def chunksOf (c : CopyCmd) (line : Word64) : List (Nat × Nat) :=
  [0, 1, 2, 3].filterMap fun j => (sourceOf c (line.toNat + 16 * j)).map fun a => (j, a)

/-- The address is among the bytes that the copy reads. -/
def readByCopy (c : CopyCmd) (a : Nat) : Bool := c.srcs.any fun x => decide ((a + 2 ^ 64 - x.toNat) % 2 ^ 64 < c.rowBytes)

/-- A number for a place, and for the tag and the mark of its line, in the list of what the copy overwrote. -/
def placeKey : Place → Nat
  | .phys pa _ _ _ => pa
  | .spad off => 2 ^ 60 + off
  | .remote p o => 2 ^ 61 + p * 2 ^ 45 + o
  | .regs off => 2 ^ 62 + off
def tagKey (k : Nat) : Nat := 2 ^ 63 + k / 64 * 4

/-! ### What stops the engine at a line -/

inductive CopyStop where
  | wait
  /-- The page is under migration: the write of this line is held (R456). -/
  | held (line pa : Nat)
  /-- PGFLT at the address. -/
  | page (va : Word64)
  /-- The context is lost for this cause. -/
  | lose (cause : Nat)
  | poison (va : Word64) (pa : Nat)
  deriving DecidableEq, Repr, Inhabited

/-- Where an address of the copy goes. -/
def copyPlace (s : State) (w : Who) (a : Word64) (wr : Bool) : State × Except CopyStop Place :=
  if a.toNat / 2 ^ 56 = 0xF0 then (s, .ok (.spad (a.toNat % 2 ^ 56)))
  else match translate s w a wr false with
    | (s, .ok p) => (s, .ok p)
    | (s, .error (.exc .pgflt ..)) => (s, .error (.page a))
    | (s, .error (.exc ..)) => (s, .error (.lose 0x0032))
    | (s, .error (.park _)) => (s, .error (.lose 0x0030))
    | (s, .error (.poison va pa _)) => (s, .error (.poison va pa))
    | (s, .error .stale) => (s, .error .wait)

/-- Sixteen source bytes, with the tag and the mark of their block. -/
structure Chunk where
  j : Nat
  bytes : List Byte
  tag : BitVec 16
  poison : Bool
  deriving DecidableEq, Repr, Inhabited

/-- What the copy overwrote there. -/
def oldChunk (c : Copy) (k j : Nat) : Option Chunk :=
  if (ffind c.old k).isNone then none
  else
    let t := tagKey k
    some ⟨j, (List.range 16).map fun i => fget 0 c.old (k + i),
      wordOf 16 [fget 0 c.old t, fget 0 c.old (t + 1)], decide (fget 0 c.old (t + 2) = 1)⟩

/-- A copy issued before this one has still to write a scratchpad line (R97, log 62). -/
def awaitsEarlier (b : Block) (c : Copy) (off : Nat) : Bool := (fget [] b.absent (off / 64)).any fun p => decide (p.1 < c.id)

/-- The core's own earlier stores to the line are observed; its earlier atomics must have been performed, unless the
line is the copy's own (R127, R142). -/
def earlier (c : Copy) (f : Flight) : Bool := decide (f.core = c.core ∧ f.date < c.id)

/-- The core's stores older than the copy that are still in a write path, in their order. -/
def pathStores (s : State) (c : Copy) : List Store :=
  (sortBy (fun a b => decide (a.id < b.id)) ((s.blocks.filter fun b => b.core = some c.core).flatMap fun b =>
    b.waves.flatMap fun w => w.path.filter fun r => decide (r.id < c.id))).flatMap fun r => match r.item with
      | .store _ xs => xs
      | _ => []

/-- A line with the bytes of a store that lie in it; a store of all of it clears its poison (R412). -/
def LineCopy.takeStore (c : LineCopy) (line : Nat) (x : Store) : LineCopy :=
  match x.place with
  | .phys pa _ _ _ =>
    let clean := c.poison && decide (x.bytes.length = 64 ∧ pa / 64 = line)
    { c with
      bytes := ((List.range c.bytes.length).zip c.bytes).map fun p =>
        let i := line * 64 + p.1
        if pa ≤ i ∧ i < pa + x.bytes.length then (nth x.bytes (i - pa)).getD p.2 else p.2
      tag := if clean then 0 else c.tag
      poison := c.poison && !clean }
  | _ => c

/-- What the copy reads at the home of a line: its bytes, tag and mark with what the core issued to it before (R142,
R412). -/
def copySees (s : State) (c : Copy) (line : Nat) : LineCopy :=
  let v : LineCopy := ⟨s.dram.readN (line * 64) 64, fget 0 s.dtag line, fget false s.dpoison line, 0, 0, 0, 0⟩
  (pathStores s c).foldl (fun v x => v.takeStore line x) (v.takeAll line (s.flights.filter (earlier c)))

/-- An earlier atomic of the core to the line, or one or a tag write that is still in a write path, goes first. -/
def atomBlocks (s : State) (c : Copy) (pa : Nat) : Bool :=
  (decide (pa / 64 ∉ c.owns) && s.flights.any fun f => earlier c f && (match f.op with
    | .atom .. => decide (flightPa f / 64 = pa / 64)
    | _ => false)) ||
  s.blocks.any fun b => decide (b.core = some c.core) && b.waves.any fun w => w.path.any fun r => decide (r.id < c.id) &&
    (match r.item with
      | .atom .. | .tag .. => itemMeets r.item (.phys (pa / 64 * 64) 0 false false) 64
      | _ => false)

/-- The engine's request for a source line leaves for its home: one token and one crossing for each line (R10, R118). -/
def askLine (s : State) (w : Who) (pa : Nat) : State :=
  let s := eccCheck (spendToken (roundTrip (pinHome s w.core pa) (dieOf w.core) (paDie pa)) pa w.ctx) (pa / 64)
  if paDie pa = dieOf w.core then { s with l1 := fdel s.l1 (l1Key w.core (pa / 64)) }
  else dropStackLine s (dieOf w.core) (pa / 64)

/-- A chunk of the source from its home, from the scratchpad or from a peer; `got` is the source line that the transfer has
asked for already, and the answer names the one it has then. -/
def readChunk (s : State) (b : Block) (c : Copy) (got : Option Nat) (j a : Nat) :
    State × Except CopyStop (Chunk × Option Nat) :=
  let w : Who := { whoOf s b 2 with core := c.core, master := c.core }
  let va : Word64 := BitVec.ofNat 64 a
  match copyPlace s w va false with
  | (s, .error e) => (s, .error e)
  | (s, .ok p) =>
    match oldChunk c (placeKey p) j with
    | some x => (s, .ok (x, got))
    | none => match p with
      | .spad off =>
        if awaitsEarlier b c off then (s, .error .wait)
        else (s, .ok (⟨j, b.spad.readN off 16, fget 0 b.stag (off / 64), fget false b.spoison (off / 64)⟩, got))
      | .phys pa _ desc _ =>
        if ctlBase ≤ pa then (s, .error (.lose 0x0032))
        else if atomBlocks s c pa || requestsAhead s c.core pa || movedMeets s c.core c.id p 16 then (s, .error .wait)
        else match homeAns s w.master w.owner pa false with
          | .table => (logTable s w pa, .error (.lose 0x0032))
          | .owner o => (logOwner s w pa o, .error (.lose 0x0030))
          | .ok =>
            let line := pa / 64
            let s := if got = some line then s else askLine s w pa
            let v := copySees s c line
            (s, .ok (⟨j, (v.bytes.drop (pa % 64)).take 16, if desc then v.tag else 0, v.poison⟩, some line))
      | .remote peer _ => if movedMeets s c.core c.id p 16 then (s, .error .wait) else match peerRead s c.core peer 16 with
        | (s, none) => (s, .error .wait)
        | (s, some (.ok v)) => (s, .ok (⟨j, v, 0, false⟩, got))
        | (s, some (.error .refused)) => (s, .error (.lose 0x0032))
        | (s, some (.error .poison)) => (s, .ok (⟨j, List.replicate 16 0, 0, true⟩, got))
      | .regs _ => (s, .error (.lose 0x0032))

/-- Chunks in order, after the source line `got`. -/
def readChunksFrom (s : State) (b : Block) (c : Copy) (got : Option Nat) :
    List (Nat × Nat) → State × Except CopyStop (List Chunk)
  | [] => (s, .ok [])
  | x :: xs => match readChunk s b c got x.1 x.2 with
    | (s, .error e) => (s, .error e)
    | (s, .ok (v, got)) => match readChunksFrom s b c got xs with
      | (s, .error e) => (s, .error e)
      | (s, .ok vs) => (s, .ok (v :: vs))

/-- What a fault of the engine's datapath changes in a chunk on its way to a destination line (R469). -/
def Copy.flawed (c : Copy) (line : Word64) (x : Chunk) : Chunk :=
  { x with bytes := ((List.range x.bytes.length).zip x.bytes).map fun p =>
      p.2 ^^^ fget 0 c.flaws (line.toNat + 16 * x.j + p.1) }

/-- The chunks of a line in order. -/
def readChunks (s : State) (b : Block) (c : Copy) (xs : List (Nat × Nat)) : State × Except CopyStop (List Chunk) :=
  readChunksFrom s b c none xs

/-! ### Writing a line -/

/-- What a place held before the copy writes it, for chunks that the copy reads later: overlap is of the bytes
themselves, whatever their addresses (R281). -/
def keepOld (c : Copy) (k : Nat) (bytes : List Byte) (tag : BitVec 16) (poison : Bool) : FMap Byte :=
  let t := tagKey k
  let m := (List.range bytes.length).foldl (fun m i => fins m (k + i) ((nth bytes i).getD 0)) c.old
  let g := bytesOfNat 2 tag.toNat
  fins (fins (fins m t ((nth g 0).getD 0)) (t + 1) ((nth g 1).getD 0)) (t + 2) (if poison then 1 else 0)

/-- The tag that the copy leaves on a block: none where it writes the block in part and no source is poisoned. -/
def copyTag (xs : List Chunk) : Option (BitVec 16) :=
  if xs.any (·.poison) then some 0
  else if xs.length = 4 then xs.head?.map (·.tag) else none

/-- A scratchpad line written by the copy `id`: bytes whose M bit is set keep the waves' stores; then P = 1, unless a
later copy has still to write the line (R97, log 62). -/
def writeSpadLine (b : Block) (id off : Nat) (xs : List Chunk) : Block :=
  let line := off / 64
  let ms := fget [] b.absent line
  let m : BitVec 64 := ((ms.find? fun p => p.1 = id).map Prod.snd).getD 0
  let spad := xs.foldl (fun spad x => ((List.range 16).zip x.bytes).foldl (fun spad p =>
    let i := 16 * x.j + p.1
    if m.getLsbD i then spad else Memory.write spad (line * 64 + i) p.2) spad) b.spad
  let poison := xs.any (·.poison)
  { b with
    spad := spad
    absent := fput [] b.absent line (ms.filter fun p => p.1 ≠ id)
    stag := match copyTag xs with
      | some t => fput 0 b.stag line t
      | none => b.stag
    spoison := if poison then fput false b.spoison line true
      else if xs.length = 4 then fdel b.spoison line else b.spoison }

/-- A block of DRAM. -/
def writeHomeLine (s : State) (pa : Nat) (desc : Bool) (xs : List Chunk) : State :=
  let blk := pa / 64
  let s := if xs.length = 4 then homePut s (blk * 64) (xs.flatMap (·.bytes))
    else xs.foldl (fun s x => homePut s (blk * 64 + 16 * x.j) x.bytes) (eccCheck s blk)
  let s := match copyTag xs with
    | some t => homePutTag s blk (if desc then t else 0)
    | none => s
  if xs.any (·.poison) then { s with dpoison := fput false s.dpoison blk true } else s

/-- The copy reads of the line, by its addresses: what it holds is checked before it is overwritten (R281, R447); an overlap
by other addresses of the same bytes finds an uncorrectable block poisoned and a corrected one unrecorded (log 98). -/
def readByCopyLine (c : CopyCmd) (line : Word64) : Bool := (List.range 64).any fun i => readByCopy c (line.toNat + i)

/-- A line of the destination is written; poisoned bytes are not sent to a peer (R412, log 63). -/
def writeLine (s : State) (b : Block) (c : Copy) (line : Word64) (xs : List Chunk) : State × Except CopyStop (FMap Byte) :=
  let w : Who := { whoOf s b 2 with core := c.core, master := c.core }
  match copyPlace s w line true with
  | (s, .error e) => (s, .error e)
  | (s, .ok p) => match p with
    | .spad off =>
      (modBlock s b.id fun b => writeSpadLine b c.id off xs,
        .ok (keepOld c (placeKey p) (b.spad.readN off 64) (fget 0 b.stag (off / 64)) (fget false b.spoison (off / 64))))
    | .phys pa _ desc mig =>
      if ctlBase ≤ pa then (s, .error (.lose 0x0032))
      else if requestsAhead s c.core pa || pageHeld s c.core b.ctx line.toNat p c.id then (s, .error .wait)
      else match homeAns s w.master w.owner pa true with
        | .table => (logTable s w pa, .error (.lose 0x0032))
        | .owner o => (logOwner s w pa o, .error (.lose 0x0030))
        | .ok =>
          if mig then (s, .error (.held line.toNat (pa / 65536)))
          else
            let blk := pa / 64
            let s := if readByCopyLine c.cmd line then eccCheck s blk else s
            let v := copySees s c blk
            let t := countPair (roundTrip (pinHome s c.core pa) (dieOf c.core) (paDie pa)) (dieOf c.core) (paDie pa)
            (writeHomeLine (spendToken t pa w.ctx) pa desc xs,
              .ok (keepOld c (placeKey p) v.bytes (if desc then v.tag else 0) (v.poison || decide (2 ≤ fget 0 s.upsets blk))))
    | .remote peer off => if pageHeld s c.core b.ctx line.toNat p c.id then (s, .error .wait) else
      ((xs.filter fun x => !x.poison).foldl (fun s x =>
        sendRemote s c.core b.id 0 copyLane 0 c.cmd.word line peer (off + 16 * x.j) (.write x.bytes) none) s, .ok c.old)
    | .regs _ => (s, .error (.lose 0x0032))

/-! ### The events -/

def modCopy (s : State) (id : Nat) (f : Copy → Copy) : State :=
  { s with copies := s.copies.map fun c => if c.id = id then f c else c }

/-- The engine stops (R458). -/
def stopCopy (s : State) (b : Block) (c : Copy) : CopyStop → State
  | .wait => s
  | .held line pa => modCopy s c.id fun c =>
    if c.held.any fun h => h.1 = line then c else { c with held := c.held ++ [(line, pa)] }
  | .page va =>
    let r := { trapOf s b 2 .pgflt with tp := c.cmd.word, word := c.cmd.word, va := va, flags := trapFlags true false false }
    let (_, s) := holdTrap s r
    modCopy s c.id fun c => { c with stopped := some (va.toNat / 65536) }
  | .lose cause => loseContext s b.ctx cause 1 false
  | .poison va pa =>
    let r := (errRec 2 0x0009).atUnit (dieOf c.core) c.core 19 0xFF
    consumePoison s b.ctx (((((if pa < 2 ^ 48 then r.atPa pa else r).atGlobal va).atTp c.cmd.tp).atBlk b.lin)) 2

/-- Four channels take commands in the order of issue (R280); a stopped copy of a saved block takes none (R458). -/
def channelFree (s : State) (c : Copy) : Bool :=
  decide ((s.copies.filter fun x => decide (x.core = c.core ∧ x.id < c.id) && residentCopy s x).length < 4)

/-- An earlier copy of the block has still to write the line; for DRAM, an earlier owner (R97, R141). -/
def lineTaken (s : State) (c : Copy) (line : Word64) : Bool :=
  s.copies.any fun x => decide (x.id < c.id ∧ x.bid = c.bid) &&
    ((List.range (linesOf x.cmd).length).zip (linesOf x.cmd)).any fun p => decide (p.2 = line ∧ p.1 ∉ x.done)

/-- The same by the physical line that the address has now. -/
def ownedEarlier (s : State) (c : Copy) (pline : Nat) : Bool :=
  s.copies.any fun x => decide (x.id < c.id ∧ pline ∈ x.owns)

/-- The physical line of a destination, where it translates now. -/
def physLine (s : State) (b : Block) (c : Copy) (line : Word64) : Option Nat :=
  match (copyPlace s { whoOf s b 2 with core := c.core, master := c.core } line true).2 with
  | .ok (.phys pa _ _ _) => some (pa / 64)
  | _ => none

/-- One destination line. -/
def transferLine (s : State) (b : Block) (c : Copy) (i : Nat) (line : Word64) : State :=
  let own := physLine s b c line
  if own.any fun l => ownedEarlier s c l then s
  else match readChunks s b c (chunksOf c.cmd line) with
    | (s, .error e) => stopCopy s b c e
    | (s, .ok xs) => match writeLine s b c line (xs.map (c.flawed line)) with
      | (s, .error e) => stopCopy s b c e
      | (s, .ok old) => modCopy s c.id fun c =>
          { c with
            done := insertNat c.done i, old := old, owns := c.owns.filter fun l => some l ≠ own,
            held := c.held.filter fun h => h.1 ≠ line.toNat }

/-- COPY_LINE_TRANSFER. -/
def execCopyLineTransfer (id line : Nat) (s : State) : Out :=
  .next <| match s.copies.find? fun c => c.id = id with
    | none => s
    | some c => match getBlock s c.bid, nth (linesOf c.cmd) line with
      | some b, some a =>
        if c.stopped.isSome || b.core.isNone || !channelFree s c || decide (line ∈ c.done) || lineTaken s c a then s
        else transferLine s b c line a
      | _, _ => s

/-- A copy's bytes. -/
def copySize (c : CopyCmd) : Nat := c.rowBytes * c.srcs.length

/-- Its remote writes are acknowledged, where the scope asks for that (R136). -/
def copyAcked (s : State) (c : Copy) : Bool :=
  c.cmd.scope ≠ .system || s.netOut.all fun n => !(decide (n.bid = c.bid) && decide (n.lane = copyLane))

/-- COPY_COMPLETE: the barrier's pending bytes fall by the copy's. -/
def execCopyComplete (id : Nat) (s : State) : Out :=
  .next <| match s.copies.find? fun c => c.id = id with
    | none => s
    | some c => match getBlock s c.bid with
      | none => s
      | some b =>
        if c.done.length < (linesOf c.cmd).length || b.core.isNone || !channelFree s c || !copyAcked s c then s
        else
          let s := { s with copies := s.copies.filter fun x => x.id ≠ id }
          let x := getBar b c.cmd.bar
          let s := modBlock s b.id fun b => setBar b c.cmd.bar { x with pb := x.pb - BitVec.ofNat 64 (copySize c.cmd) }
          barSettle s b.id c.cmd.bar

end Sys2Proof.Machine
end

