-- ==== Sys2Proof/Machine/Generator.lean ====
section
/-! DEFINITION. Bitmaps and generators, 0x111 to 0x115 (R327 to R332). -/

namespace Sys2Proof.Machine

/-! ### Bitmaps (R327) -/

/-- A zero code of a format. -/
def zeroCode (f : Fmt) (c : Nat) : Bool :=
  match f with
  | .q16 => decide (c = 0)
  | f => decide (c % 2 ^ (f.width - 1) = 0)

/-- |v| exceeds |b|, or either is a NaN. -/
def aboveVal (v b : FVal) : Bool :=
  let mag : FVal → FVal := fun
    | .nan => .nan
    | .inf _ => .inf false
    | .fin x => .fin x.abs
  match cmpVal (mag v) (mag b) with
  | none => true
  | some d => decide (0 < d)

/-- A run of element flags at position P. -/
def bitmapAt (f : Fmt) (p : Nat) (flag : Nat → Bool) : Word64 :=
  let e := 32 / f.width
  (List.range e).foldl (fun v i => if flag i then v ||| (1#64 <<< (p * e + i)) else v) 0

/-- BMAP. -/
def execBmap (c : Ctl) (p : BitVec 4) (f : Fmt) (d : Reg) (a : Src) (s : State) : Out :=
  alu1 c d (opA a .z false) (fun _ v => bitmapAt f p.toNat fun i => !zeroCode f (elemAt f.width i v)) s

/-- CMPR; an immediate b is the zero-extended code of an FP32 value (R198, R209). -/
def execCmpr (c : Ctl) (p : BitVec 4) (f : Fmt) (d : Reg) (a b : Src) (s : State) : Out :=
  alu2 c d (opA a .z false) (opB b .z false) (fun _ v t =>
    bitmapAt f p.toNat fun i => aboveVal (decodeElem f (elemAt f.width i v)) (fp (t.setWidth 32))) s

/-! ### A generator's element (R330, R331) -/

/-- The key of a generator that wave `w` of the block owns. -/
def genKey (seed : Word64) (lin w : Nat) (g : Gen) : Word64 :=
  let b : Word64 := BitVec.ofNat 64 lin
  mix64 (seed ^^^ g.key) <| match g.scope with
    | .grid => 0
    | .block => (1#64 <<< 62) ||| b
    | .wave => (1#64 <<< 63) ||| (b <<< 5) ||| BitVec.ofNat 64 w

/-- Generators round to nearest even with saturation. -/
abbrev genMode : Mode := ⟨.rn, true⟩

/-- The scratchpad offset of ω_J. -/
def omegaOff (g : Gen) (j : Nat) : Nat := g.param.toNat + 4 * j

/-- ω_J. -/
def omegaAt (spad : Memory) (g : Gen) (j : Nat) : Word32 := wordOf 32 (spad.readN (omegaOff g j) 4)

/-- MASK's predicate. -/
def maskHolds (param : Word32) (i j : Nat) : Bool :=
  let q : Int := (param.extractLsb' 8 24).toInt
  match (param.extractLsb' 0 2).toNat with
  | 0 => decide ((j : Int) ≤ i + q)
  | 1 => decide ((i : Int) + q ≤ j)
  | 2 => decide ((((i : Int) - j).natAbs : Int) ≤ q)
  | _ => decide (i / q.toNat = j / q.toNat)

/-- The value before its conversion to FMT: SIGN's σ, GAUSS's product, ROT's cosine or sine, MASK's bit. -/
def genVal (g : Gen) (k : Word64) (spad : Memory) (i j : Nat) : FVal :=
  let h := mix64 k ((BitVec.ofNat 64 i <<< 32) ||| BitVec.ofNat 64 j)
  match g.kind with
  | .sign => if h.msb then negVal (fp g.param) else fp g.param
  | .gauss => gaussVal h (fp g.param)
  | .rot =>
    match fp (omegaAt spad g j) with
    | .fin w =>
      let t := (roundFloat genMode 8 23 127 ((Ex.ofInt i).mul w)).1
      (trigVal (!g.sin) (decodeFloat 8 23 127 t)).1
    | _ => .nan
  | .mask => .fin (Ex.ofInt (if maskHolds g.param i j then 1 else 0))

/-- The code of G(I, J) in FMT, the coordinates taken mod 2^32. -/
def genCode (g : Gen) (f : Fmt) (k : Word64) (spad : Memory) (i j : Nat) : Nat :=
  (roundTo genMode f (genVal g k spad (i % 2 ^ 32) (j % 2 ^ 32))).1

/-! ### Reading a ROT table (R330, R332) -/

inductive TabRes where
  | ok
  | outside
  | wait
  | poison
  deriving DecidableEq, Repr, Inhabited

/-- What reading ω_J meets; other kinds read nothing. -/
def tabCheck (b : Block) (g : Gen) (j : Nat) : TabRes :=
  let o := omegaOff g (j % 2 ^ 32)
  if g.kind ≠ .rot then .ok
  else if b.shape.sp * 1024 < o + 4 then .outside
  else if absentIn b o 4 then .wait
  else if fget false b.spoison (o / 64) then .poison
  else .ok

/-- A scratchpad address. -/
def spadAddr (off : Nat) : Word64 := BitVec.ofNat 64 (0xF0 * 2 ^ 56 + off)

/-! ### GCFG, GKEY (R329) -/

/-- A parameter that GCFG refuses. -/
def badParam (kind : GenKind) (p : Word32) : Bool :=
  let q : Int := (p.extractLsb' 8 24).toInt
  match kind with
  | .rot => decide (p.toNat % 4 ≠ 0)
  | .mask => decide (p.extractLsb' 2 6 ≠ 0) || (decide (p.extractLsb' 0 2 = 2) && decide (q < 0)) ||
      (decide (p.extractLsb' 0 2 = 3) && decide (q < 1))
  | _ => false

/-- GCFG: every value but KEY, from the lowest executing lane, which its checks concern. -/
def execGcfg (c : Ctl) (sin : BitVec 3) (fmt : BitVec 4) (scope : BitVec 2) (kind : BitVec 3) (g : Nat) (a b e : Src)
    (s : State) : Out :=
  let oa := opA a .z false
  let ob := opB b .z false
  let oe := opC e .z false
  waveWord c (.mk2 1 0) (fun x => x.reading (x.readOps true [oa, ob, oe]) <|
    match lowest x.ex with
    | none => .done x
    | some l =>
      let v (o : Opnd) : Word32 := (x.val false o l).setWidth 32
      match gcfgOf sin fmt scope kind with
      | none => x.stop [(l, .exc .badfld 1 0 none)]
      | some (sin, fmt, scope, kind) =>
      if badParam kind (v oe) then x.stop [(l, .exc .badfld 9 0 none)]
      else .done (x.putGen g ⟨kind, scope, some fmt, sin, v oa, v ob, v oe, (x.gen g).key⟩)) s

/-- GKEY: 64 bits from a scalar register, else 32. -/
def execGkey (c : Ctl) (g : Nat) (a : Src) (s : State) : Out :=
  waveWord c (.mk2 1 0) (fun x => x.reading (x.readSrc true 7 a 1) <|
    match lowest x.ex with
    | none => .done x
    | some l => .done (x.putGen g { x.gen g with key := x.val (srcScalar a) (opA a .z false) l })) s

/-! ### GEVAL (R332) -/

/-- The coordinates at which a lane evaluates. -/
def gevalAt (g : Gen) (t : Bool) (b e : Word32) : Nat × Nat :=
  let (i, j) := if t then (e, b) else (b, e)
  ((g.row0 + i).toNat, (g.col0 + j).toNat)

/-- The value that GEVAL writes from an element's code. -/
def gevalValue (bm : Bool) (f : Fmt) (code : Nat) : Word32 :=
  if bm then (if zeroCode f code then 0 else 1)
  else (finish .plain .fp32 (decodeElem f code, 0)).1

/-- GEVAL. -/
def execGeval (c : Ctl) (t bm : Bool) (d : Reg) (g : Nat) (b e : Src) (s : State) : Out :=
  let ob := opB b .z false
  let oe := opC e .z false
  waveWord c (.mk2 1 0) (fun x => x.readingThen (x.readOps false [ob, oe]) fun rs0 =>
    let y := x.gen g
    let ls := goOn rs0 (lanesOf x.ex)
    match y.fmt with
    | none => if x.ex = 0 then .done x else x.stop (rs0 ++ ls.map fun l => (l, .exc .badfld 7 0 none))
    | some f =>
      let at1 (l : Nat) : Nat × Nat := gevalAt y t ((x.val false ob l).setWidth 32) ((x.val false oe l).setWidth 32)
      let chk := ls.map fun l => (l, (at1 l).2, tabCheck x.b y (at1 l).2)
      let rs : List Raise := chk.filterMap fun p => match p.2.2 with
        | .outside => some (p.1, addrExc .apert (spadAddr (omegaOff y p.2.1)))
        | .poison => some (p.1, .poison (spadAddr (omegaOff y p.2.1)) noPa 0)
        | _ => none
      let k := genKey (taskSeed x.s x.b.task) x.b.lin x.wi y
      x.settled x.s (rs0 ++ rs) (chk.any fun p => p.2.2 = .wait) fun x =>
        let v (l : Nat) : Word32 := gevalValue bm f (genCode y f k x.b.spad (at1 l).1 (at1 l).2)
        .done (x.putLate (x.results d fun l => (v l).setWidth 64) ((lowest x.ex).getD 0))) s

end Sys2Proof.Machine
end

