-- ==== Sys2Proof/Machine/LinkEvents.lean ====
section
/-! DEFINITION. Flits, acknowledgements, replay, retraining and rerouting of the die links (R460 to R464). -/

namespace Sys2Proof.Machine

/-- The direction, where the link has modules (R372). -/
def realDir (l : LinkDir) : Option Nat :=
  if l.link < 4 ∨ (6 ≤ l.link ∧ l.link < 10) then some (dirKey l.link l.rev) else none

/-- How far `seq` lies behind `expected`, mod 1024; 0 where it is the expected one. -/
def behind (d : LinkDirSt) (seq : BitVec 10) : Nat := (d.expected - seq).toNat

/-- An accepted payload goes on towards its home, or waits there to be performed; one already performed is answered
with the recorded result (R462). -/
def acceptFlit (s : State) (k payload : Nat) : State :=
  match s.flights.find? fun f => f.id = payload with
  | some f =>
    if flightHome f ≠ dirTo k then sendFlit s (dirTo k) (flightHome f) payload
    else if flightThere s f then s
    else
      let d := getDir s k
      setDir s k { d with accepted := d.accepted ++ [payload] }
  | none => match ffind s.traffic payload with
    | some d => if d ≠ dirTo k then sendFlit s (dirTo k) d payload else { s with traffic := fdel s.traffic payload }
    | none =>
    match (s.results.flatMap fun p => p.2).find? fun r => r.1 = payload with
    | some (_, some r) => if s.pendings.any fun p => p.id = r.id then s else { s with pendings := s.pendings ++ [r] }
    | _ => s

/-- FLIT_RECEIVED: only what was sent can pass its CRC. -/
def execFlitReceived (l : LinkDir) (seq : BitVec 10) (payload : Nat) (crc : Bool) (s : State) : Out :=
  .next <| match realDir l with
    | none => s
    | some k =>
      let d := getDir s k
      if !crc then
        if d.nak then s else emit (setDir s k { d with nak := true }) (.linkNak l d.expected)
      else if seq = d.expected then
        if (seq, payload) ∈ d.unacked then
          let s := setDir s k { d with expected := d.expected + 1, nak := false }
          emit (acceptFlit s k payload) (.linkAck l seq)
        else s
      else if behind d seq ≤ 512 then emit s (.linkAck l (d.expected - 1))
      else s

/-- The flits that follow the one of a number; none where it is not among them. -/
def after (seq : BitVec 10) : List (BitVec 10 × Nat) → Option (List (BitVec 10 × Nat))
  | [] => none
  | u :: us => if u.1 = seq then some us else after seq us

/-- ACK_RECEIVED: it frees every flit up to the one named, if that one is still in the replay buffer. -/
def execAckReceived (l : LinkDir) (seq : BitVec 10) (s : State) : Out :=
  .next <| match realDir l with
    | none => s
    | some k =>
      let d := getDir s k
      match after seq d.unacked with
      | some rest => pumpDir (setDir s k { d with unacked := rest }) k
      | none => s

/-! ### Rerouting (R464) -/

/-- A direct link in use. -/
def linkUp (s : State) (i : Nat) : Bool := decide ((getLink s i).st ≠ 2)

def setLink (s : State) (i : Nat) (l : LinkSt) : State := { s with links := fput ⟨0, 0, 255, 0, 0⟩ s.links i l }

/-- The neighbours of a compute die with the link to each. -/
def neighbours (d : Nat) : List (Nat × Nat) := match d with
  | 0 => [(1, 0), (2, 1)]
  | 1 => [(0, 0), (3, 2)]
  | 2 => [(0, 1), (3, 3)]
  | _ => [(1, 2), (2, 3)]

/-- The neighbour through which a compute die reaches the IOD when its own link is down. -/
def iodNeighbour (s : State) (d : Nat) : Option Nat :=
  ((neighbours d).find? fun n => linkUp s n.2 && linkUp s (6 + n.1)).map Prod.fst

/-- The forwarding die of a pair's entry; none where the pair has no route, 255 where it needs none. -/
def routeVia (s : State) (i : Nat) : Option Nat :=
  match i with
  | 4 => some (if linkUp s 0 && linkUp s 2 then 1 else if linkUp s 1 && linkUp s 3 then 2 else 4)
  | 5 => some (if linkUp s 0 && linkUp s 1 then 0 else if linkUp s 2 && linkUp s 3 then 3 else 4)
  | i => if linkUp s i then some 255 else if i < 4 then some 4 else iodNeighbour s (i - 6)

/-- Every entry takes the route the links in use allow. -/
def reroute (s : State) : State :=
  (List.range 10).foldl (fun t i => match routeVia s i with
    | some v =>
      let l := getLink t i
      setLink t i { l with via := v, cls := if v = 255 then 1 else 2 }
    | none => t) s

/-- The flits of a down direction are sent over the new route ahead of new traffic, in their order. -/
def moveFlits (s : State) (k : Nat) : State :=
  let d := getDir s k
  let ps := d.unacked.map Prod.snd ++ d.waiting
  let s := setDir s k { LinkDirSt.init with accepted := d.accepted }
  ps.reverse.foldl (fun s p =>
    match (payloadHome s p).bind fun d => dirBetween (dirFrom k) (nextDie s (dirFrom k) d) with
    | some k' =>
      let d' := getDir s k'
      setDir s k' { d' with waiting := p :: d'.waiting }
    | none => s) s

/-- The link goes down (R463, R464); of its two records the fatal one comes first (R409). -/
def linkDown (s : State) (i : Nat) : State :=
  let l := getLink s i
  let s := reroute (setLink s i { l with lanes := 0, st := 2, bucket := 0 })
  let s := changeTable s
  let note (s : State) : State := logErr s false (((errRec 4 0x000B).atUnit (linkEnds i).1 0xFF 23 i).det 0)
  if (List.range 10).any fun j => (routeVia s j).isNone then
    note (fatalRecord s (((errRec 3 0x000C).atUnit (linkEnds i).1 0xFF 23 i).det 0))
  else
    let s := note s
    let s := moveFlits (moveFlits s (dirKey i false)) (dirKey i true)
    (List.range 20).foldl (fun s k => pumpDir s k) s

/-- The flits of a direction from the one named are sent again (R461). -/
def resendFrom (s : State) (k : Nat) (us : List (BitVec 10 × Nat)) : State :=
  us.foldl (fun s u => emit s (.linkSend ⟨k / 2, decide (k % 2 = 1)⟩ u.1 u.2)) s

/-- Flits of a direction are sent again, with the record of it (R461). -/
def resend (s : State) (k : Nat) (us : List (BitVec 10 × Nat)) : State :=
  logErr (resendFrom s k us) false (((errRec 0 0x000A).atUnit (dirTo k) 0xFF 23 (k / 2)).det us.length)

/-- After a retrain what stays in the replay buffers of both directions is sent again, and each replay raises the bucket
(R461, R463). -/
def resendBoth (s : State) (i : Nat) : State :=
  [dirKey i false, dirKey i true].foldl (fun s k =>
    if (getDir s k).unacked.isEmpty then s
    else
      let s := resend s k (getDir s k).unacked
      setLink s i { getLink s i with bucket := (getLink s i).bucket + 1 }) s

/-- The link's bucket rises; at 256 the link retrains: every lane passes, or it falls back to 32 lanes, or it goes down;
what stays in the replay buffers is sent again (R463). -/
def linkBucketUp (s : State) (i : Nat) : State :=
  let l := getLink s i
  if l.bucket + 1 < 256 then setLink s i { l with bucket := l.bucket + 1 }
  else if l.lanes = 32 then linkDown s i
  else
    let r := Config.retrain s.freeIx
    let s := { s with freeIx := s.freeIx + 1 }
    if r = 0 then resendBoth (setLink s i { l with bucket := 0 }) i
    else if r = 1 then
      let s := setLink s i { l with lanes := 32, st := 1, bucket := 0 }
      let s := changeTable s
      resendBoth (logErr s false (((errRec 4 0x000B).atUnit (linkEnds i).1 0xFF 23 i).det 32)) i
    else linkDown s i

/-- A replay: the flits, its record, and the bucket (R461). -/
def replay (s : State) (k : Nat) (us : List (BitVec 10 × Nat)) : State :=
  if us.isEmpty then s
  else linkBucketUp (resend s k us) (k / 2)

/-- NAK_RECEIVED. -/
def execNakReceived (l : LinkDir) (seq : BitVec 10) (s : State) : Out :=
  .next <| match realDir l with
    | none => s
    | some k => replay s k ((getDir s k).unacked.dropWhile fun u => u.1 ≠ seq)

/-- REPLAY_TIMEOUT. -/
def execReplayTimeout (l : LinkDir) (s : State) : Out :=
  .next <| match realDir l with
    | none => s
    | some k => replay s k (getDir s k).unacked

/-- LINK_BUCKET_LEAK. -/
def execLinkBucketLeak (link : Nat) (s : State) : Out :=
  .next <| if link < 10 then
      let l := getLink s link
      setLink s link { l with bucket := l.bucket - 1 }
    else s

end Sys2Proof.Machine
end

