-- ==== Sys2Proof/Machine/Masters.lean ====
section
/-! DEFINITION. Accesses by masters other than a core at their homes: the PCIe host (R355), the reeves (R356) and the
network transport that serves a peer's request (R361, R467). -/

namespace Sys2Proof.Machine

/-! ### One access over the blocks it reaches -/

/-- A copy owns a line of the access, which waits for it (R141). -/
def masterWaits (s : State) (pa n : Nat) : Bool := (piecesOf pa n).any fun p => copyOwns s (p.1 / 64)

/-- A permitted read: the homes check the ECC of each block; the flag says that one is poisoned. -/
def masterRead (s : State) (pa n : Nat) : State × List Byte × Bool :=
  let s := (piecesOf pa n).foldl (fun s p => eccCheck (iodAccess s (paDie p.1) true) (p.1 / 64)) s
  (s, s.dram.readN pa n, (piecesOf pa n).any fun p => fget false s.dpoison (p.1 / 64))

/-- A permitted atomic on one word: the old value, and whether the block is poisoned. -/
def masterAtomic (s : State) (pa n : Nat) (k : AtomKind) (b c : Word64) : State × Word64 × Bool :=
  let s := eccCheck (iodAccess s (paDie pa) true) (pa / 64)
  let old : Word64 := wordOf 64 (s.dram.readN pa n)
  if fget false s.dpoison (pa / 64) then (s, old, true)
  else
    (match atomResult k (decide (n = 8)) old b c with
      | some v => homePut s pa (bytesOfNat n v.toNat)
      | none => s, old, false)

/-- The bytes an access reaches, and whether it reads or writes them. -/
def accessSize : Access → Nat
  | .read n => n
  | .write bs => bs.length
  | .atomic _ n _ => n
  | .swap n _ => n
  | .cas n _ _ => n

/-- The atomic that an access asks for: its kind and operands. -/
def accessAtom : Access → Option (AtomKind × Word64 × Word64)
  | .read _ => none
  | .write _ => none
  | .atomic op _ b => some (.rmw op, b, 0)
  | .swap _ b => some (.swap, b, 0)
  | .cas _ b c => some (.cas, b, c)

def atomAligned (pa n : Nat) : Bool := (n = 4 || n = 8) && decide (pa % n = 0)

/-! ### The PCIe host (R355) -/

abbrev hostMaster : Nat := 0x49

/-- The size of BAR2. -/
abbrev bar2Size : Nat := 2 ^ 38

/-- How many of the bytes from an offset on lie below the end of DRAM; those above read as ones and drop writes. -/
def inDram (off n : Nat) : Nat := min n (dramEnd - off)

/-- HOST_BAR2_READ: a completion with data, a poisoned one, which AER reports, or Completer Abort. -/
def execHostBar2Read (off size : Nat) (s : State) : Out :=
  .next <|
    let n := inDram off size
    if bar2Size < off + size ∨ masterWaits s off n then s
    else match masterAns s hostMaster s.hostown.toNat off n false with
      | some d => emit (masterDenied s hostMaster d) .bar2Abort
      | none =>
        let (s, bs, poison) := masterRead s off n
        let s := emit s (.bar2Data (bs ++ List.replicate (size - n) 0xFF) poison)
        if poison then emit s .aerPoison else s

/-- HOST_BAR2_WRITE. -/
def execHostBar2Write (off : Nat) (bytes : List Byte) (s : State) : Out :=
  .next <|
    let n := inDram off bytes.length
    if bar2Size < off + bytes.length ∨ masterWaits s off n then s
    else (masterWrite s hostMaster s.hostown.toNat off (bytes.take n)).1

/-! ### The reeves (R356) -/

/-- A reeve's access to control space. -/
def reeveControl (s : State) (hart off : Nat) (a : Access) : State :=
  let m := 0x40 + hart
  let n := accessSize a
  match a, accessAtom a with
  | .write bs, _ => ctlWrite s m off n (natOf bs)
  | _, none =>
    if ctlOk s m off n false then emit s (.reeveData hart (ctlBytes s off n)) else emit (logDenied s m) (.reeveFault hart)
  | _, some (k, b, c) =>
    if !ctlOk s m off n true then emit (logDenied s m) (.reeveFault hart)
    else
      let old : Word64 := wordOf 64 (ctlBytes s off n)
      let s := match atomResult k (decide (n = 8)) old b c with
        | some v => ctlWrite s m off n v.toNat
        | none => s
      emit s (.reeveData hart (bytesOfNat n old.toNat))

/-- A reeve's access to DRAM: owner 0xFFFF; poison gives a load access fault (R413). -/
def reeveDram (s : State) (hart pa : Nat) (a : Access) : State :=
  let m := 0x40 + hart
  let n := accessSize a
  match a, accessAtom a with
  | .write bs, _ => match masterWrite s m 0xFFFF pa bs with
    | (s, true) => s
    | (s, false) => emit s (.reeveFault hart)
  | _, none => match masterAns s m 0xFFFF pa n false with
    | some d => emit (masterDenied s m d) (.reeveFault hart)
    | none => match masterRead s pa n with
      | (s, _, true) => emit s (.reeveFault hart)
      | (s, bs, false) => emit s (.reeveData hart bs)
  | _, some (k, b, c) => match masterAns s m 0xFFFF pa n true with
    | some d => emit (masterDenied s m d) (.reeveFault hart)
    | none =>
      if !atomAligned pa n then emit s (.reeveFault hart)
      else match masterAtomic s pa n k b c with
        | (s, _, true) => emit s (.reeveFault hart)
        | (s, old, false) => emit s (.reeveData hart (bytesOfNat n old.toNat))

/-- REEVE_LOAD_STORE. A reeve's accesses are performed at their homes at once, so its fence has nothing to wait for. Until
the boot is done reeve 0 holds the others, and its own accesses are the boot's steps (R363). -/
def execReeveLoadStore (hart : Nat) (a : ReeveAccess) (s : State) : Out :=
  .next <| if s.rot.phase ≠ .done then s else match a with
    | .fence => s
    | .mem pa x =>
      if 8 ≤ hart ∨ 2 ^ 48 < pa + accessSize x then s
      else if ctlBase ≤ pa then reeveControl s hart (pa - ctlBase) x
      else if masterWaits s pa (accessSize x) then s
      else reeveDram s hart pa x

/-! ### A peer's request (R361) -/

abbrev netMaster : Nat := 0x4A

/-- A number of `n` bytes in the tables of R361. -/
def netField (s : State) (o n : Nat) : Nat := natOf ((List.range n).map fun i => fget 0 s.netTab (o + i))

/-- The first check of R361 that fails: source, window, bounds, permission, ownership. -/
def failedCheck (s : State) (r : NetRequest) : Option Nat :=
  let w := 0x4000 + 32 * r.window
  let n := accessSize r.access
  let need := if isRead r.access then 0 else 1
  if !((List.range 256).any fun p => decide (netField s (64 * p) 16 = r.src.toNat) && peerUp s p) then some 1
  else if !(decide (r.window < 256) && decide (netField s (w + 19) 1 = 1)) then some 2
  else if netField s (w + 8) 8 < r.offset + n then some 3
  else if !(netField s (w + 18) 1).testBit need then some 4
  else if !((piecesOf (netField s w 8 + r.offset) n).all fun p =>
      decide (p.1 < dramEnd) && ownerOk s (netField s (w + 16) 2) p.1) then some 5
  else none

/-- The access tables deny the transport as a master (R119). -/
def transportDenied (s : State) (pa n : Nat) (wr : Bool) : Bool :=
  (piecesOf pa n).any fun p => decide (p.1 < dramEnd) && !tableOk s (paTarget p.1) netMaster wr

/-- A request that passes: performed, or answered with an error where it would return or consume poison (R467). -/
def serveAccess (s : State) (r : NetRequest) (pa : Nat) : State :=
  match r.access, accessAtom r.access with
  | .write bs, _ =>
    let s := (piecesOf pa bs.length).foldl (fun s p => masterPut s p.1 ((bs.drop (p.1 - pa)).take p.2)) s
    emit s (.netAck r.seq)
  | a, none => match masterRead s pa (accessSize a) with
    | (s, _, true) => emit s (.netError r.seq .poison)
    | (s, bs, false) => emit s (.netReply r.seq bs)
  | a, some (k, b, c) =>
    if !atomAligned pa (accessSize a) then emit s (.netError r.seq .refused)
    else match masterAtomic s pa (accessSize a) k b c with
      | (s, _, true) => emit s (.netError r.seq .poison)
      | (s, old, false) => emit s (.netReply r.seq (bytesOfNat (accessSize a) old.toNat))

/-- REMOTE_REQUEST: the access table is asked before the ownership table (R95); a request waits for its core's earlier one
to the window (R362), and a duplicate is discarded (R359). -/
def execRemoteRequest (r : NetRequest) (s : State) : Out :=
  .next <|
    let pa := netField s (0x4000 + 32 * r.window) 8 + r.offset
    let n := accessSize r.access
    if (r.src, r.seq) ∈ s.netSeen then emit s (.netAck r.seq)
    else if r.prior.any fun q => (r.src, q) ∉ s.netSeen then s
    else
      let t := { s with netSeen := s.netSeen ++ [(r.src, r.seq)] }
      let refuse (c : Nat) : State := emit (logErr t false ((errRec 4 0x0035).det c)) (.netError r.seq .refused)
      let deny : State := emit (logErr t false ((errRec 4 0x0032).det netMaster)) (.netError r.seq .refused)
      let denied := transportDenied s pa n (!isRead r.access)
      match failedCheck s r with
      | some 5 => if denied then deny else refuse 5
      | some c => refuse c
      | none =>
        if denied then deny
        else if masterWaits s pa n then s
        else serveAccess t r pa

end Sys2Proof.Machine
end

