-- ==== Sys2Proof/Machine/Sequencer.lean ====
section
/-! DEFINITION. The sequencer's barriers and flow, 0x110 and 0x130 to 0x134 (R309, R311 to R313). -/

namespace Sys2Proof.Machine

/-- The q barrier N of a block. -/
def getQBar (b : Block) (n : BitVec 4) : QBar := fget .init b.qbars n.toNat

def setQBar (b : Block) (n : BitVec 4) (x : QBar) : Block := { b with qbars := fput .init b.qbars n.toNat x }

/-- SQARR: a TSB entry, once for the word; SEQERR in its lanes where the block has no sequencer (R312). -/
def execSqarr (c : Ctl) (q : BitVec 4) (s : State) : Out :=
  waveWord c (.mk2 0 1) (fun x =>
    if x.ex = 0 then .done x
    else if x.b.seq.isNone then x.stop ((lanesOf x.ex).map fun l => (l, .exc .seqerr 0xFF 2 none))
    else .done (x.putTsb (.sqarr x.ex q))) s

/-- SQWAIT: waits for the count, then takes it off. -/
def sqwaitWord (q : BitVec 4) (count : BitVec 6) (x : Sq) : SAns :=
  let r := getQBar x.b q
  if r.ra < count.toNat then .wait x.s
  else .next (modBlock x.s x.bid fun b => setQBar b q { r with ra := r.ra - count.toNat })

def execSqwait (q : BitVec 4) (count : BitVec 6) (s : State) : Out := seqWord (sqwaitWord q count) s

/-- A matrix instruction of the block's sequencer has not written its registers (R313, R323, R326). -/
def drainPending (s : State) (bid : Nat) : Bool := s.pendings.any fun p => decide (p.bid = bid ∧ p.lane = seqLane)

/-- The lanes that wait at TSQW for the phase just ended depart. -/
def departSeqBar (b : Block) (q : BitVec 4) (ph : Bool) : Block := departWhere b fun
  | .seqBar m p succ => if m = q ∧ p ≠ ph then some succ else none
  | _ => none

/-- SQSIG: once every register is written, PH changes and the waves that wait for the change depart. -/
def sqsigWord (q : BitVec 4) (x : Sq) : SAns :=
  if drainPending x.s x.bid then .wait x.s
  else
    let r := getQBar x.b q
    .next (modBlock x.s x.bid fun b => departSeqBar (setQBar b q { r with ph := !r.ph }) q (!r.ph))

def execSqsig (q : BitVec 4) (s : State) : Out := seqWord (sqsigWord q) s

/-- A successor of the word at `pc`. -/
def Sq.target (x : Sq) (o : BitVec 17) : Word64 := x.q.pc + (o.signExtend 64 <<< 4)

/-- SQLOOP: one less, and the target unless it is zero. -/
def sqloopWord (z : Reg) (succ : BitVec 17) (x : Sq) : SAns :=
  x.reading [(6, .reg ⟨z, .none, false⟩)] <|
    let v := x.val .s false (.reg ⟨z, .none, false⟩) - 1
    if v = 0 then .next (x.put z v .full) else .jump (x.put z v .full) (x.target succ)

def execSqloop (z : Reg) (succ : BitVec 17) (s : State) : Out := seqWord (sqloopWord z succ) s

def execSqjmp (succ : BitVec 17) (s : State) : Out := seqWord (fun x => .jump x.s (x.target succ)) s

/-- SQEND: the stream ends. -/
def execSqend (s : State) : Out := seqWord (fun x => .next (setSeq x.s x.bid { x.q with run := .ended })) s

end Sys2Proof.Machine
end

