-- ==== Sys2Proof/Machine/Matrix.lean ====
section
/-! DEFINITION. The matrix instructions, 0x135 to 0x13C (R314 to R326). MXRD, MXWR, MXSWP and MXCS perform in steps,
between which a halt may fall (R310, log 65); the others perform at once. A drain's registers and the z registers of MXST
and MXCS are empty until their data arrives. -/

namespace Sys2Proof.Machine

/-! ### Tiles -/

abbrev flINV : BitVec 4 := 1
abbrev flOVF : BitVec 4 := 2
abbrev flINX : BitVec 4 := 4
abbrev flCHK : BitVec 4 := 8

def Tile.at1 (t : Tile) (i j : Nat) : BitVec 96 := fget 0 t.x (256 * i + j)
def Tile.put (t : Tile) (i j : Nat) (v : BitVec 96) : Tile := { t with x := fput 0 t.x (256 * i + j) v }
def Tile.check1 (t : Tile) (j : Nat) : BitVec 96 := fget 0 t.check j
def Tile.putCheck (t : Tile) (j : Nat) (v : BitVec 96) : Tile := { t with check := fput 0 t.check j v }

/-- A tile of the block, if it declares one of this index (R318). -/
def Sq.tile (x : Sq) (t : BitVec 2) (k : Tile → SAns) : SAns :=
  match nth x.b.tiles t.toNat with
  | some y => k y
  | none => .stop x.s seqCheck

def setTile (s : State) (bid : Nat) (t : BitVec 2) (y : Tile) : State :=
  modBlock s bid fun b => { b with tiles := modifyAt (fun _ => y) t.toNat b.tiles }

/-- A contribution with its flags (R87, R89). -/
def contribution (anchor : BitVec 10) (p : Ex) : BitVec 96 × BitVec 4 :=
  let (c, lost, big) := toA96 p anchor.toInt
  (c, (if lost then flINX else 0) ||| (if big then flOVF else 0))

/-! ### Fragments (R314, R315) -/

/-- The wave exists, has not retired and holds `cnt` registers from v`n` on. -/
def waveFits (b : Block) (n cnt i : Nat) : Bool := match nth b.waves i with
  | some w => !w.retired && decide (n + cnt ≤ w.ws)
  | none => false

/-- Every wave of a run of rows does. -/
def fragFits (b : Block) (rows n cnt : Nat) : Bool := (List.range (rows / 32)).all (waveFits b n cnt)

/-- A committed register of a wave under its window. -/
def fragCell (b : Block) (row n : Nat) : RegCell :=
  match nth b.waves (row / 32) with
  | some w => fget fullV w.vreg (vkey (w.wo + n) (row % 32))
  | none => fullV

/-- The vector register number of a fragment operand. -/
def fragBase (o : RegOp) : Nat := match o.reg with
  | .v n => n
  | _ => 0

/-- A read of `cnt` registers from `n` in each of these rows: DEFRD, EMPTYT or a wait, else the rest of the word. -/
def Sq.frag (x : Sq) (rows : List Nat) (n cnt field : Nat) (fe : Bool) (k : SAns) : SAns :=
  let fs := rows.flatMap fun r => (List.range cnt).map fun i => (fragCell x.b r (n + i)).fill
  if fs.any Fill.isDefer then .stop x.s (.exc .defrd field 0 none)
  else if fs.all fun f => f = .full then k
  else if fe then .stop x.s (.exc .emptyt field 0 none)
  else .wait x.s

/-! ### Operands of MXM and MXMS (R314, R316 to R320) -/

/-- An element: marked present, and its scaled value; none where it is an infinity or a NaN. -/
structure MxElem where
  present : Bool
  val : Option Ex
  deriving DecidableEq, Repr, Inhabited

/-- The scales of both operands (R317). -/
structure Scales where
  sa : Nat
  sb : Nat
  ga : Word32
  gb : Word32
  deriving DecidableEq, Repr, Inhabited

/-- The scaled value of a code; a group scale that is no positive finite number makes a Q16 element non-finite. -/
def scaledElem (f : Fmt) (sc : Nat) (g : Word32) (c : Nat) : Option Ex :=
  match f with
  | .q16 => match fp g with
    | .fin y => if y.m = 0 ∨ y.neg then none else some ((q16Level c).mul y)
    | _ => none
  | f => match decodeElem f c with
    | .fin y => some (y.scale ((sc : Int) - 127))
    | _ => none

/-- K of a shape (R314). -/
def mxK (f : Fmt) (ks : BitVec 2) : Nat := (4 * 2 ^ ks.toNat) * (32 / f.width)

/-- The generator that a matrix operand names: wave 0's, as committed. -/
def mxGen (b : Block) (o : RegOp) : Option Gen := match o.reg with
  | .g n => (nth b.waves 0).map fun w => fget .zero w.gens n
  | _ => none

/-- One operand as an instruction sees it. `rows` is M or N; `swap` says that the generator's first coordinate is the
K index. `bm` is the first bitmap register of MXMS. -/
structure MxSrc where
  op : RegOp
  field : Nat
  f : Fmt
  rows : Nat
  k : Nat
  swap : Bool
  sc : Nat
  g : Word32
  bm : Option Nat
  deriving DecidableEq, Repr, Inhabited

abbrev MxSrc.regs (o : MxSrc) : Nat := o.k / (32 / o.f.width)
abbrev MxSrc.bmRegs (o : MxSrc) : Nat := (o.k + 31) / 32

/-- What R318 asks of the operand before anything is read. -/
def MxSrc.fits (o : MxSrc) (b : Block) : Bool :=
  match o.op.reg with
  | .g _ => decide (o.rows / 32 ≤ b.waves.length) && (mxGen b o.op).any fun g => decide (g.fmt = some o.f)
  | _ => fragFits b o.rows (fragBase o.op) o.regs && o.bm.all fun n => fragFits b o.rows n o.bmRegs

/-- The columns J at which a generator operand reads. -/
def MxSrc.columns (o : MxSrc) (g : Gen) : List Nat :=
  (List.range (if o.swap then o.rows else o.k)).map fun j => g.col0.toNat + j

/-- The operand's reads: a fragment's registers, or a ROT table. -/
def Sq.mxRead (x : Sq) (o : MxSrc) (k : SAns) : SAns :=
  match mxGen x.b o.op with
  | none => x.frag (List.range o.rows) (fragBase o.op) o.regs o.field o.op.fe k
  | some g =>
    let js := o.columns g
    if js.any fun j => tabCheck x.b g j = .outside then .stop x.s seqCheck
    else if js.any fun j => tabCheck x.b g j = .wait then .wait x.s
    else match js.find? fun j => tabCheck x.b g j = .poison with
      | some j => .stop x.s (.poison (spadAddr (omegaOff g (j % 2 ^ 32))) noPa 1)
      | none => k

/-- The bitmap's reads. -/
def Sq.mxBits (x : Sq) (o : MxSrc) (fe : Bool) (k : SAns) : SAns :=
  match o.bm with
  | some n => x.frag (List.range o.rows) n o.bmRegs 10 fe k
  | none => k

/-- Element (row, k) of the operand; `sparse` is MXMS's. -/
def Sq.mxElem (x : Sq) (o : MxSrc) (sparse : Bool) (row k : Nat) : MxElem :=
  match mxGen x.b o.op with
  | some g =>
    let (i, j) := if o.swap then (k, row) else (row, k)
    let c := genCode g o.f (genKey (taskSeed x.s x.b.task) x.b.lin 0 g) x.b.spad (g.row0.toNat + i) (g.col0.toNat + j)
    ⟨!sparse || !zeroCode o.f c, scaledElem o.f o.sc o.g c⟩
  | none =>
    let e := 32 / o.f.width
    let c := elemAt o.f.width (k % e) ((fragCell x.b row (fragBase o.op + k / e)).val.setWidth 64)
    ⟨o.bm.all fun n => (fragCell x.b row (n + k / 32)).val.getLsbD (k % 32), scaledElem o.f o.sc o.g c⟩

/-! ### The product (R318 to R320) -/

/-- One product's contribution: none is formed with an absent element; a non-finite factor contributes zero. -/
def mxProduct (anchor : BitVec 10) (a b : MxElem) : BitVec 96 × BitVec 4 :=
  if !a.present || !b.present then (0, 0)
  else match a.val, b.val with
    | some p, some q => contribution anchor (p.mul q)
    | _, _ => (0, flINV)

/-- The contributions of every k to one element. -/
def mxDot (anchor : BitVec 10) (k : Nat) (a b : Nat → MxElem) : BitVec 96 × BitVec 4 :=
  (List.range k).foldl (fun v i =>
    let p := mxProduct anchor (a i) (b i)
    (v.1 + p.1, v.2 ||| p.2)) (0, 0)

/-- cs(k): the exact sum of a column's present elements; non-finite with a non-finite term. -/
def mxColumn (m : Nat) (a : Nat → MxElem) : MxElem :=
  (List.range m).foldl (fun v i =>
    if (a i).present then ⟨true, match v.val, (a i).val with
      | some p, some q => some (p.add q)
      | _, _ => none⟩ else v) ⟨false, some ⟨false, 0, 0⟩⟩

/-- THE PRODUCT ADDED TO A TILE, with its check row under CK. -/
def mxAccumulate (t : Tile) (m n k : Nat) (a b : Nat → Nat → MxElem) (ck : Bool) : Tile :=
  let t := (List.range m).foldl (fun t i => (List.range n).foldl (fun t j =>
    let p := mxDot t.anchor k (a i) (b j)
    { t.put i j (t.at1 i j + p.1) with flags := t.flags ||| p.2 }) t) t
  if ck then
    (List.range n).foldl (fun t j =>
      let p := mxDot t.anchor k (fun c => mxColumn m fun i => a i c) (b j)
      { t.putCheck j (t.check1 j + p.1) with flags := t.flags ||| p.2 }) t
  else t

/-- The scales: the immediate 0's, or a pair of z registers (R317). -/
def Sq.scales (x : Sq) (scl : Option RegOp) (k : Scales → SAns) : SAns :=
  match scl with
  | none => k ⟨127, 127, 0x3F800000, 0x3F800000⟩
  | some o =>
    let n := match o.reg with
      | .z n => n
      | _ => 0
    let lo := x.z n
    let hi := x.z (n + 1)
    if lo.fill ≠ .full ∨ hi.fill ≠ .full then (if o.fe then .stop x.s (.exc .emptyt 9 0 none) else .wait x.s)
    else
      let sa := (lo.val &&& 255).toNat
      let sb := ((lo.val >>> 8) &&& 255).toNat
      if sa = 255 ∨ sb = 255 ∨ lo.val >>> 16 ≠ 0 then .stop x.s seqCheck
      else k ⟨sa, sb, hi.val.setWidth 32, (hi.val >>> 32).setWidth 32⟩

/-- MXM, and MXMS with its bitmaps. -/
def mxWord (m : MxMod) (sh : MxShape) (a b : RegOp) (scl : Option RegOp) (sparse : Bool) (bm : Option RegOp) (x : Sq) :
    SAns :=
  x.tile sh.tile fun t =>
    let rows := 32 * (sh.m.toNat + 1)
    let cols := 32 * (sh.n.toNat + 1)
    let k := mxK m.fa sh.ks
    let bits (o : RegOp) (skip : Nat) : Option Nat := match mxGen x.b o with
      | some _ => none
      | none => bm.map fun r => fragBase r + skip
    let src (sc : Scales) : MxSrc × MxSrc :=
      (⟨a, 7, m.fa, rows, k, m.ta, sc.sa, sc.ga, bits a 0⟩,
       ⟨b, 8, m.fb, cols, k, !m.tb, sc.sb, sc.gb, bits b ((k + 31) / 32)⟩)
    let (p, q) := src ⟨127, 127, 0, 0⟩
    let fe := bm.any (·.fe)
    if !p.fits x.b || !q.fits x.b then .stop x.s seqCheck
    else x.mxRead p <| x.mxRead q <| x.scales scl fun sc => x.mxBits p fe <| x.mxBits q fe <|
      let (p, q) := src sc
      .next (setTile x.s x.bid sh.tile (mxAccumulate t rows cols k (x.mxElem p sparse) (x.mxElem q sparse) m.ck))

def execMxm (m : MxMod) (sh : MxShape) (a b : RegOp) (scl : Option RegOp) (s : State) : Out :=
  seqWord (mxWord m sh a b scl false none) s

def execMxms (m : MxMod) (sh : MxShape) (a b : RegOp) (scl bm : Option RegOp) (s : State) : Out :=
  seqWord (mxWord m sh a b scl true bm) s

/-! ### Accumulator instructions (R322 to R326) -/

/-- A source of the stream read in its field. -/
def Sq.source (x : Sq) (field : Nat) (k : Widen) (o : Src) (f : Word64 → SAns) : SAns :=
  x.reading [(field, o)] (f (x.val k false o))

/-- MXZ. -/
def mxzWord (tile : BitVec 2) (anchor : Src) (x : Sq) : SAns :=
  x.tile tile fun _ => x.source 7 .s anchor fun v =>
    if v.toInt < -512 ∨ 511 < v.toInt then .stop x.s seqCheck
    else .next (setTile x.s x.bid tile { Tile.zero with anchor := v.setWidth 10 })

def execMxz (tile : BitVec 2) (anchor : Src) (s : State) : Out := seqWord (mxzWord tile anchor) s

/-- The columns of MXRD and MXWR. -/
def Sq.columns (x : Sq) (j0 nc : Src) (k : Nat → Nat → SAns) : SAns :=
  x.source 7 .z j0 fun j => x.source 8 .z nc fun n =>
    if 255 < j.toNat ∨ n.toNat < 1 ∨ 64 < n.toNat ∨ 256 < j.toNat + n.toNat then .stop x.s seqCheck
    else k j.toNat n.toNat

/-- The registers of a drain of `nc` columns. -/
def drainRegs (df : DrainFmt) (nc : Nat) : Nat := match df with
  | .raw => 3 * nc
  | .conv f => (nc + 32 / f.width - 1) / (32 / f.width)

/-- Register `q` of the drain of row `i` (R91, R323). -/
def drainReg (df : DrainFmt) (rnd : Rnd) (fmode : Word64) (t : Tile) (i j0 nc q : Nat) : Word32 :=
  match df with
  | .raw => ((t.at1 i (j0 + q / 3)) >>> (32 * (q % 3))).setWidth 32
  | .conv f =>
    let e := 32 / f.width
    (List.range e).foldl (fun v p =>
      if e * q + p < nc then
        let c := (roundTo (modeFor fmode rnd f) f (.fin (fromA96 (t.at1 i (j0 + e * q + p)) t.anchor.toInt))).1
        v ||| BitVec.ofNat 32 (c * 2 ^ (f.width * p))
      else v) 0

/-- One wave's share of a drain: its registers become empty, and their values wait for their step (R310, R323). -/
def drainWave (bid : Nat) (tile : BitVec 2) (t : Tile) (df : DrainFmt) (rnd : Rnd) (j0 nc n : Nat) (r : State × List Pending) (wi : Nat) :
    State × List Pending :=
  match getWave r.1 bid wi with
  | none => r
  | some w =>
    let (id, s) := fresh r.1
    let ws := allLanes.flatMap fun l => (List.range (drainRegs df nc)).map fun q =>
      (Dest.v (w.wo + n + q) l, (drainReg df rnd (fget 0 w.spec 0) t (32 * wi + l) j0 nc q).setWidth 64)
    (modWave s bid wi fun w => w.emptyDests (ws.map Prod.fst) (.pend id),
      r.2 ++ [⟨id, bid, wi, ws, false, seqLane, tile.setWidth 64, 0, false, none, id, none⟩])

/-- The next of the drains is on its way to its wave. -/
def Sq.sendDrain (x : Sq) (s : State) (ps : List Pending) : State :=
  setSeqDrains { s with pendings := s.pendings ++ ps.take 1 } x.bid (ps.drop 1)

/-- MXRD: the format and FMODE are those of the issue (R91); a step for each wave. -/
def mxrdWord (df : DrainFmt) (rnd : Rnd) (tile : BitVec 2) (m : BitVec 3) (j0 nc : Src) (v : RegOp) (x : Sq) : SAns :=
  if x.q.reached ≠ 0 then x.stepped (m.toNat + 1) (x.sendDrain x.s x.q.drains)
  else x.tile tile fun t => x.columns j0 nc fun j n =>
    if !fragFits x.b (32 * (m.toNat + 1)) (fragBase v) (drainRegs df n) then .stop x.s seqCheck
    else
      let (s, ps) := (List.range (m.toNat + 1)).foldl (drainWave x.bid tile t df rnd j n (fragBase v)) (x.s, [])
      x.stepped (m.toNat + 1) (x.sendDrain s ps)

def execMxrd (df : DrainFmt) (rnd : Rnd) (tile : BitVec 2) (m : BitVec 3) (j0 nc : Src) (v : RegOp) (s : State) : Out :=
  seqWord (mxrdWord df rnd tile m j0 nc v) s

/-- MXWR's new element from its registers (R324). -/
def writeElem (sf : DrainFmt) (anchor : BitVec 10) (r : Nat → Word32) : BitVec 96 × BitVec 4 :=
  match sf with
  | .raw => ((r 2) ++ (r 1) ++ (r 0), 0)
  | .conv .fp32 => match fp (r 0) with
    | .fin y => contribution anchor y
    | _ => (0, flINV)
  | .conv _ => contribution anchor (Ex.ofInt (r 0).toInt)

/-- One element replaced; under RC the check row follows. -/
def replaceElem (rc : Bool) (t : Tile) (i j : Nat) (v : BitVec 96 × BitVec 4) : Tile :=
  let t := if rc then t.putCheck j (t.check1 j + (v.1 - t.at1 i j)) else t
  { t.put i j v.1 with flags := t.flags ||| v.2 }

/-- MXWR, a step for each wave: all is checked at the first, and what a step reads at each. -/
def mxwrWord (sf : DrainFmt) (rc : Bool) (tile : BitVec 2) (m : BitVec 3) (j0 nc : Src) (v : RegOp) (x : Sq) : SAns :=
  x.tile tile fun t => x.columns j0 nc fun j n =>
    let per := match sf with
      | .raw => 3
      | .conv _ => 1
    let wi := x.q.reached
    let fits := if wi = 0 then fragFits x.b (32 * (m.toNat + 1)) (fragBase v) (per * n)
      else waveFits x.b (fragBase v) (per * n) wi
    let rows := (List.range 32).map fun i => 32 * wi + i
    if !fits then .stop x.s seqCheck
    else x.frag (if wi = 0 then List.range (32 * (m.toNat + 1)) else rows) (fragBase v) (per * n) 9 v.fe <|
      x.stepped (m.toNat + 1) (setTile x.s x.bid tile (rows.foldl (fun t i => (List.range n).foldl (fun t c =>
        replaceElem rc t i (j + c) (writeElem sf t.anchor fun q => (fragCell x.b i (fragBase v + per * c + q)).val)) t) t))

def execMxwr (sf : DrainFmt) (rc : Bool) (tile : BitVec 2) (m : BitVec 3) (j0 nc : Src) (v : RegOp) (s : State) : Out :=
  seqWord (mxwrWord sf rc tile m j0 nc v) s

/-- The length of a save image (R325). -/
abbrev imageLen : Nat := 789568

/-- The parts of the image: the anchor, the flags and the check row; then each row (R310, R325). -/
abbrev imageParts : Nat := 257
def partAt (p : Nat) : Nat := if p = 0 then 0 else 3136 + 3072 * (p - 1)
def partLen (p : Nat) : Nat := if p = 0 then 3136 else 3072

/-- A part of a tile's save image. -/
def imagePart (t : Tile) (p : Nat) : List Byte :=
  if p = 0 then
    bytesOfNat 2 (t.anchor.signExtend 16).toNat ++ [t.flags.setWidth 8] ++ List.replicate 61 0 ++
    ((List.range 256).flatMap fun j => bytesOfNat 12 (t.check1 j).toNat)
  else (List.range 256).flatMap fun j => bytesOfNat 12 (t.at1 (p - 1) j).toNat

/-- The tile with a part of it from the image at an offset of the scratchpad. -/
def Tile.load (t : Tile) (m : Memory) (off p : Nat) : Tile :=
  if p = 0 then { t with
    anchor := (wordOf 16 (m.readN off 2)).setWidth 10
    flags := (m.read (off + 2)).setWidth 4
    check := (List.range 256).foldl (fun f j => fput 0 f j (wordOf 96 (m.readN (off + 64 + 12 * j) 12))) [] }
  else (List.range 256).foldl (fun t j => t.put (p - 1) j (wordOf 96 (m.readN (off + partAt p + 12 * j) 12))) t

/-- The blocks of the image's range that are poisoned. -/
def poisonIn (b : Block) (off n : Nat) : Option Nat :=
  ((b.spoison.filter fun p => p.2 && decide (off / 64 ≤ p.1) && decide (p.1 * 64 < off + n)).head?).map (·.1)

/-- MXSWP, a step for each part of the image. -/
def mxswpWord (tile : BitVec 2) (off : Src) (x : Sq) : SAns :=
  x.tile tile fun t => x.source 7 .z off fun v =>
    let o := match off with
      | .imm _ => 64 * v.toNat
      | .reg _ => v.toNat
    let p := x.q.reached
    let a := o + partAt p
    if o % 64 ≠ 0 ∨ x.b.shape.sp * 1024 < o + imageLen then .stop x.s seqCheck
    else if absentIn x.b a (partLen p) then .wait x.s
    else match poisonIn x.b a (partLen p) with
      | some l => .stop x.s (.poison (spadAddr (64 * l)) noPa 1)
      | none =>
        let tags (m : FMap (BitVec 16)) : FMap (BitVec 16) :=
          (List.range (partLen p / 64)).foldl (fun m i => fput 0 m (a / 64 + i) 0x000A) m
        x.stepped imageParts (setTile (modBlock x.s x.bid fun b =>
          { b with spad := b.spad.writeN a (imagePart t p), stag := tags b.stag }) x.bid tile (t.load x.b.spad o p))

def execMxswp (tile : BitVec 2) (off : Src) (s : State) : Out := seqWord (mxswpWord tile off) s

/-- z registers become empty until their values are formed from the tile. -/
def Sq.formed (x : Sq) (s : State) (tile : BitVec 2) (zs : List (Nat × Word64)) : State :=
  let (id, s) := fresh s
  let s := setSeq s x.bid { x.q with z := zs.foldl (fun z p => fput fullS z p.1 ⟨0, .pend id⟩) x.q.z }
  { s with pendings := s.pendings ++ [⟨id, x.bid, 0, zs.map fun p => (Dest.z p.1, p.2), false, seqLane, tile.setWidth 64, 0, false,
    none, id, none⟩] }

/-- The number of a z register. -/
def zNum : Reg → Nat
  | .z n => n
  | _ => 0

/-- MXST. -/
def mxstWord (z : Reg) (tile : BitVec 2) (x : Sq) : SAns :=
  x.tile tile fun t => .next (x.formed x.s tile [(zNum z, t.flags.setWidth 64)])

def execMxst (z : Reg) (tile : BitVec 2) (s : State) : Out := seqWord (mxstWord z tile) s

/-- δ(j) (R326). -/
def delta (t : Tile) (j : Nat) : BitVec 96 :=
  (List.range 256).foldl (fun v i => v + t.at1 i j) 0 - t.check1 j

/-- The δ that the steps so far have found, when 32 more columns have been summed. -/
def Sq.sumColumns (x : Sq) (t : Tile) : BitVec 96 :=
  if x.q.found ≠ 0 then x.q.found
  else (((List.range 32).map fun j => delta t (32 * x.q.reached + j)).find? fun v => v ≠ 0).getD 0

/-- MXCS, a step for each 32 columns. -/
def mxcsWord (z : Reg) (tile : BitVec 2) (x : Sq) : SAns :=
  x.tile tile fun t =>
    let d := x.sumColumns t
    if x.q.reached < 7 then .step (setSeq x.s x.bid { x.q with found := d })
    else
      let v : BitVec 128 := d.signExtend 128
      let s := setTile x.s x.bid tile { t with flags := if d ≠ 0 then t.flags ||| flCHK else t.flags }
      .next (x.formed s tile [(zNum z, v.setWidth 64), (zNum z + 1, (v >>> 64).setWidth 64)])

def execMxcs (z : Reg) (tile : BitVec 2) (s : State) : Out := seqWord (mxcsWord z tile) s

end Sys2Proof.Machine
end

