-- ==== Sys2Proof/Machine/Waves.lean ====
section
/-! DEFINITION. Events of waves: data and atomics' values arriving (R37, R38, R274), release conditions (R136), watched
lines resolved (R145, R451), arrivals at sequencer barriers (R312), posted records (R304), retirement (R40, R443), aging
(R177), a sequencer's fetch (R190). -/

namespace Sys2Proof.Machine

/-! ### Data that arrives -/

/-- The bank of a granary location is under refresh (R105): `pa` is 2^48 + die × 2^28 + offset. -/
def underRefresh (s : State) (pa : Nat) : Bool :=
  if 2 ^ 48 ≤ pa ∧ pa < noPa then
    let die := (pa - 2 ^ 48) / 2 ^ 28
    let (n, act) := fget (Config.refreshPhase die, false) s.refresh die
    act && decide (pa / 64 % 32 = (n + 31) % 32)
  else false

def findPending (s : State) (id : Nat) : Option Pending := s.pendings.find? fun p => p.id = id

/-- An earlier drain of the block's sequencer goes first: into the same register, since the instructions take effect in
their order (R318), or of the tile whose flags or sums a z register takes (R326). -/
def drainAhead (s : State) (p : Pending) : Bool :=
  decide (p.lane = seqLane) && (s.pendings.takeWhile fun q => q.id ≠ p.id).any fun q =>
    decide (q.bid = p.bid ∧ q.lane = seqLane) &&
    (decide (q.wave = p.wave) && (q.dests.any fun d => p.dests.any fun e => decide (d.1 = e.1)) ||
      (decide (q.va = p.va) && p.dests.any fun e => match e.1 with
        | .z _ => true
        | _ => false))

/-- REGISTER_DATA_ARRIVAL: an LDG's waits while its bank is under refresh. -/
def execRegisterDataArrival (id : Nat) (s : State) : Out :=
  .next <| match findPending s id with
    | some p => if p.atom || underRefresh s p.pa || !responseDue s p || drainAhead s p then s else landData s p
    | none => s

/-! ### A load that reads late (R134, log 95) -/

/-- What the place of an outstanding load holds now, from its first byte, and the tag of its block: where it is still open
to it, its page still leads there, the home grants it, and nothing of the core's own is under way to the bytes or has
found an error there. -/
def lateBytes (s : State) (b : Block) (p : Pending) (k : Late) : Option (List Byte × BitVec 16) :=
  let w := whoOf s b 0
  if b.core.isNone || p.poison || pathMeets s b.id p.wave w.core k.place k.bytes then none
  else match k.place with
    | .spad off =>
      if absentIn b off k.bytes || fget false b.spoison (off / 64) then none
      else some (b.spad.readN off k.bytes, fget 0 b.stag (off / 64))
    | .phys pa _ desc _ =>
      let line := pa / 64
      if (p.route.isSome && responseDue s p) || copyOwns s line || fget 0 s.upsets line ≠ 0 || fget false s.dpoison line ||
          atomInFlight s w.core pa k.bytes || movedMeets s w.core s.nextId k.place k.bytes ||
          !((placeNow s w (globalAddr s b p.wave p.lane p.va).toNat).any fun q => decide (q.line = k.place.line)) ||
          homeAns s w.master w.owner pa false ≠ .ok then none
      else
        let c := (stackLine s w.core line 0).takeAll line (ownFlights s w.core)
        some ((c.bytes.drop (pa % 64)).take k.bytes, if desc then c.tag else 0)
    | _ => none

/-- Its registers' values from these: LDD keeps what its word has found, the tag and the flags. -/
def lateValues (p : Pending) (k : Late) (bs : List Byte) (tag : BitVec 16) : Option (List (Dest × Word64)) :=
  let ds := p.dests.map (·.1)
  let bs := overlayOwn k.own bs
  match k.how with
  | .run _ sx => some (loadValues ds bs sx)
  | .tag => some (ds.map fun d => (d, tag.setWidth 64))
  | .described fmode rf f sc super cnt fl mine =>
    let span := (bs.drop (p.va.toNat % 64)).take (2 ^ cnt * f.width / 8)
    let (v, fl') := lddRun (modeFor fmode .dyn rf) rf f sc super cnt span
    if fl' = fl && (mine || decide (tagFmt tag = some f ∧ tag.toNat / 256 = sc)) then
      some (loadValues ds (bytesOfNat (4 * runD cnt rf) v) false)
    else none

/-- What an outstanding load would read now. -/
def lateRead (s : State) (b : Block) (p : Pending) (k : Late) : Option Pending :=
  (lateBytes s b p k).bind fun v => (lateValues p k v.1 v.2).map fun ws => { p with dests := ws }

/-- AN OUTSTANDING LOAD READS ONLY NOW, with all that its word reads of the line; copies that the earlier answer left in the
stack go. -/
def answerLate (s : State) (id : Nat) : State :=
  match findPending s id with
  | none => s
  | some p => match p.again, getBlock s p.bid with
    | some k, some b =>
      let new (x : Pending) : Option (Option Pending) := match x.again with
        | some j => if j.with k then some (lateRead s b x j) else none
        | none => none
      if (s.pendings.filterMap new).all Option.isSome then
        let s := { s with pendings := s.pendings.map fun x => ((new x).join).getD x }
        match k.place with
        | .phys pa _ _ _ =>
          if paDie pa = dieOf (b.core.getD 0) then s else dropStackLine s (dieOf (b.core.getD 0)) (pa / 64)
        | _ => s
      else s
    | _, _ => s

/-- ATOMIC_RESPONSE. -/
def execAtomicResponse (id : Nat) (s : State) : Out :=
  .next <| match findPending s id with
    | some p => if p.atom && responseDue s p then landData s p else s
    | none => s

/-! ### Release conditions (R136) -/

/-- The condition of a write path's entry, where it waits for one. -/
def pathRelease (s : State) (b : Block) (r : PathRec) : Bool :=
  let core := b.core.getD 0
  match r.item with
  | .atom sc rel _ => rel && releaseMet s core sc r.id
  | .barv n _ => releaseMet s core (getBar b n).bs r.id
  | _ => false

/-- The entry is marked, if its condition holds. -/
def markPath (s : State) (id : Nat) : State :=
  { s with blocks := s.blocks.map fun b => { b with waves := b.waves.map fun w =>
      { w with path := w.path.map fun r =>
          if decide (r.id = id) && b.core.isSome && pathRelease s b r then { r with ok := true } else r } } }

/-- An operation is marked, if its condition holds; that of a saved block is asked again on its new core (R181). -/
def markOp (s : State) (id : Nat) : State :=
  { s with ops := s.ops.map fun o =>
      if decide (o.id = id) && ((getBlock s o.bid).bind (·.core)).any fun core => releaseMet s core o.scope id then
        { o with released := true } else o }

/-- RELEASE_CONDITION_MET for an operation or an entry of a write path. -/
def execReleaseConditionMet (id : Nat) (s : State) : Out := .next (advanceOp (markOp (markPath s id) id) id)

/-! ### Watched lines (R145, R451) -/

/-- The home's answer to a copy's instance and stamp, for an owner that may reach the line (R115). -/
def resolveStamp (s : State) (o : Nat) (r : Watch) : WatchState :=
  match r.st with
  | .pending inst stamp =>
    match ffind s.stamps r.line with
    | some e => if e.inst = inst ∧ e.stamp = stamp ∧ ownerOk s o (r.line * 64) then .confirmed else .struck
    | none => .struck
  | x => x

/-- The watch record with this identity, and its block. -/
def findWatch (s : State) (id : Nat) : Option (Block × Watch) := s.blocks.findSome? fun b =>
  (b.waves.findSome? fun w => w.trace.bind fun t => t.watch.find? fun r => r.id = id).map fun r => (b, r)

/-- The question to the home and its answer cross the links on the way (R10, R145). -/
def askHome (s : State) (b : Block) (r : Watch) : State := match r.st with
  | .pending .. =>
    roundTrip (pinHome s (b.core.getD 0) (r.line * 64)) (dieOf (b.core.getD 0)) (paDie (r.line * 64))
  | _ => s

/-- The question follows the core's earlier requests to the home (R358). -/
def askWaits (s : State) (b : Block) (r : Watch) : Bool := match r.st with
  | .pending .. => requestsAhead s (b.core.getD 0) (r.line * 64)
  | _ => false

/-- The record's line is resolved so. -/
def setWatch (s : State) (id : Nat) (st : WatchState) : State :=
  let wave (w : Wave) : Wave := match w.trace with
    | some t => { w with trace := some { t with watch := t.watch.map fun r =>
        if r.id = id then { r with st := st } else r } }
    | none => w
  { s with blocks := s.blocks.map fun b => { b with waves := b.waves.map wave } }

/-- The home denies the resolution to the record's owner: EVENT 0x0030 (R115, log 70). -/
def logWatch (s : State) (c : Nat) (r : Watch) : State := match r.st with
  | .pending .. =>
    let pa := r.line * 64
    if ownerOk s (ctxOwner s c) pa then s
    else logErr s false ((((errRec 4 0x0030).atCtx s c).atPa pa).det (frameOwner s (pa / 65536)))
  | _ => s

/-- WATCH_RESOLUTION. -/
def execWatchResolution (id : Nat) (s : State) : Out :=
  .next <| match findWatch s id with
    | none => s
    | some (b, r) =>
      if askWaits s b r then s
      else setWatch (logWatch (askHome s b r) b.ctx r) id (resolveStamp s (ctxOwner s b.ctx) r)

/-! ### SQARR's arrivals (R312) -/

/-- An arrival takes effect: RA is one more, or the sequencer stops. -/
def arriveSeqBar (s : State) (b : Block) (q : BitVec 4) : State :=
  let x := fget .init b.qbars q.toNat
  if x.ra < 65535 then modBlock s b.id fun b => { b with qbars := fput .init b.qbars q.toNat { x with ra := x.ra + 1 } }
  else seqStop s b.id (.exc .seqerr 0xFF 4 none) false false

/-- SQARR_ARRIVAL: once the wave's outstanding register writes of then have landed. -/
def execSqarrArrival (id : Nat) (s : State) : Out :=
  .next <| match s.arrivals.find? fun a => a.id = id with
    | none => s
    | some a =>
      if a.waits ≠ [] then s
      else
        let s := { s with arrivals := s.arrivals.filter fun x => x.id ≠ id }
        match getBlock s a.bid with
        | some b => arriveSeqBar s b a.q
        | none => s

/-! ### QPOST's records (R304, R454) -/

/-- An earlier record from the same core to the same queue. -/
def postBefore (p x : Post) : Bool := decide (x.id < p.id ∧ x.core = p.core ∧ x.queue = p.queue)

/-- The units that a record takes in the ring. -/
def ringUnits (q : QueueSt) (n : Nat) : List Nat :=
  (List.range n).map fun i => q.ring + 8 * ((q.widx.toNat + i) % 2 ^ q.logd)

/-- EVENT 0x0022. -/
def rejectPost (s : State) (p : Post) : State :=
  logErr s true { (((errRec 4 0x0022).atCtx s p.ctx).det p.queue) with
    queue := if p.queue < 4096 then BitVec.ofNat 16 p.queue else 0xFFFF }

/-- The ring has room for a record of `n` units. -/
def ringRoom (q : QueueSt) (n : Nat) : Bool := decide ((q.widx - q.ridx).toNat + n ≤ 2 ^ q.logd)

/-- A RECORD IS APPENDED BY THE CP with the owner of the queue's context: its units are written and WIDX advances, in one
step; none where a home denies one (R155, R304, R454), with the denial's record. -/
def appendRecord (s : State) (queue : Nat) (words : List Word64) : State × Bool :=
  let q := getQueue s queue
  let us := ringUnits q words.length
  match us.findSome? fun a => masterAns s cpMaster (ctxOwner s q.ctx) a 8 true with
  | some (a, .owner o) => (logErr s false ((((errRec 4 0x0030).atCtx s q.ctx).atPa a).det o), false)
  | some d => (masterDenied s cpMaster d, false)
  | none =>
    let s := (us.zip words).foldl (fun s x => masterPut s x.1 (bytesOfNat 8 x.2.toNat)) s
    (modQueue s queue fun q => { q with widx := q.widx + BitVec.ofNat 32 words.length }, true)

/-- The record reaches the CP in the IOD, over the links on its way and with a pair number (R10, R462). A queue that
is frozen but not disabled takes it (DESIGN CHOICE, log 100). -/
def appendPost (s : State) (p : Post) : State :=
  let q := getQueue s p.queue
  let far := dieOf p.core
  let gone := { countPair (sendTraffic s far 4) far 4 with posts := s.posts.filter fun x => x.id ≠ p.id }
  if 4096 ≤ p.queue ∨ !q.enabled ∨ q.ctx ≠ p.ctx then rejectPost gone p
  else if !ringRoom q p.words.length then s
  else match appendRecord gone p.queue p.words with
    | (s, true) => s
    | (s, false) => rejectPost s p

/-- A record of the CP's own, to a queue that it drives itself (R155). -/
def cpPost (s : State) (queue : Nat) (words : List Word64) : State :=
  let q := getQueue s queue
  if queue < 4096 ∧ q.enabled ∧ ringRoom q words.length then (appendRecord s queue words).1 else s

/-- QPOST_APPEND: in the order of issue, after the poster's release. -/
def execQpostAppend (id : Nat) (s : State) : Out :=
  .next <| match s.posts.find? fun p => p.id = id with
    | none => s
    | some p =>
      if s.posts.any (postBefore p) || !releaseMet s p.core .device p.id then s else appendPost s p

/-! ### Retirement and aging -/

/-- The register waits for a producer that is not one of these; a deferred one does not count (R443). -/
def Fill.awaits (ids : List Nat) : Fill → Bool
  | .pend id => id ≠ 0 && id ∉ ids
  | _ => false

/-- No register of the wave waits for a producer other than these. -/
def Wave.landedBut (w : Wave) (ids : List Nat) : Bool :=
  (w.vreg.all fun p => !p.2.fill.awaits ids) && (w.sreg.all fun p => !p.2.fill.awaits ids)

/-- No register of the wave waits for a producer. -/
def Wave.landed (w : Wave) : Bool := w.landedBut []

/-- The wave's lanes have all exited and nothing of it is under way. -/
def Wave.canRetire (w : Wave) : Bool :=
  !w.retired && w.trace.isNone && decide (w.path = []) && (w.lanes.all fun l => decide (l.st = .exited)) && w.landed

/-- WAVE_RETIRE: its register stack, buffers and slot are free. -/
def execWaveRetire (bid w : Nat) (s : State) : Out :=
  .next <| match getBlock s bid, getWave s bid w with
    | some b, some x =>
      if b.core.isSome && x.canRetire then
        modWave s bid w fun x => { x with retired := true, vreg := [], sreg := [], readyAt := none, keep := false }
      else s
    | _, _ => s

/-- PENDING_WAVE_AGING: the active wave that has gone longest without waiting is to be moved out; one that waits in its
slot has not. -/
def execPendingWaveAging (core unit : Nat) (s : State) : Out :=
  .next <| match oldestPending s core unit,
      leastBy (fun p => p.2.2.since.getD s.tick) ((unitWaves s core unit).filter fun p => decide (p.2.2.slot < 8) && p.2.2.ready) with
    | some _, some (bid, w, _) => modWave s bid w fun x => { x with demote := true }
    | _, _ => s

/-! ### The sequencer's fetch (R190) -/

/-- The word at a sequencer's pc. -/
def seqFetch (s : State) (b : Block) (q : SeqState) : State × FetchRes := fetchWord s (whoOf s b 1) q.pc

/-- SEQUENCER_FETCH_FAULT. -/
def execSequencerFetchFault (bid : Nat) (s : State) : Out :=
  .next <| match getBlock s bid with
    | none => s
    | some b => match b.core, b.seq with
      | some _, some q =>
        if q.run = .running then
          match seqFetch s b q with
          | (s', .stop st) => seqStop s' bid st false false
          | (s', .denied) => loseContext s' b.ctx 0x0030 1 false
          | _ => s
        else s
      | _, _ => s

end Sys2Proof.Machine
end

