-- ==== Sys2Proof/Machine/Saving.lean ====
section
/-! DEFINITION. Time slices, and blocks saved and restored (R41, R62 to R64, R180 to R185, R428, R442, R444, R458). -/

namespace Sys2Proof.Machine

/-! ### Stalled blocks (R185, R428, R444, R458) -/

/-- A lane waits at a barrier, a call or a ticket (R25). -/
def LaneState.waitsAt : LaneState → Bool
  | .tbar _ | .tgbar .. | .tcall .. | .tret _ | .ticket _ | .seqBar .. => true
  | _ => false

/-- A wave that has ended. -/
def Wave.over (w : Wave) : Bool := w.retired || w.lanes.all fun l => decide (l.st = .exited)

/-- None of the wave's lanes is runnable, and one or more is trapped (R428). -/
def Wave.trapParked (w : Wave) : Bool := decide (w.runnable = 0) && w.lanes.any fun l => l.st.isTrapped

/-- The wave is parked, for a page (R185) or by its trapped lanes (R428), or it waits at a barrier, call or ticket. -/
def Wave.stuck (w : Wave) : Bool :=
  w.parked ≠ [] || (w.trace.isNone && (w.trapParked || (decide (w.runnable = 0) && w.lanes.all fun l =>
    decide (l.st = .exited) || l.st.waitsAt)))

/-- The wave cannot go on by itself: it has ended, is parked or waits. -/
def Wave.idle (w : Wave) : Bool :=
  w.over || w.parked ≠ [] || (w.trace.isNone && decide (w.runnable = 0) && w.lanes.all fun l => match l.st with
    | .op _ => false
    | _ => true)

/-- The block's sequencer is stopped (R190, R428), or a copy of it is (R458). -/
def unitStopped (s : State) (b : Block) : Bool :=
  (b.seq.any fun q => match q.run with
    | .stopped .. | .faulted _ => true
    | _ => false) ||
  (s.copies.any fun c => decide (c.bid = b.id) && c.stopped.isSome)

/-- Every lane that has not exited waits at TORDW for a turn that a saved block holds. -/
def turnHeldBySaved (s : State) (b : Block) : Bool :=
  (b.waves.all fun w => w.retired || w.lanes.all fun l => match l.st with
    | .exited | .ticket _ => true
    | _ => false) &&
  (getTask s b.task).any fun t => s.blocks.any fun x => decide (x.task = t.id ∧ x.lin = t.ticket) && x.core.isNone

/-- A BLOCK IS STALLED: each of its waves that has not ended is parked or waits at a barrier, call or ticket; or what it
waits for has stopped while no wave can go on; or a saved block holds the turn (R185, R428, R444, R458). -/
def stalled (s : State) (b : Block) : Bool :=
  (b.waves.all (fun w => w.over || w.stuck) && !(b.waves.all Wave.over)) ||
  (unitStopped s b && b.waves.all Wave.idle) || turnHeldBySaved s b

/-! ### Other work for a core (R180, R185) -/

/-- The pages that a block waits for have all been resolved. -/
def pagesResolved (s : State) (b : Block) : Bool :=
  (b.waves.all fun w => w.parked = []) &&
  !(b.seq.any fun q => match q.run with
    | .faulted _ => true
    | _ => false) &&
  !(s.copies.any fun c => decide (c.bid = b.id) && c.stopped.isSome)

/-- The deferred atomics of one block of the task fit an empty core's buffer (R352). -/
def detFits (t : Task) (x : Shape) : Bool := !t.det || decide (x.w * t.deta ≤ 4096)

/-- A saved block of the task holds the lowest unreleased turn, could be restored, and is another. -/
def holderWaits (s : State) (b : Block) : Bool :=
  (getTask s b.task).any fun t => decide (b.lin ≠ t.ticket) &&
    s.blocks.any fun x => decide (x.task = t.id ∧ x.lin = t.ticket) && x.core.isNone && pagesResolved s x

/-- The core may launch further blocks once it has room. -/
def opens (s : State) (p : Nat) : Bool :=
  inService s p && (getCore s p).closing.isNone && !fget false s.deadDisp (dieOf p)

/-- A block of the task could be placed on the core, once it has room. -/
def couldPlace (s : State) (t : Task) (p : Nat) : Bool :=
  decide (t.st = .placing) && !(getCtx s t.ctx).lost && opens s p && (freeFrames s t.ctx ≠ []) &&
  detFits t (shapeOf t.f.shape) &&
  (if t.det then (logicalOf s p).any fun c => (detWaiting s t c).isSome else hasBlock t p)

/-- A saved block's core is this one: with DET its own; else any that takes blocks. -/
def restorable (s : State) (b : Block) (p : Nat) : Bool :=
  inService s p && (getTask s b.task).any fun t =>
    if t.det then (detCore s t b.lin).bind (physicalOf s) = some p else (getCore s p).closing.isNone

/-- OTHER WORK for the core, of contexts that meet `c`: a block that could be placed or restored there. -/
def hasWork (s : State) (core : Nat) (c : Nat → Bool) (keep : Nat) : Bool :=
  (s.tasks.any fun t => c t.ctx && couldPlace s t core) ||
  s.blocks.any fun b => c b.ctx && b.core.isNone && decide (b.id ≠ keep) && pagesResolved s b && !holderWaits s b &&
    restorable s b core

/-! ### The halt (R62 to R64) -/

/-- The traces of a context's blocks on a core are discarded; the core issues nothing for the context. -/
def haltFor (s : State) (core ctx : Nat) : State :=
  let s := modCore s core fun x => { x with halted := some ctx }
  { s with blocks := s.blocks.map fun b =>
      if b.core = some core ∧ b.ctx = ctx then { b with waves := b.waves.map Wave.discard } else b }

/-- Barriers of these blocks that can complete do so first (R290, R442). -/
def barriersFirst (s : State) (bs : List Block) : State := (bs.map (·.id)).foldl tryTbar s

/-- SLICE_EXPIRY: with other work placeable the context's blocks are to be saved; else the slice is renewed. Blocks that
meet the conditions of their end end instead (R183, R442). -/
def execSliceExpiry (core ctx : Nat) (s : State) : Out :=
  .next <|
    let s := barriersFirst s ((residents s core).filter fun b => b.ctx = ctx)
    if (residents s core).any (fun b => decide (b.ctx = ctx) && !blockDone s b) && (getCore s core).halted.isNone &&
        hasWork s core (fun c => c ≠ ctx) 0 then haltFor s core ctx
    else s

/-! ### Saving (R181, R182) -/

/-- The frames that a block's save takes. -/
def saveSize (x : Shape) : Nat := (4096 + x.w * (x.rpl * 128 + 4096) + x.sp * 1024 + x.tiles * 789504 + 65535) / 65536

/-- The frames of a context's save pool that hold nothing. -/
def freePool (s : State) (ctx : Nat) : List Nat :=
  let used := (s.blocks.filter fun b => b.ctx = ctx).flatMap (·.saveFrames)
  (getCtx s ctx).pool.filter fun f => f ∉ used

/-- What its core has issued before a release of the block still holds the release up (R136). -/
def releasing (s : State) (b : Block) (core : Nat) : Bool :=
  (s.ops.any fun o => decide (o.bid = b.id) && !o.released && !releaseMet s core o.scope o.id) ||
  b.waves.any fun w =>
    (w.lanes.any fun l => match l.st with
      | .tgbar _ rel => !releaseMet s core .device rel
      | _ => false) ||
    w.path.any fun r => match r.item with
      | .atom sc true _ => !r.ok && !releaseMet s core sc r.id
      | .barv n _ => !r.ok && !releaseMet s core (getBar b n).bs r.id
      | _ => false

/-- What of the block is still under way has landed, and what its releases await (R136, R181): registers but those that a
halted MXRD has still to drain (R310), write paths, stores, requests, copies but stopped ones. -/
def settled (s : State) (b : Block) : Bool :=
  let stopped := s.copies.any fun c => decide (c.bid = b.id) && c.stopped.isSome
  let held := b.seq.toList.flatMap fun q => q.drains.map (·.id)
  (b.waves.all fun w => w.landedBut held && (w.path = [] || stopped)) &&
  (b.seq.all fun q => q.z.all fun p => decide (p.2.fill = .full)) &&
  !releasing s b (b.core.getD 0) && (s.flights.all fun f => f.bid ≠ b.id) && (s.netOut.all fun n => n.bid ≠ b.id) &&
  s.copies.all fun c => decide (c.bid ≠ b.id) || c.stopped.isSome

/-- The save engine's master identity (R119). -/
abbrev saveMaster : Nat := 0x4C

/-- The first denial of the save engine, which presents 0xFFFF, in the frames (R115, R119, R182). -/
def saveDenied (s : State) (fs : List Nat) : Option (Nat × HomeAns) :=
  fs.findSome? fun f => masterAns s saveMaster 0xFFFF (f * 65536) 65536 true

/-- The save engine of a core's die writes 64 bytes at their home, over the links on the way (R10, R462). -/
def savePut (s : State) (core pa : Nat) (bytes : List Byte) : State :=
  homePut (countPair (sendTraffic s (dieOf core) (paDie pa)) (dieOf core) (paDie pa)) pa bytes

/-- The save engine fills the frames; what they hold is its own (log 16). -/
def fillFrames (s : State) (core : Nat) (fs : List Nat) : State :=
  fs.foldl (fun s f =>
    let (ix, s) := freeIx s
    (List.range 1024).foldl (fun s i =>
      savePut s core (f * 65536 + i * 64) ((List.range 64).map fun j => Config.saveByte ix (i * 64 + j))) s) s

/-- The block leaves its core. -/
def leaveCore (s : State) (b : Block) (core : Nat) (fs : List Nat) (slice : Bool) : State :=
  let s := modBlock (fillFrames s core fs) b.id fun b => { b with
    core := none, saveFrames := fs, waves := b.waves.map fun w => { w with keep := false, readyAt := none, demote := false } }
  let s := if slice then modTask s b.task fun t => { t with preempt := t.preempt + 1 } else s
  if (residents s core).any fun x => (getCore s core).halted = some x.ctx then s
  else modCore s core fun x => { x with halted := none }

/-- The block is saved; a denial of its frames is recorded and costs the context (R454, log 98). -/
def saveBlock (s : State) (b : Block) (core : Nat) (fs : List Nat) (slice : Bool) : State :=
  match saveDenied s fs with
  | none => leaveCore s b core fs slice
  | some d =>
    let cause := match d.2 with
      | .owner _ => 0x0030
      | _ => 0x0032
    let r := ((errRec 4 cause).atCtx s b.ctx).atPa d.1
    loseContext (logErr s false (match d.2 with
      | .owner o => r.det o
      | _ => r.det saveMaster)) b.ctx cause 1 false

/-- BLOCK_SAVE: of a context whose core is halted, or of a stalled block whose core has other work. -/
def execBlockSave (bid : Nat) (s : State) : Out :=
  .next <|
    let s := tryTbar s bid
    match getBlock s bid with
    | none => s
    | some b => match b.core with
      | none => s
      | some core =>
        let slice := decide ((getCore s core).halted = some b.ctx)
        let fs := (freePool s b.ctx).take (saveSize b.shape)
        if !blockDone s b && (slice || (stalled s b && hasWork s core (fun _ => true) bid)) && settled s b &&
            decide (fs.length = saveSize b.shape) then
          saveBlock { s with blocks := s.blocks.map fun x =>
            if x.id = bid then { x with waves := x.waves.map Wave.discard } else x } b core fs slice
        else s

/-! ### Restoring (R184, R444) -/

/-- The core may take the saved block now. -/
def restoreOn (s : State) (b : Block) (p : Nat) : Bool :=
  restorable s b p && (getCore s p).halted.isNone && hasRoom s p b.shape &&
  (getTask s b.task).all fun t => detRoom s p t b.shape

/-- The waves take the slots of their places. -/
def seatWaves (tick : Nat) (ws : List Wave) (places : List (Nat × Nat)) : List Wave :=
  (ws.zip places).map fun p => { p.1 with
    unit := p.2.1, slot := p.2.2, since := if p.1.ready then some tick else none, readyAt := none }

/-- The block is whole on the core, whose L1 gives up the granules; what a departure of its lanes has acquired while it was
saved is acquired there (R128). The core's next unit advances as at a launch, which R172 leaves open (DESIGN CHOICE, log
100). -/
def restoreBlock (s : State) (b : Block) (core : Nat) (places : List (Nat × Nat)) : State :=
  let s := modBlock s b.id fun b => { b with
    core := some core, saveFrames := [], waves := seatWaves s.tick b.waves places,
    seq := b.seq.map fun q => { q with unit := freeSeq s core } }
  let s := modCore s core fun x => { x with nextUnit := (x.nextUnit + b.shape.w) % 16 }
  let s := acquireDrops (shrinkL1 s core) core .device
  { s with
    copies := s.copies.map fun c => if c.bid = b.id then { c with core := core } else c
    detbuf := s.detbuf.map fun e => if e.bid = b.id then { e with core := core } else e }

/-- BLOCK_RESTORE on a physical core. -/
def execBlockRestore (bid core : Nat) (s : State) : Out :=
  .next <| match getBlock s bid with
    | none => s
    | some b =>
      if b.core.isNone && pagesResolved s b && !holderWaits s b && restoreOn s b core then
        match wavePlaces s core b.shape.w with
        | some places => restoreBlock s b core places
        | none => s
      else s

end Sys2Proof.Machine
end

