-- ==== Sys2Proof/Machine/Dispatch.lean ====
section
/-! DEFINITION. One arm for each instruction: its meaning, called directly. -/

namespace Sys2Proof.Machine

def exec (i : Instr) (s : State) : Host.Outcome State Fault Refusal :=
  match i with
  | .traceAdmission words twb tsb mask => Sys2Proof.Machine.execTraceAdmission words twb tsb mask s
  | .tend c p t f => Sys2Proof.Machine.execTend c p t f s
  | .texit c => Sys2Proof.Machine.execTexit c s
  | .grd c p alt => Sys2Proof.Machine.execGrd c p alt s
  | .chkw c mask alt => Sys2Proof.Machine.execChkw c mask alt s
  | .tbar c succ => Sys2Proof.Machine.execTbar c succ s
  | .tgbar c succ => Sys2Proof.Machine.execTgbar c succ s
  | .tcall c callee k w succ => Sys2Proof.Machine.execTcall c callee k w succ s
  | .tret c => Sys2Proof.Machine.execTret c s
  | .tyield c succ => Sys2Proof.Machine.execTyield c succ s
  | .twait c bar ph succ => Sys2Proof.Machine.execTwait c bar ph succ s
  | .tsqw c bar ph succ => Sys2Proof.Machine.execTsqw c bar ph succ s
  | .tordw c succ => Sys2Proof.Machine.execTordw c succ s
  | .tordr c succ => Sys2Proof.Machine.execTordr c succ s
  | .nop c => Sys2Proof.Machine.execNop c s
  | .rep n sd sa sb sc se => Sys2Proof.Machine.execRep n sd sa sb sc se s
  | .trap c code succ => Sys2Proof.Machine.execTrap c code succ s
  | .brk c code => Sys2Proof.Machine.execBrk c code s
  | .srd c hi d sreg => Sys2Proof.Machine.execSrd c hi d sreg s
  | .swr c hi sreg b => Sys2Proof.Machine.execSwr c hi sreg b s
  | .qpost c q a words => Sys2Proof.Machine.execQpost c q a words s
  | .pset c cmp l u comb cp q a b => Sys2Proof.Machine.execPset c cmp l u comb cp q a b s
  | .fpset c cmp comb cp q a b => Sys2Proof.Machine.execFpset c cmp comb cp q a b s
  | .plog c lut q pa pb pc => Sys2Proof.Machine.execPlog c lut q pa pb pc s
  | .pmov c q pa => Sys2Proof.Machine.execPmov c q pa s
  | .pbitsGet c d mask => Sys2Proof.Machine.execPbitsGet c d mask s
  | .pbitsPut c mask a => Sys2Proof.Machine.execPbitsPut c mask a s
  | .vote c mode q pa => Sys2Proof.Machine.execVote c mode q pa s
  | .ballot c d pa => Sys2Proof.Machine.execBallot c d pa s
  | .matchLanes c d a => Sys2Proof.Machine.execMatchLanes c d a s
  | .elect c q => Sys2Proof.Machine.execElect c q s
  | .lget c mode sg d a b fill => Sys2Proof.Machine.execLget c mode sg d a b fill s
  | .xchg c n d a b => Sys2Proof.Machine.execXchg c n d a b s
  | .reduce c op d a => Sys2Proof.Machine.execReduce c op d a s
  | .scan c op ex d a => Sys2Proof.Machine.execScan c op ex d a s
  | .rdlane c d a b => Sys2Proof.Machine.execRdlane c d a b s
  | .wrlane c d a b => Sys2Proof.Machine.execWrlane c d a b s
  | .iadd c u sat cy cp d a b => Sys2Proof.Machine.execIadd c u sat cy cp d a b s
  | .isub c u sat cy cp d a b => Sys2Proof.Machine.execIsub c u sat cy cp d a b s
  | .imul c u sat d a b => Sys2Proof.Machine.execImul c u sat d a b s
  | .imulh c u d a b => Sys2Proof.Machine.execImulh c u d a b s
  | .imad c u sat d a b e => Sys2Proof.Machine.execImad c u sat d a b e s
  | .imadw c u d a b e => Sys2Proof.Machine.execImadw c u d a b e s
  | .ineg c sat d a => Sys2Proof.Machine.execIneg c sat d a s
  | .iabs c sat d a => Sys2Proof.Machine.execIabs c sat d a s
  | .imin c u d a b => Sys2Proof.Machine.execImin c u d a b s
  | .imax c u d a b => Sys2Proof.Machine.execImax c u d a b s
  | .idiv c u rnd d a b => Sys2Proof.Machine.execIdiv c u rnd d a b s
  | .irem c u rnd d a b => Sys2Proof.Machine.execIrem c u rnd d a b s
  | .isad c u sat d a b e => Sys2Proof.Machine.execIsad c u sat d a b e s
  | .iclamp c u d a b e => Sys2Proof.Machine.execIclamp c u d a b e s
  | .andw c d a b => Sys2Proof.Machine.execAndw c d a b s
  | .orw c d a b => Sys2Proof.Machine.execOrw c d a b s
  | .xorw c d a b => Sys2Proof.Machine.execXorw c d a b s
  | .notw c d a => Sys2Proof.Machine.execNotw c d a s
  | .andn c d a b => Sys2Proof.Machine.execAndn c d a b s
  | .blut c lut d a b e => Sys2Proof.Machine.execBlut c lut d a b e s
  | .shl c d a b => Sys2Proof.Machine.execShl c d a b s
  | .shr c d a b => Sys2Proof.Machine.execShr c d a b s
  | .sar c d a b => Sys2Proof.Machine.execSar c d a b s
  | .rotl c d a b => Sys2Proof.Machine.execRotl c d a b s
  | .shf c right d a b e => Sys2Proof.Machine.execShf c right d a b e s
  | .bfe c u d a f => Sys2Proof.Machine.execBfe c u d a f s
  | .bfi c d a b f => Sys2Proof.Machine.execBfi c d a b f s
  | .popc c d a => Sys2Proof.Machine.execPopc c d a s
  | .clz c d a => Sys2Proof.Machine.execClz c d a s
  | .brev c d a => Sys2Proof.Machine.execBrev c d a s
  | .ffs c d a => Sys2Proof.Machine.execFfs c d a s
  | .bswz c d a b e => Sys2Proof.Machine.execBswz c d a b e s
  | .sel c d a b pc => Sys2Proof.Machine.execSel c d a b pc s
  | .mov c d a => Sys2Proof.Machine.execMov c d a s
  | .movi c d imm => Sys2Proof.Machine.execMovi c d imm s
  | .fadd c rnd d a b => Sys2Proof.Machine.execFadd c rnd d a b s
  | .fsub c rnd d a b => Sys2Proof.Machine.execFsub c rnd d a b s
  | .fmul c rnd d a b => Sys2Proof.Machine.execFmul c rnd d a b s
  | .fdiv c rnd d a b => Sys2Proof.Machine.execFdiv c rnd d a b s
  | .ffma c rnd d a b e => Sys2Proof.Machine.execFfma c rnd d a b e s
  | .fmin c d a b => Sys2Proof.Machine.execFmin c d a b s
  | .fmax c d a b => Sys2Proof.Machine.execFmax c d a b s
  | .fabs c d a => Sys2Proof.Machine.execFabs c d a s
  | .fneg c d a => Sys2Proof.Machine.execFneg c d a s
  | .frcp c rnd d a => Sys2Proof.Machine.execFrcp c rnd d a s
  | .frsq c rnd d a => Sys2Proof.Machine.execFrsq c rnd d a s
  | .fsqrt c rnd d a => Sys2Proof.Machine.execFsqrt c rnd d a s
  | .fexp2 c d a => Sys2Proof.Machine.execFexp2 c d a s
  | .flog2 c d a => Sys2Proof.Machine.execFlog2 c d a s
  | .fsin c d a => Sys2Proof.Machine.execFsin c d a s
  | .fcos c d a => Sys2Proof.Machine.execFcos c d a s
  | .ftanh c d a => Sys2Proof.Machine.execFtanh c d a s
  | .fsigm c d a => Sys2Proof.Machine.execFsigm c d a s
  | .frnd c rnd d a => Sys2Proof.Machine.execFrnd c rnd d a s
  | .ffrac c rnd d a => Sys2Proof.Machine.execFfrac c rnd d a s
  | .fscale c rnd d a b => Sys2Proof.Machine.execFscale c rnd d a b s
  | .fgexp c d a => Sys2Proof.Machine.execFgexp c d a s
  | .fclass c d a => Sys2Proof.Machine.execFclass c d a s
  | .hadd2 c bf rnd d a b => Sys2Proof.Machine.execHadd2 c bf rnd d a b s
  | .hmul2 c bf rnd d a b => Sys2Proof.Machine.execHmul2 c bf rnd d a b s
  | .hfma2 c bf rnd d a b e => Sys2Proof.Machine.execHfma2 c bf rnd d a b e s
  | .hmin2 c bf d a b => Sys2Proof.Machine.execHmin2 c bf d a b s
  | .hmax2 c bf d a b => Sys2Proof.Machine.execHmax2 c bf d a b s
  | .cvt c df sf rnd d a => Sys2Proof.Machine.execCvt c df sf rnd d a s
  | .pack c el df rnd d a b => Sys2Proof.Machine.execPack c el df rnd d a b s
  | .unpk c el sf d a => Sys2Proof.Machine.execUnpk c el sf d a s
  | .qenc c el rn d a g => Sys2Proof.Machine.execQenc c el rn d a g s
  | .qdec c el d a g => Sys2Proof.Machine.execQdec c el d a g s
  | .rand c mode d => Sys2Proof.Machine.execRand c mode d s
  | .rkey c a => Sys2Proof.Machine.execRkey c a s
  | .hmix c d x k => Sys2Proof.Machine.execHmix c d x k s
  | .csacc c u neg k a => Sys2Proof.Machine.execCsacc c u neg k a s
  | .cschk c k => Sys2Proof.Machine.execCschk c k s
  | .cschkZ n => Sys2Proof.Machine.execCschkZ n s
  | .ld c wid sx d a => Sys2Proof.Machine.execLd c wid sx d a s
  | .st c wid r a => Sys2Proof.Machine.execSt c wid r a s
  | .ldd c cnt rf d a => Sys2Proof.Machine.execLdd c cnt rf d a s
  | .std c cnt rf r a => Sys2Proof.Machine.execStd c cnt rf r a s
  | .tagld c d a => Sys2Proof.Machine.execTagld c d a s
  | .tagst c r a => Sys2Proof.Machine.execTagst c r a s
  | .ldg c wid sx tg d a mode => Sys2Proof.Machine.execLdg c wid sx tg d a mode s
  | .pref c l2 a => Sys2Proof.Machine.execPref c l2 a s
  | .ldwt c wid slot d a => Sys2Proof.Machine.execLdwt c wid slot d a s
  | .atom c scope ord op sz a b o => Sys2Proof.Machine.execAtom c scope ord op sz a b o s
  | .atomr c scope ord op sz d a b succ => Sys2Proof.Machine.execAtomr c scope ord op sz d a b succ s
  | .cas c scope ord sz d a b e succ => Sys2Proof.Machine.execCas c scope ord sz d a b e succ s
  | .exch c scope ord sz d a b succ => Sys2Proof.Machine.execExch c scope ord sz d a b succ s
  | .lda c scope sx wid d a succ => Sys2Proof.Machine.execLda c scope sx wid d a succ s
  | .stl c scope wid r a succ => Sys2Proof.Machine.execStl c scope wid r a succ s
  | .fence c scope ord succ => Sys2Proof.Machine.execFence c scope ord succ s
  | .acqr c victim succ => Sys2Proof.Machine.execAcqr c victim succ s
  | .cpy c scope bar d a b => Sys2Proof.Machine.execCpy c scope bar d a b s
  | .cpyt c scope bar d a b => Sys2Proof.Machine.execCpyt c scope bar d a b s
  | .cpyg c rsz scope bar d a b => Sys2Proof.Machine.execCpyg c rsz scope bar d a b s
  | .binit c bar scope count => Sys2Proof.Machine.execBinit c bar scope count s
  | .bexp c bar b => Sys2Proof.Machine.execBexp c bar b s
  | .barv c bar b => Sys2Proof.Machine.execBarv c bar b s
  | .btest c q bar ph => Sys2Proof.Machine.execBtest c q bar ph s
  | .sqarr c q => Sys2Proof.Machine.execSqarr c q s
  | .sqwait q count => Sys2Proof.Machine.execSqwait q count s
  | .sqsig q => Sys2Proof.Machine.execSqsig q s
  | .sqloop z succ => Sys2Proof.Machine.execSqloop z succ s
  | .sqjmp succ => Sys2Proof.Machine.execSqjmp succ s
  | .sqend => Sys2Proof.Machine.execSqend s
  | .mxm m sh a b scl => Sys2Proof.Machine.execMxm m sh a b scl s
  | .mxms m sh a b scl bm => Sys2Proof.Machine.execMxms m sh a b scl bm s
  | .mxz tile anchor => Sys2Proof.Machine.execMxz tile anchor s
  | .mxrd df rnd tile m j0 nc v => Sys2Proof.Machine.execMxrd df rnd tile m j0 nc v s
  | .mxwr sf rc tile m j0 nc v => Sys2Proof.Machine.execMxwr sf rc tile m j0 nc v s
  | .mxswp tile off => Sys2Proof.Machine.execMxswp tile off s
  | .mxst z tile => Sys2Proof.Machine.execMxst z tile s
  | .mxcs z tile => Sys2Proof.Machine.execMxcs z tile s
  | .bmap c p f d a => Sys2Proof.Machine.execBmap c p f d a s
  | .cmpr c p f d a b => Sys2Proof.Machine.execCmpr c p f d a b s
  | .gcfg c sin fmt scope kind g a b e => Sys2Proof.Machine.execGcfg c sin fmt scope kind g a b e s
  | .gkey c g a => Sys2Proof.Machine.execGkey c g a s
  | .geval c t bm d g b e => Sys2Proof.Machine.execGeval c t bm d g b e s
  | .blockBarrierComplete bid => Sys2Proof.Machine.execBlockBarrierComplete bid s
  | .gridBarrierComplete task => Sys2Proof.Machine.execGridBarrierComplete task s
  | .callComplete bid w => Sys2Proof.Machine.execCallComplete bid w s
  | .returnComplete bid w => Sys2Proof.Machine.execReturnComplete bid w s
  | .qpostAppend id => Sys2Proof.Machine.execQpostAppend id s
  | .watchResolution id => Sys2Proof.Machine.execWatchResolution id s
  | .atomicResponse id => Sys2Proof.Machine.execAtomicResponse id s
  | .releaseConditionMet id => Sys2Proof.Machine.execReleaseConditionMet id s
  | .copyLineTransfer id line => Sys2Proof.Machine.execCopyLineTransfer id line s
  | .copyComplete id => Sys2Proof.Machine.execCopyComplete id s
  | .sqarrArrival id => Sys2Proof.Machine.execSqarrArrival id s
  | .registerDataArrival id => Sys2Proof.Machine.execRegisterDataArrival id s
  | .waveRetire bid w => Sys2Proof.Machine.execWaveRetire bid w s
  | .pendingWaveAging core unit => Sys2Proof.Machine.execPendingWaveAging core unit s
  | .sequencerFetchFault bid => Sys2Proof.Machine.execSequencerFetchFault bid s
  | .sliceExpiry core ctx => Sys2Proof.Machine.execSliceExpiry core ctx s
  | .blockSave bid => Sys2Proof.Machine.execBlockSave bid s
  | .blockRestore bid core => Sys2Proof.Machine.execBlockRestore bid core s
  | .queueDoorbell q widx => Sys2Proof.Machine.execQueueDoorbell q widx s
  | .launch q => Sys2Proof.Machine.execLaunch q s
  | .signal q => Sys2Proof.Machine.execSignal q s
  | .signalFire q => Sys2Proof.Machine.execSignalFire q s
  | .waitsig q => Sys2Proof.Machine.execWaitsig q s
  | .waitsigRelease q => Sys2Proof.Machine.execWaitsigRelease q s
  | .versionCopy id => Sys2Proof.Machine.execVersionCopy id s
  | .taskDispatch task => Sys2Proof.Machine.execTaskDispatch task s
  | .blockLaunch task core ix => Sys2Proof.Machine.execBlockLaunch task core ix s
  | .blockEnd bid => Sys2Proof.Machine.execBlockEnd bid s
  | .taskCompletion task => Sys2Proof.Machine.execTaskCompletion task s
  | .ctxset h ctx addr => Sys2Proof.Machine.execCtxset h ctx addr s
  | .schedset h ctx addr => Sys2Proof.Machine.execSchedset h ctx addr s
  | .qset h q addr => Sys2Proof.Machine.execQset h q addr s
  | .qstop h q => Sys2Proof.Machine.execQstop h q s
  | .savepool h ctx list count => Sys2Proof.Machine.execSavepool h ctx list count s
  | .ownset h frame count owner => Sys2Proof.Machine.execOwnset h frame count owner s
  | .tlbinv h asid mode addr => Sys2Proof.Machine.execTlbinv h asid mode addr s
  | .pgdone h ctx addr => Sys2Proof.Machine.execPgdone h ctx addr s
  | .grancopy h die off src bytes => Sys2Proof.Machine.execGrancopy h die off src bytes s
  | .meter h slice srate => Sys2Proof.Machine.execMeter h slice srate s
  | .resume h ident => Sys2Proof.Machine.execResume h ident s
  | .kill h ctx => Sys2Proof.Machine.execKill h ctx s
  | .quote h nonce out => Sys2Proof.Machine.execQuote h nonce out s
  | .cpCommandUnknown h code => Sys2Proof.Machine.execCpCommandUnknown h code s
  | .patrolScrub block => Sys2Proof.Machine.execPatrolScrub block s
  | .migrationRetry id => Sys2Proof.Machine.execMigrationRetry id s
  | .meterWindow slice => Sys2Proof.Machine.execMeterWindow slice s
  | .granaryRefreshWindow die => Sys2Proof.Machine.execGranaryRefreshWindow die s
  | .bucketLeak b => Sys2Proof.Machine.execBucketLeak b s
  | .spareLaneSteer core => Sys2Proof.Machine.execSpareLaneSteer core s
  | .dispatcherHeartbeat die => Sys2Proof.Machine.execDispatcherHeartbeat die s
  | .dispatcherFailure die => Sys2Proof.Machine.execDispatcherFailure die s
  | .flitReceived l seq payload crc => Sys2Proof.Machine.execFlitReceived l seq payload crc s
  | .nakReceived l seq => Sys2Proof.Machine.execNakReceived l seq s
  | .ackReceived l seq => Sys2Proof.Machine.execAckReceived l seq s
  | .replayTimeout l => Sys2Proof.Machine.execReplayTimeout l s
  | .linkBucketLeak link => Sys2Proof.Machine.execLinkBucketLeak link s
  | .remoteRequest r => Sys2Proof.Machine.execRemoteRequest r s
  | .transportAck id bytes => Sys2Proof.Machine.execTransportAck id bytes s
  | .transportRetransmit id => Sys2Proof.Machine.execTransportRetransmit id s
  | .remoteErrorResponse id e => Sys2Proof.Machine.execRemoteErrorResponse id e s
  | .hostBar2Read off size => Sys2Proof.Machine.execHostBar2Read off size s
  | .hostBar2Write off bytes => Sys2Proof.Machine.execHostBar2Write off bytes s
  | .controlRegisterWrite master off size value => Sys2Proof.Machine.execControlRegisterWrite master off size value s
  | .virtualErrorQueueEnable master ctx value => Sys2Proof.Machine.execVirtualErrorQueueEnable master ctx value s
  | .exceptionQueueEnable master ctx value => Sys2Proof.Machine.execExceptionQueueEnable master ctx value s
  | .trapRecordWrite ctx => Sys2Proof.Machine.execTrapRecordWrite ctx s
  | .peerTableDisable master peer => Sys2Proof.Machine.execPeerTableDisable master peer s
  | .timeAdjust master value => Sys2Proof.Machine.execTimeAdjust master value s
  | .mrExtend master index => Sys2Proof.Machine.execMrExtend master index s
  | .bootgo master value => Sys2Proof.Machine.execBootgo master value s
  | .bootImageFetched image => Sys2Proof.Machine.execBootImageFetched image s
  | .bootRetry => Sys2Proof.Machine.execBootRetry s
  | .powerOnReset => Sys2Proof.Machine.execPowerOnReset s
  | .warmReset cause => Sys2Proof.Machine.execWarmReset cause s
  | .rstreq master value => Sys2Proof.Machine.execRstreq master value s
  | .powerLimitSet milliwatt => Sys2Proof.Machine.execPowerLimitSet milliwatt s
  | .thermalCap die => Sys2Proof.Machine.execThermalCap die s
  | .thermalThrottle die => Sys2Proof.Machine.execThermalThrottle die s
  | .thermalHalt die => Sys2Proof.Machine.execThermalHalt die s
  | .writeThroughAtHome id => Sys2Proof.Machine.execWriteThroughAtHome id s
  | .reeveLoadStore hart a => Sys2Proof.Machine.execReeveLoadStore hart a s

end Sys2Proof.Machine
end

