-- ==== Sys2Proof/Machine/Moves.lean ====
section
/-! DEFINITION. What each move does: a wave or a sequencer issues its next word, the CP acts, an event of the table
happens, or the outside world acts. A move that is not possible in a state leaves it unchanged. -/

namespace Sys2Proof.Machine

/-! ### Words -/

/-- An outcome's next state, changed. -/
def onNext (o : Out) (f : State → State) : Out := match o with
  | .next s => .next (f s)
  | .fault e => .fault e
  | .refused r => .refused r

/-- A wave's batch waits at its word. -/
def waitsThere (s : State) (bid wi : Nat) : Bool := (getWave s bid wi).any fun w => w.trace.any (·.waiting)

/-- The word that the wave has come to would still wait (R174). -/
def wouldWait (s : State) (b : Block) (wi : Nat) (w : Wave) : Bool := match w.trace with
  | none => false
  | some t => match issueNext s b wi w t with
    | .done u => waitsThere u b.id wi
    | .run i u => match exec i u with
      | .next v => waitsThere v b.id wi
      | _ => false

/-- A wave that is out of its unit's order, keeps its slot or has waited in it: it goes on waiting, or has become ready
and joins the order; an active one has not waited from now on (R176, R177). -/
def joinWave (s : State) (b : Block) (wi : Nat) (w : Wave) : Wave :=
  if !w.ready || !(w.keep || (if 8 ≤ w.slot then w.readyAt.isNone else w.since.isNone)) then w
  else if wouldWait s b wi w then { w with trace := w.trace.map fun t => { t with waiting := true } }
  else { w with
    keep := false
    since := if w.slot < 8 then some (w.since.getD s.tick) else w.since
    readyAt := if 8 ≤ w.slot then some s.tick else w.readyAt }

/-- Waves that have become ready. -/
def joinOrder (s : State) : State :=
  { s with blocks := s.blocks.map fun b =>
      if b.core.isNone then b
      else { b with waves := (List.range b.waves.length).zip b.waves |>.map fun p => joinWave s b p.1 p.2 } }

/-- After an event: what it made possible goes on, and waves that it made ready join their order, unless the module has
halted (R419). -/
def settleAll (s : State) : State := if s.halted then s else joinOrder (afterEvent s)

/-- The word found executes, and nobody issues any more. -/
def runIssue : Issue → Out
  | .done s => .next (joinOrder s)
  | .run i s => onNext (exec i s) fun s => joinOrder { s with actor := .none }

/-- The block's sequencer runs on a core that executes for its context. -/
def seqActive (s : State) (b : Block) : Option SeqState :=
  match b.core, b.seq with
  | some p, some q => if q.run = .running ∧ (getCore s p).halted ≠ some b.ctx then some q else none
  | _, _ => none

/-- The next word of a block's sequencer (R190, R206, R307). -/
def nextSeq (s : State) (bid : Nat) : Issue :=
  match getBlock s bid with
  | none => .done s
  | some b => match seqActive s b with
    | none => .done s
    | some q => match seqFetch s b q with
      | (s, .wait) => .done s
      | (s, .stop st) => .done (seqStop s bid st false false)
      | (s, .denied) => .done (loseContext s b.ctx 0x0030 1 false)
      | (s, .word x) => match decode .stream x with
        | .error e => .done (seqStop s bid (decodeStop e) false true)
        | .ok i => .run i { s with actor := .seq bid }

/-- A word that takes the matrix array: 0x135 to 0x13C. -/
def arrayWord (i : Instr) : Bool := match encode i with
  | some w => decide (0x135 ≤ (Raw.ofWord w).op.toNat) && decide ((Raw.ofWord w).op.toNat ≤ 0x13C)
  | none => false

/-- Where a block's sequencer stands: its word, and the step of it. -/
def seqPlace (s : State) (bid : Nat) : Option (Word64 × Nat) :=
  ((getBlock s bid).bind (·.seq)).map fun q => (q.pc, q.reached)

/-- The block's sequencer has a matrix instruction that would do its work, or a step of it, now. -/
def arrayReady (s : State) (bid : Nat) : Bool := match nextSeq s bid with
  | .done _ => false
  | .run i t => arrayWord i && match exec i t with
    | .next u => decide (seqPlace u bid ≠ seqPlace s bid)
    | _ => false

/-- R178: with matrix instructions ready in both of a core's sequencers, the one that had the array last waits; an
instruction that has begun goes on. -/
def arrayBlocked (s : State) (bid core : Nat) : Bool :=
  decide ((getCore s core).arrayTurn = bid) && ((seqPlace s bid).all fun p => decide (p.2 = 0)) &&
  (s.blocks.filter fun b => decide (b.core = some core ∧ b.id ≠ bid)).any fun b => arrayReady s b.id

/-- The sequencer has had the array, if its word did its work (R178). -/
def takeArray (s : State) (bid core : Nat) (u : State) : State :=
  if seqPlace u bid ≠ seqPlace s bid then modCore u core fun c => { c with arrayTurn := bid } else u

/-- THE SEQUENCER OF A BLOCK executes its next word. -/
def runSeqMove (s : State) (bid : Nat) : Out :=
  match nextSeq s bid with
  | .done s => .next s
  | .run i t =>
    let core := ((getBlock s bid).bind (·.core)).getD 0
    if arrayWord i then
      if arrayBlocked s bid core then .next s
      else onNext (runIssue (.run i t)) (takeArray s bid core)
    else runIssue (.run i t)

/-! ### The outside world -/

/-- An error in an accumulator tile's storage: corrected, or it costs the context (R408, R469). DETAIL is the tile in both
events (log 91). -/
def tileError (s : State) (bid tile : Nat) (unc : Bool) : State :=
  match getBlock s bid with
  | some b => match b.core with
    | some core =>
      if b.tiles.length ≤ tile then s
      else
        let r := ((errRec 0 0x0007).atUnit (dieOf core) core 16 0xFF).det tile
        if !unc then bucketUp (logErr s false r) (.core core) false
        else
          let r := { (r.atCtx s b.ctx).atBlk b.lin with cls := 2, event := 8 }
          loseContext (bucketUp (logErr s true r) (.core core) true) b.ctx 0x0008 1 false
    | none => s
  | none => s

/-- An error in a core's arrays, whose granule is the device's own: a scratchpad line is poisoned; any other state costs
its context (R408); scratchpad and registers are some block's. -/
def coreError (s : State) (core : Nat) (b : BucketId) (unc : Bool) (bid line : Nat) : State :=
  let u := match b with
    | .lane _ u l => (u, l)
    | _ => (20, 0xFF)
  let r := (errRec 0 0x0007).atUnit (dieOf core) core u.1 u.2
  let (ix, z) := freeIx s
  let r := { r with detail := BitVec.ofNat 16 ((Config.arrayNumber ix).toNat % 112) }
  if !unc then bucketUp (logErr z false r) b false
  else match getBlock s bid with
    | none => s
    | some x =>
      if x.core ≠ some core then s
      else
        let s := z
        let r := (r.atCtx s x.ctx).atBlk x.lin
        if u.1 = 20 ∧ line < x.shape.sp * 16 then
          let s := setBlock s { x with spoison := fput false x.spoison line true, stag := fdel x.stag line }
          bucketUp (logErr s true { r with cls := 1, event := 8 }) b true
        else
          loseContext (bucketUp (logErr s true { r with cls := 2, event := 8 }) b true) x.ctx 0x0008 1 false

/-- An error in a slice's SRAM: a line is poisoned, or the state of the module is lost (R408); the notice that a corrected
one may bring about goes before it (R409). -/
def sliceError (s : State) (i : Nat) (unc : Bool) (line : Nat) : State :=
  let (ix, s) := freeIx s
  let r := { (errRec 0 0x0003).atUnit (i / 16) 0xFF 21 (i % 16) with detail := Config.arrayNumber ix }
  if !unc then logErr (bucketUp s (.slice i) false) false r
  else if line * 64 < dramEnd ∧ paSlice (line * 64) = i then
    let s := { s with dpoison := fput false s.dpoison line true, dtag := fdel s.dtag line }
    bucketUp (logErr s true { { r with cls := 1, event := 4 }.atPa (line * 64) with
      owner := BitVec.ofNat 16 (frameOwner s (line / 1024)) }) (.slice i) true
  else bucketUp (fatalRecord s { r with cls := 3, event := 4 }) (.slice i) true

/-- An error in a core's TLB: corrected, or its state is lost, which is fatal (R408, R414); UNIT is the unified store's
(log 83). -/
def tlbFails (s : State) (core : Nat) (unc : Bool) : State :=
  if !inService s core then s
  else
    let (ix, s) := freeIx s
    let r := { (errRec 0 0x0003).atUnit (dieOf core) core 20 0xFF with detail := Config.arrayNumber ix }
    if !unc then bucketUp (logErr s false r) (.core core) false
    else bucketUp (fatalRecord s { r with cls := 3, event := 4 }) (.core core) true

/-- An error in an array. -/
def arrayFail (s : State) (b : BucketId) (unc : Bool) (bid line : Nat) : State :=
  match b with
  | .frame _ => s
  | .bank _ => s
  | .slice i => if i < 64 then sliceError s i unc line else s
  | .core p => if inService s p then coreError s p b unc bid line else s
  | .lane p u l => if inService s p ∧ u < 16 ∧ l < 33 then coreError s p b unc bid line else s

/-- The fixed point of an island of the IOD, in MHz: 2.0 GHz where it holds reeves (R371). -/
def iodPoint (i : Nat) : Nat := if Config.iodReeves i then 2000 else Config.iodPoint i

/-- A sensor (R370): temperatures 0 to 8, power 9 in milliwatt, within its limit, the islands' points from 10, the time
unit's lock 522. An island of a core that is not live reads 0, which the spec leaves open (R14, log 18). -/
def readSensor (s : State) (n : Nat) : State :=
  let (ix, s) := freeIx s
  let free := Config.sensorValue n ix
  if n = 9 then emit s (.sensorData (BitVec.ofNat 64 (min free.toNat s.power)))
  else if n < 10 then emit s (.sensorData free)
  else if n < 522 then
    let i := n - 10
    let v : Word64 := if i < 448 then (if i / 7 ∈ s.live then BitVec.ofNat 64 (fget 600 s.dvfs i) else 0)
      else if i < 504 then BitVec.ofNat 64 (fget 1200 s.dvfs i) else BitVec.ofNat 64 (iodPoint (i - 504))
    emit s (.sensorData v)
  else if n = 522 then emit s (.sensorData (if s.time.lock then 1 else 0))
  else s

/-- A master's read of control space (R354), if it runs (R363); of a halted module BAR0 reads FATBUF (R419). -/
def readControl (s : State) (m off n : Nat) : State :=
  if masterHeld s m then s
  else if ctlOk s m off n false then emit { s with freeIx := s.freeIx + 1 } (.controlData (wordOf 64 (ctlBytes s off n)))
  else emit (if s.halted then s else logDenied s m) .controlDenied

/-- GEN becomes even, one above its previous even value (R373). -/
def tableDone (s : State) : State := if s.gen.getLsbD 0 then { s with gen := s.gen + 1 } else s

/-- An error of the array's arithmetic, which no code detects, in a resident block's tile (R405, R469). -/
def corruptTile (s : State) (bid tile i j : Nat) (v : BitVec 96) : State :=
  if 256 ≤ i ∨ 256 ≤ j then s
  else modBlock s bid fun b => if b.core.isSome then
      { b with tiles := modifyAt (fun t => t.put i j (t.at1 i j + v)) tile b.tiles } else b

/-! ### Faults of datapaths, which no code detects (R405, R469) -/

/-- A register that a lane has written takes another value. -/
def corruptLane (s : State) (bid w ix lane : Nat) (v : Word32) : State :=
  if (getBlock s bid).any fun b => b.core.isSome then
    modWave s bid w fun x =>
      if (fget fullV x.vreg (vkey ix lane)).fill = .full ∧ lane < 32 ∧ ix < x.wo + x.ws ∧ !x.retired then
        x.setDest (.v ix lane) (v.setWidth 64) .full
      else x
  else s

/-- A z register that the sequencer has written takes another value. -/
def corruptSeq (s : State) (bid z : Nat) (v : Word64) : State := modBlock s bid fun b =>
  if b.core.isSome ∧ z < 16 then { b with seq := b.seq.map fun q =>
    if (fget fullS q.z z).fill = .full then { q with z := fput fullS q.z z ⟨v, .full⟩ } else q }
  else b

/-- A byte that a copy engine is still to write takes a change. -/
def corruptCopy (s : State) (id addr : Nat) (v : Byte) : State :=
  { s with copies := s.copies.map fun c => if c.id = id then { c with flaws := fput 0 c.flaws addr v } else c }

/-- What the outside world and the device's unspecified choices do. -/
def runOutside (s : State) : Move → State
  | .diePoint id => reachDie s id
  | .late id => answerLate s id
  | .dropL1 core line => evictL1 s core line
  | .dropStack die line => dropStackLine s die line
  | .dropStamp line => { s with stamps := fdel s.stamps line }
  | .dropTlb t ix => { s with tlbs := fmod [] s.tlbs t fun es => es.eraseIdx ix }
  | .upset pa bits => if pa < dramEnd then { s with upsets := fmod 0 s.upsets (pa / 64) (· + bits) } else s
  | .upsetGranary die off bits =>
    if die < 4 ∧ off < 2 ^ 28 then { s with gupsets := fmod 0 s.gupsets (die * 2 ^ 22 + off / 64) (· + bits) } else s
  | .arrayError b unc bid line => arrayFail s b unc bid line
  | .advance ns => { s with time := { s.time with ptp := s.time.ptp + BitVec.ofNat 64 ns, free := s.time.free + ns } }
  | .ptpLock on => { s with time := { s.time with lock := on } }
  | .controlRead m off n => readControl s m off n
  | .sensor n => readSensor s n
  | .missBeat die => missHeartbeat s die
  | .claim task core => claimBlock s task core
  | .tableDone => tableDone s
  | .tileError bid tile unc => tileError s bid tile unc
  | .arrayFault bid tile i j v => corruptTile s bid tile i j v
  | .laneFault bid w ix lane v => corruptLane s bid w ix lane v
  | .seqFault bid z v => corruptSeq s bid z v
  | .copyFault id addr v => corruptCopy s id addr v
  | .tlbError core unc => tlbFails s core unc
  | .port i up => { s with portsUp := if up then s.portsUp ||| (1#8 <<< i) else s.portsUp &&& ~~~(1#8 <<< i) }
  | .cpPost q words => cpPost s q words
  | .fatal b => fatalHalt s 0x0041 b 4
  | .issue .. => s
  | .seq _ => s
  | .cp => s
  | .take => s
  | .event _ => s

/-! ### Moves -/

/-- An event row happens; a word is no event. -/
def runEvent (i : Instr) (s : State) : Out :=
  if (encode i).isSome then .next s else onNext (exec i s) settleAll

/-- What a halted module still does (R419): resets, and reads of FATBUF. -/
def actsHalted : Move → Bool
  | .event .powerOnReset => true
  | .event (.warmReset _) => true
  | .event (.rstreq ..) => true
  | .controlRead .. => true
  | _ => false

/-- A MOVE. -/
def runMove (m : Move) (s : State) : Out :=
  if s.halted && !actsHalted m then .next s
  else
    let s := if s.halted then s else duePhases (sendIod s)
    match m with
    | .issue core unit slot => runIssue (issueSlot s core unit slot)
    | .seq bid => runSeqMove s bid
    | .cp => match nextCommand s with
      | some i => onNext (exec i s) settleAll
      | none => .next (fetchCommand s).1
    | .take => match nextQueue s with
      | some q => .next (settleAll (takeRecord s q))
      | none => .next (poolDenials s)
    | .event i => runEvent i s
    | m => .next (settleAll (runOutside s m))

/-- The next move: the agenda's first, or a free value (log 2). -/
def takeMove (s : State) : Move × State :=
  match s.agenda with
  | m :: ms => (m, { s with agenda := ms })
  | [] => (Config.nextMove s.freeIx, { s with freeIx := s.freeIx + 1 })

/-! ### An instruction placed where the next step fetches (log 28) -/

/-- Where the word stands: its virtual and its physical address, and the page tables. -/
abbrev placedVa : Nat := 0x10
abbrev placedPa : Nat := 0x40000010
abbrev placedRoot : Nat := 0x80000000
abbrev placedTable : Nat := 0x80010000

/-- The context whose block runs the word: ASID 1, owner 1. -/
def placedCtx : Ctx := { Ctx.empty with desc := some ⟨1, 1, placedRoot, 0, 16, 0, 0, 0, 0, 0⟩ }

/-- A block of one wave and a sequencer on a core. -/
def placedBlock (id core : Nat) (seqPc tp : Word64) (tick : Nat) : Block :=
  let f := { Fields.zero with entry := tp, seqEntry := seqPc, gx := 1, gy := 1, gz := 1 }
  let x : Shape := ⟨1, 192, 64, 4, true⟩
  { id := id, task := 0, ctx := 0, lin := 0, x := 0, y := 0, z := 0, core := some core, frame := 0, shape := x,
    waves := [waveAtLaunch f x 0 0 0 0 (0, 0) tick], spad := [], stag := [], spoison := [], absent := [], bars := [],
    qbars := [], tiles := List.replicate 4 .zero, seq := seqAtLaunch f x 0 0, saveFrames := [], ended := none }

/-- The word is one of the sequencer stream only. -/
def placedInStream (w : Word128) : Bool := match decode (.trace 192) w, decode .stream w with
  | .error _, .ok _ => true
  | _, _ => false

/-- The opcodes that end a trace: terminators and boundary words (R42). -/
def endingOp (op : Nat) : Bool :=
  decide (1 ≤ op ∧ op ≤ 2) || decide (5 ≤ op ∧ op ≤ 0xD) || decide (op = 0x10) || decide (0xEA ≤ op ∧ op ≤ 0xF0)

/-- The wave is in a trace at the word, its last where the word ends a trace, unless the word is a TRH, which begins
one. -/
def placedWave (w : Word128) (x : Wave) : Wave :=
  let op := (Raw.ofWord w).op.toNat
  if op = 0 then x
  else { x with trace := some (newTrace x 0 (~~~0) (if endingOp op then 1 else 256) 64 64 0xFFFF) }

/-- Memory with the word, and a 1 GiB page over it. -/
def placedMemory (m : Memory) (w : Word128) : Memory :=
  let m := m.writeN placedPa (bytesOfNat 16 w.toNat)
  let m := m.writeN placedRoot (bytesOfNat 8 (placedTable + 1))
  m.writeN placedTable (bytesOfNat 8 (0x40000000 + 15))

/-- The frames belong to owner 1, and the core may read and write at their slices. -/
def placedGrants (s : State) (core : Nat) : State :=
  let s := setOwner (setOwner (setOwner s 16384 1) 32768 1) 32769 1
  { s with access := [placedPa, placedRoot, placedTable].foldl (fun t pa =>
      fput (accessDefault core) t (paTarget pa * 128 + core) 3) s.access }

/-- The state in which the next step fetches and runs the word. -/
def placeWord (s : State) (w : Word128) : State :=
  let core := s.live.headD 0
  let stream := placedInStream w
  let tp : Word64 := if (Raw.ofWord w).op = 0 then placedVa else 0
  let b := placedBlock s.nextId core placedVa tp s.tick
  let b := if stream then b else { b with waves := b.waves.map (placedWave w) }
  let t := placedGrants s core
  { t with
    dram := placedMemory s.dram w
    dpoison := [], upsets := [], l1 := [], stack := [], tlbs := [], flights := [], copies := []
    ctxs := fput .empty s.ctxs 0 placedCtx
    cores := fdel s.cores core
    blocks := [b]
    nextId := s.nextId + 1
    halted := false
    actor := .none
    agenda := [if stream then .seq b.id else .issue core 0 0] }

end Sys2Proof.Machine
end

