-- ==== Sys2Proof/Machine/Step.lean ====
section
/-! DEFINITION. One step of the machine, and a state in which the next step runs a given word. -/

namespace Sys2Proof.Machine

/-- ONE STEP: one move of one agent. -/
def step (s : State) : Host.Outcome State Fault Refusal :=
  let p := takeMove s
  runMove p.1 { p.2 with tick := p.2.tick + 1 }

/-- The word is placed where the next step fetches it. -/
def State.withFetchWord (s : State) (nbits w : Nat) : State := placeWord s (BitVec.ofNat 128 (w % 2 ^ nbits))

end Sys2Proof.Machine
end

