-- ==== Sys2Proof/Safety.lean ====
section
/-! DEFINITION. The terms in which claims are stated: the word that issues, what it writes, what stays unchanged. -/

namespace Sys2Proof.Machine

/-! ### What the order of waves may change -/

/-- A wave without its place in the order of its unit (R174 to R177): slot, age, demotion, SCH.KEEP. -/
def Wave.unslotted (w : Wave) : Wave := { w with slot := 0, readyAt := none, since := none, demote := false, keep := false }

def Block.unslotted (b : Block) : Block := { b with waves := b.waves.map Wave.unslotted }

/-- A state without the order of the waves in their units. -/
def State.unslotted (s : State) : State := { s with blocks := s.blocks.map Block.unslotted }

/-! ### Memory, byte by byte -/

/-- One byte of a block's scratchpad. -/
def spadByte (s : State) (bid a : Nat) : Byte := match getBlock s bid with
  | some b => b.spad.read a
  | none => unlisted

/-- EVERY BYTE OF MEMORY reads as before, with its tag: DRAM, the granaries, each block's scratchpad. -/
structure SameMemory (s u : State) : Prop where
  dram : ∀ a, u.dram.read a = s.dram.read a
  dtag : ∀ blk, fget 0 u.dtag blk = fget 0 s.dtag blk
  gran : ∀ a, u.gran.read a = s.gran.read a
  gtag : ∀ blk, fget 0 u.gtag blk = fget 0 s.gtag blk
  spad : ∀ bid a, spadByte u bid a = spadByte s bid a

/-! ### A wave's word -/

/-- THE WORD THAT A WAVE ISSUES: the wave that issues is in a trace, and the word passes the checks of R42 and R44; its
executing lanes are those of R191. -/
def issuing (s : State) (c : Ctl) (n : Need) : Option Iss :=
  match s.actor with
  | .wave bid wi => (getBlock s bid).bind fun b => (nth b.waves wi).bind fun w => w.trace.bind fun t =>
      if shapeOk t n then
        let x : Iss := ⟨s, bid, wi, b, w, t, t.addrOf t.pos, 0, n⟩
        some { x with ex := x.guarded c }
      else none
  | _ => none

/-- Where the same wave stands in a later state, still in its trace. -/
def Iss.later (x : Iss) (u : State) : Option Iss :=
  (getBlock u x.bid).bind fun b => (nth b.waves x.wi).bind fun w => w.trace.map fun t =>
    { x with s := u, b := b, w := w, t := t }

/-- Every register that a word reads is full, in every lane that reads it (R36). -/
def Iss.Full (x : Iss) (rs : List Read) : Prop := ∀ r ∈ rs, ∀ p ∈ r.lanes, ∀ f ∈ x.fills r.reg r.span p.2, f = .full

/-- What a word writes into its trace: vector registers by lane, scalars, predicates by lane, special registers,
generators; flags added for a lane (R74); checksum contributions by accumulator and lane (R50); entries of the store
buffer. What is not named is unchanged. -/
structure Effect where
  v : Nat → Nat → Option RegCell := fun _ _ => none
  s : Nat → Option SCell := fun _ => none
  p : BitVec 4 → Nat → Option Bool := fun _ _ => none
  m : Nat → Option Word64 := fun _ => none
  g : Nat → Option Gen := fun _ => none
  flags : Nat → Flags := fun _ => 0
  kc : BitVec 2 → Nat → BitVec 128 := fun _ _ => 0
  buf : List TsbRec := []

/-- Both effects, `e` where both name a register. -/
def Effect.over (e f : Effect) : Effect where
  v n l := (e.v n l).or (f.v n l)
  s n := (e.s n).or (f.s n)
  p q l := (e.p q l).or (f.p q l)
  m n := (e.m n).or (f.m n)
  g n := (e.g n).or (f.g n)
  flags l := f.flags l ||| e.flags l
  kc k l := f.kc k l + e.kc k l
  buf := f.buf ++ e.buf

/-- The trace of `y` has what `e` names, and what the trace of `x` had for the rest. -/
structure Takes (x : Iss) (e : Effect) (y : Iss) : Prop where
  v : ∀ n l, l < 32 → y.vcell n l = (e.v n l).getD (x.vcell n l)
  s : ∀ n, y.scell n = (e.s n).getD (x.scell n)
  p : ∀ q l, l < 32 → y.pred q l = (e.p q l).getD (x.pred q l)
  m : ∀ n, y.special n = (e.m n).getD (x.special n)
  g : ∀ n, y.gen n = (e.g n).getD (x.gen n)
  flags : ∀ l, fget 0 y.t.flags l = fget 0 x.t.flags l ||| e.flags l
  kc : ∀ k l, l < 32 → fget 0 y.t.kc (k.toNat * 32 + l) = fget 0 x.t.kc (k.toNat * 32 + l) + e.kc k l
  buf : y.t.buf = x.t.buf ++ e.buf

/-- The trace past the word with the entries of `t'`: one position on, or the next repetition (R65), with the word's TWB
and TSB entries counted (R44). -/
def Iss.past (x : Iss) (t' : TraceRun) : TraceRun :=
  { x.t.advance with
    twbUsed := x.t.twbUsed + x.need.twb, tsbUsed := x.t.tsbUsed + x.need.tsb
    ov := t'.ov, os := t'.os, op := t'.op, om := t'.om, og := t'.og, kc := t'.kc, flags := t'.flags, buf := t'.buf }

/-- A WORD IS DONE with the effect `e` in its trace: `exec` answers a next state in which the wave's trace stands past the
word with `e`, and NOTHING ELSE differs from `x0` — its state, its wave, the rest of its trace, other waves, memory — but
the order of waves in their units (R174 to R177). `x0` is the issuing word `x` with what else the word changes. -/
def DoneFrom (i : Instr) (x x0 : Iss) (e : Effect) : Prop :=
  ∃ u y, exec i x.s = .next u ∧ x.later u = some y ∧ Takes x0 e y ∧
    u.unslotted = (x0.store (some (x0.past y.t))).unslotted ∧ SameMemory x0.s u

/-- The same, where outside its trace the word changes the state to `base` and the wave to `w`. -/
def DoneIn (i : Instr) (x : Iss) (e : Effect) (base : State) (w : Wave) : Prop := DoneFrom i x { x with s := base, w := w } e

/-- The same, where the word changes nothing outside its trace. -/
def Done (i : Instr) (x : Iss) (e : Effect) : Prop := DoneIn i x e x.s x.w

/-- The word writes `f l` to register D: a vector in each executing lane; a scalar once, with the value of the lowest
executing lane (R29); a constant nowhere (R28). -/
def Iss.into (x : Iss) (d : Reg) (f : Nat → Word64) : Effect :=
  match d with
  | .v m => { v := fun n l => if n = m ∧ x.ex.getLsbD l = true then some ⟨(f l).setWidth 32, .full⟩ else none }
  | .s m => { s := fun n => if n = m then (lowest x.ex).map fun l => ⟨f l, .full⟩ else none }
  | _ => {}

/-- The word writes `f l` to predicate q in each executing lane; p0 stays true (R28, R214). -/
def Iss.intoPred (x : Iss) (q : BitVec 4) (f : Nat → Bool) : Effect :=
  { p := fun q' l => if q' = q ∧ q ≠ 0 ∧ x.ex.getLsbD l = true then some (f l) else none }

/-! ### Words that compute registers from registers -/

/-- What a word that computes gives: its control fields, its destination, its operand reads, the value in each lane, and
flags. `once` says that it computes once, in the lowest executing lane. -/
structure Computes where
  c : Ctl
  d : Reg
  reads : Iss → List Read
  f : Iss → Nat → Word64
  flags : Iss → Nat → Flags := fun _ _ => 0
  once : Bool := isScalar d

/-- The flags are held with each lane in which the word computes (R29, R74). -/
def Computes.raises (k : Computes) (x : Iss) : Effect :=
  { flags := fun l => if l ∈ x.readers k.once then k.flags x l else 0 }

/-- Its effect: D and the flags. -/
def Computes.effect (k : Computes) (x : Iss) : Effect := (x.into k.d (k.f x)).over (k.raises x)

/-- The operands of a word in a lane, at the destination's width. -/
def valuesAt (d : Reg) (ops : List Opnd) (x : Iss) (l : Nat) (i : Nat) : Word64 :=
  (ops[i]?.map fun o => x.val (isScalar d) o l).getD 0

/-- D from the exact combination of the operands, read as integers at D's width (R218, R219). -/
def exactly (c : Ctl) (u sat : Bool) (d : Reg) (ops : List Opnd) (g : (Nat → Int) → Int) : Computes where
  c := c
  d := d
  reads x := x.readOps (isScalar d) ops
  f x l :=
    let w := bitsOf (isScalar d)
    intResult w u sat (g fun i => readInt w u (valuesAt d ops x l i))

/-- The integer words without a carry (R218, R219). -/
def integerWord : Instr → Option Computes
  | .iadd c u sat .none _ d a b => some (exactly c u sat d [opA a .s (!u), opB b .s (!u)] fun v => v 0 + v 1)
  | .isub c u sat .none _ d a b => some (exactly c u sat d [opA a .s (!u), opB b .s (!u)] fun v => v 0 - v 1)
  | .imul c u sat d a b => some (exactly c u sat d [opA a .s (!u), opB b .s (!u)] fun v => v 0 * v 1)
  | .imulh c u d a b =>
    some (exactly c u false d [opA a .s (!u), opB b .s (!u)] fun v => v 0 * v 1 / 2 ^ bitsOf (isScalar d))
  | .imad c u sat d a b e =>
    some (exactly c u sat d [opA a .s (!u), opB b .s (!u), opC e .s (!u)] fun v => v 0 * v 1 + v 2)
  | .ineg c sat d a => some (exactly c false sat d [opA a .s true] fun v => -v 0)
  | .iabs c sat d a => some (exactly c false sat d [opA a .s true] fun v => |v 0|)
  | .imin c u d a b => some (exactly c u false d [opA a .s (!u), opB b .s (!u)] fun v => min (v 0) (v 1))
  | .imax c u d a b => some (exactly c u false d [opA a .s (!u), opB b .s (!u)] fun v => max (v 0) (v 1))
  | .isad c u sat d a b e =>
    some (exactly c u sat d [opA a .s (!u), opB b .s (!u), opC e .s (!u)] fun v => |v 0 - v 1| + v 2)
  | .iclamp c u d a b e =>
    some (exactly c u false d [opA a .s (!u), opB b .s (!u), opC e .s (!u)] fun v => min (max (v 0) (v 1)) (v 2))
  | _ => none

/-- The low `w` bits, each given by its number. -/
def bitsTo (w64 : Bool) (f : Nat → Bool) : Word64 :=
  (List.range (bitsOf w64)).foldl (fun v i => if f i then v ||| (1#64 <<< i) else v) 0

/-- D bit by bit from the operands' bits. -/
def bitwise (c : Ctl) (d : Reg) (ops : List Opnd) (g : (Nat → Word64) → Nat → Bool) : Computes where
  c := c
  d := d
  reads x := x.readOps (isScalar d) ops
  f x l := bitsTo (isScalar d) (g (valuesAt d ops x l))

/-- D as a number from the operands. -/
def numeric (c : Ctl) (d : Reg) (ops : List Opnd) (g : (Nat → Word64) → Nat) : Computes where
  c := c
  d := d
  reads x := x.readOps (isScalar d) ops
  f x l := BitVec.ofNat 64 (g (valuesAt d ops x l))

/-- Two values one above the other, the first on top, bit by bit (R224). -/
def stacked (w : Nat) (a b : Word64) (i : Nat) : Bool := if i < w then b.getLsbD i else a.getLsbD (i - w)

/-- The logic, shift, bit-field and move words (R223 to R227, R229, R230). -/
def logicWord : Instr → Option Computes
  | .andw c d a b => some (bitwise c d [opA a .s false, opB b .s false] fun v i => (v 0).getLsbD i && (v 1).getLsbD i)
  | .orw c d a b => some (bitwise c d [opA a .s false, opB b .s false] fun v i => (v 0).getLsbD i || (v 1).getLsbD i)
  | .xorw c d a b => some (bitwise c d [opA a .s false, opB b .s false] fun v i => (v 0).getLsbD i != (v 1).getLsbD i)
  | .notw c d a => some (bitwise c d [opA a .s false] fun v i => !(v 0).getLsbD i)
  | .andn c d a b => some (bitwise c d [opA a .s false, opB b .s false] fun v i => (v 0).getLsbD i && !(v 1).getLsbD i)
  | .blut c lut d a b e => some (bitwise c d [opA a .s false, opB b .s false, opC e .s false] fun v i =>
      lut.getLsbD (((v 0).getLsbD i).toNat + 2 * ((v 1).getLsbD i).toNat + 4 * ((v 2).getLsbD i).toNat))
  | .shl c d a b => some (bitwise c d [opA a .z false, opB b .z false] fun v i =>
      decide ((v 1).toNat ≤ i) && (v 0).getLsbD (i - (v 1).toNat))
  | .shr c d a b => some (bitwise c d [opA a .z false, opB b .z false] fun v i => (v 0).getLsbD (i + (v 1).toNat))
  | .sar c d a b => some (bitwise c d [opA a .z false, opB b .z false] fun v i =>
      (v 0).getLsbD (min (i + (v 1).toNat) (bitsOf (isScalar d) - 1)))
  | .rotl c d a b => some (bitwise c d [opA a .z false, opB b .z false] fun v i =>
      let w := bitsOf (isScalar d)
      (v 0).getLsbD ((i + w - (v 1).toNat % w) % w))
  | .shf c right d a b e => some (bitwise c d [opA a .z false, opB b .z false, opC e .z false] fun v i =>
      let w := bitsOf (isScalar d)
      let k := (v 2).toNat % w
      stacked w (v 0) (v 1) (if right then i + k else i + w - k))
  | .bfe c u d a f => some (bitwise c d [opA a .z false, opB f .z false] fun v i =>
      let w := bitsOf (isScalar d)
      let pos := (v 1).toNat % 256
      let len := min ((v 1).toNat / 256 % 256) (w - pos)
      if i < len then (v 0).getLsbD (pos + i) else !u && decide (0 < len) && (v 0).getLsbD (pos + len - 1))
  | .bfi c d a b f => some (bitwise c d [opA a .z false, opB b .z false, opC f .z false] fun v i =>
      let w := bitsOf (isScalar d)
      let pos := (v 2).toNat % 256
      let len := min ((v 2).toNat / 256 % 256) (w - pos)
      if pos ≤ i ∧ i < pos + len then (v 1).getLsbD (i - pos) else (v 0).getLsbD i)
  | .popc c d a => some (numeric c d [opA a .s false] fun v =>
      ((List.range (bitsOf (isScalar d))).filter fun i => (v 0).getLsbD i).length)
  | .clz c d a => some (numeric c d [opA a .s false] fun v =>
      let w := bitsOf (isScalar d)
      ((List.range w).filter fun i => (List.range w).all fun j => decide (j < i) || !(v 0).getLsbD j).length)
  | .brev c d a => some (bitwise c d [opA a .s false] fun v i => (v 0).getLsbD (bitsOf (isScalar d) - 1 - i))
  | .ffs c d a => some (numeric c d [opA a .s false] fun v =>
      let w := bitsOf (isScalar d)
      ((List.range w).find? fun i => (v 0).getLsbD i).getD (2 ^ w - 1))
  | .mov c d a => some (bitwise c d [opA a .s false] fun v i => (v 0).getLsbD i)
  | .movi c d imm => some (bitwise c d [] fun _ i => imm.getLsbD i)
  | _ => none

/-- A word with its own reads and no flags. -/
def plainly (c : Ctl) (d : Reg) (reads : Iss → List Read) (f : Iss → Nat → Word64) : Computes where
  c := c
  d := d
  reads := reads
  f := f

/-- Selection, byte permutes, mixing, reads of special registers, bitmaps, predicate bits and votes in a register, moves
between lanes (R216, R217, R227, R228, R248 to R250, R253, R257, R301, R327). -/
def laneWord : Instr → Option Computes
  | .bswz c d a b e =>
    let ops := [opA a .z false, opB b .z false, opC e .z false]
    some (plainly c d (fun x => x.readOps (isScalar d) ops) fun x l =>
      let v (o : Opnd) : Word64 := x.val false o l
      let byte (i : Nat) : Nat :=
        let sel := (v (opC e .z false)).toNat / 2 ^ (8 * i) % 256
        let p := (if sel % 8 < 4 then (v (opA a .z false)).toNat / 2 ^ (8 * (sel % 4))
          else (v (opB b .z false)).toNat / 2 ^ (8 * (sel % 4))) % 256
        if sel / 8 % 4 = 0 then p
        else if sel / 8 % 4 = 1 then (List.range 8).foldl (fun r k => r + p / 2 ^ k % 2 * 2 ^ (7 - k)) 0
        else if sel / 8 % 4 = 2 then (if 128 ≤ p then 255 else 0)
        else 0
      BitVec.ofNat 64 (byte 0 + 2 ^ 8 * byte 1 + 2 ^ 16 * byte 2 + 2 ^ 24 * byte 3))
  | .sel c d a b pc =>
    some (plainly c d (fun x => x.readOps (isScalar d) [opA a .s false, opB b .s false]) fun x l =>
      x.val (isScalar d) (if x.holds pc l then opA a .s false else opB b .s false) l)
  | .hmix c d a k => some (plainly c d (fun x => x.readOps (isScalar d) [opA a .z false, opB k .z false]) fun x l =>
      let h := mix64 (x.val (isScalar d) (opB k .z false) l) (x.val (isScalar d) (opA a .z false) l)
      if isScalar d then h else h >>> 32)
  | .srd c hi d n => some (plainly c d (fun _ => []) fun x l =>
      let v := x.readSpecial n.toNat l
      if hi then v >>> 32 else v)
  | .bmap c p f d a => some (plainly c d (fun x => x.readOps (isScalar d) [opA a .z false]) fun x l =>
      bitsTo (isScalar d) fun i =>
        let e := 32 / f.width
        decide (i / e = p.toNat) && !zeroCode f ((x.val (isScalar d) (opA a .z false) l).toNat / 2 ^ (f.width * (i % e)) % 2 ^ f.width))
  | .cmpr c p f d a b => some (plainly c d (fun x => x.readOps (isScalar d) [opA a .z false, opB b .z false]) fun x l =>
      bitsTo (isScalar d) fun i =>
        let e := 32 / f.width
        decide (i / e = p.toNat) &&
          aboveVal (decodeElem f ((x.val (isScalar d) (opA a .z false) l).toNat / 2 ^ (f.width * (i % e)) % 2 ^ f.width))
            (fp ((x.val (isScalar d) (opB b .z false) l).setWidth 32)))
  | .pbitsGet c d mask => some (plainly c d (fun _ => []) fun x l =>
      bitsTo false fun i => decide (i < 16) && mask.getLsbD i && x.pred (BitVec.ofNat 4 i) l)
  | .ballot c d p => some (plainly c d (fun _ => []) fun x _ =>
      bitsTo false fun i => x.ex.getLsbD i && x.holds p i)
  | .matchLanes c d a => some (plainly c d (fun x => x.readOps false [opA a .s false]) fun x l =>
      bitsTo false fun i => x.ex.getLsbD i &&
        decide (x.val false (opA a .s false) i = x.val false (opA a .s false) l))
  | .lget c mode sg d a b fill =>
    let ob := opB b .z false
    let oc := opC (fill.getD (.imm 0)) .z false
    let from_ (x : Iss) (l : Nat) : Option Nat := lgetFrom mode sg l (x.val false ob l)
    some (plainly c d (fun x => x.readOps false [ob] ++
        (readAcross 7 a ((lanesOf x.ex).filterMap fun l => (from_ x l).map fun k => (l, k)) ++
          Iss.readIn ((lanesOf x.ex).filter fun l => (from_ x l).isNone) 9 oc.src)) fun x l =>
      match from_ x l with
      | some k => x.val false (opA a .z false) k
      | none => x.val false oc l)
  | .xchg c n d a b =>
    some (plainly c d (fun x => x.readOps false [opA a .z false, opB b .z false]) fun x l =>
      x.val false (if l.testBit n.toNat then opB b .z false else opA a .z false) l)
  | .rdlane c d a b =>
    let k (x : Iss) : Nat := (x.val false (opB b .z false) ((lowest x.ex).getD 0)).toNat % 32
    some (plainly c d (fun x => x.readSrc true 8 b 1 ++ readAcross 7 a ((x.readers (isScalar d)).map fun l => (l, k x)))
      fun x _ => x.val false (opA a .z false) (k x))
  | _ => none

/-- A word whose 32-bit value and flags come together, at once (R232). -/
def floating (c : Ctl) (d : Reg) (ops : List Opnd) (g : Iss → Nat → Word32 × Flags) : Computes where
  c := c
  d := d
  reads x := x.readOps (isScalar d) ops
  f x l := (g x l).1.setWidth 64
  flags x l := (g x l).2

/-- A result rounded to FP32 under the word's mode (R71, R72, R201, R232). -/
def Iss.rounded (x : Iss) (rnd : Rnd) (v : Raised) : Word32 × Flags := Machine.finish (x.mode32 rnd) .fp32 v

/-- A result in each half, the flags of both (R240). -/
def inHalves (g : Nat → Word32 × Flags) : Word32 × Flags :=
  (((g 0).1 &&& 0xFFFF) ||| (((g 1).1 &&& 0xFFFF) <<< 16), (g 0).2 ||| (g 1).2)

/-- The floating-point words and conversions whose result is there at once (R234, R235, R238 to R246). -/
def floatWord : Instr → Option Computes
  | .fadd c rnd d a b => some (floating c d [fA a, fB b] fun x l =>
      x.rounded rnd (addVal (x.mode32 rnd).r (x.fp (fA a) l) (x.fp (fB b) l)))
  | .fsub c rnd d a b => some (floating c d [fA a, fB b] fun x l =>
      x.rounded rnd (addVal (x.mode32 rnd).r (x.fp (fA a) l) (negVal (x.fp (fB b) l))))
  | .fmul c rnd d a b => some (floating c d [fA a, fB b] fun x l => x.rounded rnd (mulVal (x.fp (fA a) l) (x.fp (fB b) l)))
  | .ffma c rnd d a b e => some (floating c d [fA a, fB b, fC e] fun x l =>
      x.rounded rnd (fmaVal (x.mode32 rnd).r (x.fp (fA a) l) (x.fp (fB b) l) (x.fp (fC e) l)))
  | .fmin c d a b => some (floating c d [fA a, fB b] fun x l =>
      (BitVec.ofNat 32 (minMaxCode .fp32 false (x.code (fA a) l) (x.code (fB b) l)), 0))
  | .fmax c d a b => some (floating c d [fA a, fB b] fun x l =>
      (BitVec.ofNat 32 (minMaxCode .fp32 true (x.code (fA a) l) (x.code (fB b) l)), 0))
  | .fabs c d a => some (floating c d [fA a] fun x l =>
      (if x.fp (fA a) l = .nan then 0x7FC00000 else (x.val false (fA a) l).setWidth 32 &&& 0x7FFFFFFF, 0))
  | .fneg c d a => some (floating c d [fA a] fun x l =>
      (if x.fp (fA a) l = .nan then 0x7FC00000 else (x.val false (fA a) l).setWidth 32 ^^^ 0x80000000, 0))
  | .frnd c rnd d a => some (floating c d [fA a] fun x l => (frndTo (x.mode32 rnd).r ((x.val false (fA a) l).setWidth 32), 0))
  | .ffrac c rnd d a => some (floating c d [fA a] fun x l => x.rounded rnd (fracVal (x.fp (fA a) l)))
  | .fscale c rnd d a b => some (floating c d [fA a, opB b .s false] fun x l =>
      x.rounded rnd (scaleVal ((x.val false (opB b .s false) l).setWidth 32).toInt (x.fp (fA a) l), 0))
  | .fgexp c d a => some (floating c d [fA a] fun x l => (fgexpTo ((x.val false (fA a) l).setWidth 32), 0))
  | .fclass c d a => some (floating c d [fA a] fun x l => (1#32 <<< classBit ((x.val false (fA a) l).setWidth 32), 0))
  | .hadd2 c bf rnd d a b => some (floating c d [hA a, hB b] fun x l => inHalves fun i =>
      let m := modeFor x.fmode rnd (halfFmt bf)
      finish m (halfFmt bf) (addVal m.r (x.half bf (hA a) l i) (x.half bf (hB b) l i)))
  | .hmul2 c bf rnd d a b => some (floating c d [hA a, hB b] fun x l => inHalves fun i =>
      finish (modeFor x.fmode rnd (halfFmt bf)) (halfFmt bf) (mulVal (x.half bf (hA a) l i) (x.half bf (hB b) l i)))
  | .hfma2 c bf rnd d a b e => some (floating c d [hA a, hB b, hC e] fun x l => inHalves fun i =>
      let m := modeFor x.fmode rnd (halfFmt bf)
      finish m (halfFmt bf) (fmaVal m.r (x.half bf (hA a) l i) (x.half bf (hB b) l i) (x.half bf (hC e) l i)))
  | .hmin2 c bf d a b => some (floating c d [hA a, hB b] fun x l => inHalves fun i =>
      (BitVec.ofNat 32 (minMaxCode (halfFmt bf) false (halfAt (x.val false (hA a) l) i) (halfAt (x.val false (hB b) l) i)), 0))
  | .hmax2 c bf d a b => some (floating c d [hA a, hB b] fun x l => inHalves fun i =>
      (BitVec.ofNat 32 (minMaxCode (halfFmt bf) true (halfAt (x.val false (hA a) l) i) (halfAt (x.val false (hB b) l) i)), 0))
  | .cvt c df sf rnd d a => some (floating c d [opA a .z false] fun x l =>
      finish (modeFor x.fmode rnd df) df (decodeElem sf ((x.val false (opA a .z false) l).toNat % 2 ^ sf.width), 0))
  | .pack c el df rnd d a b => some (floating c d [opA a .z false, opB b .z false] fun x l =>
      let r := finish (modeFor x.fmode rnd df) df (x.fp (opB b .z false) l, 0)
      let old := (x.val false (opA a .z false) l).toNat
      let w := df.width
      (BitVec.ofNat 32 (old % 2 ^ (w * el.toNat) + 2 ^ (w * el.toNat) * (r.1.toNat % 2 ^ w) +
        2 ^ (w * (el.toNat + 1)) * (old / 2 ^ (w * (el.toNat + 1)))), r.2))
  | .unpk c el sf d a => some (floating c d [opA a .z false] fun x l =>
      finish .plain .fp32 (decodeElem sf ((x.val false (opA a .z false) l).toNat / 2 ^ (sf.width * el.toNat) % 2 ^ sf.width), 0))
  | .qenc c el _ d a g => some (floating c d [fA a, fB g] fun x l =>
      let r := encodeQ16 (x.fp (fA a) l) (x.fp (fB g) l)
      (BitVec.ofNat 32 (r.1 * 16 ^ el.toNat), r.2))
  | .qdec c el d a g => some (floating c d [opA a .z false, opB g .z false] fun x l =>
      x.rounded .dyn (q16Val ((x.val false (opA a .z false) l).toNat / 16 ^ el.toNat % 16) (x.fp (opB g .z false) l)))
  | _ => none

/-- The words whose result lands later (R35, R222, R233, R234, R236, R237). -/
def lateResult : Instr → Option Computes
  | .idiv c u rnd d a b => some {
      c, d, reads := fun x => x.readOps (isScalar d) [opA a .s (!u), opB b .s (!u)]
      f := fun x l => (x.divide false u rnd (isScalar d) (opA a .s (!u)) (opB b .s (!u)) l).1
      flags := fun x l => (x.divide false u rnd (isScalar d) (opA a .s (!u)) (opB b .s (!u)) l).2 }
  | .irem c u rnd d a b => some {
      c, d, reads := fun x => x.readOps (isScalar d) [opA a .s (!u), opB b .s (!u)]
      f := fun x l => (x.divide true u rnd (isScalar d) (opA a .s (!u)) (opB b .s (!u)) l).1
      flags := fun x l => (x.divide true u rnd (isScalar d) (opA a .s (!u)) (opB b .s (!u)) l).2 }
  | .fdiv c rnd d a b => some (floating c d [fA a, fB b] fun x l => x.rounded rnd (divVal (x.fp (fA a) l) (x.fp (fB b) l)))
  | .frcp c rnd d a => some (floating c d [fA a] fun x l => x.rounded rnd (rcpVal (x.fp (fA a) l)))
  | .frsq c rnd d a => some (floating c d [fA a] fun x l => x.rounded rnd (rsqVal (x.fp (fA a) l)))
  | .fsqrt c rnd d a => some (floating c d [fA a] fun x l => x.rounded rnd (sqrtVal (x.fp (fA a) l)))
  | .fexp2 c d a => some (floating c d [fA a] fun x l => finish .plain .fp32 (exp2Val (x.fp (fA a) l)))
  | .flog2 c d a => some (floating c d [fA a] fun x l => finish .plain .fp32 (log2Val (x.fp (fA a) l)))
  | .fsin c d a => some (floating c d [fA a] fun x l => finish .plain .fp32 (trigVal false (x.fp (fA a) l)))
  | .fcos c d a => some (floating c d [fA a] fun x l => finish .plain .fp32 (trigVal true (x.fp (fA a) l)))
  | .ftanh c d a => some (floating c d [fA a] fun x l => finish .plain .fp32 (tanhVal (x.fp (fA a) l)))
  | .fsigm c d a => some (floating c d [fA a] fun x l => finish .plain .fp32 (sigmVal (x.fp (fA a) l)))
  | _ => none

/-! ### Producers (R35) -/

/-- Registers that wait for the producer `id`. -/
def Iss.awaiting (x : Iss) (id : Nat) (ds : List Dest) : Effect where
  v n l := if Dest.v (x.w.wo + n) l ∈ ds then some ⟨0, .pend id⟩ else none
  s n := if Dest.s n ∈ ds then some ⟨0, .pend id⟩ else none

/-- A producer with its values is outstanding; without registers there is none. -/
def withProducer (s : State) (x : Iss) (ws : List (Dest × Word64)) (poison : Bool) (lane : Nat) (va : Word64) (pa : Nat) :
    State :=
  if ws = [] then s
  else { s with
    nextId := s.nextId + 1
    pendings := s.pendings ++ [⟨s.nextId, x.bid, x.wi, ws, poison, lane, va, pa, false, none, s.nextId, none⟩] }

/-- A WORD WITH A LATER RESULT IS DONE: D waits for a producer that holds the values, and the flags are held already. -/
def LateDone (i : Instr) (k : Computes) (x : Iss) : Prop :=
  let ws := x.results k.d (k.f x)
  DoneIn i x ((x.awaiting x.s.nextId (ws.map Prod.fst)).over (k.raises x))
    (withProducer x.s x ws false ((lowest x.ex).getD 0) 0 0) x.w

/-! ### Words that compute predicates -/

/-- A word that gives a predicate in each executing lane. -/
structure Tests where
  c : Ctl
  q : BitVec 4
  reads : Iss → List Read
  t : Iss → Nat → Bool

/-- PSET, FPSET, PLOG, PMOV, VOTE, ELECT and BTEST (R213 to R215, R248, R283). -/
def predicateWord : Instr → Option Tests
  | .pset c cmp wide u comb cp q a b => some ⟨c, q, fun x => x.readOps false [opA a .s (!u), opB b .s (!u)], fun x l =>
      combine comb (icmp cmp (readInt (bitsOf wide) u (x.val wide (opA a .s (!u)) l))
        (readInt (bitsOf wide) u (x.val wide (opB b .s (!u)) l))) (x.pred cp l)⟩
  | .fpset c cmp comb cp q a b => some ⟨c, q, fun x => x.readOps false [opA a .f false, opB b .f false], fun x l =>
      combine comb (fcmp cmp (x.fp (opA a .f false) l) (x.fp (opB b .f false) l)) (x.pred cp l)⟩
  | .plog c lut q pa pb pc => some ⟨c, q, fun _ => [], fun x l =>
      lut.getLsbD ((x.holds pa l).toNat + 2 * (x.holds pb l).toNat + 4 * (x.holds pc l).toNat)⟩
  | .pmov c q p => some ⟨c, q, fun _ => [], fun x l => x.holds p l⟩
  | .vote c mode q p => some ⟨c, q, fun _ => [], fun x _ =>
      let all := (lanesOf x.ex).all fun l => x.holds p l
      let any := (lanesOf x.ex).any fun l => x.holds p l
      match mode with
      | .all => all
      | .any => any
      | .eq => all || !any⟩
  | .elect c q => some ⟨c, q, fun _ => [], fun x l => decide (lowest x.ex = some l)⟩
  | .btest c q bar ph => some ⟨c, q, fun _ => [], fun x _ => (getBar x.b bar).ph != ph⟩
  | _ => none

/-- REDUCE and SCAN (R251, R252): the tree, or the running combination from the identity, over the executing lanes. -/
def combiningWord : Instr → Option Computes
  | .reduce c op d a =>
    let tree (x : Iss) : Option (Word32 × Flags) := reduceTree (modeFor x.fmode .dyn .fp32) op (allLanes.map fun l =>
      if x.ex.getLsbD l then some ((x.val false (opA a .s false) l).setWidth 32, 0) else none)
    some { c, d, once := false
           reads := fun x => x.readOps false [opA a .s false]
           f := fun x _ => ((tree x).map fun r => r.1.setWidth 64).getD 0
           flags := fun x _ => ((tree x).map (·.2)).getD 0 }
  | .scan c op ex d a =>
    if isScalar d then none
    else
      let run (x : Iss) (ls : List Nat) : Word32 × Flags := ls.foldl (fun r k =>
        let z := combine32 (modeFor x.fmode .dyn .fp32) op r.1 ((x.val false (opA a .s false) k).setWidth 32)
        (z.1, r.2 ||| z.2)) (scanIdentity op, 0)
      some { c, d, once := false
             reads := fun x => x.readOps false [opA a .s false]
             f := fun x l => (run x ((lanesOf x.ex).filter fun k => if ex then decide (k < l) else decide (k ≤ l))).1.setWidth 64
             flags := fun x l => (run x ((lanesOf x.ex).filter fun k => decide (k ≤ l))).2 }
  | _ => none

/-! ### Accesses of a wave's lanes -/

/-- The base register after the access (R203, R204): the pair of each lane, or a scalar once, from the first lane. -/
def Iss.rebased (x : Iss) (a : Addr) (ls : List Nat) : Effect :=
  if !a.mode.writes then {}
  else match a.base.reg with
    | .v m => { v := fun n l =>
        if l ∈ ls ∧ n = m then some ⟨(x.newBase a l).setWidth 32, .full⟩
        else if l ∈ ls ∧ n = m + 1 then some ⟨(x.newBase a l >>> 32).setWidth 32, .full⟩
        else none }
    | .s m => { s := fun n => if n = m then ls.head?.map fun l => ⟨x.newBase a l, .full⟩ else none }
    | _ => {}

/-- Every lane's address passes the checks of R95 steps 1 to 3, which leave the state `s`; the lanes' addresses and
places are `hs`. -/
def Iss.Reaches (x : Iss) (ls : List Nat) (addr : Nat → Except Stop Word64) (n : Nat) (al : Word64 → Nat) (k : Acc) (s : State)
    (hs : List Hit) : Prop := x.hits x.s ls addr n al k = (s, [], hs)

/-- What a load read for a lane: the values of its registers, whether they are poisoned, the lane and its addresses, where
the data comes from, if over a die link (R358), and how it may still read later (R134, log 95). -/
structure Landing where
  ws : List (Dest × Word64)
  poison : Bool
  lane : Nat
  va : Word64
  pa : Nat
  route : Option (Nat × Nat)
  again : Option Late := none

/-- Producers with these landings are outstanding; the k-th has the identity `nextId + stride * k`. -/
def withProducers (s : State) (x : Iss) (stride : Nat) (ps : List Landing) : State :=
  { s with
    nextId := s.nextId + stride * ps.length
    pendings := s.pendings ++ ((List.range ps.length).zip ps).map fun p =>
      ⟨s.nextId + stride * p.1, x.bid, x.wi, p.2.ws, p.2.poison, p.2.lane, p.2.va, p.2.pa, false, p.2.route,
        s.nextId + stride * p.1, p.2.again⟩ }

/-- Their registers wait for them, each under its producer's identity. -/
def Iss.awaitingIds (x : Iss) (ps : List (Nat × Landing)) : Effect where
  v n l := ps.findSome? fun p => if Dest.v (x.w.wo + n) l ∈ p.2.ws.map Prod.fst then some ⟨0, .pend p.1⟩ else none
  s n := ps.findSome? fun p => if Dest.s n ∈ p.2.ws.map Prod.fst then some ⟨0, .pend p.1⟩ else none

/-- The same for identities that follow one another. -/
def Iss.awaitingAll (x : Iss) (first stride : Nat) (ps : List Landing) : Effect :=
  x.awaitingIds (((List.range ps.length).map fun k => first + stride * k).zip ps)

/-- What a lane's read of `n` bytes gives D's run (R47, R48, R261): the bytes read, with the lane's own stores over them;
`late` is what of the read stays open (R134, log 95). -/
def Iss.landing (x : Iss) (d : Reg) (n : Nat) (sx : Bool) (late : Option Late) (h : Hit) (bs : List Byte) (poison : Bool) (pa : Nat)
    (copy : Option (Nat × Nat)) : Landing :=
  let own := x.own h.lane h.va n
  ⟨loadValues (x.run d (runRegs n d) h.lane) (overlayOwn own bs) sx, poison && decide (own.length < n), h.lane, h.va, pa,
    sourceOfRead (x.b.core.getD 0) pa copy, late⟩

/-- D is a register that holds a value. -/
def holdsValue : Reg → Bool
  | .v _ | .s _ => true
  | _ => false

/-- What the lanes' reads of granary places give D's run, and the state in which the producers are outstanding: a read
goes to its die and back (R104, R358) and checks its block's stored bits (R447). A constant D has no producer. -/
def Iss.granLandings (x : Iss) (d : Reg) (regs n : Nat) (sx tg : Bool) :
    State → List (Nat × Word64 × Nat × Nat) → State × List (Nat × Landing)
  | s, [] => (s, [])
  | s, (l, g, die, loc) :: hs =>
    let blk := die * 2 ^ 22 + loc / 64
    let core := x.b.core.getD 0
    let s := granCheck (roundTrip s (dieOf core) die) blk x.b.ctx
    let bs := if tg then bytesOfNat 2 (fget 0 s.gtag blk).toNat else s.gran.readN (die * 2 ^ 28 + loc) n
    let ps := if holdsValue d then
        [(s.nextId, ⟨loadValues (x.run d regs l) bs sx, fget false s.gpoison blk, l, g, 2 ^ 48 + die * 2 ^ 28 + loc,
          routeOf core (64 + die) die, none⟩)]
      else []
    let r := x.granLandings d regs n sx tg (withProducers s x 1 (ps.map Prod.snd)) hs
    (r.1, ps ++ r.2)

/-- What the lanes' reads give D's run, in the state after them; those of no watch may stay open. -/
def Iss.landings (x : Iss) (s : State) (d : Reg) (n : Nat) (sx watched : Bool) (gs : List (Hit × ReadRes)) : List Landing :=
  if holdsValue d then gs.filterMap fun g => match g.2 with
    | .got bs _ poison pa copy =>
      some (x.landing d n sx (if !watched && readsLate s gs g.1 then x.lateRun s.nextId n sx g.1 else none) g.1 bs poison pa copy)
    | _ => none
  else []

/-- What the lanes of a memory word ask of the address checks (R95): the word's fields, its operand reads, its lanes with
their addresses, the length, the kind of access; and what stops lanes after these checks. -/
structure Accesses where
  c : Ctl
  need : Need
  reads : Iss → List Read
  lanes : Iss → List Nat
  addr : Iss → Nat → Except Stop Word64
  n : Nat
  acc : Acc
  later : Iss → State → List Hit → State × List Raise

/-- A returning atomic (R272): DETCAP comes after the addresses (R440). -/
def returningAccess (c : Ctl) (sz : Bool) (d : Reg) (a : RegOp) (b e : Src) : Accesses where
  c := c
  need := .final
  reads x := x.readWide (isScalar d) 7 a :: x.readSized (isScalar d) 8 sz b ++ x.readSized (isScalar d) 9 sz e
  lanes x := x.readers (isScalar d)
  addr x l := .ok (x.wide a l)
  n := if sz then 8 else 4
  acc := .atomic
  later x s hs := (s, x.detCap (hs.map (·.lane)))

/-- Loads, stores and atomics (R261, R272, R276); a deferred register reached through the register aperture stops a lane
later (R439), as do the reads of LD. -/
def accessWord : Instr → Option Accesses
  | .ld c wid _ d a => some
      { c := c, need := .mk2 (runRegs (2 ^ wid.toNat) d + baseNeed a) 0, reads := fun x => x.readAddr (isScalar d) a
        lanes := fun x => x.readers (isScalar d), addr := fun x => x.address a, n := 2 ^ wid.toNat, acc := .read
        later := fun x s hs => let r := x.readHits s (2 ^ wid.toNat) c.hint hs; (r.1, r.2.1) }
  | .st c wid d a => some
      { c := c, need := .mk2 (baseNeed a) 1, reads := fun x => x.readData d (2 ^ wid.toNat) ++ x.readAddr false a
        lanes := fun x => lanesOf x.ex, addr := fun x => x.address a, n := 2 ^ wid.toNat, acc := .write
        later := fun x s hs => (s, hs.filterMap (deferStop x.w (2 ^ wid.toNat))) }
  | .atom c _ _ _ sz a b o => some
      { c := c, need := .mk2 0 1, reads := fun x => x.readWide false 7 a :: x.readSized false 8 sz b
        lanes := fun x => lanesOf x.ex, addr := fun x l => .ok (x.wide a l + o.signExtend 64), n := if sz then 8 else 4
        acc := .atomic, later := fun x s hs => (s, x.detCap (hs.map (·.lane))) }
  | .atomr c _ _ _ sz d a b _ => some (returningAccess c sz d a b (.imm 0))
  | .cas c _ _ sz d a b e _ => some (returningAccess c sz d a b e)
  | .exch c _ _ sz d a b _ => some (returningAccess c sz d a b (.imm 0))
  | .lda c _ _ wid d a _ => some
      { c := c, need := .final, reads := fun x => [x.readWide (isScalar d) 7 a], lanes := fun x => x.readers (isScalar d)
        addr := fun x l => .ok (x.wide a l), n := 2 ^ wid.toNat, acc := .read
        later := fun x s hs => (s, hs.filterMap (deferStop x.committed.1 (2 ^ wid.toNat))) }
  | .stl c _ wid d a _ => some
      { c := c, need := .final, reads := fun x => x.readData d (2 ^ wid.toNat) ++ [x.readWide false 7 a]
        lanes := fun x => lanesOf x.ex, addr := fun x l => .ok (x.wide a l), n := 2 ^ wid.toNat, acc := .write
        later := fun x s hs => (s, hs.filterMap (deferStop x.committed.1 (2 ^ wid.toNat))) }
  | _ => none

/-- Every lane's read gives bytes now: none waits, stops or goes to a network peer. -/
def Iss.Reads (x : Iss) (s : State) (n : Nat) (hint : BitVec 3) (hs : List Hit) (s' : State) (gs : List (Hit × ReadRes)) : Prop :=
  x.readHits s n hint hs = (s', [], false, gs) ∧ ∀ g ∈ gs, ∃ bs tag poison pa copy, g.2 = .got bs tag poison pa copy

/-- LANES LEAVE A TRACE (R52): nothing of theirs is kept, their TP is `alt`, their draw counters and sequences are those
of the batch's forming; the trace of the others goes on, and with none left it is over (R54). `w` and `t` are the wave
and the trace with what else the word changes. -/
def Leaves (i : Instr) (x : Iss) (w : Wave) (t : TraceRun) (m : Mask) (alt : Word64) : Prop :=
  let w' := w.modLanes m fun l y =>
    { y with tp := alt, draw := (nth x.t.draws l).getD y.draw, seq := (nth x.t.seqs l).getD y.seq }
  let t' := t.drop m
  ∃ u, exec i x.s = .next u ∧ SameMemory x.s u ∧
    u.unslotted = (if t'.live = 0 then { x with w := { w' with det := x.t.det } }.store none
      else { x with w := w' }.store (some t'.advance)).unslotted

/-! ### The end of a trace (R55 to R58) -/

/-- THE COMMIT: `w'` is the wave of the word with what its trace wrote, for the lanes still in it: vector registers and
predicates by lane; scalars, special registers and generators whole; FSTAT with the lanes' flags (R74); the accumulators
with the lanes' contributions (R50). -/
structure Commits (x : Iss) (w' : Wave) : Prop where
  v : ∀ ix l, l < 32 → fget fullV w'.vreg (vkey ix l) =
    if x.t.live.getLsbD l then (ffind x.t.ov (vkey ix l)).getD (fget fullV x.w.vreg (vkey ix l))
    else fget fullV x.w.vreg (vkey ix l)
  s : ∀ n, fget fullS w'.sreg n = x.scell n
  p : ∀ q l, q ≠ 0 → l < 32 → (fget 0 w'.preds q.toNat).getLsbD l = x.pred q l
  m : ∀ n, n ≠ 1 → fget 0 w'.spec n = x.special n
  fstat : ∀ i, i < 64 → (fget 0 w'.spec 1).getLsbD i =
    ((x.special 1).getLsbD i || (lanesOf x.t.live).any fun l => (fget 0 x.t.flags l).getLsbD i)
  k : ∀ q : BitVec 2, fget 0 w'.kreg q.toNat = x.checksum q
  g : ∀ n, fget .zero w'.gens n = x.gen n
  rest : w' = { x.w with vreg := w'.vreg, sreg := w'.sreg, preds := w'.preds, spec := w'.spec, kreg := w'.kreg, gens := w'.gens }

/-- The store buffer's entries of the lanes still in the trace. -/
def Iss.entries (x : Iss) : List TsbRec := x.t.buf.filterMap (TsbRec.restrict x.t.live)

/-- The state after the commit of the lanes still in the trace: the trace is over, the lanes go where `land` sends them,
with their GRD counts and BRK passes gone; of the store buffer's entries of these lanes, the stores through the register
aperture are written to the wave after its registers (R31), and the others enter the write path in program order and go as
far as they can. -/
def Iss.landed (x : Iss) (w' : Wave) (land : Nat → Lane → Lane) : State :=
  let w := (commitAperture x.s w' x.entries).1
  let s := modWave x.s x.bid x.wi fun _ =>
    { w.modLanes x.t.live fun l y => land l { y with gcount := 0, pass := none } with trace := none, det := x.t.det }
  drain (enterPath s x.b x.wi (taskDet x.s x.b.task) x.t.seqs (commitAperture x.s w' x.entries).2) x.bid x.wi

/-- A WORD ENDS ITS TRACE: the commit, then `post`; a wave whose calls cannot end takes DIVCALL (R437); a wave that is not
ready, or that yields, gives up its slot (R176). -/
def Closes (i : Instr) (c : Ctl) (x : Iss) (land : Nat → Lane → Lane) (yld : Bool) (post : State → State) : Prop :=
  ∃ w', Commits x w' ∧
    exec i x.s = .next (settle (divCheck (post (x.landed w' land)) x.bid x.wi) x.bid x.wi c.keep (c.yld || yld))

/-- The lanes of `m` that are runnable enter the state `st`; nothing else changes. -/
def waiting (s : State) (x : Iss) (m : Mask) (st : LaneState) : State :=
  modWave s x.bid x.wi fun w => { w with
    lanes := ((List.range w.lanes.length).zip w.lanes).map fun p =>
      if m.getLsbD p.1 && decide (p.1 < 32) && decide (p.2.st = .runnable) then { p.2 with st := st } else p.2 }

/-! ### One block -/

/-- `exec` answers a next state in which the block `bid` is `b` and NOTHING ELSE differs from `base`: no other block, no
other field. -/
def ChangesBlock (i : Instr) (s base : State) (bid : Nat) (b : Block) : Prop :=
  ∃ u, exec i s = .next u ∧ { u with blocks := base.blocks } = base ∧ u.blocks.map (·.id) = base.blocks.map (·.id) ∧
    ∀ k, getBlock u k = if k = bid then some b else getBlock base k

/-- The lanes that `f` releases go on at the TPs it gives. -/
def Block.going (b : Block) (f : LaneState → Option Word64) : Block :=
  { b with waves := b.waves.map fun w => { w with lanes := w.lanes.map fun l => match f l.st with
      | some tp => { l with st := .runnable, tp := tp }
      | none => l } }

/-! ### The invariant -/

/-- Memories and the contexts' map are in canonical form. -/
def State.Canonical (s : State) : Prop :=
  s.dram.wf = true ∧ s.gran.wf = true ∧ (∀ b ∈ s.blocks, b.spad.wf = true) ∧ frising none s.ctxs = true

/-! ### Records that the device writes -/

/-- THE PHYSICAL LOG TAKES ONE RECORD of this class and event, and no other but the denials of a log's ring to the CP (R407,
R410, log 67): FATBUF holds it. -/
def Logged (s u : State) (cls event : Nat) (p : ErrRec → Prop) : Prop :=
  s.plog.seq < u.plog.seq ∧
  (∃ r, ffind u.plog.fatbuf (s.plog.seq % 64) = some r ∧ r.cls = BitVec.ofNat 8 cls ∧
    r.event = BitVec.ofNat 16 event ∧ r.seq = s.plog.seq ∧ p r) ∧
  ∀ n, s.plog.seq < n → n < u.plog.seq → ∃ d, ffind u.plog.fatbuf (n % 64) = some d ∧ d.seq = n ∧
    (d.event = 0x0030 ∨ d.event = 0x0032)

/-- No granary map of an installed context lies in these bytes: a write of them claims no region (R104, R117). -/
def NoMap (s : State) (pa n : Nat) : Prop :=
  ∀ c ∈ s.ctxs, ∀ d, c.2.desc = some d → pa + n ≤ d.gmap ∨ d.gmap + 2048 ≤ pa

/-- A WRITE BY THE CP MEETS NOTHING: every home it reaches grants it (R115, R119), no block that it writes holds an error
yet to be found (R447), and no granary map lies there. -/
def Writable (s : State) (pa n : Nat) : Prop :=
  NoMap s pa n ∧ ∀ p ∈ piecesOf pa n, masterAns s cpMaster 0xFFFF p.1 p.2 true = none ∧
    fget 0 s.upsets (p.1 / 64) = 0

/-- Where a queue's next completion record goes (R188). -/
def recordAt (s : State) (q : Nat) : Nat := (getQueue s q).carea + 32 * ((getQueue s q).cidx.toNat % 2 ^ (getQueue s q).logc)

/-- A COMPLETION RECORD of a queue stands at CIDX where the CP can write it, and CIDX passes it in any case (R188). -/
def Completes (s u : State) (q : Nat) (seq : BitVec 16) (kind status : Nat) (preempt : BitVec 32) (start stop : Word64) :
    Prop :=
  (getQueue u q).cidx = (getQueue s q).cidx + 1 ∧
  (Writable s (recordAt s q) 32 → u.dram.readN (recordAt s q) 32 =
    bytesOfNat 2 seq.toNat ++ [BitVec.ofNat 8 kind, BitVec.ofNat 8 status] ++ bytesOfNat 4 preempt.toNat ++
    bytesOfNat 8 start.toNat ++ bytesOfNat 8 stop.toNat ++ List.replicate 8 0)

/-- A COMMAND OF THE CP IS FINISHED with this STATUS (R357), where its word can be written: the word takes it, CRIDX
advances, MSI-X vector 0 is signalled, and nothing else differs from `base` but the links' traffic of the CP's write. -/
def Finishes (i : Instr) (s base : State) (status : Nat) : Prop :=
  Writable base (cmdAddr base + 4) 4 → ∃ u, exec i s = .next u ∧
    u.cp = { base.cp with ridx := base.cp.ridx + 1 } ∧ u.outbox = base.outbox ++ [.msix 0] ∧
    u.dram.readN (cmdAddr base + 4) 4 = bytesOfNat 4 status ∧
    (∀ a, (a < cmdAddr base + 4 ∨ cmdAddr base + 8 ≤ a) → u.dram.read a = base.dram.read a) ∧
    { u with cp := base.cp, outbox := base.outbox, dram := base.dram, l1 := base.l1, stamps := base.stamps,
             iodOut := base.iodOut } = base

/-- The head of a command. -/
def cmdHead : Instr → Option CmdHead
  | .ctxset h _ _ => some h
  | .schedset h _ _ => some h
  | .qset h _ _ => some h
  | .qstop h _ => some h
  | .savepool h _ _ _ => some h
  | .ownset h _ _ _ => some h
  | .tlbinv h _ _ _ => some h
  | .pgdone h _ _ => some h
  | .grancopy h _ _ _ _ => some h
  | .meter h _ _ => some h
  | .resume h _ => some h
  | .kill h _ => some h
  | .quote h _ _ => some h
  | .cpCommandUnknown h _ => some h
  | _ => none

/-! ### Words of the stream (R307, R308) -/

/-- THE WORD THAT A BLOCK'S SEQUENCER EXECUTES: the sequencer that issues runs. -/
def streaming (s : State) : Option Sq :=
  match s.actor with
  | .seq bid => (getBlock s bid).bind fun b => b.seq.bind fun q => if q.run = .running then some ⟨s, bid, b, q⟩ else none
  | _ => none

/-- The z registers among the sources are full (R205). -/
def Sq.Full (x : Sq) (os : List Src) : Prop := ∀ o ∈ os, ∀ r n, o = .reg r → r.reg = .z n → (x.z n).fill = .full

/-- A word of the stream is done: its block is `b`, and nothing else differs from `base`. -/
def SeqDoneIn (i : Instr) (x : Sq) (base : State) (b : Block) : Prop := ChangesBlock i x.s base x.bid b

/-- The same, where the word changes the block alone. -/
def SeqDone (i : Instr) (x : Sq) (b : Block) : Prop := SeqDoneIn i x x.s b

/-- The sequencer, left so by its word, at the next one in a block changed so. -/
def Sq.past (x : Sq) (q : SeqState) (b : Block) : Block := { b with seq := some (q.goTo (x.q.pc + 16)) }

/-- The same, where the word changes nothing of the sequencer. -/
def Sq.passed (x : Sq) (b : Block) : Block := x.past x.q b

/-- The sequencer past its word, with a z register written; a constant's write is discarded (R308). -/
def Sq.wrote (x : Sq) (d : Reg) (v : Word64) : Block :=
  x.past { x.q with z := match d with
    | .z n => fput fullS x.q.z n ⟨v, .full⟩
    | _ => x.q.z } x.b

/-- The step due of a word of `n` steps is done: the sequencer, left so, is at the next step, or past the word (R310). -/
def Sq.onward (x : Sq) (n : Nat) (q : SeqState) (b : Block) : Block :=
  if x.q.reached + 1 < n then { b with seq := some { q with reached := q.reached + 1 } } else x.past q b

/-- What the general words give in the stream, at 64 bits (R308). -/
def streamWord : Instr → Option (Reg × List Src × (Sq → Word64))
  | .iadd _ false false .none _ d a b => some (d, [a, b], fun x => x.val .s true a + x.val .s true b)
  | .isub _ false false .none _ d a b => some (d, [a, b], fun x => x.val .s true a - x.val .s true b)
  | .andw _ d a b => some (d, [a, b], fun x => x.val .s false a &&& x.val .s false b)
  | .shl _ d a b => some (d, [a, b], fun x =>
      if (x.val .z false b).toNat < 64 then x.val .z false a <<< (x.val .z false b).toNat else 0)
  | .mov _ d a => some (d, [a], fun x => x.val .s false a)
  | .movi _ d v => some (d, [], fun _ => v)
  | _ => none

end Sys2Proof.Machine
end

