-- ==== Sys2Proof/Certificates/Slice0/Obligations.lean ====
section
/-! DEFINITION. The statements about the model. Each docstring names the rules of spec/ it rests on. -/

open Sys2Proof Sys2Proof.Machine

/-! ### Words of a wave: registers and predicates -/

/-- R218, R219, R221, R28, R29: an integer word without a carry completes; D is the exact result wrapped or saturated. -/
def Obligations.IntegerWords : Prop :=
  ∀ (i : Instr) (k : Computes) (s : State) (x : Iss), integerWord i = some k → issuing s k.c (.mk2 1 0) = some x →
    x.Full (k.reads x) → Done i x (k.effect x)

/-- R219: a saturated result is the nearest value of the range; an unsaturated one is the exact value mod 2^w. -/
def Obligations.IntegerResultRange : Prop :=
  ∀ (w : Nat) (u : Bool) (v : Int), (w = 32 ∨ w = 64) →
    readInt w u (intResult w u true v) = min (max v (intLo w u)) (intHi w u) ∧
    (2 : Int) ^ w ∣ readInt w u (intResult w u false v) - v ∧
    intLo w u ≤ readInt w u (intResult w u false v) ∧ readInt w u (intResult w u false v) ≤ intHi w u

/-- R220: IADD and ISUB with a carry: the sum mod 2^w, and a carry or borrow for the executing lanes, with a scalar D the
carry of the lowest. R221: IMADW writes the low half of a × b + c to D and its high half to D + 1. -/
def Obligations.CarryAndPairWords : Prop :=
  (∀ (sub : Bool) (i : Instr) (c : Ctl) (u sat : Bool) (cy : Carry) (cp : BitVec 4) (d : Reg) (a b : Src) (s : State) (x : Iss),
    i = (if sub then .isub c u sat cy cp d a b else .iadd c u sat cy cp d a b) → cy ≠ .none →
    let gives : Bool := cy = .co || cy = .cio
    let takes : Bool := cy = .ci || cy = .cio
    let w := isScalar d
    let oa := opA a .s (!u)
    let ob := opB b .s (!u)
    issuing s c (.mk2 (if gives then 2 else 1) 0) = some x → x.Full (x.readOps w [oa, ob]) →
    let p (l : Nat) : Nat := (x.val w oa l).toNat % 2 ^ bitsOf w
    let q (l : Nat) : Nat := (x.val w ob l).toNat % 2 ^ bitsOf w + if takes && x.pred cp l then 1 else 0
    let value (l : Nat) : Nat := if sub then (p l + 2 ^ (bitsOf w + 1) - q l) % 2 ^ bitsOf w else (p l + q l) % 2 ^ bitsOf w
    let carry (l : Nat) : Bool := if sub then decide (p l < q l) else decide (2 ^ bitsOf w ≤ p l + q l)
    let carries : Effect := if gives then x.intoPred cp fun l => carry (if w then (lowest x.ex).getD 0 else l) else {}
    Done i x (carries.over (x.into d fun l => BitVec.ofNat 64 (value l)))) ∧
  (∀ (c : Ctl) (u : Bool) (d : Reg) (a b e : Src) (s : State) (x : Iss),
    let w := isScalar d
    let oa := opA a .s (!u)
    let ob := opB b .s (!u)
    let oe := opC e .s (!u)
    issuing s c (.mk2 2 0) = some x → x.Full (x.readOps w [oa, ob, oe]) →
    let n := bitsOf w
    let v (l : Nat) : Int := readInt n u (x.val w oa l) * readInt n u (x.val w ob l) + readInt n u (x.val w oe l)
    Done (.imadw c u d a b e) x ((x.into (Reg.succ d) fun l => BitVec.ofNat 64 (v l / 2 ^ n % 2 ^ n).toNat).over
      (x.into d fun l => BitVec.ofNat 64 (v l % 2 ^ n).toNat)))

/-- R223 to R226, R229, R230: logic, shifts, bit fields, counts and moves complete; D is given bit by bit. R226: a word
of Op 0x05B to 0x05E that a trace takes has MOD zero, and is POPC, CLZ, BREV or FFS. -/
def Obligations.LogicWords : Prop :=
  (∀ (i : Instr) (k : Computes) (s : State) (x : Iss), logicWord i = some k → issuing s k.c (.mk2 1 0) = some x →
    x.Full (k.reads x) → Done i x (k.effect x)) ∧
  (∀ (ws : Nat) (w : Word128) (i : Instr), decode (.trace ws) w = .ok i → ∀ n, (Raw.ofWord w).op.toNat = 0x05B + n → n < 4 →
    (Raw.ofWord w).mod = 0 ∧ ∃ c d a, (n = 0 ∧ i = .popc c d a) ∨ (n = 1 ∧ i = .clz c d a) ∨ (n = 2 ∧ i = .brev c d a) ∨
      (n = 3 ∧ i = .ffs c d a))

/-- R216, R217, R227, R228, R248 to R253, R257, R301, R327: words that select, permute, mix, vote into a register,
move between lanes or read a special register complete with the value stated for each lane; REDUCE and SCAN combine the
executing lanes in the order the rules give. -/
def Obligations.LaneWords : Prop :=
  ∀ (i : Instr) (k : Computes) (s : State) (x : Iss), laneWord i = some k ∨ combiningWord i = some k →
    issuing s k.c (.mk2 1 0) = some x →
    x.Full (k.reads x) → Done i x (k.effect x)

/-- R73, R74, R232, R234, R235, R238 to R246: floating-point words and conversions whose result is there at once write
it, rounded under their mode, and hold its flags with the lane. -/
def Obligations.FloatWords : Prop :=
  ∀ (i : Instr) (k : Computes) (s : State) (x : Iss), floatWord i = some k → issuing s k.c (.mk2 1 0) = some x →
    x.Full (k.reads x) → Done i x (k.effect x)

/-- R35, R222, R233, R236, R237: divisions, roots, reciprocals and transcendental functions leave D empty, waiting for a
producer that holds the stated values; their flags are held with the lane at issue. Which lane holds the flags of IDIV and
IREM with a scalar D, the lowest executing one, is the model's choice (log 76). -/
def Obligations.LateWords : Prop :=
  ∀ (i : Instr) (k : Computes) (s : State) (x : Iss), lateResult i = some k → issuing s k.c (.mk2 1 0) = some x →
    x.Full (k.reads x) → LateDone i k x

/-- R213 to R215, R248, R283: comparisons, predicate logic, votes, ELECT and BTEST write their predicate in the executing
lanes and nothing else; a write to p0 is discarded (R214). R217: PBITS.PUT writes to each predicate that MASK names, p0
apart, the bit of A with its number. R253: WRLANE writes A to one lane of D, which need not execute. -/
def Obligations.PredicateWords : Prop :=
  (∀ (i : Instr) (k : Tests) (s : State) (x : Iss), predicateWord i = some k → issuing s k.c (.mk2 1 0) = some x →
    x.Full (k.reads x) → Done i x (x.intoPred k.q (k.t x))) ∧
  (∀ (c : Ctl) (mask : BitVec 16) (a : Src) (s : State) (x : Iss),
    issuing s c (.mk2 ((List.range 16).filter fun i => mask.getLsbD i && decide (i ≠ 0)).length 0) = some x →
    x.Full (x.readOps false [opA a .z false]) →
    Done (.pbitsPut c mask a) x
      { p := fun q l =>
          if q ≠ 0 ∧ mask.getLsbD q.toNat = true ∧ x.ex.getLsbD l = true then
            some ((x.val false (opA a .z false) l).getLsbD q.toNat)
          else none }) ∧
  (∀ (c : Ctl) (d : Reg) (a b : Src) (s : State) (x : Iss), isScalar d = false →
    issuing s c (.mk2 1 0) = some x → x.Full (x.readSrc true 7 a 1 ++ x.readSrc true 8 b 1) →
    let f := (lowest x.ex).getD 0
    let k := (x.val false (opB b .z false) f).toNat % 32
    Done (.wrlane c d a b) x
      { v := fun n l =>
          if d = .v n ∧ l = k ∧ x.ex ≠ 0 ∧ x.t.live.getLsbD k = true then
            some ⟨(x.val false (opA a .z false) f).setWidth 32, .full⟩
          else none })

/-- R51, R255, R256: RAND gives each executing lane the mixer's output for its counter, and every lane still in the trace
advances its draw counter. R254: RKEY sets SK from the lowest executing lane. R50, R258: CSACC adds to its lanes'
contributions, a scalar once. R259: CSCHK goes on where its accumulator is zero, and raises CKFAIL in every executing lane
where it is not. -/
def Obligations.RandomAndChecksumWords : Prop :=
  (∀ (c : Ctl) (mode : RandMode) (d : Reg) (s : State) (x : Iss), isScalar d = false → issuing s c (.mk2 1 0) = some x →
    let v (l : Nat) : Word32 × Flags := randValue (x.mode32 .dyn) mode
      (mix64 (taskSeed s x.b.task ^^^ x.special 5) (randCounter x.b.lin x.wi l (laneOf x.w l).draw))
    DoneIn (.rand c mode d) x ((x.into d fun l => (v l).1.setWidth 64).over
        { flags := fun l => if x.ex.getLsbD l then (v l).2 else 0 })
      s (x.w.modLanes x.t.live fun _ z => { z with draw := z.draw + 1 })) ∧
  (∀ (c : Ctl) (a : Src) (s : State) (x : Iss), issuing s c (.mk2 1 0) = some x → x.Full (x.readSrc true 7 a 1) →
    Done (.rkey c a) x
      { m := fun n =>
          if n = 5 ∧ x.ex ≠ 0 then some (x.val (srcScalar a) (opA a .z false) ((lowest x.ex).getD 0)) else none }) ∧
  (∀ (c : Ctl) (u neg : Bool) (k : BitVec 2) (a : Src) (s : State) (x : Iss), issuing s c (.mk2 1 0) = some x →
    x.Full (x.readSrc (srcScalar a) 7 a 1) →
    Done (.csacc c u neg k a) x
      { kc := fun q l =>
          if q = k ∧ l ∈ x.readers (srcScalar a) then
            csTerm u neg (srcScalar a) (x.val (srcScalar a) (opA a .s false) l)
          else 0 }) ∧
  (∀ (c : Ctl) (k : BitVec 2) (s : State) (x : Iss), issuing s c .zero = some x →
    ((x.ex = 0 ∨ x.checksum k = 0) → Done (.cschk c k) x {}) ∧
    (x.ex ≠ 0 → x.checksum k ≠ 0 → exec (.cschk c k) s = .next (raiseWave s x.bid x.wi x.t.start x.addr false
      ((lanesOf x.ex).map fun l => (l, .plain .ckfail)))))

/-- R302: SWR writes its special register from the lowest executing lane, whole, its low half or its high half; R74: one
to FSTAT drops the flags held before it. R297: NOP only goes on, takes no entry, has its guards and SCH, and
stands in the stream with every field zero. R65, R66: REP goes on to the repetitions of the next word. -/
def Obligations.SpecialWriteNopRep : Prop :=
  (∀ (c : Ctl) (hi : Bool) (sreg : BitVec 17) (b : Src) (s : State) (x : Iss), issuing s c (.mk2 1 0) = some x →
    x.Full (x.readSrc true 8 b 1) →
    let n := sreg.toNat
    let v := x.val (srcScalar b) ⟨8, b, .z, false⟩ ((lowest x.ex).getD 0)
    let x0 := if n = 1 ∧ x.ex ≠ 0 then { x with t := { x.t with flags := [] } } else x
    DoneFrom (.swr c hi sreg b) x x0
      { m := fun k => if k = n ∧ x.ex ≠ 0 then some (swrValue n hi (srcScalar b) (x.special n) v) else none }) ∧
  (∀ (c : Ctl) (s : State) (x : Iss), issuing s c .zero = some x → Done (.nop c) x {}) ∧
  (∀ (c : Ctl) (s : State) (x : Sq), streaming s = some x → SeqDone (.nop c) x (x.passed x.b)) ∧
  (∀ (ws : Nat) (c : Ctl), noHint c = true → ∃ w, encode (.nop c) = some w ∧ decode (.trace ws) w = .ok (.nop c)) ∧
  (∃ c, decode .stream 0x00E = .ok (.nop c)) ∧
  (∀ (w : Word128) (i : Instr), decode .stream w = .ok i → ((∃ c, i = .nop c) ↔ w = 0x00E)) ∧
  (∀ (n : BitVec 6) (sd sa sb sc se : BitVec 4) (s s' : State) (x : Iss) (w : Word128), issuing s Ctl.plain .zero = some x →
    fetchWord s (whoOf s x.b 0) (x.addr + 16) = (s', .word w) →
    repBadStep x.w.ws (n.toNat + 1) (Raw.ofWord w) [sd, sa, sb, sc, se] = none → repBanned (Raw.ofWord w).op.toNat = false →
    ∃ u, exec (.rep n sd sa sb sc se) s = .next u ∧ SameMemory s' u ∧
      u.unslotted = ({ x with s := s' }.store (some { x.t with
        pos := x.t.pos + 1, rep := some ⟨w, n.toNat + 1, 1, [sd, sa, sb, sc, se]⟩ })).unslotted)

/-- R52, R436: lanes that fail a GRD leave the trace for ALT, each with its count of failures there. R53: lanes with a
struck record in a named slot leave at CHKW, which marks the records it checked, where its mask lies within the trace's
(R44, R289). -/
def Obligations.GuardWords : Prop :=
  (∀ (c : Ctl) (p : PredSrc) (alt : BitVec 17) (s : State) (x : Iss), issuing s c .zero = some x →
    let bad := maskOf fun l => x.ex.getLsbD l && !x.holds p l
    (∀ l, bad.getLsbD l = true → ((laneOf x.w l).failGuard x.addr).gcount < 65536) →
    Leaves (.grd c p alt) x (x.w.modLanes bad fun _ y => y.failGuard x.addr) x.t bad (x.target alt)) ∧
  (∀ (c : Ctl) (mask : BitVec 16) (alt : BitVec 17) (s : State) (x : Iss), issuing s c .zero = some x →
    let named (r : Watch) : Bool := x.ex.getLsbD r.lane && mask.getLsbD r.slot.toNat
    mask &&& ~~~x.t.wmask = 0 →
    (∀ r ∈ x.t.watch, named r = true → ∀ i n, r.st ≠ .pending i n) →
    Leaves (.chkw c mask alt) x x.w
      { x.t with watch := x.t.watch.map fun r => if named r then { r with checked := true } else r }
      (maskOf fun l => x.t.watch.any fun r => decide (r.lane = l) && named r && decide (r.st = .struck)) (x.target alt))

/-- R44, R51: a batch whose header passes the checks of R422 begins its trace with nothing in its buffers. -/
def Obligations.TraceAdmission : Prop :=
  ∀ (words twb tsb mask : BitVec 17) (s : State) (bid wi : Nat) (b : Block) (w : Wave) (tp : Word64) (m : Mask),
    s.actor = .wave bid wi → getBlock s bid = some b → getWave s bid wi = some w → w.trace = none → w.batch = some (tp, m) →
    1 ≤ words.toNat → words.toNat ≤ 256 → twb.toNat ≤ 64 → tsb.toNat ≤ 64 →
    chkwOutside s (whoOf s b 0) tp words.toNat (mask.extractLsb' 0 16) = false →
    ∃ t : TraceRun, exec (.traceAdmission words twb tsb mask) s =
        .next (modWave s bid wi fun w => { w with trace := some t }) ∧
      t.start = tp ∧ t.batch = m ∧ t.live = m ∧ t.words = words.toNat ∧ t.twb = twb.toNat ∧ t.tsb = tsb.toNat ∧
      t.pos = 1 ∧ t.twbUsed = 0 ∧ t.tsbUsed = 0 ∧ t.ov = [] ∧ t.os = [] ∧ t.op = [] ∧ t.om = [] ∧ t.og = [] ∧ t.kc = [] ∧
      t.buf = [] ∧ t.watch = [] ∧ t.flags = [] ∧ t.draws = w.lanes.map (·.draw)

/-! ### Words of a wave: the store buffer -/

/-- R282, R283, R312: BINIT, BEXP, BARV and SQARR leave their entry in the store buffer, acting at commit; a SQARR in a block
without a sequencer raises SEQERR in its executing lanes. -/
def Obligations.BarrierWords : Prop :=
  (∀ (c : Ctl) (bar : BitVec 4) (scope : Scope) (count : Src) (s : State) (x : Iss), issuing s c (.mk2 0 1) = some x →
    x.Full (x.readSrc true 8 count 1) →
    let n := (x.val true (opB count .z false) ((lowest x.ex).getD 0)).toNat % 65536
    Done (.binit c bar scope count) x
      (if x.ex = 0 then {} else { buf := [.binit x.ex bar scope (if n = 0 then 65536 else n)] })) ∧
  (∀ (c : Ctl) (bar : BitVec 4) (b : Src) (s : State) (x : Iss), issuing s c (.mk2 0 1) = some x →
    x.Full (x.readSrc true 8 b 1) →
    Done (.bexp c bar b) x
      (if x.ex = 0 then {} else { buf := [.bexp x.ex bar (x.val true (opB b .z false) ((lowest x.ex).getD 0))] })) ∧
  (∀ (c : Ctl) (bar : BitVec 4) (b : Src) (s : State) (x : Iss), issuing s c (.mk2 0 1) = some x →
    x.Full (x.readSrc false 8 b 1) →
    Done (.barv c bar b) x (if x.ex = 0 then {} else { buf := [.barv bar ((lanesOf x.ex).map fun l =>
      (l, (x.val false (opB b .z false) l).setWidth 32))] })) ∧
  (∀ (c : Ctl) (q : BitVec 4) (s : State) (x : Iss), issuing s c (.mk2 0 1) = some x → (x.ex = 0 ∨ x.b.seq.isSome = true) →
    Done (.sqarr c q) x (if x.ex = 0 then {} else { buf := [.sqarr x.ex q] })) ∧
  (∀ (c : Ctl) (q : BitVec 4) (s : State) (x : Iss), issuing s c (.mk2 0 1) = some x → x.ex ≠ 0 → x.b.seq = none →
    exec (.sqarr c q) s = .next (raiseWave s x.bid x.wi x.t.start x.addr false
      ((lanesOf x.ex).map fun l => (l, .exc .seqerr 0xFF 2 none))))

/-- R261, R264, R268: ST and TAGST leave one entry in the store buffer, with each lane's address, place and data, and the
base register as R203 and R204 leave it; R45, R58: only at commit does it reach memory. -/
def Obligations.StoreWords : Prop :=
  (∀ (c : Ctl) (wid : BitVec 3) (d : Src) (a : Addr) (s s' : State) (x : Iss) (hs : List Hit),
    let n := 2 ^ wid.toNat
    issuing s c (.mk2 (baseNeed a) 1) = some x → x.Full (x.readData d n ++ x.readAddr false a) →
    x.Reaches (lanesOf x.ex) (x.address a) n (fun _ => n) .write s' hs → (∀ h ∈ hs, deferStop x.w n h = none) →
    DoneIn (.st c wid d a) x (Effect.over
        { buf := if hs = [] then [] else [.store c.hint (hs.map fun h => ⟨h.lane, x.addr, h.va, h.place, x.storeBytes d n h.lane⟩)] }
        (x.rebased a (lanesOf x.ex))) s' x.w ∧
      hs.map (·.lane) = lanesOf x.ex ∧ ∀ h ∈ hs, x.address a h.lane = .ok h.va) ∧
  (∀ (c : Ctl) (d : Src) (a : Addr) (s s' : State) (x : Iss) (hs : List Hit),
    issuing s c (.mk2 (baseNeed a) 1) = some x → x.Full (x.readData d 4 ++ x.readAddr false a) →
    x.Reaches (lanesOf x.ex) (x.address a) 64 (fun _ => 64) .tagWrite s' hs →
    let tag (l : Nat) : BitVec 16 := wordOf 16 (x.storeBytes d 2 l)
    (∀ h ∈ hs, badTag (tag h.lane) = false) →
    DoneIn (.tagst c d a) x (Effect.over
        { buf := if hs = [] then [] else [.tag (hs.map fun h => ⟨h.lane, x.addr, h.va, h.place, tag h.lane⟩)] }
        (x.rebased a (lanesOf x.ex))) s' x.w ∧
      hs.map (·.lane) = lanesOf x.ex ∧ ∀ h ∈ hs, x.address a h.lane = .ok h.va)

/-- R265 to R267: STD converts each lane's run to the format of its block's tag and leaves the stores in the buffer. -/
def Obligations.DescribedStore : Prop :=
  ∀ (c : Ctl) (cnt : BitVec 3) (rf : Fmt) (d : Src) (a : Addr) (s s1 s2 s3 : State) (x : Iss) (hs0 hs : List Hit)
    (gs : List (Hit × DescRes)),
    let n := (2 ^ cnt.toNat * rf.width + 7) / 8
    issuing s c (.mk2 (baseNeed a) 1) = some x → x.Full (x.readData d n ++ x.readAddr false a) →
    x.Reaches (lanesOf x.ex) (x.address a) 1 (fun _ => 1) .tagWrite s1 hs0 →
    x.hits s1 (lanesOf x.ex) (x.address a) 1 (fun _ => 1) .tagRead = (s2, [], hs) →
    x.describeAll s2 cnt.toNat c.hint hs = (s3, [], false, gs) →
    let conv (g : Hit × DescRes) : List (Store × Flags) := match g.2 with
      | .got f sc super bs _ _ =>
        let r := stdRun (modeFor x.fmode .dyn f) rf f sc super cnt.toNat (natOf (x.storeBytes d n g.1.lane))
        [(⟨g.1.lane, x.addr, g.1.va, g.1.place, bytesOfNat bs.length r.1⟩, r.2)]
      | _ => []
    let xs := gs.flatMap conv
    DoneIn (.std c cnt rf d a) x (Effect.over
      { buf := if xs = [] then [] else [.store c.hint (xs.map (·.1))]
        flags := fun l => xs.foldl (fun f z => if z.1.lane = l then f ||| z.2 else f) 0 }
      (x.rebased a (lanesOf x.ex))) s3 x.w

/-- R272, R274: ATOM leaves its lanes' operations in the store buffer; R440: in a DET task within the bound, counting
them. R303: QPOST leaves a record for each lane. -/
def Obligations.AtomAndQpost : Prop :=
  (∀ (c : Ctl) (scope : Scope) (ord : OrdCode) (op : RedOp) (sz : Bool) (a : RegOp) (b : Src) (o : BitVec 17)
    (s s' : State) (x : Iss) (hs : List Hit),
    let n := if sz then 8 else 4
    issuing s c (.mk2 0 1) = some x → x.Full (x.readWide false 7 a :: x.readSized false 8 sz b) →
    x.Reaches (lanesOf x.ex) (fun l => .ok (x.wide a l + o.signExtend 64)) n (fun _ => n) .atomic s' hs →
    (taskDet s x.b.task = true → x.w.det + hs.length ≤ x.deta) →
    DoneIn (.atom c scope ord op sz a b o) x
      { buf := if hs = [] then [] else [.atom scope (decide (ord = .rel ∨ ord = .ar)) (hs.map fun h =>
          ⟨h.lane, x.addr, h.va, h.place, .rmw op, sz, x.sized sz b h.lane, x.sized sz (.imm 0) h.lane⟩)] }
      s' (if taskDet s' x.b.task ∧ hs ≠ [] then
        { (x.w.modLanes x.ex fun _ y => { y with seq := y.seq + 1 }) with det := x.w.det + hs.length } else x.w) ∧
      hs.map (·.lane) = lanesOf x.ex ∧ ∀ h ∈ hs, h.va = x.wide a h.lane + o.signExtend 64) ∧
  (∀ (c : Ctl) (q : Src) (a : RegOp) (words : BitVec 3) (s s1 s2 : State) (x : Iss) (hs : List Hit) (gs : List (Hit × ReadRes)),
    let k := words.toNat + 1
    let n := 8 * k
    issuing s c (.mk2 0 1) = some x → x.Full (x.readSrc false 7 q 1 ++ [x.readWide false 8 a]) →
    x.Reaches (lanesOf x.ex) (fun l => .ok (x.wide a l)) n (lineAlign n) .read s1 hs →
    x.Reads s1 n c.hint hs s2 gs → (∀ g ∈ gs, ∀ bs tag pa cp, g.2 = .got bs tag true pa cp → n ≤ (x.own g.1.lane g.1.va n).length) →
    DoneIn (.qpost c q a words) x
      { buf := if gs = [] then [] else [.qpost (gs.map fun g => (g.1.lane, (x.val true (opA q .z false) g.1.lane).toNat,
          wordsOf (overlayOwn (x.own g.1.lane g.1.va n) (match g.2 with
            | .got bs _ _ _ _ => bs
            | _ => [])) k))] } s2 x.w)

/-- R279, R280: a copy word whose ranges pass its checks, with room in the core's queue, leaves its command in the store
buffer and takes a queue entry. -/
def Obligations.CopyWords : Prop :=
  let held (x : Iss) : Iss := { x with t := { x.t with copies := x.t.copies + 1 } }
  let fits (x : Iss) (n : Nat) (rs : List (Word64 × Nat)) : Prop :=
    copyFault x.b rs = none ∧ n ≤ 2 ^ 32 - 16 ∧ n % 16 = 0 ∧ copyEntries x.s (x.b.core.getD 0) < 64
  (∀ (c : Ctl) (scope : Scope) (bar : BitVec 4) (d a : RegOp) (b : Src) (s : State) (x : Iss) (l : Nat),
    issuing s c (.mk2 0 1) = some x → lowest x.ex = some l →
    x.Full ([x.readWide true 6 d, x.readWide true 7 a] ++ x.readSrc true 8 b 1) →
    let n := (x.val true (opB b .z false) l).toNat
    fits x n [(x.wide d l, n), (x.wide a l, n)] →
    DoneFrom (.cpy c scope bar d a b) x (held x) { buf := [.copy x.ex
      ⟨[x.wide a l], x.wide d l, 0, n, bar, scope, c.hint, x.addr, x.t.start⟩] }) ∧
  (∀ (c : Ctl) (scope : Scope) (bar : BitVec 4) (d a : RegOp) (b : Nat) (s : State) (x : Iss) (l : Nat) (p : Perm) (fe : Bool),
    issuing s c (.mk2 0 1) = some x → lowest x.ex = some l →
    x.Full [x.readWide true 6 d, x.readWide true 7 a, x.readReg true 8 ⟨.s b, p, fe⟩ 3] →
    let shape := (x.scell b).val
    let n := (low32 shape).toNat
    let rows := (shape >>> 32).toNat
    let ss := (x.scell (b + 1)).val
    let ds := (x.scell (b + 2)).val
    let at_ (base stride : Word64) (r : Nat) : Word64 := base + BitVec.ofNat 64 r * stride
    rows ≤ 2 ^ 16 → ss.toNat % 16 = 0 → ds.toNat % 16 = 0 →
    fits x n ((List.range (max rows 1)).flatMap fun r =>
      [(at_ (x.wide d l) ds r, if rows = 0 then 0 else n), (at_ (x.wide a l) ss r, if rows = 0 then 0 else n)]) →
    DoneFrom (.cpyt c scope bar d a ⟨.s b, p, fe⟩) x (held x) { buf := [.copy x.ex
      ⟨(List.range rows).map (at_ (x.wide a l) ss), x.wide d l, ds, n, bar, scope, c.hint, x.addr, x.t.start⟩] }) ∧
  (∀ (c : Ctl) (rsz : BitVec 4) (scope : Scope) (bar : BitVec 4) (d : RegOp) (a b : Src) (s : State) (x : Iss) (l : Nat),
    issuing s c (.mk2 0 1) = some x → lowest x.ex = some l →
    x.Full (x.readWide true 6 d :: x.readSrc true 7 a 1 ++ x.readSrc false 8 b 1) →
    let n := 2 ^ (rsz.toNat + 4)
    let src (k : Nat) : Word64 := x.val true (opA a .z false) l + x.val false (opB b .z false) k * BitVec.ofNat 64 n
    let rows := (lanesOf x.ex).length
    copyFault x.b ((List.range rows).map fun j => (x.wide d l + BitVec.ofNat 64 j * BitVec.ofNat 64 n, n)) = none →
    (∀ k ∈ lanesOf x.ex, copyFault x.b [(src k, n)] = none) → copyEntries s (x.b.core.getD 0) < 64 →
    DoneFrom (.cpyg c rsz scope bar d a b) x (held x) { buf := [.copy x.ex
      ⟨(lanesOf x.ex).map src, x.wide d l, BitVec.ofNat 64 n, n, bar, scope, c.hint, x.addr, x.t.start⟩] })

/-! ### Words of a wave: loads -/

/-- R48, R261, R264, R36: LD whose lanes' addresses pass the checks and whose bytes can be read now leaves D's run empty,
waiting for one producer a lane that holds what the lane read with its own stores over it. Which of these reads stay open
to a later answer, and how, is the model's choice (log 95). -/
def Obligations.LoadWord : Prop :=
  ∀ (c : Ctl) (wid : BitVec 3) (sx : Bool) (d : Reg) (a : Addr) (s s1 s2 : State) (x : Iss) (hs : List Hit)
    (gs : List (Hit × ReadRes)),
    let n := 2 ^ wid.toNat
    let ls := x.readers (isScalar d)
    issuing s c (.mk2 (runRegs n d + baseNeed a) 0) = some x → x.Full (x.readAddr (isScalar d) a) →
    x.Reaches ls (x.address a) n (fun _ => n) .read s1 hs → x.Reads s1 n c.hint hs s2 gs →
    let ps := x.landings s2 d n sx false gs
    DoneIn (.ld c wid sx d a) x ((x.awaitingAll s2.nextId 1 ps).over (x.rebased a ls)) (withProducers s2 x 1 ps) x.w ∧
      gs.map (fun g => g.1.lane) = ls ∧ ∀ g ∈ gs, x.address a g.1.lane = .ok g.1.va

/-- R145, R271: LDWT does the same and records each lane's read in its slot, which it takes; in a DET task it reads from
the home. That a read which the lane's own stores give whole is recorded as confirmed at once, and still to be checked, is the
model's reading (log 39). -/
def Obligations.WatchedLoad : Prop :=
  ∀ (c : Ctl) (wid : BitVec 3) (slot : BitVec 4) (d : Reg) (a : Addr) (s s1 s2 : State) (x : Iss) (hs : List Hit)
    (gs : List (Hit × ReadRes)),
    let n := 2 ^ wid.toNat
    let ls := x.readers (isScalar d)
    let det := taskDet s x.b.task
    issuing s c (.mk2 (runRegs n d + baseNeed a) 0) = some x → x.Full (x.readAddr (isScalar d) a) →
    x.t.wmask.getLsbD slot.toNat = true → x.t.slots.getLsbD slot.toNat = false →
    x.Reaches ls (x.address a) n (fun _ => n) .read s1 hs → (∀ h ∈ hs, x.unsettledLine s1 h = false) →
    x.Reads s1 n (if det then 3 else c.hint) hs s2 gs →
    let ps := x.landings s2 d n false true gs
    let stride := if holdsValue d then 2 else 1
    let recs : List Watch := ((List.range gs.length).zip gs).map fun p =>
      ⟨s2.nextId + stride * p.1 + (stride - 1), slot, p.2.1.lane, (match p.2.1.place with
        | .phys pa _ _ _ => pa / 64
        | _ => 0), watchState det p.2.1 (decide ((x.own p.2.1.lane p.2.1.va n).length = n) || fetchedHere s2 gs p.2.1 p.2.2) p.2.2,
        false⟩
    let base := { withProducers s2 x 2 ps with nextId := s2.nextId + stride * gs.length }
    DoneFrom (.ldwt c wid slot d a) x
      { x with s := base, t := { x.t with slots := x.t.slots ||| (1#16 <<< slot.toNat), watch := x.t.watch ++ recs } }
      ((x.awaitingAll s2.nextId 2 ps).over (x.rebased a ls))

/-- R265 to R267: LDD converts the elements that its block's tag describes to the register format, with their flags;
R268: TAGLD reads the tag, a lane's own TAGST first. Which reads stay open to a later answer is the model's choice (log 95). -/
def Obligations.DescribedLoads : Prop :=
  (∀ (c : Ctl) (cnt : BitVec 3) (rf : Fmt) (d : Reg) (a : Addr) (s s1 s2 : State) (x : Iss) (hs : List Hit)
    (gs : List (Hit × DescRes)), isScalar d = false →
    let regs := runD cnt.toNat rf
    issuing s c (.mk2 (regs + baseNeed a) 0) = some x → x.Full (x.readAddr false a) → 0 < regs →
    x.Reaches (lanesOf x.ex) (x.address a) 1 (fun _ => 1) .tagRead s1 hs →
    x.describeAll s1 cnt.toNat c.hint hs = (s2, [], false, gs) → (∀ g ∈ gs, ∃ f sc sup bs pa cp, g.2 = .got f sc sup bs pa cp) →
    let conv (g : Hit × DescRes) : List (Landing × Flags) := match g.2 with
      | .got f sc super bs pa cp =>
        let r := lddRun (modeFor x.fmode .dyn rf) rf f sc super cnt.toNat bs
        [(⟨loadValues (x.run d regs g.1.lane) (bytesOfNat (4 * regs) r.1) false, false, g.1.lane, g.1.va, pa,
          sourceOfRead (x.b.core.getD 0) pa cp, if readsLate s2 (gs.map fun g => (g.1, g.2.read)) g.1 then
            some (x.lateDescribed s2.nextId cnt.toNat rf g.1 f sc super r.2) else none⟩, r.2)]
      | _ => []
    let ps := if holdsValue d then (gs.flatMap conv).map (·.1) else []
    DoneIn (.ldd c cnt rf d a) x (Effect.over
        { x.awaitingAll s2.nextId 1 ps with
          flags := fun l => (gs.flatMap conv).foldl (fun f z => if z.1.lane = l then f ||| z.2 else f) 0 }
        (x.rebased a (lanesOf x.ex))) (withProducers s2 x 1 ps) x.w) ∧
  (∀ (c : Ctl) (d : Reg) (a : Addr) (s s1 s2 : State) (x : Iss) (hs : List Hit) (gs : List (Hit × ReadRes)),
    let ls := x.readers (isScalar d)
    issuing s c (.mk2 (1 + baseNeed a) 0) = some x → x.Full (x.readAddr (isScalar d) a) →
    x.Reaches ls (x.address a) 64 (fun _ => 64) .tagRead s1 hs → x.Reads s1 64 c.hint hs s2 gs →
    let ps : List Landing := if holdsValue d then gs.filterMap fun g => match g.2 with
      | .got _ tag poison pa cp =>
        let own := x.ownTag g.1.lane g.1.va
        some ⟨(x.run d 1 g.1.lane).map fun e => (e, (own.getD tag).setWidth 64), poison && own.isNone, g.1.lane, g.1.va, pa,
          sourceOfRead (x.b.core.getD 0) pa cp,
          if own.isNone && readsLate s2 gs g.1 then some (lateTag s2.nextId g.1) else none⟩
      | _ => none else []
    DoneIn (.tagld c d a) x ((x.awaitingAll s2.nextId 1 ps).over (x.rebased a ls)) (withProducers s2 x 1 ps) x.w)

/-- R104, R269: LDG reads, for each lane (once for a scalar D), the granary place that the context's map gives. R270:
PREF changes no register but its base. -/
def Obligations.GranaryAndPrefetch : Prop :=
  (∀ (c : Ctl) (wid : BitVec 3) (sx tg : Bool) (d : Reg) (a : Src) (mode : AddrMode) (s s1 : State) (x : Iss)
    (hs : List (Nat × Word64 × Nat × Nat)),
    let n := 2 ^ wid.toNat
    let regs := if tg then 1 else runRegs n d
    let ls := x.readers (isScalar d)
    issuing s c (.mk2 regs 0) = some x →
    x.Full (x.readSrc (isScalar d) 7 a 1 ++ match mode with
      | .idx _ i => x.readSrc (isScalar d) 8 i 1
      | _ => []) →
    x.granHits s ls (x.granOffset a mode) (if tg then 64 else n) = (s1, [], false, hs) →
    let r := x.granLandings d regs n sx tg s1 hs
    DoneIn (.ldg c wid sx tg d a mode) x (x.awaitingIds r.2) r.1 x.w ∧
      hs.map (fun h => (h.1, h.2.1)) = ls.map fun l => (l, x.granOffset a mode l)) ∧
  (∀ (c : Ctl) (l2 : Bool) (a : Addr) (s : State) (x : Iss), issuing s c (.mk2 (baseNeed a) 0) = some x →
    x.Full (x.readAddr false a) →
    DoneIn (.pref c l2 a) x (x.rebased a (lanesOf x.ex))
      ((lanesOf x.ex).foldl (fun s l => x.prefetch s a c.hint l2 l) s) x.w)

/-- R329: GCFG sets every value of its generator but KEY, GKEY sets KEY, from the lowest executing lane. R330 to R332:
GEVAL leaves D waiting for its lanes' elements of the generator's matrix. A MOD that names no configuration raises BADFLD
in the lowest executing lane. -/
def Obligations.GeneratorWords : Prop :=
  (∀ (c : Ctl) (n : BitVec 3) (ft : BitVec 4) (sc : BitVec 2) (k : BitVec 3) (g : Nat) (a b e : Src) (s : State) (x : Iss)
      (l : Nat),
    issuing s c (.mk2 1 0) = some x → lowest x.ex = some l →
    x.Full (x.readOps true [opA a .z false, opB b .z false, opC e .z false]) →
    let v (o : Opnd) : Word32 := (x.val false o l).setWidth 32
    (∀ sin fmt scope kind, gcfgOf n ft sc k = some (sin, fmt, scope, kind) → badParam kind (v (opC e .z false)) = false →
      Done (.gcfg c n ft sc k g a b e) x
        { g := fun i =>
            if i = g then
              some ⟨kind, scope, some fmt, sin, v (opA a .z false), v (opB b .z false), v (opC e .z false), (x.gen g).key⟩
            else none }) ∧
    (gcfgOf n ft sc k = none → exec (.gcfg c n ft sc k g a b e) s = .next (raiseWave s x.bid x.wi x.t.start x.addr false
      (withUnchecked x.t (.mk2 1 0) false [(l, .exc .badfld 1 0 none)])))) ∧
  (∀ (c : Ctl) (g : Nat) (a : Src) (s : State) (x : Iss) (l : Nat), issuing s c (.mk2 1 0) = some x → lowest x.ex = some l →
    x.Full (x.readSrc true 7 a 1) →
    Done (.gkey c g a) x
      { g := fun n => if n = g then some { x.gen g with key := x.val (srcScalar a) (opA a .z false) l } else none }) ∧
  (∀ (c : Ctl) (t bm : Bool) (d : Reg) (g : Nat) (b e : Src) (s : State) (x : Iss) (f : Fmt),
    issuing s c (.mk2 1 0) = some x → x.Full (x.readOps false [opB b .z false, opC e .z false]) → (x.gen g).fmt = some f →
    let y := x.gen g
    let at_ (l : Nat) : Nat × Nat := gevalAt y t ((x.val false (opB b .z false) l).setWidth 32)
      ((x.val false (opC e .z false) l).setWidth 32)
    (∀ l ∈ lanesOf x.ex, tabCheck x.b y (at_ l).2 = .ok) →
    let k := genKey (taskSeed s x.b.task) x.b.lin x.wi y
    let v (l : Nat) : Word64 := (gevalValue bm f (genCode y f k x.b.spad (at_ l).1 (at_ l).2)).setWidth 64
    LateDone (.geval c t bm d g b e) (plainly c d (fun _ => []) fun _ l => v l) x)

/-! ### Words that end a trace -/

/-- R55, R58, R288: TEND, TEXIT and TYIELD commit the lanes still in the trace, and send each where the word says: TEND by
its predicate as it stood before the commit, TEXIT out of the kernel, TYIELD to E, giving up the slot if it executes
(R294). R435: a lane with an unchecked watched load raises WUNCHK instead. -/
def Obligations.TraceEnds : Prop :=
  (∀ (c : Ctl) (p : PredSrc) (t f : BitVec 17) (s : State) (x : Iss), issuing s c .final = some x → uncheckedLanes x.t = 0 →
    Closes (.tend c p t f) c x (fun l y => { y with tp := if x.holds p l then x.target t else x.target f }) false id) ∧
  (∀ (c : Ctl) (s : State) (x : Iss), issuing s c .final = some x → uncheckedLanes x.t = 0 →
    Closes (.texit c) c x (fun _ y => { y with st := .exited }) false id) ∧
  (∀ (c : Ctl) (succ : BitVec 17) (s : State) (x : Iss), issuing s c .final = some x → uncheckedLanes x.t = 0 →
    Closes (.tyield c succ) c x (fun _ y => { y with tp := x.target succ }) (decide (x.ex ≠ 0)) id) ∧
  (∀ (c : Ctl) (p : PredSrc) (t f : BitVec 17) (s : State) (x : Iss), issuing s c .final = some x → uncheckedLanes x.t ≠ 0 →
    exec (.tend c p t f) s = .next (raiseWave s x.bid x.wi x.t.start x.addr false
      ((lanesOf (uncheckedLanes x.t)).map fun l => (l, .plain .wunchk))))

/-- R58, R97: a trace that has stored nothing, in a wave with nothing in its write path, commits without touching memory.
A store to the scratchpad leaves the write path at once, unless an older write of the core to the same place is still in
one (R127): each byte it names takes its value, the later of two stores last, and EVERY OTHER BYTE of memory is as before. R31: a store through the register aperture is in the wave's registers at
commit, after what the trace itself wrote there, and reaches no memory. -/
def Obligations.CommittedStores : Prop :=
  (∀ (s : State) (c : Ctl) (n : Need) (x : Iss) (w' : Wave) (land : Nat → Lane → Lane), issuing s c n = some x →
    Commits x w' → x.t.buf = [] → x.w.path = [] →
    x.landed w' land = modWave s x.bid x.wi (fun _ =>
      { w'.modLanes x.t.live fun l y => land l { y with gcount := 0, pass := none } with trace := none, det := x.t.det }) ∧
    SameMemory s (x.landed w' land)) ∧
  (∀ (s : State) (b : Block) (w : Wave) (bid wi id : Nat) (ok : Bool) (hint : BitVec 3) (xs : List Store),
    getBlock s bid = some b → nth b.waves wi = some w → w.path = [⟨id, ok, .store hint xs⟩] →
    (∀ z ∈ xs, ∃ off, z.place = .spad off) →
    writeAhead s (b.core.getD 0) bid wi id (TsbRec.store hint xs).places = false →
    let after (old : Byte) (a : Nat) : Byte := xs.foldl (fun v z => match z.place with
      | .spad off => if off ≤ a ∧ a < off + z.bytes.length then (z.bytes[a - off]?).getD v else v
      | _ => v) old
    let u := drain s bid wi
    (∀ a, spadByte u bid a = after (spadByte s bid a) a) ∧ (∀ k a, k ≠ bid → spadByte u k a = spadByte s k a) ∧
      u.dram = s.dram ∧ u.dtag = s.dtag ∧ u.gran = s.gran ∧ u.gtag = s.gtag ∧
      (getWave u bid wi).map (·.path) = some []) ∧
  (∀ (s : State) (c : Ctl) (n : Need) (x : Iss) (w' : Wave) (land : Nat → Lane → Lane) (hint : BitVec 3) (z : Store)
    (off : Nat), issuing s c n = some x → Commits x w' → x.t.buf = [.store hint [z]] → x.t.live.getLsbD z.lane = true →
    x.w.path = [] → z.place = .regs off → off % 4 = 0 → z.bytes.length = 4 →
    let u := x.landed w' land
    SameMemory s u ∧ ∃ w, getWave u x.bid x.wi = some w ∧ w.path = [] ∧
      ∀ k, fget fullV w.vreg k = if 4 * k = off then ⟨wordOf 32 z.bytes, .full⟩ else fget fullV w'.vreg k)

/-- R290 to R293, R295, R296: TBAR, TGBAR, TWAIT, TSQW, TORDW, TCALL and TRET commit their trace; then their lanes wait, or
go on where what they wait for has happened; lanes that arrive at TBAR or TGBAR have read what they loaded. A TRET on an
empty frame stack raises SEQERR, and a TGBAR in a task without COOP raises BADFLD: that its FIELD is 0xFF is the model's
choice (log 93). That the barrier's arrival closes the late answers of its lanes' loads is too (log 95). -/
def Obligations.WaitStates : Prop :=
  (∀ (c : Ctl) (succ : BitVec 17) (s : State) (x : Iss), issuing s c .final = some x → uncheckedLanes x.t = 0 →
    let e := x.target succ
    let go (e : Word64) : Nat → Lane → Lane := fun _ y => { y with tp := e }
    Closes (.tbar c succ) c x (go e) false
      (fun s => waiting (pinLanes s x.bid x.wi (startable s x.bid x.wi x.t.live)) x x.t.live (.tbar e)) ∧
    (∀ t, getTask s x.b.task = some t → t.coop = true →
      Closes (.tgbar c succ) c x (go e) false
        fun s => waiting (pinLanes { s with nextId := s.nextId + 1 } x.bid x.wi (startable s x.bid x.wi x.t.live)) x
          x.t.live (.tgbar e s.nextId)) ∧
    (∀ bar ph, Closes (.twait c bar ph succ) c x (go e) false fun s => match getBlock s x.bid with
      | none => s
      | some b =>
        if (getBar b bar).ph = ph then waiting s x x.ex (.bytes bar ph e)
        else if x.ex = 0 then s
        else acquireDrops s (b.core.getD 0) (getBar b bar).bs) ∧
    (∀ bar ph, Closes (.tsqw c bar ph succ) c x (go e) false fun s => match getBlock s x.bid with
      | none => s
      | some b => if (getQBar b bar).ph = ph then waiting s x x.ex (.seqBar bar ph e) else s) ∧
    Closes (.tordw c succ) c x (go e) false (fun s => departTickets (waiting s x x.ex (.ticket e)) x.b.task) ∧
    (x.w.depth ≠ 0 → Closes (.tret c) c x (go x.addr) false fun s => waiting s x x.t.live (.tret x.addr)) ∧
    (∀ callee k w, x.Full (match callee with
        | .off _ => []
        | .reg o => [x.readReg false 7 o 1]) →
      let entry := match callee with
        | .off o => x.target o
        | .reg o => x.regVal o.reg true false ((lowest x.ex).getD 0)
      Closes (.tcall c callee k w succ) c x (go x.addr) false
        fun s => waiting s x x.t.live (.tcall x.addr entry e k.toNat w.toNat))) ∧
  (∀ (c : Ctl) (succ : BitVec 17) (s : State) (x : Iss), issuing s c .final = some x →
    (∀ t, getTask s x.b.task = some t → t.coop = false) →
    exec (.tgbar c succ) s = .next (raiseWave s x.bid x.wi x.t.start x.addr false
      ((lanesOf x.t.live).map fun l => (l, .exc .badfld 0xFF 0 none)))) ∧
  (∀ (c : Ctl) (s : State) (x : Iss), issuing s c .final = some x → uncheckedLanes x.t = 0 → x.w.depth = 0 →
    exec (.tret c) s = .next (raiseWave s x.bid x.wi x.t.start x.addr false
      ((lanesOf x.t.live).map fun l => (l, .exc .seqerr 0xFF 3 none))))

/-- R298: TRAP raises SWTRAP with its code in its executing lanes, after the commit, at E. R299: BRK raises BRKPT in the
executing lanes that have no pass for it; a lane that has one spends it. -/
def Obligations.SoftwareTraps : Prop :=
  (∀ (c : Ctl) (code : BitVec 16) (succ : Option (BitVec 17)) (s : State) (x : Iss), issuing s c .final = some x →
    uncheckedLanes x.t = 0 →
    let e := x.target (succ.getD 0)
    Closes (.trap c code succ) c x (fun _ y => { y with tp := e }) false fun s =>
      match getBlock s x.bid, getWave s x.bid x.wi with
      | some b, some w => takePost s b x.wi e x.addr (x.ex &&& w.runnable) .swtrap code.toNat none true
      | _, _ => s) ∧
  (∀ (c : Ctl) (code : BitVec 16) (s : State) (x : Iss), issuing s c .zero = some x →
    let pass := maskOf fun l => x.ex.getLsbD l && decide ((laneOf x.w l).pass = some x.addr)
    let w := x.w.modLanes pass fun _ y => { y with pass := none }
    let hit := x.ex &&& ~~~pass
    (hit = 0 → DoneIn (.brk c code) x {} s w) ∧
    (hit ≠ 0 → exec (.brk c code) s = .next (raiseWave (modWave s x.bid x.wi fun _ => w) x.bid x.wi x.t.start x.addr false
      ((lanesOf hit).map fun l => (l, .exc .brkpt 0xFF code.toNat none)))))

/-- R274, R276 to R278, R296: ATOMR, CAS, EXCH, LDA, STL, FENCE, ACQR and TORDR commit their trace; then their operation
starts in the executing lanes that no exception after the commit has taken, each lane's access with a producer of its own
(R275: in a DET task the atomics are deferred). -/
def Obligations.BoundaryOperations : Prop :=
  let go (e : Word64) : Nat → Lane → Lane := fun _ y => { y with tp := e }
  (∀ (c : Ctl) (succ : BitVec 17) (s : State) (x : Iss), issuing s c .final = some x → uncheckedLanes x.t = 0 →
    let e := x.target succ
    Closes (.tordr c succ) c x (go e) false (fun s => startOp s x.bid x.wi x.ex x.addr e .device .rel .tordr []) ∧
    (∀ scope ord, Closes (.fence c scope ord succ) c x (go e) false fun s =>
      let m := startable s x.bid x.wi x.ex
      startOp s x.bid x.wi m x.addr e scope ord .fence (if ord = .acq ∨ ord = .ar then
        (lanesOf m).flatMap fun l => (laneProducers s x.bid x.wi l).map fun id => (l, id) else [])) ∧
    (∀ victim, x.Full (x.readSrc false 7 victim 1) →
      (∀ l ∈ lanesOf x.ex, (x.val true (opA victim .z false) l).toNat < gridSize s x.b.task) →
      Closes (.acqr c victim succ) c x (go e) false fun s =>
        let m := startable s x.bid x.wi x.ex
        startOp s x.bid x.wi m x.addr e .device .acq
          (.acqr ((lanesOf m).map fun l => (x.val true (opA victim .z false) l).toNat).eraseDups) [])) ∧
  (∀ (c : Ctl) (scope : Scope) (wid : BitVec 3) (d : Src) (a : RegOp) (succ : BitVec 17) (s s1 : State) (x : Iss) (hs : List Hit),
    let n := 2 ^ wid.toNat
    issuing s c .final = some x → uncheckedLanes x.t = 0 → x.Full (x.readData d n ++ [x.readWide false 7 a]) →
    x.Reaches (lanesOf x.ex) (fun l => .ok (x.wide a l)) n (fun _ => n) .write s1 hs → (∀ h ∈ hs, deferStop x.committed.1 n h = none) →
    ∃ w', Commits x w' ∧ exec (.stl c scope wid d a succ) s =
      let v := { x with s := s1 }.landed w' (go (x.target succ))
      let m := startable v x.bid x.wi x.ex
      let xs : List Store := hs.map fun h => ⟨h.lane, x.addr, h.va, h.place, x.storeBytes d n h.lane⟩
      let v := startOp v x.bid x.wi m x.addr (x.target succ) scope .rel (.stl (xs.filter fun z => m.getLsbD z.lane)) []
      .next (settle (divCheck v x.bid x.wi) x.bid x.wi c.keep c.yld)) ∧
  (∀ (c : Ctl) (scope : Scope) (sx : Bool) (wid : BitVec 3) (d : Reg) (a : RegOp) (succ : BitVec 17) (s s1 : State) (x : Iss)
    (hs : List Hit),
    let n := 2 ^ wid.toNat
    let once := isScalar d
    issuing s c .final = some x → uncheckedLanes x.t = 0 → x.Full [x.readWide once 7 a] →
    x.Reaches (x.readers once) (fun l => .ok (x.wide a l)) n (fun _ => n) .read s1 hs →
    (∀ h ∈ hs, deferStop x.committed.1 n h = none) →
    ∃ w', Commits x w' ∧ exec (.lda c scope sx wid d a succ) s =
      let v := { x with s := s1 }.landed w' (go (x.target succ))
      let m := startable v x.bid x.wi x.ex
      let hs := hs.filter fun h => m.getLsbD h.lane
      let r := startProducers v x.bid x.wi (hs.map fun h => (h.lane, x.run d (runRegs n d) h.lane))
      let body := (hs.zip r.2).map fun p => (p.1.lane, p.1.va, p.1.place, p.2.2, x.run d (runRegs n d) p.1.lane)
      let v := startOp r.1 x.bid x.wi m x.addr (x.target succ) scope .acq (.lda body wid.toNat sx) (waitsFor once m r.2)
      .next (settle (divCheck v x.bid x.wi) x.bid x.wi c.keep c.yld)) ∧
  (∀ (i : Instr) (c : Ctl) (scope : Scope) (ord : OrdCode) (kind : AtomKind) (sz : Bool) (d : Reg) (a : RegOp) (b e : Src)
    (succ : BitVec 17) (s s1 : State) (x : Iss) (hs : List Hit),
    ((∃ op, kind = .rmw op ∧ e = .imm 0 ∧ i = .atomr c scope ord op sz d a b succ) ∨
      (kind = .cas ∧ i = .cas c scope ord sz d a b e succ) ∨
      (kind = .swap ∧ e = .imm 0 ∧ i = .exch c scope ord sz d a b succ)) →
    let n := if sz then 8 else 4
    let once := isScalar d
    issuing s c .final = some x → uncheckedLanes x.t = 0 →
    x.Full (x.readWide once 7 a :: x.readSized once 8 sz b ++ x.readSized once 9 sz e) →
    x.Reaches (x.readers once) (fun l => .ok (x.wide a l)) n (fun _ => n) .atomic s1 hs →
    (taskDet s x.b.task = true → x.w.det + hs.length ≤ x.deta) →
    let y := { x with s := s1 }.countDet (hs.map fun h : Hit => h.lane)
    ∃ w', Commits y w' ∧ exec i s =
      let v := y.landed w' (go (x.target succ))
      let m := startable v x.bid x.wi x.ex
      let xs : List Atom := (hs.filter fun h => m.getLsbD h.lane).map fun h =>
        ⟨h.lane, x.addr, h.va, h.place, kind, sz, x.sized sz b h.lane, x.sized sz e h.lane⟩
      let r := startProducers v x.bid x.wi (xs.map fun z => (z.lane, x.run d (runRegs n d) z.lane))
      let body := (xs.zip r.2).map fun p => (p.1, p.2.2, x.run d (runRegs n d) p.1.lane)
      let u := if taskDet v x.b.task then deferAtoms v x.bid x.wi (xs.map fun z => (z, x.run d (runRegs n d) z.lane))
        else startOp r.1 x.bid x.wi m x.addr (x.target succ) scope ord (.atoms body)
          (if ord = .acq ∨ ord = .ar then waitsFor once m r.2 else [])
      .next (settle (divCheck u x.bid x.wi) x.bid x.wi c.keep c.yld))

/-- R136, R277: an operation with a release side that has started waits, with its lanes, until the condition of its scope
holds; a FENCE whose condition holds and that waits for nothing lets its lanes go on at E at once, dropping stale copies
where it acquires (R137). -/
def Obligations.OperationStarts : Prop :=
  ∀ (s : State) (b : Block) (w : Wave) (bid wi : Nat) (m : Mask) (word e : Word64) (sc : Scope) (ord : OrdCode),
    getBlock s bid = some b → nth b.waves wi = some w → b.core.isSome = true → m &&& w.runnable ≠ 0 →
    (∀ o ∈ s.ops, o.id < s.nextId) →
    (∀ body waits, (ord = .rel ∨ ord = .ar) → releaseMet { s with nextId := s.nextId + 1 } (b.core.getD 0) sc s.nextId = false →
      let u := startOp s bid wi m word e sc ord body waits
      (∃ o, u.ops = s.ops ++ [o] ∧ o.id = s.nextId ∧ o.lanes = m &&& w.runnable ∧ o.released = false ∧ o.sent = false ∧
        o.succ = e ∧ o.scope = sc ∧ o.body = body) ∧
      SameMemory s u ∧
      ∀ l, ((getWave u bid wi).map fun w' => laneOf w' l) = some (if (m &&& w.runnable).getLsbD l ∧ l < w.lanes.length then
        { laneOf w l with st := .op s.nextId } else laneOf w l)) ∧
    ((releaseMet { s with nextId := s.nextId + 1 } (b.core.getD 0) sc s.nextId = true ∨ ord = .acq) →
      let u := startOp s bid wi m word e sc ord .fence []
      u.ops = s.ops ∧ SameMemory s u ∧
      ∀ l, ((getWave u bid wi).map fun w' => laneOf w' l) = some (if (m &&& w.runnable).getLsbD l ∧ l < w.lanes.length then
        { laneOf w l with st := .runnable, tp := e } else laneOf w l))

/-! ### Words of a block sequencer -/

/-- R308, R259, R298: the general words act on z registers at 64 bits; CSCHK.Z goes on at zero; TRAP stops the sequencer
with SWTRAP and its code. -/
def Obligations.StreamWords : Prop :=
  (∀ (i : Instr) (d : Reg) (os : List Src) (f : Sq → Word64) (s : State) (x : Sq), streamWord i = some (d, os, f) →
    streaming s = some x → x.Full os → SeqDone i x (x.wrote d (f x))) ∧
  (∀ (c : Ctl) (s : State) (x : Sq), streaming s = some x → SeqDone (.nop c) x (x.passed x.b)) ∧
  (∀ (n : BitVec 4) (s : State) (x : Sq), streaming s = some x → (∀ k, k ≤ 1 → x.z (n.toNat + k) = ⟨0, .full⟩) →
    SeqDone (.cschkZ n) x (x.passed x.b)) ∧
  (∀ (c : Ctl) (code : BitVec 16) (succ : Option (BitVec 17)) (s : State) (x : Sq), streaming s = some x →
    exec (.trap c code succ) s = .next (takeSeq s x.b x.q.pc (.exc .swtrap 0xFF code.toNat none) true false))

/-- R309, R311 to R313: SQWAIT takes its count off once it is there and else waits; SQSIG turns the phase, once no register of
the sequencer's words is still to be written, and lets the waves go that wait for the change; SQLOOP counts down; SQJMP and SQEND. -/
def Obligations.StreamControl : Prop :=
  (∀ (q : BitVec 4) (count : BitVec 6) (s : State) (x : Sq), streaming s = some x →
    let r := getQBar x.b q
    (count.toNat ≤ r.ra → SeqDone (.sqwait q count) x (x.passed (setQBar x.b q { r with ra := r.ra - count.toNat }))) ∧
    (r.ra < count.toNat → exec (.sqwait q count) s = .next s)) ∧
  (∀ (q : BitVec 4) (s : State) (x : Sq), streaming s = some x →
    let r := getQBar x.b q
    let go (l : Lane) : Lane := match l.st with
      | .seqBar m ph e => if m = q ∧ ph = r.ph then { l with st := .runnable, tp := e } else l
      | _ => l
    let b := setQBar x.b q { r with ph := !r.ph }
    (drainPending s x.bid = false → SeqDone (.sqsig q) x (x.passed { b with waves := b.waves.map fun w =>
      { w with lanes := w.lanes.map go } })) ∧
    (drainPending s x.bid = true → exec (.sqsig q) s = .next s)) ∧
  (∀ (n : Nat) (succ : BitVec 17) (s : State) (x : Sq), streaming s = some x → (x.z n).fill = .full →
    let v := (x.z n).val - 1
    SeqDone (.sqloop (.z n) succ) x { x.b with seq := some ({ x.q with z := fput fullS x.q.z n ⟨v, .full⟩ }.goTo
      (if v = 0 then x.q.pc + 16 else x.target succ)) }) ∧
  (∀ (succ : BitVec 17) (s : State) (x : Sq), streaming s = some x →
    SeqDone (.sqjmp succ) x { x.b with seq := some (x.q.goTo (x.target succ)) }) ∧
  (∀ (s : State) (x : Sq), streaming s = some x →
    SeqDone .sqend x (x.past { x.q with run := .ended } x.b))

/-- R314 to R320: MXM and MXMS whose operands fit and are full add, to each element of the tile that the shape covers, the
contributions of every k, in A96; under CK each column's check element takes those of the column sums of A. Flags are
joined (R89); the tile's other elements and everything else are as before. -/
def Obligations.MatrixProduct : Prop :=
  ∀ (m : MxMod) (sh : MxShape) (a b : RegOp) (scl bm : Option RegOp) (sparse : Bool) (s : State) (x : Sq) (t : Tile)
    (sc : Scales), streaming s = some x → x.b.tiles[sh.tile.toNat]? = some t → (sparse = false → bm = none) →
    let rows := 32 * (sh.m.toNat + 1)
    let cols := 32 * (sh.n.toNat + 1)
    let k := mxK m.fa sh.ks
    let bits (o : RegOp) (skip : Nat) : Option Nat := match mxGen x.b o with
      | some _ => none
      | none => bm.map fun r => fragBase r + skip
    let p : MxSrc := ⟨a, 7, m.fa, rows, k, m.ta, sc.sa, sc.ga, bits a 0⟩
    let q : MxSrc := ⟨b, 8, m.fb, cols, k, !m.tb, sc.sb, sc.gb, bits b ((k + 31) / 32)⟩
    p.fits x.b = true → q.fits x.b = true → (∀ o, scl = some o → ∃ n, o.reg = .z n ∧ (x.z n).fill = .full ∧
      (x.z (n + 1)).fill = .full ∧ (x.z n).val = BitVec.ofNat 64 (sc.sa + 256 * sc.sb) ∧ sc.sa < 255 ∧ sc.sb < 255 ∧
      (x.z (n + 1)).val = sc.gb ++ sc.ga) →
    (scl = none → sc = ⟨127, 127, 0x3F800000, 0x3F800000⟩) →
    (∀ o, o = p ∨ o = q → ∀ y : SAns, x.mxRead o y = y ∧ x.mxBits o (bm.any (·.fe)) y = y) →
    let el (o : MxSrc) : Nat → Nat → MxElem := x.mxElem o sparse
    let sum (f : Nat → BitVec 96 × BitVec 4) : BitVec 96 := (List.range k).foldl (fun v i => v + (f i).1) 0
    let term (i j : Nat) (c : Nat) : BitVec 96 × BitVec 4 := mxProduct t.anchor (el p i c) (el q j c)
    let check (j : Nat) (c : Nat) : BitVec 96 × BitVec 4 :=
      mxProduct t.anchor (mxColumn rows fun i => el p i c) (el q j c)
    ∃ y : Tile, SeqDone (if sparse then .mxms m sh a b scl bm else .mxm m sh a b scl) x
        (x.passed { x.b with tiles := x.b.tiles.set sh.tile.toNat y }) ∧ y.anchor = t.anchor ∧
      (∀ i j, i < 256 → j < 256 → y.at1 i j = if i < rows ∧ j < cols then t.at1 i j + sum (term i j) else t.at1 i j) ∧
      (∀ j, j < 256 → y.check1 j = if m.ck ∧ j < cols then t.check1 j + sum (check j) else t.check1 j) ∧
      ∀ n, n < 4 → (y.flags.getLsbD n = true ↔ t.flags.getLsbD n = true ∨
        (∃ i j c, i < rows ∧ j < cols ∧ c < k ∧ (term i j c).2.getLsbD n = true) ∨
        (m.ck = true ∧ ∃ j c, j < cols ∧ c < k ∧ (check j c).2.getLsbD n = true))

/-- R322 to R326: MXZ clears a tile and sets its anchor; MXRD drains columns into vector registers that wait for the drain;
MXWR replaces elements, with the check row under RC; MXSWP exchanges a tile with its image in the scratchpad; MXST and MXCS
leave their z registers empty until the flags, or the first nonzero column difference, are formed. MXRD and MXWR go on by
waves, MXSWP by the image's first part and its rows, and MXCS by 32 columns, the model's steps (R310, log 65). -/
def Obligations.AccumulatorWords : Prop :=
  (∀ (tile : BitVec 2) (anchor : Src) (s : State) (x : Sq) (t : Tile), streaming s = some x →
    x.b.tiles[tile.toNat]? = some t → x.Full [anchor] →
    let v := (x.val .s false anchor).toInt
    v ≤ 511 → -512 ≤ v →
    ∃ y : Tile, SeqDone (.mxz tile anchor) x (x.passed { x.b with tiles := x.b.tiles.set tile.toNat y }) ∧
      y.anchor.toInt = v ∧ y.flags = 0 ∧ (∀ i j, y.at1 i j = 0) ∧ ∀ j, y.check1 j = 0) ∧
  (∀ (df : DrainFmt) (rnd : Rnd) (tile : BitVec 2) (m : BitVec 3) (j0 nc : Src) (v : RegOp) (s : State) (x : Sq) (t : Tile)
    (ws : List Wave), streaming s = some x → x.b.tiles[tile.toNat]? = some t → x.Full [j0, nc] → x.q.reached = 0 →
    let j := (x.val .z false j0).toNat
    let n := (x.val .z false nc).toNat
    let regs := drainRegs df n
    let dests (i : Nat) (w : Wave) : List (Dest × Word64) := (List.range 32).flatMap fun l => (List.range regs).map fun q =>
      (Dest.v (w.wo + fragBase v + q) l, (drainReg df rnd (fget 0 w.spec 0) t (32 * i + l) j n q).setWidth 64)
    j ≤ 255 → 1 ≤ n → n ≤ 64 → j + n ≤ 256 → fragFits x.b (32 * (m.toNat + 1)) (fragBase v) regs = true →
    ws = x.b.waves.take (m.toNat + 1) → ws.length = m.toNat + 1 →
    let drains : List Pending := ((List.range ws.length).zip ws).map fun p =>
      ⟨s.nextId + p.1, x.bid, p.1, dests p.1 p.2, false, seqLane, tile.setWidth 64, 0, false, none, s.nextId + p.1, none⟩
    SeqDoneIn (.mxrd df rnd tile m j0 nc v) x
      { s with nextId := s.nextId + ws.length, pendings := s.pendings ++ drains.take 1 }
      (x.onward (m.toNat + 1) { x.q with drains := drains.drop 1 } { x.b with
        waves := (((List.range ws.length).zip ws).map fun p =>
          p.2.emptyDests ((dests p.1 p.2).map Prod.fst) (.pend (s.nextId + p.1))) ++ x.b.waves.drop ws.length })) ∧
  (∀ (df : DrainFmt) (rnd : Rnd) (tile : BitVec 2) (m : BitVec 3) (j0 nc : Src) (v : RegOp) (s : State) (x : Sq),
    streaming s = some x → x.q.reached ≠ 0 →
    SeqDoneIn (.mxrd df rnd tile m j0 nc v) x { s with pendings := s.pendings ++ x.q.drains.take 1 }
      (x.onward (m.toNat + 1) { x.q with drains := x.q.drains.drop 1 } x.b)) ∧
  (∀ (sf : DrainFmt) (rc : Bool) (tile : BitVec 2) (m : BitVec 3) (j0 nc : Src) (v : RegOp) (s : State) (x : Sq) (t : Tile),
    streaming s = some x → x.b.tiles[tile.toNat]? = some t → x.Full [j0, nc] →
    let j := (x.val .z false j0).toNat
    let n := (x.val .z false nc).toNat
    let per := if sf = .raw then 3 else 1
    let wi := x.q.reached
    j ≤ 255 → 1 ≤ n → n ≤ 64 → j + n ≤ 256 →
    (if wi = 0 then fragFits x.b (32 * (m.toNat + 1)) (fragBase v) (per * n)
      else waveFits x.b (fragBase v) (per * n) wi) = true →
    (∀ r q, (if wi = 0 then r < 32 * (m.toNat + 1) else r / 32 = wi) → q < per * n →
      (fragCell x.b r (fragBase v + q)).fill = .full) →
    let new (i c : Nat) : BitVec 96 × BitVec 4 := writeElem sf t.anchor fun q => (fragCell x.b i (fragBase v + per * c + q)).val
    ∃ y : Tile, SeqDone (.mxwr sf rc tile m j0 nc v) x
        (x.onward (m.toNat + 1) x.q { x.b with tiles := x.b.tiles.set tile.toNat y }) ∧
      y.anchor = t.anchor ∧
      (∀ i k, i < 256 → k < 256 → y.at1 i k = if i / 32 = wi ∧ j ≤ k ∧ k < j + n then (new i (k - j)).1 else t.at1 i k) ∧
      (∀ k, k < 256 → y.check1 k = if rc ∧ j ≤ k ∧ k < j + n then t.check1 k +
        (List.range 32).foldl (fun v i => v + ((new (32 * wi + i) (k - j)).1 - t.at1 (32 * wi + i) k)) 0 else t.check1 k) ∧
      ∀ f, f < 4 → (y.flags.getLsbD f = true ↔ t.flags.getLsbD f = true ∨
        ∃ i c, i / 32 = wi ∧ c < n ∧ (new i c).2.getLsbD f = true)) ∧
  (∀ (tile : BitVec 2) (off : Src) (s : State) (x : Sq) (t : Tile), streaming s = some x →
    x.b.tiles[tile.toNat]? = some t → x.Full [off] →
    let v := (x.val .z false off).toNat
    let o := match off with
      | .imm _ => 64 * v
      | .reg _ => v
    let p := x.q.reached
    let a := o + partAt p
    o % 64 = 0 → o + 789568 ≤ 1024 * x.b.shape.sp → absentIn x.b a (partLen p) = false →
    poisonIn x.b a (partLen p) = none →
    ∃ b' y, SeqDone (.mxswp tile off) x (x.onward 257 x.q b') ∧ b'.tiles = x.b.tiles.set tile.toNat y ∧
      y.anchor = (if p = 0 then (wordOf 16 (x.b.spad.readN o 2)).setWidth 10 else t.anchor) ∧
      y.flags = (if p = 0 then (x.b.spad.read (o + 2)).setWidth 4 else t.flags) ∧
      (∀ k, k < 256 → y.check1 k = if p = 0 then wordOf 96 (x.b.spad.readN (o + 64 + 12 * k) 12) else t.check1 k) ∧
      (∀ i k, i < 256 → k < 256 → y.at1 i k =
        if p = i + 1 then wordOf 96 (x.b.spad.readN (o + 3136 + 3072 * i + 12 * k) 12) else t.at1 i k) ∧
      (∀ k, b'.spad.read k = if a ≤ k ∧ k < a + partLen p then ((imagePart t p)[k - a]?).getD unlisted
        else x.b.spad.read k) ∧
      (∀ l, fget 0 b'.stag l = if a / 64 ≤ l ∧ l < (a + partLen p) / 64 then 0x000A else fget 0 x.b.stag l) ∧
      b' = { x.b with tiles := b'.tiles, spad := b'.spad, stag := b'.stag }) ∧
  (∀ (n : Nat) (tile : BitVec 2) (s : State) (x : Sq) (t : Tile), streaming s = some x → x.b.tiles[tile.toNat]? = some t →
    SeqDoneIn (.mxst (.z n) tile) x
      { s with
        nextId := s.nextId + 1
        pendings := s.pendings ++
          [⟨s.nextId, x.bid, 0, [(.z n, t.flags.setWidth 64)], false, seqLane, tile.setWidth 64, 0, false, none, s.nextId, none⟩] }
      (x.past { x.q with z := fput fullS x.q.z n ⟨0, .pend s.nextId⟩ } x.b)) ∧
  (∀ (n : Nat) (tile : BitVec 2) (s : State) (x : Sq) (t : Tile), streaming s = some x → x.b.tiles[tile.toNat]? = some t →
    let diff (j : Nat) : BitVec 96 := (List.range 256).foldl (fun v i => v + t.at1 i j) 0 - t.check1 j
    let first (cols : Nat) : BitVec 96 := (((List.range cols).map diff).find? fun v => v ≠ 0).getD 0
    let v : BitVec 128 := (first 256).signExtend 128
    x.q.found = first (32 * x.q.reached) →
    (x.q.reached < 7 → SeqDone (.mxcs (.z n) tile) x
      (x.onward 8 { x.q with found := first (32 * (x.q.reached + 1)) } x.b)) ∧
    (x.q.reached = 7 → SeqDoneIn (.mxcs (.z n) tile) x
      { s with
        nextId := s.nextId + 1
        pendings := s.pendings ++ [⟨s.nextId, x.bid, 0, [(.z n, v.setWidth 64), (.z (n + 1), (v >>> 64).setWidth 64)],
          false, seqLane, tile.setWidth 64, 0, false, none, s.nextId, none⟩] }
      (x.past { x.q with z := fput fullS (fput fullS x.q.z n ⟨0, .pend s.nextId⟩) (n + 1) ⟨0, .pend s.nextId⟩ } { x.b with
        tiles := x.b.tiles.set tile.toNat { t with flags := if first 256 ≠ 0 then t.flags ||| 8 else t.flags } })))

/-! ### Events of waves -/

/-- R290: with every lane of the block at TBAR or exited, all that wait depart; in a DET task the block's deferred scratchpad
atomics are applied first, in key order (R150). R291: with every block of the grid ended or
arrived, and every release done, all of the task's waiting lanes depart from TGBAR; with DET the deferred atomics are
flushed first and a new epoch begins (R150). -/
def Obligations.BarrierCompletions : Prop :=
  (∀ (s : State) (b : Block) (bid core : Nat), getBlock s bid = some b → b.core = some core → taskDet s b.task = false →
    (∀ w ∈ b.waves, w.retired = true ∨ ∀ l ∈ w.lanes, l.st = .exited ∨ ∃ e, l.st = .tbar e) →
    (∃ w ∈ b.waves, ∃ l ∈ w.lanes, ∃ e, l.st = .tbar e) →
    ∃ u, exec (.blockBarrierComplete bid) s = .next u ∧
      { u with blocks := s.blocks, order := s.order, dvfs := s.dvfs, freeIx := s.freeIx } = s ∧
      ∀ k, getBlock u k = if k = bid then some (b.going fun
        | .tbar e => some e
        | _ => none) else getBlock s k) ∧
  (∀ (s : State) (b : Block) (bid core : Nat), getBlock s bid = some b → b.core = some core → taskDet s b.task = true →
    (∀ w ∈ b.waves, w.retired = true ∨ ∀ l ∈ w.lanes, l.st = .exited ∨ ∃ e, l.st = .tbar e) →
    (∃ w ∈ b.waves, ∃ l ∈ w.lanes, ∃ e, l.st = .tbar e) →
    let es := s.detbuf.filter fun e => decide (e.bid = bid) && e.onSpad
    (∀ e ∈ es, detPresent s e = true ∧ storeHeld b e = false) →
    let s' := (sortBy detBefore es).foldl flushOne s
    ∀ b', getBlock s' bid = some b' → ∃ u, exec (.blockBarrierComplete bid) s = .next u ∧
      { u with blocks := s'.blocks, order := s'.order, dvfs := s'.dvfs, freeIx := s'.freeIx } = s' ∧
      ∀ k, getBlock u k = if k = bid then some (b'.going fun
        | .tbar e => some e
        | _ => none) else getBlock s' k) ∧
  (∀ (s : State) (t : Task) (task : Nat), getTask s task = some t → t.det = false → gridReady s t = true →
    ∃ u, exec (.gridBarrierComplete task) s = .next u ∧ SameMemory s u ∧
      (∀ k b, getBlock s k = some b → b.task = task → getBlock u k = some (b.going fun
        | .tgbar e _ => some e
        | _ => none)) ∧
      ∀ k, (∀ b ∈ s.blocks, b.id = k → b.task ≠ task) → getBlock u k = getBlock s k) ∧
  (∀ (s s' : State) (t : Task) (task : Nat), getTask s task = some t → t.det = true → gridReady s t = true →
    flushTask s task = (s', true) →
    let renewed (b : Block) : Block := { b with waves := b.waves.map fun w =>
      { w with det := 0, lanes := w.lanes.map fun l => { l with seq := 0 } } }
    ∃ u, exec (.gridBarrierComplete task) s = .next u ∧ SameMemory s' u ∧
      (∀ k b, getBlock s' k = some b → b.task = task → getBlock u k = some ((renewed b).going fun
        | .tgbar e _ => some e
        | _ => none)) ∧
      ∀ k, (∀ b ∈ s'.blocks, b.id = k → b.task ≠ task) → getBlock u k = getBlock s' k)

/-- R32 to R34: a call that needs no spill pushes its frame, moves the window and gives the callee zero, full registers above
what the caller had; beyond SPLIM it takes STKOVF. A return pops the frame and releases the callee's registers above its window, which
read as 0 and full from then on (log 85). -/
def Obligations.CallsAndReturns : Prop :=
  (∀ (s : State) (b : Block) (w : Wave) (bid wi k ws : Nat) (site callee ret : Word64),
    getBlock s bid = some b → nth b.waves wi = some w → b.core.isSome = true → w.parked = [] →
    w.callSite = some (site, callee, ret, k, ws) → w.frames.length < 16 →
    (w.wo + k + ws ≤ w.low + b.shape.rpl →
      ∃ w', ChangesBlock (.callComplete bid wi) s s bid { b with waves := b.waves.set wi w' } ∧
        (∀ ix l, l < 32 → fget fullV w'.vreg (vkey ix l) =
          if w.wo + w.ws ≤ ix ∧ ix < w.wo + k + ws then ⟨0, .full⟩ else fget fullV w.vreg (vkey ix l)) ∧
        (∀ l, laneOf w' l = if l < 32 ∧ l < w.lanes.length ∧ (laneOf w l).st ≠ .exited then
          { laneOf w l with st := .runnable, tp := callee } else laneOf w l) ∧
        w' = { w with
          vreg := w'.vreg, lanes := w'.lanes, wo := w.wo + k, ws := ws, depth := w.depth + 1
          frames := ⟨ret, w.wo, w.ws⟩ :: w.frames }) ∧
    (w.low + b.shape.rpl < w.wo + k + ws → spillLimit s b < 4 * (w.low + 16) + 16 * (w.depth + 1) →
      exec (.callComplete bid wi) s = .next (takePost s b wi site site
        (maskOf fun l => (laneOf w l).st ≠ .exited) .stkovf 0 none true))) ∧
  (∀ (s : State) (b : Block) (w : Wave) (f : Frame) (fs : List Frame) (bid wi : Nat) (site : Word64),
    getBlock s bid = some b → nth b.waves wi = some w → b.core.isSome = true → w.parked = [] →
    w.returnSite = some site → 0 < w.depth → w.frames = f :: fs → w.low ≤ f.wo →
    (∀ p ∈ w.vreg, f.wo + f.ws ≤ p.1 / 32 → p.2.fill = .full) →
    ∃ w', ChangesBlock (.returnComplete bid wi) s s bid { b with waves := b.waves.set wi w' } ∧
      (∀ ix l, l < 32 → fget fullV w'.vreg (vkey ix l) =
        if f.wo + f.ws ≤ ix ∧ ix < w.wo + w.ws then ⟨0, .full⟩ else fget fullV w.vreg (vkey ix l)) ∧
      (∀ l, laneOf w' l = if l < 32 ∧ l < w.lanes.length ∧ (laneOf w l).st ≠ .exited then
        { laneOf w l with st := .runnable, tp := f.rettp } else laneOf w l) ∧
      w' = { w with vreg := w'.vreg, lanes := w'.lanes, wo := f.wo, ws := f.ws, depth := w.depth - 1, frames := fs })

/-- R37, R38, R274: data that arrives fills the registers of the wave, and the entries of its trace, that still wait for its
producer, and no other; an LDG's only outside its bank's refresh (R105), and data from a home after what the home's die sent before
it (R358). R413: poison that a register waits for loses the
context. R315, R318, R326: a drain's value, or a flag or sum of the sequencer's, lands in the register of a wave or the z
register that waits for it, after the drains ahead of it; a register that the wave has written since keeps one of the two
values. -/
def Obligations.DataArrives : Prop :=
  (∀ (s : State) (p : Pending) (b : Block) (w : Wave) (id : Nat) (e : Instr), findPending s id = some p →
    responseDue s p = true →
    ((e = .registerDataArrival id ∧ p.atom = false ∧ underRefresh s p.pa = false) ∨ (e = .atomicResponse id ∧ p.atom = true)) →
    getBlock s p.bid = some b → nth b.waves p.wave = some w → p.lane ≠ seqLane →
    ((p.poison = false ∨ w.wants id p.dests = false) → ∃ u w', exec e s = .next u ∧ SameMemory s u ∧
      getWave u p.bid p.wave = some w' ∧
      u.pendings = (pinLoads s fun x _ => decide (x.id = id)).pendings.filter (fun q => q.id ≠ id) ∧
      (∀ n, fget fullV w'.vreg n =
        match p.dests.find? fun d => match d.1 with
          | .v ix l => vkey ix l = n
          | _ => false with
        | some d => if (fget fullV w.vreg n).fill = .pend id then ⟨d.2.setWidth 32, .full⟩ else fget fullV w.vreg n
        | none => fget fullV w.vreg n) ∧
      (∀ n, fget fullS w'.sreg n =
        match p.dests.find? fun d => d.1 = .s n with
        | some d => if (fget fullS w.sreg n).fill = .pend id then ⟨d.2, .full⟩ else fget fullS w.sreg n
        | none => fget fullS w.sreg n) ∧
      (∀ t, w.trace = some t → ∃ t', w'.trace = some t' ∧ (∀ n, ffind t'.ov n =
        match p.dests.find? fun d => match d.1 with
          | .v ix l => vkey ix l = n && t.live.getLsbD l
          | _ => false with
        | some d => if (ffind t.ov n).map (·.fill) = some (.pend id) then some ⟨d.2.setWidth 32, .full⟩ else ffind t.ov n
        | none => ffind t.ov n) ∧ ∀ n, ffind t'.os n =
        match p.dests.find? fun d => d.1 = .s n with
        | some d => if (ffind t.os n).map (·.fill) = some (.pend id) then some ⟨d.2, .full⟩ else ffind t.os n
        | none => ffind t.os n)) ∧
    (p.poison = true → w.wants id p.dests = true → (getCtx s b.ctx).lost = false → (getCtx s b.ctx).losing = none →
      ∃ u, exec e s = .next u ∧ (getCtx u b.ctx).lost = true ∧ ∀ c ∈ u.blocks, c.ctx ≠ b.ctx)) ∧
  (∀ (s : State) (p : Pending) (b : Block) (w : Wave) (q : SeqState) (id : Nat), findPending s id = some p →
    responseDue s p = true → p.atom = false → underRefresh s p.pa = false → drainAhead s p = false → p.lane = seqLane →
    p.poison = false → getBlock s p.bid = some b → nth b.waves p.wave = some w → w.retired = false → b.seq = some q →
    let at_ (d : Dest × Word64) : Option Nat := match d.1 with
      | .v ix l => some (vkey ix l)
      | _ => none
    (p.dests.filterMap at_).Nodup →
    ∃ u w' q', exec (.registerDataArrival id) s = .next u ∧ SameMemory s u ∧ getWave u p.bid p.wave = some w' ∧
      (getBlock u p.bid).bind (·.seq) = some q' ∧
      u.pendings = (pinLoads s fun x _ => decide (x.id = id)).pendings.filter (fun q => q.id ≠ id) ∧
      (∀ n, fget fullS q'.z n = match p.dests.find? fun d => d.1 = .z n with
        | some d => if (fget fullS q.z n).fill = .pend id then ⟨d.2, .full⟩ else fget fullS q.z n
        | none => fget fullS q.z n) ∧
      ∀ n, match p.dests.find? fun d => at_ d = some n with
        | some d =>
          ((fget fullV w.vreg n).fill = .pend id → fget fullV w'.vreg n = ⟨d.2.setWidth 32, .full⟩) ∧
          ((fget fullV w.vreg n).fill ≠ .pend id → fget fullV w'.vreg n = fget fullV w.vreg n ∨
            ((fget fullV w.vreg n).fill = .full ∧ fget fullV w'.vreg n = ⟨d.2.setWidth 32, .full⟩))
        | none => fget fullV w'.vreg n = fget fullV w.vreg n)

/-- R136, R277: an operation whose release condition holds is performed, and its lanes go on. R145, R451: a watched line is
confirmed where its home still holds the copy's instance and stamp for an owner that may reach the line, else struck, and
the question crosses the links on its way (R10), after the core's earlier requests to that home (R358); a denial of the owner is recorded (R115), and that its watch is struck is
the model's reading (log 70). R312: an arrival counts once the wave's
producers have landed. R40, R443: a wave whose lanes have exited retires. R177: the active wave that has gone longest
without waiting is to be moved out for a pending one. -/
def Obligations.WaveEvents : Prop :=
  (∀ (s : State) (o : BOp) (b : Block) (w : Wave) (core id : Nat), (s.ops.find? fun o => o.id = id) = some o →
    getBlock s o.bid = some b → b.core = some core → nth b.waves o.wave = some w → o.body = .fence → o.sent = false →
    o.waits = [] → releaseMet s core o.scope id = true →
    ∃ u w', exec (.releaseConditionMet id) s = .next u ∧ SameMemory s u ∧ u.ops = s.ops.filter (fun o => o.id ≠ id) ∧
      getWave u o.bid o.wave = some w' ∧
      ∀ l, laneOf w' l = if l < 32 ∧ o.lanes.getLsbD l ∧ (laneOf w l).st = .op id then
        { laneOf w l with st := .runnable, tp := o.succ } else laneOf w l) ∧
  (∀ (s : State) (id inst stamp : Nat) (b : Block) (r : Watch), findWatch s id = some (b, r) → r.st = .pending inst stamp →
    let may := ownerOk s (ctxOwner s b.ctx) (r.line * 64)
    let st : WatchState := if may = true ∧ ffind s.stamps r.line = some ⟨inst, stamp⟩ then .confirmed else .struck
    let core := b.core.getD 0
    let s1 := roundTrip (pinHome s core (r.line * 64)) (dieOf core) (paDie (r.line * 64))
    (requestsAhead s core (r.line * 64) = true → exec (.watchResolution id) s = .next s) ∧
    (requestsAhead s core (r.line * 64) = false → ∃ u, exec (.watchResolution id) s = .next u ∧ (may = true → { u with blocks := s.blocks } = s1) ∧
      (may = false → Logged s u 4 0x0030 fun e => e.ctx.toNat = b.ctx % 2 ^ 16 ∧ e.pa.toNat = r.line * 64 % 2 ^ 64) ∧
      ∀ k wi, getWave u k wi = (getWave s k wi).map fun w =>
        { w with trace := w.trace.map fun t => { t with watch := t.watch.map fun y =>
            if y.id = id then { y with st := st } else y } })) ∧
  (∀ (s : State) (a : Arrival) (b : Block) (id : Nat), (s.arrivals.find? fun a => a.id = id) = some a → a.waits = [] →
    getBlock s a.bid = some b → (getQBar b a.q).ra < 65535 →
    ChangesBlock (.sqarrArrival id) s { s with arrivals := s.arrivals.filter fun x => x.id ≠ id } a.bid
      (setQBar b a.q { getQBar b a.q with ra := (getQBar b a.q).ra + 1 })) ∧
  (∀ (s : State) (b : Block) (w : Wave) (bid wi : Nat), getBlock s bid = some b → nth b.waves wi = some w →
    b.core.isSome = true → w.retired = false → w.trace = none → w.path = [] → (∀ l ∈ w.lanes, l.st = .exited) →
    w.landed = true →
    let w' := { w with retired := true, vreg := [], sreg := [], readyAt := none, keep := false }
    ChangesBlock (.waveRetire bid wi) s s bid { b with waves := b.waves.set wi w' }) ∧
  (∀ (s : State) (b : Block) (w : Wave) (bid wi core unit : Nat), (oldestPending s core unit).isSome = true →
    leastBy (fun p => p.2.2.since.getD s.tick) ((unitWaves s core unit).filter fun p => decide (p.2.2.slot < 8) && p.2.2.ready) = some (bid, wi, w) →
    getBlock s bid = some b → nth b.waves wi = some w →
    ChangesBlock (.pendingWaveAging core unit) s s bid { b with waves := b.waves.set wi { w with demote := true } })

/-- R190, R334: a sequencer whose fetch faults on a page leaves one record of KIND 2 with its pc, and waits for the page. -/
def Obligations.SequencerFetchFaults : Prop :=
  ∀ (s s' : State) (b : Block) (q : SeqState) (bid f d : Nat) (va : Option Word64), getBlock s bid = some b →
    b.core.isSome = true → b.seq = some q → q.run = .running → seqFetch s b q = (s', .stop (.exc .pgflt f d va)) →
    getBlock s' bid = some b →
    ∃ u r, exec (.sequencerFetchFault bid) s = .next u ∧ SameMemory s' u ∧
      getBlock u bid = some { b with seq := some { q with run := .faulted ((va.getD q.pc).toNat / 65536) } } ∧
      (getCtx u b.ctx).held = (getCtx s' b.ctx).held ++ [r] ∧ (getCtx u b.ctx).xseq = (getCtx s' b.ctx).xseq + 1 ∧
      r.kind = 2 ∧ r.exc = .pgflt ∧ r.seq = (getCtx s' b.ctx).xseq ∧ r.ctx = b.ctx ∧ r.wave = 0xFF ∧ r.lanes = 0 ∧
      r.tp = q.pc ∧ r.word = q.pc ∧ r.va = va.getD q.pc ∧ r.blk = b.lin

/-- R304: the CP appends a record, in its order and after the poster's release, to an enabled queue of its context with room
in frames that the context owns: its words stand in the ring from WIDX on, WIDX passes them, and no other byte changes. -/
def Obligations.QueueAppend : Prop :=
  ∀ (s : State) (p : Post) (id : Nat), (s.posts.find? fun p => p.id = id) = some p →
    (∀ x ∈ s.posts, ¬(x.id < p.id ∧ x.core = p.core ∧ x.queue = p.queue)) → releaseMet s p.core .device p.id = true →
    let q := getQueue s p.queue
    let n := p.words.length
    let unit (i : Nat) : Nat := q.ring + 8 * ((q.widx.toNat + i) % 2 ^ q.logd)
    p.queue < 4096 → q.enabled = true → q.ctx = p.ctx → (q.widx - q.ridx).toNat + n ≤ 2 ^ q.logd →
    (∀ i, i < n → masterAns s 0x48 (ctxOwner s p.ctx) (unit i) 8 true = none ∧ fget 0 s.upsets (unit i / 64) = 0 ∧
      NoMap s (unit i) 8) →
    ∃ u, exec (.qpostAppend id) s = .next u ∧ u.posts = s.posts.filter (fun x => x.id ≠ id) ∧
      getQueue u p.queue = { q with widx := q.widx + BitVec.ofNat 32 n } ∧
      (∀ (i j : Nat) (v : Word64), p.words[i]? = some v → j < 8 → u.dram.read (unit i + j) = (v >>> (8 * j)).setWidth 8) ∧
      (∀ a, (∀ i, i < n → a < unit i ∨ unit i + 8 ≤ a) → u.dram.read a = s.dram.read a) ∧
      u.dtag = s.dtag ∧ u.gran = s.gran ∧ u.gtag = s.gtag ∧ u.blocks = s.blocks

/-- R97, R281: a copy's line whose bytes have been read is written. In the scratchpad, a byte whose M bit is set for this copy
keeps the wave's store, and the line is present then unless another copy has still to write it (log 62); in DRAM all its bytes
are written, after what the core has sent to that home before (R358). A fault of the engine's datapath changes what is written (R469). R282: the copy's bytes come off PB at its
end; a phase that the counts now complete turns PH, takes XA off RA and lets the waiting lanes go. -/
def Obligations.CopyEvents : Prop :=
  (∀ (s s1 s2 : State) (c : Copy) (b : Block) (id line : Nat) (a : Word64) (xs : List Chunk) (p : Place),
    (s.copies.find? fun c => c.id = id) = some c → getBlock s c.bid = some b → b.core.isSome = true →
    nth (linesOf c.cmd) line = some a → c.stopped = none → channelFree s c = true → line ∉ c.done → lineTaken s c a = false →
    (∀ l, physLine s b c a = some l → ownedEarlier s c l = false) →
    readChunks s b c (chunksOf c.cmd a) = (s1, .ok xs) →
    (∀ x ∈ xs, x.poison = false ∧ x.bytes.length = 16 ∧ x.j < 4) → (xs.map (·.j)).Nodup →
    (xs.length = 4 → xs.map (·.j) = [0, 1, 2, 3]) →
    copyPlace s1 { whoOf s1 b 2 with core := c.core, master := c.core } a true = (s2, .ok p) →
    let ys := xs.map (c.flawed a)
    let written (u : State) : Prop := exec (.copyLineTransfer id line) s = .next u ∧
      u.copies.map (·.id) = s2.copies.map (·.id) ∧ ∀ c' ∈ u.copies, c'.id = id → line ∈ c'.done
    (∀ off b1, p = .spad off → getBlock s2 c.bid = some b1 →
      let at' (x : Chunk) (i : Nat) : Nat := off / 64 * 64 + 16 * x.j + i
      ∃ u b', written u ∧ getBlock u c.bid = some b' ∧
        absentIn b' (off / 64 * 64) 64 = (fget [] b1.absent (off / 64)).any (fun m => decide (m.1 ≠ id)) ∧
        u.dram = s2.dram ∧ u.gran = s2.gran ∧
        (∀ x ∈ ys, ∀ i v, x.bytes[i]? = some v → b'.spad.read (at' x i) =
          if (fget [] b1.absent (off / 64)).any fun m => decide (m.1 = id) && m.2.getLsbD (16 * x.j + i) then
            b1.spad.read (at' x i) else v) ∧
        ∀ k, (∀ x ∈ xs, k < at' x 0 ∨ at' x 16 ≤ k) → b'.spad.read k = b1.spad.read k) ∧
    (∀ pa cp desc, p = .phys pa cp desc false → pa < ctlBase → homeAns s2 c.core (ctxOwner s1 b.ctx) pa true = .ok →
      ((xs.length = 4 ∧ readByCopyLine c.cmd a = false) ∨ fget 0 s2.upsets (pa / 64) = 0) →
      requestsAhead s2 c.core pa = false → pageHeld s2 c.core b.ctx a.toNat p c.id = false → NoMap s2 (pa / 64 * 64) 64 →
      ∃ u, written u ∧ u.gran = s2.gran ∧ u.blocks = s2.blocks ∧
        (∀ x ∈ ys, u.dram.readN (pa / 64 * 64 + 16 * x.j) 16 = x.bytes) ∧
        ∀ k, (∀ x ∈ xs, k < pa / 64 * 64 + 16 * x.j ∨ pa / 64 * 64 + 16 * x.j + 16 ≤ k) →
          u.dram.read k = s2.dram.read k)) ∧
  (∀ (s : State) (c : Copy) (b : Block) (id : Nat), (s.copies.find? fun c => c.id = id) = some c →
    getBlock s c.bid = some b → b.core.isSome = true → (linesOf c.cmd).length ≤ c.done.length → channelFree s c = true → copyAcked s c = true →
    let x := getBar b c.cmd.bar
    let pb := x.pb - BitVec.ofNat 64 (c.cmd.rowBytes * c.cmd.srcs.length)
    let base := { s with copies := s.copies.filter fun x => x.id ≠ id }
    ((pb ≠ 0 ∨ x.ra.toNat < x.xa) → ChangesBlock (.copyComplete id) s base c.bid (setBar b c.cmd.bar { x with pb := pb })) ∧
    (pb = 0 → 0 < x.xa → x.xa ≤ x.ra.toNat →
      ∃ u, exec (.copyComplete id) s = .next u ∧ SameMemory s u ∧ u.copies = base.copies ∧
        getBlock u c.bid = some ((setBar b c.cmd.bar
          { x with pb := 0, ra := x.ra - BitVec.ofNat 32 x.xa, ph := !x.ph }).going fun
            | .bytes m _ e => if m = c.cmd.bar then some e else none
            | _ => none)))

/-- R290, R442: a TBAR that can complete does so before a slice ends or a block is saved. R62, R180: a slice that ends with
other work to do halts the core for its context and discards the traces there. R181,
R182: a block is saved whole into frames of the pool and leaves its core; R184: it comes back whole, its waves in slots. -/
def Obligations.SlicesAndSaves : Prop :=
  (∀ (s0 : State) (core ctx : Nat), let s := barriersFirst s0 ((residents s0 core).filter fun b => b.ctx = ctx)
    (∃ b ∈ s.blocks, b.core = some core ∧ b.ctx = ctx ∧ blockDone s b = false) →
    (getCore s core).halted = none → hasWork s core (fun c => decide (c ≠ ctx)) 0 = true →
    ∃ u, exec (.sliceExpiry core ctx) s0 = .next u ∧ SameMemory s u ∧
      getCore u core = { getCore s core with halted := some ctx } ∧
      ∀ k, getBlock u k = (getBlock s k).map fun b =>
        if b.core = some core ∧ b.ctx = ctx then { b with waves := b.waves.map Wave.discard } else b) ∧
  (∀ (s0 s : State) (b : Block) (bid core : Nat), s = tryTbar s0 bid → getBlock s bid = some b → b.core = some core →
    ((getCore s core).halted = some b.ctx ∨ (stalled s b = true ∧ hasWork s core (fun _ => true) bid = true)) →
    blockDone s b = false → settled s b = true → saveSize b.shape ≤ (freePool s b.ctx).length →
    let fs := (freePool s b.ctx).take (saveSize b.shape)
    saveDenied s fs = none → (∀ f ∈ fs, NoMap s (f * 65536) 65536) →
    ∃ u, exec (.blockSave bid) s0 = .next u ∧
      getBlock u bid = some { b with
        core := none, saveFrames := fs
        waves := b.waves.map fun w => { w.discard with keep := false, readyAt := none, demote := false } } ∧
      (∀ k, k ≠ bid → getBlock u k = getBlock s k) ∧ u.gran = s.gran ∧
      (∀ a, a / 65536 ∉ fs → u.dram.read a = s.dram.read a) ∧
      (∀ t, getTask s b.task = some t → getTask u b.task = some
        (if (getCore s core).halted = some b.ctx then { t with preempt := t.preempt + 1 } else t))) ∧
  (∀ (s : State) (b : Block) (bid core : Nat) (places : List (Nat × Nat)), getBlock s bid = some b → b.core = none →
    pagesResolved s b = true → holderWaits s b = false → restoreOn s b core = true →
    wavePlaces s core b.shape.w = some places → places.length = b.waves.length →
    ∃ u b', exec (.blockRestore bid core) s = .next u ∧ SameMemory s u ∧ getBlock u bid = some b' ∧
      b'.unslotted = Block.unslotted { b with
        core := some core, saveFrames := [], seq := b.seq.map fun q => { q with unit := freeSeq s core }
        waves := (b.waves.zip places).map fun p => { p.1 with unit := p.2.1 } } ∧
      b'.waves.map (·.slot) = places.map (·.2) ∧ ∀ k, k ≠ bid → getBlock u k = getBlock s k)

/-! ### Events of queues and tasks -/

/-- R155, R156, R157, R159, R160, R163, R418: a doorbell sets WIDX, or freezes the queue where the ring would hold more than
its depth. The record at the head of the queue that is next is taken: its fields are inherited and RIDX passes it. A LAUNCH
makes a task that waits for exactly the live tasks of its context whose tiles outside the arena conflict with its own; of a
tile of the arena it waits for the newest version's writer, and a write makes a version of its own (which task that is
and which frame it takes are the model's choices, logs 50 and 75; so is that a context without a scheduling record has no
arena, log 88); a SIGNAL or a WAITSIG blocks its queue, with the inherited address and value where its record leaves them out
(the model's choice, log 87); a refused record freezes it, with STATUS 1. -/
def Obligations.QueueRecords : Prop :=
  (∀ (s : State) (q : Nat) (v : BitVec 32), q < 4096 → (getQueue s q).enabled = true → (getQueue s q).frozen = false →
    let x := getQueue s q
    ((v - x.ridx).toNat ≤ 2 ^ x.logd → ∃ u, exec (.queueDoorbell q v) s = .next u ∧ { u with queues := s.queues } = s ∧
      ∀ k, getQueue u k = if k = q then { x with widx := v } else getQueue s k) ∧
    (2 ^ x.logd < (v - x.ridx).toNat → ∃ u, exec (.queueDoorbell q v) s = .next u ∧
      getQueue u q = { x with frozen := true } ∧ Logged s u 4 0x0021 fun r => r.queue.toNat = q)) ∧
  (∀ (s s' : State) (q k : Nat) (h : Word64) (f : Fields) (deta : Nat), nextQueue s = some q → headKind s q = some k →
    let x := getQueue s q
    queueHead { s with cp := { s.cp with served := modifyAt (fun _ => q) x.qpri s.cp.served } } q = (s', .record h f deta) →
    hdrKind h = k →
    let taken (y : QueueSt) : Prop := y.ridx = (getQueue s' q).ridx + BitVec.ofNat 32 (hdrLen h) ∧ y.inh = f
    (k = 1 → poolPoison s' x.ctx = none → let s' := checkPool s' x.ctx
      ∃ u t, exec (.launch q) s = .next u ∧ SameMemory s' u ∧ u.tasks = s'.tasks ++ [t] ∧ taken (getQueue u q) ∧
      t.ctx = (getQueue s' q).ctx ∧ t.queue = q ∧ t.tseq = hdrSeq h ∧ t.f = f ∧ t.st = .waiting ∧ t.deta = deta ∧
      t.accept = (getCtx s' t.ctx).accept ∧ (getCtx u t.ctx).accept = (getCtx s' t.ctx).accept + 1 ∧
      ((∀ tile, inArena s' t.ctx tile = false) → ∀ d, d ∈ t.deps ↔ ∃ v ∈ s'.tasks, v.id = d ∧ v.ctx = t.ctx ∧ ∃ tile,
        (inSet f.rset tile = true ∧ inSet v.f.wset tile = true) ∨
        (inSet f.wset tile = true ∧ (inSet v.f.rset tile = true ∨ inSet v.f.wset tile = true))) ∧
      ∀ tile y, (tilesOf f.rset ++ tilesOf f.wset).eraseDups = [tile] → inArena s' t.ctx tile = true →
        newestVersion { s' with nextId := s'.nextId + 1 } t.ctx tile = some y →
        ((inSet f.rset tile = true ∨ overwrites f.wset tile = false) →
          (inSet f.wset tile = false ∨ freeArena s' t.ctx ≠ []) →
          ∀ d, d ∈ t.deps ↔ y.writer = some d ∧ (getTask s' d).isSome = true) ∧
        (inSet f.wset tile = false → ffind t.tiles tile = some y.id ∧ u.versions = s'.versions) ∧
        (∀ fr, inSet f.wset tile = true → (∃ v ∈ s'.tasks, v.ctx = t.ctx ∧ (readsTile v tile || writesTile v tile) = true) →
          (freeArena s' t.ctx).head? = some fr → ∃ n, u.versions = s'.versions ++ [n] ∧ n.ctx = t.ctx ∧ n.tile = tile ∧
            n.frame = fr ∧ n.writer = some t.id ∧ n.src = (if overwrites f.wset tile then none else some y.id) ∧
            n.ready = false ∧ t.copies = [n.id] ∧ ffind t.tiles tile = some n.id)) ∧
    (k = 2 → ∃ u, exec (.signal q) s = .next u ∧ SameMemory s' u ∧ taken (getQueue u q) ∧ u.tasks = s'.tasks ∧
      (getQueue u q).blocked = some (.signal (hdrSeq h) f.sigAddr f.sigVal)) ∧
    (k = 3 → ∃ u, exec (.waitsig q) s = .next u ∧ SameMemory s' u ∧ taken (getQueue u q) ∧ u.tasks = s'.tasks ∧
      (getQueue u q).blocked = some (.waitsig (hdrSeq h) f.sigAddr f.sigVal))) ∧
  (∀ (s s' : State) (q k : Nat) (h : Word64), nextQueue s = some q → headKind s q = some k →
    let x := getQueue s q
    queueHead { s with cp := { s.cp with served := modifyAt (fun _ => q) x.qpri s.cp.served } } q = (s', .refused h) →
    hdrKind h = k → getQueue s' q = x →
    ∀ i, ((k = 1 ∧ i = .launch q) ∨ (k = 2 ∧ i = .signal q) ∨ (k = 3 ∧ i = .waitsig q)) →
      ∃ u, exec i s = .next u ∧ Completes s' u q (hdrSeq h) k 1 0 0 0 ∧ (getQueue u q).frozen = true ∧
        (getQueue u q).ridx = x.ridx ∧ u.tasks = s'.tasks)

/-- R187, R188: a SIGNAL whose queue has no earlier task left writes its value, at its address where it has one, and posts
its completion record; a WAITSIG does once the word at its address, unsigned, has reached its value, and else goes on
waiting; one without an address (0) completes at once, as the model reads it (log 49). -/
def Obligations.SignalEvents : Prop :=
  (∀ (s : State) (q : Nat) (seq : BitVec 16) (addr val : Word64), (getQueue s q).blocked = some (.signal seq addr val) →
    (∀ t ∈ s.tasks, t.queue ≠ q) →
    (addr = 0 → ∃ u, exec (.signalFire q) s = .next u ∧ (getQueue u q).blocked = none ∧
      Completes s u q seq 2 0 0 0 (recordEnd s q)) ∧
    (∀ s1 pa cp desc, addr ≠ 0 → cpPlace s (getQueue s q).ctx addr true = (s1, .ok (.phys pa cp desc false)) →
      pa < ctlBase → pa % 8 = 0 → homeAns s1 cpMaster (ctxOwner s1 (getQueue s q).ctx) pa true = .ok →
      fget 0 s1.upsets (pa / 64) = 0 → getQueue s1 q = getQueue s q → s1.time = s.time →
      let a := recordAt s q
      ∃ u, exec (.signalFire q) s = .next u ∧ (getQueue u q).blocked = none ∧
        Completes s1 u q seq 2 0 0 0 (recordEnd s q) ∧
        (Writable s1 a 32 → ∀ j, j < 8 → (pa + j < a ∨ a + 32 ≤ pa + j) → u.dram.read (pa + j) = (val >>> (8 * j)).setWidth 8))) ∧
  (∀ (s : State) (q : Nat) (seq : BitVec 16) (val : Word64), (getQueue s q).blocked = some (.waitsig seq 0 val) →
    ∃ u, exec (.waitsigRelease q) s = .next u ∧ (getQueue u q).blocked = none ∧
      Completes s u q seq 3 0 0 0 (recordEnd s q)) ∧
  (∀ (s s1 : State) (q : Nat) (seq : BitVec 16) (addr val v : Word64),
    (getQueue s q).blocked = some (.waitsig seq addr val) → addr ≠ 0 →
    cpLoad s (getQueue s q).ctx addr = (s1, .ok v) → getQueue s1 q = getQueue s q → s1.time = s.time →
    (val.toNat ≤ v.toNat → ∃ u, exec (.waitsigRelease q) s = .next u ∧ (getQueue u q).blocked = none ∧
      Completes s1 u q seq 3 0 0 0 (recordEnd s q)) ∧
    (v.toNat < val.toNat → exec (.waitsigRelease q) s = .next s1))

/-- R164: a version is zeroed, or copied from the one before it with its tags, where the homes let limewash and the CP write
(R115, R119). R163, R167, R170: a task whose dependences
are met is handed to the dispatchers; one whose dependences are not goes on waiting; a COOP task that does not fit is
refused with STATUS 4 in its completion record and EVENT 0x0023. -/
def Obligations.VersionsAndDispatch : Prop :=
  (∀ (s : State) (v : Version) (id : Nat), (s.versions.find? fun v => decide (v.id = id) && !v.ready) = some v →
    v.frame % 65536 = 0 →
    let done (u : State) : Prop := exec (.versionCopy id) s = .next u ∧
      u.versions = s.versions.map (fun y => if y.id = id then { y with ready := true } else y) ∧
      ∀ a, a / 65536 ≠ v.frame / 65536 → u.dram.read a = s.dram.read a
    (v.src = none → v.frame + 65536 ≤ dramEnd → (∀ i, i < 64 → tableOk s i washMaster true = true) → ∃ u, done u ∧ ∀ a, a / 65536 = v.frame / 65536 → u.dram.read a = 0) ∧
    (∀ y, (v.src.bind fun k => s.versions.find? fun y => y.id = k) = some y → y.frame % 65536 = 0 → y.frame ≠ v.frame →
      writerDone s y = true → copyDenied s (ctxOwner s v.ctx) y.frame v.frame = none → (∀ i, i < 1024 → fget 0 s.upsets (y.frame / 64 + i) = 0) →
      ∃ u, done u ∧ ∀ i, i < 65536 → u.dram.read (v.frame + i) = s.dram.read (y.frame + i) ∧
        fget 0 u.dtag ((v.frame + i) / 64) = if fget false s.dpoison ((y.frame + i) / 64) then 0
          else fget 0 s.dtag ((y.frame + i) / 64))) ∧
  (∀ (s : State) (t : Task) (task d : Nat), getTask s task = some t → t.st = .waiting → (liveDispatchers s).head? = some d →
    let met : Prop := (∀ k ∈ t.deps, getTask s k = none) ∧ ∀ k ∈ t.copies, ∃ v ∈ s.versions, v.id = k ∧ v.ready = true
    (¬met → exec (.taskDispatch task) s = .next s) ∧
    (met → (getCtx s t.ctx).lost = false → (t.coop = true → coopFits s t = true) →
      (t.det = true → ∀ j, j < taskSize t → (detCore s t j).isSome = true) →
      ∃ u, exec (.taskDispatch task) s = .next u ∧ { u with tasks := s.tasks } = s ∧
        getTask u task = some { t with st := .placing, leader := d, tiles := startTiles s t }) ∧
    (met → (getCtx s t.ctx).lost = false → t.coop = true → coopFits s t = false →
      Writable s (recordAt s t.queue) 32 → ∃ u, exec (.taskDispatch task) s = .next u ∧
      getTask u task = none ∧ (∀ b ∈ u.blocks, b.task ≠ task) ∧ (Logged s u 4 0x0023 fun r => r.detail = t.tseq) ∧
      Completes s u t.queue t.tseq 1 4 t.preempt (taskStamps s t).1 (taskStamps s t).2))

/-- R20, R30, R39, R97, R117, R168, R172: a task's block is launched on a core that can take it, with no other task ahead
for the core: its coordinates, its scalars, 32 runnable lanes at ENTRY in each wave, a frame of its own, and everything else
zero: its lanes' draw counters, and its waves' frames, spills, write paths and parked pages. That GRD counts, BRK passes and
sequence numbers start at zero is the model's choice (log 4). -/
def Obligations.BlockLaunches : Prop :=
  ∀ (s : State) (t : Task) (task core p ix lin : Nat), getTask s task = some t → physicalOf s core = some p →
    canLaunch s t core p = true → (t.det = true → (detCore s t ix).isSome = true) →
    (∀ v ∈ s.tasks, ahead v t = true → canLaunch s v core p = false) → nextIndex s t core ix = some lin →
    ∃ u b, exec (.blockLaunch task core ix) s = .next u ∧ SameMemory s u ∧ u.blocks = s.blocks ++ [b] ∧
      b.task = t.id ∧ b.ctx = t.ctx ∧ b.lin = lin ∧ b.core = some p ∧ b.frame ∈ freeFrames s t.ctx ∧
      (0 < t.f.gx → 0 < t.f.gy → b.lin = b.x + t.f.gx * (b.y + t.f.gy * b.z) ∧ b.x < t.f.gx ∧ b.y < t.f.gy) ∧
      b.shape = shapeOf t.f.shape ∧ b.waves.length = b.shape.w ∧ b.spad = [] ∧ b.stag = [] ∧ b.absent = [] ∧
      b.bars = [] ∧ b.qbars = [] ∧ b.tiles = List.replicate b.shape.tiles .zero ∧
      (b.shape.seq = false → b.seq = none) ∧
      (b.shape.seq = true → ∃ z, b.seq = some ⟨t.f.seqEntry, z, .running, freeSeq s p, 0, [], 0⟩ ∧ ∀ n, fget fullS z n =
        ⟨if n = 0 then BitVec.ofNat 64 lin else if n = 1 then BitVec.ofNat 64 b.shape.w else 0, .full⟩) ∧
      (getTask u task).map (·.next) =
        some (if t.det = true ∨ (ffind t.claims p).isSome = true ∨ t.again ≠ [] then t.next else t.next + 1) ∧
      ∀ w ∈ b.waves, w.vreg = [] ∧ w.preds = [] ∧ w.spec = [] ∧ w.kreg = [] ∧ w.gens = [] ∧ w.wo = 0 ∧
        w.ws = min b.shape.rpl 192 ∧ w.low = 0 ∧ w.kept = 0 ∧ w.frames = [] ∧ w.depth = 0 ∧ w.trace = none ∧ w.parked = [] ∧
        w.path = [] ∧ w.det = 0 ∧ w.retired = false ∧ w.lanes.length = 32 ∧
        (∀ l ∈ w.lanes, l.st = .runnable ∧ l.tp = t.f.entry ∧ l.draw = 0 ∧ l.gcount = 0 ∧ l.pass = none ∧ l.seq = 0) ∧
        ∀ n, fget fullS w.sreg n = ⟨((t.f.arg :: t.f.inl.take 8 ++ [BitVec.ofNat 64 lin, BitVec.ofNat 64 (b.x + b.y * 2 ^ 32),
          BitVec.ofNat 64 b.z, BitVec.ofNat 64 (t.f.gx + t.f.gy * 2 ^ 32), BitVec.ofNat 64 t.f.gz,
          BitVec.ofNat 64 b.shape.w])[n]?).getD 0, .full⟩

/-- R173, R179: a block whose work is done and whose stores are at their homes leaves its core and counts for its task; its
turn is released; the last block ends its task. R173, R187, R188: an ended task whose stores are at their homes leaves with
its completion record. -/
def Obligations.TaskEnds : Prop :=
  (∀ (s : State) (b : Block) (t : Task) (bid core : Nat), getBlock s bid = some b → b.core = some core →
    blockDone s b = true → releaseMet s core .device (b.ended.getD s.nextId) = true → getTask s b.task = some t →
    ∃ u t', exec (.blockEnd bid) s = .next u ∧ u.dram = s.dram ∧ u.dtag = s.dtag ∧ u.gran = s.gran ∧ u.gtag = s.gtag ∧
      getBlock u bid = none ∧ getTask u b.task = some t' ∧ t'.ended = t.ended + 1 ∧
      t'.st = (if t.ended + 1 = taskSize t then .ending else t.st) ∧ (b.lin = t.ticket → t.ticket < t'.ticket) ∧
      ∀ k c, k ≠ bid → getBlock s k = some c → getBlock u k = some c ∨ getBlock u k = some (c.going fun
        | .ticket e => some e
        | _ => none)) ∧
  (∀ (s : State) (t : Task) (task : Nat), getTask s task = some t → t.st = .ending → t.det = false →
    (getCtx s t.ctx).lost = false →
    (∀ f ∈ s.flights, f.task ≠ task) → peersBusy s task = false → t.f.sigAddr = 0 →
    ∃ u, exec (.taskCompletion task) s = .next u ∧ u.tasks = s.tasks.filter (fun x => x.id ≠ task) ∧
      let start := if t.f.stamp.getLsbD 0 then t.start else 0
      Completes s u t.queue t.tseq 1 0 t.preempt start
        (if t.f.stamp.getLsbD 1 then (if s.time.ptp.toNat < start.toNat then start else s.time.ptp) else 0))

/-! ### Commands of the CP -/

/-- R357: a command with a reserved byte, of any code, is refused with STATUS 1, and so is a code that is not assigned.
R108, R154, R162, R182, R118: CTXSET, SCHEDSET, QSET, SAVEPOOL and METER install what the CP has read; CTXSET and SCHEDSET
answer 2 while a task of the context is live; QSTOP disables its queue. R416: a CTXSET makes a lost context usable again, which
the model reads as the end of its loss, and the regions that its granary map names are claimed for its owner (log 51). -/
def Obligations.InstallCommands : Prop :=
  (∀ (s z : State) (i : Instr) (h : CmdHead), fetchCommand s = (z, some i) → cmdHead i = some h →
    (h.resv = true ∨ ∃ c, i = .cpCommandUnknown h c) → Finishes i s z 1) ∧
  (∀ (s z s1 : State) (h : CmdHead) (ctx addr : Nat) (bs : List Byte) (d : CtxDesc), h.resv = false → ctx < 4096 →
    fetchCommand s = (z, some (.ctxset h ctx addr)) → cmdRead z (some ctx) addr 64 = (s1, some bs) → ctxDesc bs = some d →
    ((∀ t ∈ s1.tasks, t.ctx ≠ ctx) →
      Finishes (.ctxset h ctx addr) s (claimMap (modCtx s1 ctx fun x => { x with desc := some d, lost := false }) d) 0) ∧
    ((∃ t ∈ s1.tasks, t.ctx = ctx) → Finishes (.ctxset h ctx addr) s s1 2)) ∧
  (∀ (s z s1 : State) (h : CmdHead) (ctx addr : Nat) (bs : List Byte) (r : SchedRec), h.resv = false → ctx < 4096 →
    fetchCommand s = (z, some (.schedset h ctx addr)) → cmdRead z (some ctx) addr 32 = (s1, some bs) → schedRec bs = some r →
    ((∀ t ∈ s1.tasks, t.ctx ≠ ctx) →
      Finishes (.schedset h ctx addr) s (modCtx s1 ctx fun x => { x with sched := some r }) 0) ∧
    ((∃ t ∈ s1.tasks, t.ctx = ctx) → Finishes (.schedset h ctx addr) s s1 2)) ∧
  (∀ (s z s1 : State) (h : CmdHead) (q addr : Nat) (bs : List Byte) (x : QueueSt), h.resv = false → q < 4096 →
    fetchCommand s = (z, some (.qset h q addr)) → cmdRead z (queueOwner z q) addr 64 = (s1, some bs) → queueDesc bs = some x →
    ownedByHyp s1 x.carea (32 * 2 ^ x.logc) = true → (getCtx s1 x.ctx).desc.isSome = true →
    Finishes (.qset h q addr) s (modQueue s1 q fun _ => x) 0 ∧ x.enabled = true ∧ x.frozen = false ∧ x.inh = .zero) ∧
  (∀ (s z : State) (h : CmdHead) (q : Nat), h.resv = false → q < 4096 → fetchCommand s = (z, some (.qstop h q)) →
    Finishes (.qstop h q) s (modQueue z q fun x => { x with enabled := false }) 0) ∧
  (∀ (s z s1 : State) (h : CmdHead) (ctx list count : Nat) (bs : List Byte), h.resv = false → ctx < 4096 →
    fetchCommand s = (z, some (.savepool h ctx list count)) → cmdRead z (some ctx) list (8 * count) = (s1, some bs) →
    let fs := (List.range count).map fun i => natOf ((bs.drop (8 * i)).take 8)
    (∀ a ∈ fs, a % 65536 = 0 ∧ ownedByHyp s1 a 65536 = true) →
    Finishes (.savepool h ctx list count) s (modCtx s1 ctx fun x => { x with pool := fs.map (· / 65536) }) 0) ∧
  (∀ (s z : State) (h : CmdHead) (slice srate : Nat), h.resv = false → slice < 64 →
    fetchCommand s = (z, some (.meter h slice srate)) →
    Finishes (.meter h slice srate) s
      { z with meters := fmod .init z.meters slice fun m => { m with srate := srate } } 0)

/-- R116, R415: OWNSET leaves its frames zero, untagged and unpoisoned, with their new owner. R112: TLBINV leaves no entry
of its ASID that it names. R185, R190, R458: PGDONE lets go what waits for its page. R107, R459: GRANCOPY fills its range,
with tags. R429: RESUME lets the lanes that its record trapped go on, with a BRKPT's one-shot pass and without a GLIVE's
count, and a sequencer that it stopped, after a TRAP at the next word. R416, R417: KILL loses its context;
one of a context that is lost, or has no live task, completes and changes nothing else, and one whose stores are still on
their way has lost it already, and goes on after them. R367: QUOTE writes
the measurements, the digest and a signature. That an OWNSET to owner 0 retires an asked frame, which owners a granary region
is claimed for and which tasks keep it busy are the model's readings (log 51). -/
def Obligations.ActingCommands : Prop :=
  (∀ (s z : State) (h : CmdHead) (frame count owner : Nat), h.resv = false → frame + count ≤ dramEnd / 65536 →
    fetchCommand s = (z, some (.ownset h frame count owner)) → (∀ i, i < count → fget false z.gone (frame + i) = false) →
    (∀ i, i < 64 → tableOk z i washMaster true = true) →
    ∃ base, Finishes (.ownset h frame count owner) s base 0 ∧ base.blocks = z.blocks ∧ base.gran = z.gran ∧
      (∀ f, frame ≤ f → f < frame + count → frameOwner base f = owner ∧
        fget false base.gone f = (decide (owner = 0) && fget false z.asked f)) ∧
      (∀ f, (f < frame ∨ frame + count ≤ f) → frameOwner base f = frameOwner z f) ∧
      ∀ a, base.dram.read a = (if frame ≤ a / 65536 ∧ a / 65536 < frame + count then 0 else z.dram.read a) ∧
        fget 0 base.dtag (a / 64) = (if frame ≤ a / 65536 ∧ a / 65536 < frame + count then 0 else fget 0 z.dtag (a / 64)) ∧
        (frame ≤ a / 65536 → a / 65536 < frame + count → fget false base.dpoison (a / 64) = false)) ∧
  (∀ (s z : State) (h : CmdHead) (asid mode addr : Nat), h.resv = false → asid < 4096 → mode ≤ 1 →
    fetchCommand s = (z, some (.tlbinv h asid mode addr)) →
    ∃ y, { y with tlbs := z.tlbs, detbuf := z.detbuf } = z ∧
      (∀ t, t < 68 → fget [] y.tlbs t = (fget [] z.tlbs t).filter fun e =>
        decide (e.asid ≠ asid) || (decide (mode = 0) && decide (e.page ≠ addr / 2 ^ e.shift))) ∧
      (writesPending y asid mode addr = false → Finishes (.tlbinv h asid mode addr) s (remarkQueued y asid) 0 ∧
        { remarkQueued y asid with blocks := y.blocks, ops := y.ops } = y) ∧
      (writesPending y asid mode addr = true → exec (.tlbinv h asid mode addr) s = .next y)) ∧
  (∀ (s z : State) (h : CmdHead) (ctx addr : Nat), h.resv = false → ctx < 4096 →
    fetchCommand s = (z, some (.pgdone h ctx addr)) →
    let page := addr / 65536
    ∃ base, Finishes (.pgdone h ctx addr) s base 0 ∧ { base with blocks := z.blocks, copies := z.copies } = z ∧
      (∀ k, getBlock base k = (getBlock z k).map fun b => if b.ctx = ctx then { b with
        waves := b.waves.map fun w => { w with parked := w.parked.filter fun p => p ≠ page }
        seq := b.seq.map fun q => if q.run = .faulted page then { q with run := .running } else q } else b) ∧
      base.copies = z.copies.map fun c =>
        if c.ctx = ctx ∧ c.stopped = some page then { c with stopped := none } else c) ∧
  (∀ (s z : State) (h : CmdHead) (die off src bytes : Nat), h.resv = false → die < 4 → off + bytes ≤ 2 ^ 28 → off % 64 = 0 →
    bytes % 64 = 0 → fetchCommand s = (z, some (.grancopy h die off src bytes)) →
    tableOk z (64 + die) 0x48 true = true →
    let y := checkMaps z
    sourceDenied y (copyOwners y die off bytes) src bytes = none → regionBusy y die off bytes = false →
    (∀ b, b < 32 → fget false y.retiredBanks (32 * die + b) = false) →
    let y := claimRange y die off bytes
    (∀ i, i < bytes → fget 0 y.upsets ((src + i) / 64) = 0) →
    ∃ base, Finishes (.grancopy h die off src bytes) s base 0 ∧ base.dram = y.dram ∧
      (∀ i, i < bytes → base.gran.read (die * 2 ^ 28 + off + i) = y.dram.read (src + i)) ∧
      (src % 64 = 0 → ∀ i, i < bytes →
        fget 0 base.gtag ((die * 2 ^ 28 + off + i) / 64) = if fget false y.dpoison ((src + i) / 64) then 0
          else fget 0 y.dtag ((src + i) / 64)) ∧
      ∀ a, (a < die * 2 ^ 28 + off ∨ die * 2 ^ 28 + off + bytes ≤ a) → base.gran.read a = y.gran.read a) ∧
  (∀ (s z : State) (h : CmdHead) (ctx n : Nat), h.resv = false → ctx < 4096 → n < 2 ^ 32 → (getCtx z ctx).lost = false →
    fetchCommand s = (z, some (.resume h (ctx * 2 ^ 32 + n))) →
    let on (y : Lane) : Lane := match y.st with
      | .trapped r e post w => if r % 2 ^ 32 ≠ n ∨ resumeRefused e post = true then y else { y with
          st := .runnable
          pass := if e = .brkpt then some w else y.pass
          gcount := if e = .glive then 0 else y.gcount }
      | _ => y
    let onSeq (q : SeqState) : SeqState := match q.run with
      | .stopped r skip => if r % 2 ^ 32 ≠ n then q else { (if skip then q.goTo (q.pc + 16) else q) with run := .running }
      | _ => q
    (∀ r ∈ (getCtx z ctx).held, r.seq % 2 ^ 32 ≠ n) →
    (∃ b ∈ z.blocks, b.ctx = ctx ∧ ((∃ w ∈ b.waves, ∃ y ∈ w.lanes, on y ≠ y) ∨ ∃ q, b.seq = some q ∧ onSeq q ≠ q)) →
    ∃ base, Finishes (.resume h (ctx * 2 ^ 32 + n)) s base 0 ∧ { base with blocks := z.blocks } = z ∧
      ∀ k, getBlock base k = (getBlock z k).map fun b => if b.ctx = ctx then { b with
        waves := b.waves.map fun w => { w with lanes := w.lanes.map on }
        seq := b.seq.map onSeq } else b) ∧
  (∀ (s z : State) (h : CmdHead) (ctx : Nat), h.resv = false → ctx < 4096 → fetchCommand s = (z, some (.kill h ctx)) →
    ((getCtx z ctx).losing ≠ none → exec (.kill h ctx) s = .next z) ∧
    ((getCtx z ctx).losing = none → (getCtx z ctx).lost = true ∨ (∀ t ∈ z.tasks, t.ctx ≠ ctx) → Finishes (.kill h ctx) s z 0) ∧
    ((getCtx z ctx).losing = none → (∃ t ∈ z.tasks, t.ctx = ctx) → (getCtx z ctx).lost = false →
      (lossWaits z ctx = false → ∃ base, Finishes (.kill h ctx) s base 0 ∧
        (getCtx base ctx).lost = true ∧ (∀ t ∈ base.tasks, t.ctx ≠ ctx) ∧ ∀ b ∈ base.blocks, b.ctx ≠ ctx) ∧
      ((∃ f ∈ z.flights, f.ctx = ctx ∧ f.held = false) → ∃ u, exec (.kill h ctx) s = .next u ∧ u.cp = z.cp ∧
        u.outbox = z.outbox ∧ u.tasks = z.tasks ∧ (getCtx u ctx).lost = true ∧ (getCtx u ctx).losing.isSome = true ∧
        ∀ b ∈ u.blocks, b.ctx ≠ ctx))) ∧
  (∀ (s z s1 : State) (h : CmdHead) (nonce out : Nat) (n : List Byte), h.resv = false →
    fetchCommand s = (z, some (.quote h nonce out)) → masterAns z 0x48 0xFFFF nonce 32 false = none →
    masterAns z 0x48 0xFFFF out 352 true = none → cmdRead z none nonce 32 = (s1, some n) → Writable s1 out 352 →
    let n := (quoteBody s1).length + 64
    ∃ base sig, Finishes (.quote h nonce out) s base 0 ∧ sig.length = 64 ∧ base.dram.readN out n = quoteBody s1 ++ sig ∧
      (∀ a, (a < out ∨ out + n ≤ a) → base.dram.read a = s1.dram.read a) ∧ base.rot = s1.rot)

/-! ### Events of the device, its links and its network -/

/-- R447: a scrub of a DRAM block corrects one upset bit, with its record, and poisons a block with more; a granary's block
is scrubbed in a refresh window only. R118: a meter window refills the contexts' buckets and gives the rest to the spare
pool, up to SRATE. R105, R414, R19, R415, R468, R445, R446, R370, R371, R419: refresh windows, leaks, spare lanes, retired
cores, the dispatchers, the power limit and the thermal responses. The model's choices: a change leaves GEN odd until a
move of its own (log 79), a heartbeat starts the count anew (log 78), a power limit below what the module draws lowers
clocks (log 14). -/
def Obligations.DeviceEvents : Prop :=
  (∀ (s : State) (blk : Nat), blk < dramEnd / 64 →
    let f := blk / 1024
    let n := fget 0 s.buckets (bucketKey (.frame f))
    (fget 0 s.upsets blk = 0 → exec (.patrolScrub blk) s = .next s) ∧
    (fget 0 s.upsets blk = 1 → n + 1 < 16 → ∃ u, exec (.patrolScrub blk) s = .next u ∧ fget 0 u.upsets blk = 0 ∧
      fget 0 u.buckets (bucketKey (.frame f)) = n + 1 ∧ Logged s u 0 0x0001 (fun r => r.pa = BitVec.ofNat 64 (64 * blk)) ∧
      (s.plog.base = 0 → (∀ c ∈ s.ctxs, c.2.vq.v = false) → u.dpoison = s.dpoison ∧ u.dram = s.dram)) ∧
    (2 ≤ fget 0 s.upsets blk → n < 16 → s.plog.base = 0 → (∀ c ∈ s.ctxs, c.2.vq.v = false) →
      ∃ u, exec (.patrolScrub blk) s = .next u ∧ fget 0 u.upsets blk = 0 ∧
      fget false u.dpoison blk = true ∧ fget 0 u.dtag blk = 0 ∧ fget false u.asked f = true ∧ u.dram = s.dram)) ∧
  (∀ (s : State) (blk : Nat), blk < 2 ^ 24 → (refreshOn s (blk / 2 ^ 22) = false ∨ fget 0 s.gupsets blk = 0) →
    exec (.patrolScrub (dramEnd / 64 + blk)) s = .next s) ∧
  (∀ (s : State) (slice : Nat), slice < 64 → frising none s.ctxs = true →
    ∃ u, exec (.meterWindow slice) s = .next u ∧ { u with meters := s.meters } = s ∧
      let m := getMeter s slice
      let m' := getMeter u slice
      (∀ c d, (getCtx s c).desc = some d →
        fget 0 m'.bucket c = fget 0 m.bucket c + min d.rt (d.bu - fget 0 m.bucket c)) ∧
      (∀ c, (getCtx s c).desc = none → fget 0 m'.bucket c = fget 0 m.bucket c) ∧
      m'.srate = m.srate ∧ m'.borrowed = [] ∧ m'.spare = min m.srate (s.ctxs.foldl (fun n c => match c.2.desc with
        | some d => n + (d.rt - min d.rt (d.bu - fget 0 m.bucket c.1))
        | none => n) m.spare)) ∧
  (∀ (s : State) (die : Nat), die < 4 →
    let r := fget (Config.refreshPhase die, false) s.refresh die
    ∃ u, exec (.granaryRefreshWindow die) s = .next u ∧ { u with refresh := s.refresh } = s ∧
      fget (Config.refreshPhase die, false) u.refresh die = if r.2 then (r.1, false) else (r.1 + 1, true)) ∧
  (∀ (s : State) (b : BucketId), ∃ u, exec (.bucketLeak b) s = .next u ∧ { u with buckets := s.buckets } = s ∧
    ∀ k, fget 0 u.buckets k = if k = bucketKey b then fget 0 s.buckets k - 1 else fget 0 s.buckets k) ∧
  (∀ (s : State) (core : Nat), (∀ b ∈ s.blocks, b.core ≠ some core) → inService s core = true →
    (∀ u l, (getCore s core).closing = some (some (u, l)) → fullLanes s core (u, l) = [(u, l)] →
      ffind (getCore s core).spare u = none →
      ∃ t, exec (.spareLaneSteer core) s = .next t ∧ ffind (getCore t core).spare u = some l ∧
        (getCore t core).closing = none ∧ inService t core = true ∧ t.gen = s.gen + (if s.gen.getLsbD 0 then 2 else 1) ∧
        Logged s t 4 0x0011 fun r => r.core.toNat = core % 256 ∧ r.unit.toNat = u % 256) ∧
    ((getCore s core).closing = some none → ∃ t, exec (.spareLaneSteer core) s = .next t ∧
      (getCore t core).retired = true ∧ t.gen = s.gen + (if s.gen.getLsbD 0 then 2 else 1) ∧
      Logged s t 4 0x0012 fun r => r.core.toNat = core % 256)) ∧
  (∀ (s : State) (die : Nat), die < 4 → fget false s.deadDisp die = false →
    exec (.dispatcherHeartbeat die) s = .next { s with
      beats := fdel s.beats die, outbox := s.outbox ++ [.heartbeat die] } ∧
    ∃ u, exec (.dispatcherFailure die) s = .next u ∧ fget false u.deadDisp die = true ∧
      (∀ p ∈ s.live, p / 16 = die → (getCore u p).retired = true) ∧
      ∀ b ∈ s.blocks, onDie s die b = true → (getCtx s b.ctx).losing = none → (getCtx u b.ctx).lost = true) ∧
  (∀ (s : State) (n : Nat),
    (1000000 ≤ n → n ≤ 2800000 → ∃ u, exec (.powerLimitSet n) s = .next u ∧ u.power = n ∧
      { u with power := s.power, dvfs := s.dvfs, freeIx := s.freeIx } = s ∧
      (∀ k, k < 448 → 400 ≤ fget 600 s.dvfs k → fget 600 u.dvfs k ≤ fget 600 s.dvfs k) ∧
      ((∀ c ∈ s.live, c < 64) → ∀ k, 448 ≤ k → k < 504 → 1000 ≤ fget 1200 s.dvfs k →
        fget 1200 u.dvfs k ≤ fget 1200 s.dvfs k)) ∧
    (n < 1000000 ∨ 2800000 < n → exec (.powerLimitSet n) s = .next s)) ∧
  (∀ (s : State) (die : Nat), die < 4 → ∃ u, exec (.thermalThrottle die) s = .next u ∧
    fget .normal u.thermal die = .throttled ∧ (∀ i, i < 112 → fget 600 u.dvfs (112 * die + i) ≤ 400) ∧
    (∀ i, i < 12 → fget 1200 u.dvfs (448 + 12 * die + i) ≤ 1000) ∧ { u with thermal := s.thermal, dvfs := s.dvfs } = s) ∧
  (∀ (s : State) (die : Nat), die < 4 → fget .normal s.thermal die = .normal → ∃ u, exec (.thermalCap die) s = .next u ∧
    fget .normal u.thermal die = .capped ∧ (∀ i, i < 112 → fget 600 u.dvfs (112 * die + i) ≤ 600) ∧
    (∀ i, i < 12 → fget 1200 u.dvfs (448 + 12 * die + i) ≤ 1200) ∧ Logged s u 4 0x000D fun r => r.die.toNat = die) ∧
  (∀ (s : State) (die : Nat), die < 5 → ∃ u, exec (.thermalHalt die) s = .next u ∧ u.halted = true ∧
    Signal.aerFatal ∈ u.outbox ∧ Signal.pldmEvent 0x000D ∈ u.outbox ∧ Logged s u 3 0x000D fun r => r.die.toNat = die)

/-- R460, R461, R463: a flit whose CRC fails is answered with one NAK of the expected number; the expected flit, which the
sender holds, is accepted and acknowledged, be it a request with an effect or another message at its last die, which log 27
gives a flit of its own; one already accepted, within 512, is acknowledged again and dropped; one ahead of the expected is
dropped. An ACK frees the flits of the replay buffer up to the one it names, and
nothing where that one is not in it; a NAK or a timeout sends again
from its flit on, logs EVENT 0x000A and raises the link's bucket; the bucket leaks. Whatever the state, each of these events
ends in a next one; at a link without modules (R372) it changes nothing. -/
def Obligations.LinkEvents : Prop :=
  (∀ (s : State) (l : LinkDir) (k : Nat) (seq : BitVec 10) (payload : Nat), realDir l = some k →
    let d := getDir s k
    (d.nak = false → ∃ u, exec (.flitReceived l seq payload false) s = .next u ∧
      { u with dirs := s.dirs, outbox := s.outbox } = s ∧ u.outbox = s.outbox ++ [.linkNak l d.expected] ∧
      ∀ j, getDir u j = if j = k then { d with nak := true } else getDir s j) ∧
    (d.nak = true → exec (.flitReceived l seq payload false) s = .next s) ∧
    (∀ f, seq = d.expected → (seq, payload) ∈ d.unacked → (s.flights.find? fun f => f.id = payload) = some f →
      flightHome f = dirTo k → flightThere s f = false →
      ∃ u, exec (.flitReceived l seq payload true) s = .next u ∧ { u with dirs := s.dirs, outbox := s.outbox } = s ∧
        u.outbox = s.outbox ++ [.linkAck l seq] ∧ ∀ j, getDir u j = if j = k then
          { d with expected := d.expected + 1, nak := false, accepted := d.accepted ++ [payload] } else getDir s j) ∧
    (seq = d.expected → (seq, payload) ∈ d.unacked → (∀ f ∈ s.flights, f.id ≠ payload) →
      ffind s.traffic payload = some (dirTo k) →
      ∃ u, exec (.flitReceived l seq payload true) s = .next u ∧
        { u with dirs := s.dirs, outbox := s.outbox, traffic := s.traffic } = s ∧ u.traffic = fdel s.traffic payload ∧
        u.outbox = s.outbox ++ [.linkAck l seq] ∧ ∀ j, getDir u j =
          if j = k then { d with expected := d.expected + 1, nak := false } else getDir s j) ∧
    (seq ≠ d.expected → (d.expected - seq).toNat ≤ 512 → exec (.flitReceived l seq payload true) s =
      .next { s with outbox := s.outbox ++ [.linkAck l (d.expected - 1)] }) ∧
    (512 < (d.expected - seq).toNat → exec (.flitReceived l seq payload true) s = .next s) ∧
    (∀ us p rest, d.waiting = [] → d.unacked = us ++ (seq, p) :: rest → (∀ x ∈ us, x.1 ≠ seq) →
      ∃ u, exec (.ackReceived l seq) s = .next u ∧ { u with dirs := s.dirs } = s ∧
        ∀ j, getDir u j = if j = k then { d with unacked := rest } else getDir s j) ∧
    ((∀ x ∈ d.unacked, x.1 ≠ seq) → exec (.ackReceived l seq) s = .next s) ∧
    (∀ us e, us ≠ [] → ((e = .nakReceived l seq ∧ us = d.unacked.dropWhile fun x => x.1 ≠ seq) ∨
        (e = .replayTimeout l ∧ us = d.unacked)) → (getLink s (k / 2)).bucket + 1 < 256 → s.plog.base = 0 →
      ∃ u, exec e s = .next u ∧ u.dirs = s.dirs ∧ SameMemory s u ∧
        u.outbox = s.outbox ++ us.map (fun x => .linkSend ⟨k / 2, decide (k % 2 = 1)⟩ x.1 x.2) ∧
        getLink u (k / 2) = { getLink s (k / 2) with bucket := (getLink s (k / 2)).bucket + 1 } ∧
        Logged s u 0 0x000A fun r => r.detail = BitVec.ofNat 16 us.length ∧ r.index.toNat = k / 2 % 256)) ∧
  (∀ (s : State) (l : LinkDir) (e : Instr), realDir l = none →
    ((∃ seq payload crc, e = .flitReceived l seq payload crc) ∨ (∃ seq, e = .nakReceived l seq) ∨
      (∃ seq, e = .ackReceived l seq) ∨ e = .replayTimeout l) → exec e s = .next s) ∧
  (∀ (s : State) (e : Instr), ((∃ l seq payload crc, e = .flitReceived l seq payload crc) ∨ (∃ l seq, e = .nakReceived l seq) ∨
      (∃ l seq, e = .ackReceived l seq) ∨ (∃ l, e = .replayTimeout l) ∨ (∃ i, e = .linkBucketLeak i)) →
    ∃ u, exec e s = .next u) ∧
  (∀ (s : State) (i : Nat), i < 10 → ∃ u, exec (.linkBucketLeak i) s = .next u ∧ { u with links := s.links } = s ∧
    ∀ j, getLink u j = if j = i then { getLink s i with bucket := (getLink s i).bucket - 1 } else getLink s j)

/-- R361, R467: a peer's request that passes the checks is performed and answered; one that fails is refused with EVENT
0x0035 and the check's number; a repeated one is acknowledged again; one whose core's earlier request to the window is yet
to come waits (R362). R359, R360, R466: an answer fills what waits for it, a
write's only ends its request; a retry goes out on the next port of the peer's that is up, the lowest after the highest; a
poisoned answer to a write changes nothing else. Whatever comes from a peer that is given up, the request completes as
refused: PROT at a read whose trace still waits, PROT after the commit for a write. The model's choices: which ports are up
is State.portsUp (log 94); the flits of an IOD master leave in the next step (log 27); a request names the one that its core
sent before it, and a repeated one is acknowledged again (log 55). -/
def Obligations.NetworkEvents : Prop :=
  (∀ (s : State) (r : NetRequest),
    let pa := natOf ((List.range 8).map fun i => fget 0 s.netTab (0x4000 + 32 * r.window + i)) + r.offset
    let inTurn : Prop := ∀ q, r.prior = some q → (r.src, q) ∈ s.netSeen
    ((r.src, r.seq) ∈ s.netSeen →
      exec (.remoteRequest r) s = .next { s with outbox := s.outbox ++ [.netAck r.seq] }) ∧
    (∀ q, (r.src, r.seq) ∉ s.netSeen → r.prior = some q → (r.src, q) ∉ s.netSeen → exec (.remoteRequest r) s = .next s) ∧
    (∀ c, (r.src, r.seq) ∉ s.netSeen → inTurn → failedCheck s r = some c → c ≠ 5 → s.plog.base = 0 →
      ∃ u, exec (.remoteRequest r) s = .next u ∧ u.outbox = s.outbox ++ [.netError r.seq .refused] ∧ SameMemory s u ∧
        u.netSeen = s.netSeen ++ [(r.src, r.seq)] ∧
        Logged s u 4 0x0035 fun x => x.detail = BitVec.ofNat 16 c) ∧
    (∀ n, (r.src, r.seq) ∉ s.netSeen → inTurn → failedCheck s r = none → transportDenied s pa n false = false →
      masterWaits s pa n = false → r.access = .read n →
      (∀ p ∈ piecesOf pa n, fget 0 s.upsets (p.1 / 64) = 0 ∧ fget false s.dpoison (p.1 / 64) = false) →
      exec (.remoteRequest r) s = .next { s with
        netSeen := s.netSeen ++ [(r.src, r.seq)], outbox := s.outbox ++ [.netReply r.seq (s.dram.readN pa n)]
        iodOut := s.iodOut ++ (piecesOf pa n).map fun p => (paDie p.1, true) }) ∧
    (∀ bs, (r.src, r.seq) ∉ s.netSeen → inTurn → failedCheck s r = none → transportDenied s pa bs.length true = false →
      NoMap s pa bs.length → masterWaits s pa bs.length = false → r.access = .write bs → (∀ p ∈ piecesOf pa bs.length, fget 0 s.upsets (p.1 / 64) = 0) →
      ∃ u, exec (.remoteRequest r) s = .next u ∧ u.outbox = s.outbox ++ [.netAck r.seq] ∧ u.gran = s.gran ∧
        u.blocks = s.blocks ∧ u.netSeen = s.netSeen ++ [(r.src, r.seq)] ∧
        ∀ a, u.dram.read a = if pa ≤ a ∧ a < pa + bs.length then (bs[a - pa]?).getD 0 else s.dram.read a)) ∧
  (∀ (s : State) (n : NetOut) (id : Nat), (s.netOut.find? fun n => n.id = id) = some n →
    let z : State := { s with netOut := s.netOut.filter fun x => x.id ≠ id }
    let t := sendTraffic z 4 (dieOf n.core)
    (∀ bs, peerUp s n.peer = true → n.access = .write bs → n.ret = none →
      exec (.transportAck id []) s = .next t ∧ exec (.remoteErrorResponse id .poison) s = .next z) ∧
    (∀ m r bs, peerUp s n.peer = true → n.access = .read m → n.ret = some r → bs.length = m →
      exec (.transportAck id bs) s = .next { t with pendings := t.pendings ++ [⟨r.id, n.bid, n.wave,
        loadValues r.dests (((List.range m).zip bs).map fun p => (ffind r.own p.1).getD p.2) r.sx, false, n.lane, n.va, noPa,
        false, routeOf n.core 69 4, t.nextId, none⟩] }) ∧
    (∀ e b w, getBlock s n.bid = some b → nth b.waves n.wave = some w → n.lane < 64 →
      ((peerUp s n.peer = false ∧ ((∃ bs, e = .transportAck id bs) ∨ e = .transportRetransmit id ∨
        ∃ er, e = .remoteErrorResponse id er)) ∨ e = .remoteErrorResponse id .refused) →
      (∀ bs, n.access = .write bs → n.ret = none → exec e s = .next (denyPost z b n.wave n.word [(n.lane, n.va)])) ∧
      (∀ m r t d, n.access = .read m → n.ret = some r → w.trace = some t → d ∈ r.dests → t.awaits d r.id = true →
        exec e s = .next (cancelProducer (raiseWave z n.bid n.wave t.start n.word false
          [(n.lane, .exc .prot 0xFF 0 (some n.va))]) n.bid n.wave r.id))) ∧
    (fget 0 s.netTab (64 * n.peer + 20) = 1 →
      let open_ (i : Nat) : Prop := i < 8 ∧ (fget 0 s.netTab (64 * n.peer + 18)).getLsbD i = true ∧ s.portsUp.getLsbD i = true
      let tried (port : Nat) : List NetOut := s.netOut.map fun x =>
        if x.id = id then { x with attempt := x.attempt + 1, port := port } else x
      ((∃ i, open_ i) → ∃ port, open_ port ∧ exec (.transportRetransmit id) s = .next { s with
          netOut := tried port, outbox := s.outbox ++ [.netSend id port (n.attempt + 1)] } ∧
        ∀ i, open_ i → (n.port < i → n.port < port ∧ port ≤ i) ∧ ((∀ j, open_ j → j ≤ n.port) → port ≤ i)) ∧
      ((∀ i, ¬open_ i) → ∃ u, exec (.transportRetransmit id) s = .next u ∧ { u with netOut := s.netOut } = s ∧
        u.netOut = s.netOut.map fun x => if x.id = id then { x with attempt := x.attempt + 1 } else x)))

/-- R355, R356, R119, R115: the host reads and writes DRAM through BAR2 where its tables and HOSTOWN let it; beyond DRAM a
read gives ones and a write is dropped; a poisoned read is completed so and reported; a denied read is aborted, a denied write
dropped, and each denial recorded: EVENT 0x0032 by the table, 0x0030 by the frame's owner.
A reeve's load, store and atomic act at their homes. The model's choices: its fence waits for nothing (log 55), every reeve
is held until the boot is done (R363, log 53), and an IOD master's flits leave in the next clock (R10, log 27). -/
def Obligations.MasterAccesses : Prop :=
  (∀ (s : State) (off n : Nat), off + n ≤ 2 ^ 38 →
    let k := min n (dramEnd - off)
    let data := s.dram.readN off k ++ List.replicate (n - k) 0xFF
    let crossed := s.iodOut ++ (piecesOf off k).map fun p => (paDie p.1, true)
    masterWaits s off k = false →
    (dramEnd ≤ off →
      exec (.hostBar2Read off n) s = .next { s with outbox := s.outbox ++ [.bar2Data (List.replicate n 0xFF) false] }) ∧
    (masterAns s 0x49 s.hostown.toNat off k false = none → (∀ p ∈ piecesOf off k, fget 0 s.upsets (p.1 / 64) = 0) →
      ((∀ p ∈ piecesOf off k, fget false s.dpoison (p.1 / 64) = false) →
        exec (.hostBar2Read off n) s = .next { s with outbox := s.outbox ++ [.bar2Data data false], iodOut := crossed }) ∧
      ((∃ p ∈ piecesOf off k, fget false s.dpoison (p.1 / 64) = true) →
        exec (.hostBar2Read off n) s = .next { s with outbox := s.outbox ++ [.bar2Data data true, .aerPoison], iodOut := crossed })) ∧
    (∀ a, s.plog.base = 0 → masterAns s 0x49 s.hostown.toNat off k false = some (a, .table) →
      ∃ u, exec (.hostBar2Read off n) s = .next u ∧ u.outbox = s.outbox ++ [.bar2Abort] ∧ SameMemory s u ∧
        Logged s u 4 0x0032 fun r => r.detail = 0x49) ∧
    (∀ a o, s.plog.base = 0 → masterAns s 0x49 s.hostown.toNat off k false = some (a, .owner o) →
      ∃ u, exec (.hostBar2Read off n) s = .next u ∧ u.outbox = s.outbox ++ [.bar2Abort] ∧ SameMemory s u ∧
        Logged s u 4 0x0030 fun r => r.detail = BitVec.ofNat 16 o)) ∧
  (∀ (s : State) (off : Nat) (bs : List Byte), off + bs.length ≤ 2 ^ 38 →
    let k := min bs.length (dramEnd - off)
    masterWaits s off k = false →
    (masterAns s 0x49 s.hostown.toNat off k true = none → NoMap s off k →
      (∀ p ∈ piecesOf off k, fget 0 s.upsets (p.1 / 64) = 0) →
      ∃ u, exec (.hostBar2Write off bs) s = .next u ∧ u.gran = s.gran ∧ u.blocks = s.blocks ∧ u.outbox = s.outbox ∧
        ∀ a, u.dram.read a = if off ≤ a ∧ a < off + k then (bs[a - off]?).getD 0 else s.dram.read a) ∧
    (∀ a ans, s.plog.base = 0 → piecesOf off k = [(off, k)] → masterAns s 0x49 s.hostown.toNat off k true = some (a, ans) →
      ∃ u, exec (.hostBar2Write off bs) s = .next u ∧ u.outbox = s.outbox ∧ SameMemory s u ∧
        (ans = .table → Logged s u 4 0x0032 fun r => r.detail = 0x49) ∧
        ∀ o, ans = .owner o → Logged s u 4 0x0030 fun r => r.detail = BitVec.ofNat 16 o)) ∧
  (∀ (s : State) (hart : Nat) (a : ReeveAccess), s.rot.phase ≠ .done → exec (.reeveLoadStore hart a) s = .next s) ∧
  (∀ (s : State) (hart pa : Nat), s.rot.phase = .done → hart < 8 → pa < dramEnd →
    exec (.reeveLoadStore hart .fence) s = .next s ∧
    (∀ n, pa + n ≤ dramEnd → masterWaits s pa n = false → masterAns s (0x40 + hart) 0xFFFF pa n false = none →
      (∀ p ∈ piecesOf pa n, fget 0 s.upsets (p.1 / 64) = 0 ∧ fget false s.dpoison (p.1 / 64) = false) →
      exec (.reeveLoadStore hart (.mem pa (.read n))) s =
        .next { s with
          outbox := s.outbox ++ [.reeveData hart (s.dram.readN pa n)]
          iodOut := s.iodOut ++ (piecesOf pa n).map fun p => (paDie p.1, true) }) ∧
    (∀ bs, pa + bs.length ≤ dramEnd → masterWaits s pa bs.length = false → NoMap s pa bs.length →
      masterAns s (0x40 + hart) 0xFFFF pa bs.length true = none →
      (∀ p ∈ piecesOf pa bs.length, fget 0 s.upsets (p.1 / 64) = 0) →
      ∃ u, exec (.reeveLoadStore hart (.mem pa (.write bs))) s = .next u ∧ u.gran = s.gran ∧ u.outbox = s.outbox ∧
        ∀ a, u.dram.read a = if pa ≤ a ∧ a < pa + bs.length then (bs[a - pa]?).getD 0 else s.dram.read a) ∧
    (∀ n b, (n = 4 ∨ n = 8) → pa % n = 0 → masterWaits s pa n = false → NoMap s pa n →
      masterAns s (0x40 + hart) 0xFFFF pa n true = none → fget 0 s.upsets (pa / 64) = 0 → fget false s.dpoison (pa / 64) = false →
      ∃ u, exec (.reeveLoadStore hart (.mem pa (.swap n b))) s = .next u ∧
        u.outbox = s.outbox ++ [.reeveData hart (s.dram.readN pa n)] ∧
        ∀ a, u.dram.read a = if pa ≤ a ∧ a < pa + n then (b >>> (8 * (a - pa))).setWidth 8 else s.dram.read a))

/-- R354, R155, R355, R411, R426, R427, R466, R369, R365, R363, R368: what a permitted write of control space does to
HOSTOWN, to a ring's descriptor, to a peer's STATE, to ADJ, to MR2 to MR7, to BOOTGO and to RSTREQ (a reeve's or the host's 1 resets
the module; another permitted master's is dropped, the model's reading, log 53); a denied one changes no
state but the log. A reeve does nothing of its own until the boot is done (log 53). A held trap record goes into its
context's ring. -/
def Obligations.ControlEvents : Prop :=
  (∀ (s : State) (m off n : Nat) (v : Word64), ctlOk s m off n true = false →
    (masterHeld s m = false → bootgoOk s m off n = false → s.plog.base = 0 → ∃ u, exec (.controlRegisterWrite m off n v) s = .next u ∧
      SameMemory s u ∧ { u with plog := s.plog } = s ∧ (m < 0x40 → u = s) ∧
      (0x40 ≤ m → Logged s u 4 0x0032 fun r => r.detail = BitVec.ofNat 16 m))) ∧
  (∀ (s : State) (m : Nat) (v : Word64), masterHeld s m = false → ctlOk s m 0x1000000 8 true = true →
    exec (.controlRegisterWrite m 0x1000000 8 v) s = .next { s with hostown := v.setWidth 16 }) ∧
  (∀ (s : State) (m ctx : Nat) (v : Word64), masterHeld s m = false → ctx < 4096 →
    let log : BitVec 8 := v.setWidth 8
    let on : Bool := decide ((v >>> 8).setWidth 8 = (1 : BitVec 8))
    let fits (r : Ring) : Prop := on = true → ownedByHyp s r.base.toNat (64 * 2 ^ log.toNat) = true
    (ctlOk s m (0x1800000 + 32 * ctx + 8) 8 true = true → fits (getCtx s ctx).vq →
      ∃ u, exec (.virtualErrorQueueEnable m ctx v) s = .next u ∧ { u with ctxs := s.ctxs } = s ∧ ∀ c, getCtx u c =
        if c = ctx then { getCtx s c with vq := { (getCtx s c).vq with log := log, v := on } } else getCtx s c) ∧
    (ctlOk s m (0x1A00000 + 32 * ctx + 8) 8 true = true → fits (getCtx s ctx).xq →
      ∃ u, exec (.exceptionQueueEnable m ctx v) s = .next u ∧ { u with ctxs := s.ctxs } = s ∧ ∀ c, getCtx u c =
        if c = ctx then { getCtx s c with xq := { (getCtx s c).xq with log := log, v := on } } else getCtx s c)) ∧
  (∀ (s : State) (ctx : Nat) (r : TrapRec) (rest : List TrapRec), (getCtx s ctx).held = r :: rest →
    let q := (getCtx s ctx).xq
    let a := q.base.toNat + 64 * (q.widx.toNat % 2 ^ q.log.toNat)
    q.v = true → (q.widx - q.ridx).toNat < 2 ^ q.log.toNat → Writable s a r.bytes.length →
    ∃ u, exec (.trapRecordWrite ctx) s = .next u ∧ u.dram.readN a r.bytes.length = r.bytes ∧
      (∀ b, (b < a ∨ a + r.bytes.length ≤ b) → u.dram.read b = s.dram.read b) ∧
      getCtx u ctx = { getCtx s ctx with held := rest, xq := { q with widx := q.widx + 1 } } ∧
      u.outbox = s.outbox ++ [.msix 0, .reeveIrq]) ∧
  (∀ (s : State) (m peer : Nat), masterHeld s m = false → peer < 256 → ctlOk s m (0x300000 + 64 * peer + 20) 4 true = true →
    (∀ n ∈ s.netOut, n.peer ≠ peer) → ∃ u, exec (.peerTableDisable m peer) s = .next u ∧ { u with netTab := s.netTab } = s ∧
      ∀ i, fget 0 u.netTab i = if 64 * peer + 20 ≤ i ∧ i < 64 * peer + 24 then 0 else fget 0 s.netTab i) ∧
  (∀ (s : State) (m : Nat) (v : Word64), masterHeld s m = false → ctlOk s m 0x400010 8 true = true →
    ∃ ptp, exec (.timeAdjust m v) s = .next { s with time := { s.time with adj := v, ptp := ptp } }) ∧
  (∀ (s : State) (m i : Nat), masterHeld s m = false → ctlOk s m 0x500140 4 true = true → 2 ≤ i → i ≤ 7 →
    exec (.mrExtend m i) s = .next { s with rot := { s.rot with mr := modifyAt (fun old =>
      natOf (sm3 (bytesOfNat 32 old ++ bytesOfNat 32 s.rot.staged))) i s.rot.mr } }) ∧
  (∀ (s : State) (v : BitVec 32), s.rot.phase = .waitGo →
    exec (.bootgo 0x49 v) s = .next (if v = 1 then bootVerify s else s)) ∧
  (∀ (s : State) (m : Nat) (i : Instr), masterHeld s m = true →
    ((∃ off n v, i = .controlRegisterWrite m off n v) ∨ (∃ c v, i = .virtualErrorQueueEnable m c v) ∨
      (∃ c v, i = .exceptionQueueEnable m c v) ∨ (∃ p, i = .peerTableDisable m p) ∨ (∃ v, i = .timeAdjust m v) ∨
      (∃ k, i = .mrExtend m k) ∨ (∃ v, i = .bootgo m v) ∨ (∃ v, i = .rstreq m v)) → exec i s = .next s) ∧
  (∀ (s : State) (m : Nat), masterHeld s m = false → ctlOk s m 0x500018 4 true = true →
    (((0x40 ≤ m ∧ m ≤ 0x47) ∨ m = 0x49) → exec (.rstreq m 1) s = .next (resetModule s true)) ∧
    (¬((0x40 ≤ m ∧ m ≤ 0x47) ∨ m = 0x49) → exec (.rstreq m 1) s = .next s) ∧
    ∀ v : BitVec 32, v ≠ 1 → exec (.rstreq m v) s = .next s)

/-- R363, R364, R365, R420: a boot image that passes is measured (MR0 := SM3(MR0 ‖ DIGEST), and MR1 the fuses), its payload
stands at LOAD, and its entry is given out; a failed fetch or image is counted and waits for its retry, which leaves the
boot region zero. R413: poison that the verification reads is a load access fault. R368: what each reset clears and keeps.
R115, R135, R456: a store at its home gives its bytes where its owner may, or costs the context; one under migration is held,
and goes on when its page has moved, after the page's earlier writes of its core. The model's: that a warm reset keeps the
power limit, the thermal responses and the points (log 14); that MR1 is extended in this step (log 25); that the retry leaves
all of the boot region zero, and that a poisoned image ends as one whose DIGEST does not match (log 53); that a held write is
sent to a peer as old as it was (log 41). -/
def Obligations.BootResetsAndHomes : Prop :=
  (∀ (s : State) (im : Option (List Byte)), s.rot.phase = .fetching →
    ((im = none ∨ ∃ bs, im = some bs ∧ 2 ^ 30 < bs.length) → ∃ u, exec (.bootImageFetched im) s = .next u ∧
      u.rot = { s.rot with result := 7, attempts := s.rot.attempts + 1, phase := .retryWait } ∧
      Logged s u 4 0x0040 fun r => r.detail = 7) ∧
    (∀ bs, im = some bs → bs.length ≤ 2 ^ 30 → s.upsets = [] → s.dpoison = [] → bootResult (cpPut s 0 bs) = 1 →
      Writable s 0 bs.length →
      let load := natOf ((cpPut s 0 bs).dram.readN 16 8)
      let len := natOf ((cpPut s 0 bs).dram.readN 8 8)
      Writable (cpPut s 0 bs) load len →
      ∃ u, exec (.bootImageFetched im) s = .next u ∧ u.rot.result = 1 ∧ u.rot.phase = .done ∧
        u.rot.attempts = s.rot.attempts + 1 ∧ (∀ i, 2 ≤ i → nth u.rot.mr i = nth s.rot.mr i) ∧
        nth u.rot.mr 0 = (nth s.rot.mr 0).map (fun m => natOf (sm3 (bytesOfNat 32 m ++ (cpPut s 0 bs).dram.readN 32 32))) ∧
        nth u.rot.mr 1 = (nth s.rot.mr 1).map (fun m => natOf (sm3 (bytesOfNat 32 m ++
          sm3 (Config.fuseBytes s.rot.keys s.rot.revoked s.rot.bootsrc)))) ∧
        u.outbox = s.outbox ++ [.bootEntry (natOf ((cpPut s 0 bs).dram.readN 24 8))] ∧
        u.dram.readN load len = (cpPut s 0 bs).dram.readN 128 len) ∧
    (∀ bs, im = some bs → bs.length ≤ 2 ^ 30 → s.upsets = [] → s.dpoison = [] → bootResult (cpPut s 0 bs) ≠ 1 →
      ∃ u, exec (.bootImageFetched im) s = .next u ∧
      u.rot = { s.rot with
        result := BitVec.ofNat 8 (bootResult (cpPut s 0 bs)), attempts := s.rot.attempts + 1, phase := .retryWait }) ∧
    (∀ bs, im = some bs → bs.length ≤ 2 ^ 30 → s.upsets = [] → rangePoisoned (cpPut s 0 bs) 0 128 = true →
      ∃ u, exec (.bootImageFetched im) s = .next u ∧ Signal.reeveFault 0 ∈ u.outbox ∧
      u.rot = { s.rot with result := 4, attempts := s.rot.attempts + 1, phase := .retryWait })) ∧
  (∀ s : State, s.rot.phase = .retryWait → ∃ u, exec .bootRetry s = .next u ∧
    u.rot = { s.rot with result := 0, phase := if s.rot.bootsrc then .waitGo else .fetching } ∧
    ((∀ i, i < 64 → tableOk s i washMaster true = true) → ∀ a, a < bootRegion → u.dram.read a = 0)) ∧
  (∀ (s : State) (cause : WarmCause), ∃ u p, exec (.warmReset cause) s = .next u ∧ exec .powerOnReset s = .next p ∧
    (∀ r, r = u ∨ r = p → r.blocks = [] ∧ r.tasks = [] ∧ r.queues = [] ∧ r.ctxs = [] ∧ r.l1 = [] ∧ r.stack = [] ∧
      r.tlbs = [] ∧ r.dram = [] ∧ r.gran = [] ∧ r.dtag = [] ∧ r.gtag = [] ∧ r.dpoison = [] ∧ r.owners = [] ∧ r.dirs = [] ∧
      r.links = linkTable ∧ r.rot.mr = List.replicate 8 0 ∧ r.time.ptp = 0 ∧ r.halted = false ∧
      r.rot.keys = s.rot.keys ∧ r.rot.revoked = s.rot.revoked ∧ r.rot.bootsrc = s.rot.bootsrc ∧ r.live = s.live ∧
      r.retiredSlices = s.retiredSlices ∧ r.retiredBanks = s.retiredBanks ∧
      ∀ c ∈ s.cores, c.2.retired = true → ∃ c' ∈ r.cores, c'.1 = c.1 ∧ c'.2.retired = true ∧ c'.2.spare = c.2.spare) ∧
    u.buckets = s.buckets ∧ u.plog.fatbuf = s.plog.fatbuf ∧ u.rot.attempts = s.rot.attempts ∧ u.power = s.power ∧
    u.thermal = s.thermal ∧ u.dvfs = s.dvfs ∧
    p.buckets = [] ∧ p.plog.fatbuf = [] ∧ p.rot.attempts = 0) ∧
  (∀ (s : State) (f : Flight) (id pa : Nat) (cp : BitVec 2) (desc mig : Bool), (s.flights.find? fun f => f.id = id) = some f →
    f.place = .phys pa cp desc mig → pa < ctlBase → flightReady s f = true →
    (mig = true → ∃ u, exec (.writeThroughAtHome id) s = .next u ∧ { u with flights := s.flights, dirs := s.dirs } = s ∧
      u.flights = s.flights.map fun g => if g.id = id then { g with held := true } else g) ∧
    (∀ bs, mig = false → f.op = .store bs → fget 0 s.upsets (pa / 64) = 0 → NoMap s pa bs.length →
      ownerOk s f.owner pa = true → ∃ u, exec (.writeThroughAtHome id) s = .next u ∧
        u.flights = s.flights.filter (fun g => g.id ≠ id) ∧ u.gran = s.gran ∧ u.blocks = s.blocks ∧
        ∀ a, u.dram.read a = if pa ≤ a ∧ a < pa + bs.length then (bs[a - pa]?).getD 0 else s.dram.read a) ∧
    (mig = false → ownerOk s f.owner pa = false → (getCtx s f.ctx).lost = false → (getCtx s f.ctx).losing = none →
      ∃ u, exec (.writeThroughAtHome id) s = .next u ∧ (getCtx u f.ctx).lost = true ∧ ∀ b ∈ u.blocks, b.ctx ≠ f.ctx)) ∧
  (∀ (s s1 : State) (f : Flight) (id pa : Nat) (cp : BitVec 2) (desc mig : Bool),
    (s.flights.find? fun f => f.id = id) = some f → f.held = true →
    (retryWaits s f = true → exec (.migrationRetry id) s = .next s) ∧
    (retryWaits s f = false → translate s ⟨f.core, f.owner, f.ctx, f.task, f.core, 0⟩ (globalVa s f) true f.op.isTag = (s1, .ok (.phys pa cp desc mig)) →
    (mig = true → exec (.migrationRetry id) s = .next s1) ∧
    (mig = false → pa < ctlBase → writeAllowed s1 f.core (.phys pa cp desc false) f.op.size = true →
      ∃ u, exec (.migrationRetry id) s = .next u ∧ u.dram = s1.dram ∧
        ∀ g ∈ u.flights, g.id = id → g.held = false ∧ g.place = .phys pa cp desc false))) ∧
  (∀ (s s1 : State) (f : Flight) (id peer off : Nat) (bs : List Byte), (s.flights.find? fun f => f.id = id) = some f →
    f.held = true → f.op = .store bs → retryWaits s f = false →
    translate s ⟨f.core, f.owner, f.ctx, f.task, f.core, 0⟩ (globalVa s f) true false = (s1, .ok (.remote peer off)) →
    ∃ u n, exec (.migrationRetry id) s = .next u ∧ u.dram = s1.dram ∧ (∀ g ∈ u.flights, g.id ≠ id) ∧
      u.netOut = s1.netOut ++ [n] ∧ n.peer = peer ∧ n.off = off ∧ n.access = .write bs ∧
      n.date = if f.date = 0 then n.id else f.date)

/-! ### Taking an exception -/

/-- R36, R421, R423, R425: a read of an empty register waits, or with FE raises EMPTYT in the lanes that read it (for a
cross-lane read too in those lanes: the model's choice, log 89). R95: an access outside its aperture's extent raises APERT, a
misaligned one ALIGN, a private one below SPLIM PROT, an address that no leaf maps PGFLT, and one whose leaf forbids the
access PROT; the memory words take what their lanes' addresses raise at issue. R280: a copy word takes APERT, ALIGN or BADFLD
in the lane that gave the value. Lanes that
raise one exception at a word: the batch's trace is discarded, one record takes the context's next SEQ, and they are
trapped at the batch's TP while the batch's other lanes go back to it, runnable. A page fault parks the wave and traps no
lane. Memory is as before. -/
def Obligations.TakingExceptions : Prop :=
  (∀ (x : Iss) (r : Read), (∀ p ∈ r.lanes, ∀ f ∈ x.fills r.reg r.span p.2, f.isDefer = false) →
    let empty := r.lanes.filter fun p => (x.fills r.reg r.span p.2).any fun f => f ≠ .full
    x.checkReads [r] = if empty = [] then .ok
      else if r.fe then .stop (empty.map fun p => (p.1, .exc .emptyt r.field 0 none)) else .wait) ∧
  (∀ (i : Instr) (k : Computes) (s : State) (x : Iss), integerWord i = some k → issuing s k.c (.mk2 1 0) = some x →
    (∀ rs, x.checkReads (k.reads x) = .stop rs →
      exec i s = .next (raiseWave s x.bid x.wi x.t.start x.addr false rs)) ∧
    (x.checkReads (k.reads x) = .wait → exec i s = .next (holdWord s x.bid x.wi k.c.keep))) ∧
  (∀ (s : State) (p : Who) (b : Block) (w : Wave) (wi lane n al : Nat) (a : Word64) (acc : Acc),
    let ap := a.toNat / 2 ^ 56
    let off := a.toNat % 2 ^ 56
    let global (d : CtxDesc) : Nat := d.pbase + ((b.frame * 32 + wi) * 32 + lane) * 2 ^ d.psz + off
    let inside : Prop := (ap = 0 ∧ off + n ≤ 2 ^ 56) ∨ (ap = 0xF0 ∧ off + n ≤ 1024 * b.shape.sp) ∨
      (ap = 0xF1 ∧ ∃ d, (getCtx s b.ctx).desc = some d ∧ off + n ≤ 2 ^ d.psz ∧ global d + n ≤ 2 ^ 56) ∨
      (ap = 0xF2 ∧ acc.regs = true ∧ off / 128 < w.ws ∧ off % 128 + n ≤ 128)
    (¬inside → checkAddr s p b w wi lane a n al acc = (s, .error (addrExc .apert a))) ∧
    (inside → a.toNat % al ≠ 0 → checkAddr s p b w wi lane a n al acc = (s, .error (addrExc .align a))) ∧
    (inside → a.toNat % al = 0 →
      (ap = 0 → checkAddr s p b w wi lane a n al acc = translate s p a acc.wr acc.desc) ∧
      (ap = 0xF0 → checkAddr s p b w wi lane a n al acc = (s, .ok (.spad off))) ∧
      (ap = 0xF2 → checkAddr s p b w wi lane a n al acc = (s, .ok (.regs (128 * w.wo + off)))) ∧
      ∀ d t r, ap = 0xF1 → (getCtx s b.ctx).desc = some d →
        (off < d.splim → checkAddr s p b w wi lane a n al acc = (s, .error (addrExc .prot a))) ∧
        (d.splim ≤ off → translate s p (BitVec.ofNat 64 (global d)) acc.wr acc.desc = (t, r) →
          (∀ q, r = .ok q → checkAddr s p b w wi lane a n al acc = (t, .ok q)) ∧
          (∀ v, r = .error (addrExc .prot v) → checkAddr s p b w wi lane a n al acc = (t, .error (addrExc .prot a))) ∧
          ∀ v, r = .error (addrExc .pgflt v) → checkAddr s p b w wi lane a n al acc = (t, .error (addrExc .pgflt v))))) ∧
  (∀ (s t : State) (p : Who) (d : CtxDesc) (va : Word64) (wr desc : Bool), (getCtx s p.ctx).desc = some d →
    arenaFrame s p va.toNat = none →
    (lookupLeaf s p d va.toNat = (t, .error .fault) → translate s p va wr desc = (t, .error (addrExc .pgflt va))) ∧
    (∀ e, lookupLeaf s p d va.toNat = (t, .ok e) → e.owner = p.owner → leafAllows e.leaf wr desc = false →
      translate s p va wr desc = (t, .error (addrExc .prot va)))) ∧
  (∀ (i : Instr) (k : Accesses) (s s1 : State) (x : Iss) (rs : List Raise) (hs : List Hit), accessWord i = some k →
    issuing s k.c k.need = some x → x.Full (k.reads x) →
    x.hits s (k.lanes x) (k.addr x) k.n (fun _ => k.n) k.acc = (s1, rs, hs) →
    let r := k.later x s1 hs
    rs ++ r.2 ≠ [] →
    exec i s = .next (raiseWave r.1 x.bid x.wi x.t.start x.addr false (withUnchecked x.t k.need false (rs ++ r.2)))) ∧
  (∀ (b : Block) (rs : List (Word64 × Nat)),
    let inside (r : Word64 × Nat) : Prop := (r.1.toNat / 2 ^ 56 = 0 ∧ r.1.toNat % 2 ^ 56 + r.2 ≤ 2 ^ 56) ∨
      (r.1.toNat / 2 ^ 56 = 0xF0 ∧ r.1.toNat % 2 ^ 56 + r.2 ≤ 1024 * b.shape.sp)
    (copyFault b rs = none ↔ ∀ r ∈ rs, inside r ∧ r.1.toNat % 16 = 0) ∧
    ∀ st, copyFault b rs = some st → ∃ r ∈ rs, (¬inside r ∧ st = addrExc .apert r.1) ∨
      ((∀ q ∈ rs, inside q) ∧ r.1.toNat % 16 ≠ 0 ∧ st = addrExc .align r.1)) ∧
  (∀ (c : Ctl) (scope : Scope) (bar : BitVec 4) (d a : RegOp) (s : State) (x : Iss) (l : Nat),
    issuing s c (.mk2 0 1) = some x → lowest x.ex = some l →
    let stops (i : Instr) (st : Stop) (more : List Raise) : Prop :=
      exec i s = .next (raiseWave s x.bid x.wi x.t.start x.addr false ((l, st) :: more))
    (∀ b, x.Full ([x.readWide true 6 d, x.readWide true 7 a] ++ x.readSrc true 8 b 1) →
      let n := (x.val true (opB b .z false) l).toNat
      (2 ^ 32 - 16 < n → stops (.cpy c scope bar d a b) (.exc .badfld 8 0 none) []) ∧
      (n ≤ 2 ^ 32 - 16 → ∀ st, copyFault x.b [(x.wide d l, n), (x.wide a l, n)] = some st → stops (.cpy c scope bar d a b) st []) ∧
      (n ≤ 2 ^ 32 - 16 → copyFault x.b [(x.wide d l, n), (x.wide a l, n)] = none → n % 16 ≠ 0 →
        stops (.cpy c scope bar d a b) (.plain .align) [])) ∧
    (∀ b p fe, x.Full [x.readWide true 6 d, x.readWide true 7 a, x.readReg true 8 ⟨.s b, p, fe⟩ 3] →
      let n := (low32 (x.scell b).val).toNat
      let rows := ((x.scell b).val >>> 32).toNat
      let at_ (base stride : Word64) (r : Nat) : Word64 := base + BitVec.ofNat 64 r * stride
      let ranges := (List.range rows).flatMap fun r =>
        [(at_ (x.wide d l) (x.scell (b + 2)).val r, n), (at_ (x.wide a l) (x.scell (b + 1)).val r, n)]
      ((2 ^ 32 - 16 < n ∨ 2 ^ 16 < rows) → stops (.cpyt c scope bar d a ⟨.s b, p, fe⟩) (.exc .badfld 8 0 none) []) ∧
      (n ≤ 2 ^ 32 - 16 → rows ≤ 2 ^ 16 → rows ≠ 0 → ∀ st, copyFault x.b ranges = some st →
        stops (.cpyt c scope bar d a ⟨.s b, p, fe⟩) st [])) ∧
    ∀ (rsz : BitVec 4) (a b : Src), x.Full (x.readWide true 6 d :: x.readSrc true 7 a 1 ++ x.readSrc false 8 b 1) →
      let n := 2 ^ (rsz.toNat + 4)
      let src (k : Nat) : Word64 := x.val true (opA a .z false) l + x.val false (opB b .z false) k * BitVec.ofNat 64 n
      let rows := (List.range (lanesOf x.ex).length).map fun j => (x.wide d l + BitVec.ofNat 64 j * BitVec.ofNat 64 n, n)
      ∀ st, copyFault x.b (rows ++ [(src l, n)]) = some st → stops (.cpyg c rsz scope bar d a b) st
        (((lanesOf x.ex).drop 1).filterMap fun k => (copyFault x.b [(src k, n)]).map fun st => (k, st))) ∧
  (∀ (s : State) (b : Block) (w : Wave) (wi : Nat) (t : TraceRun) (l0 : Nat) (ls : List Nat) (e : Exc) (field detail : Nat)
    (va : Nat → Option Word64) (word : Word64) (dec : Bool),
    getBlock s b.id = some b → nth b.waves wi = some w → w.trace = some t → (l0 :: ls).Pairwise (· < ·) →
    (∀ l ∈ l0 :: ls, l < 32 ∧ l < w.lanes.length ∧ t.batch.getLsbD l = true) → e ≠ .pgflt →
    let n := (getCtx s b.ctx).xseq
    let u := takeStops s b wi t.start word dec ((l0 :: ls).map fun l => (l, .exc e field detail (va l)))
    let r : TrapRec :=
      { kind := 0, exc := e, flags := (if (va l0).isSome then 1 else 0) ||| (if dec then 4 else 0), seq := n, ctx := b.ctx
        queue := ((getTask s b.task).map (·.queue)).getD 0, tseq := ((getTask s b.task).map (·.tseq)).getD 0
        wave := BitVec.ofNat 8 wi, field := BitVec.ofNat 8 field, lanes := maskOf fun l => decide (l ∈ l0 :: ls)
        detail := BitVec.ofNat 32 detail, tp := t.start, word := word, va := (va l0).getD 0, blk := b.lin }
    (∀ c, getCtx u c = if c = b.ctx then
      { getCtx s c with xseq := n + 1, held := (getCtx s c).held ++ [r] } else getCtx s c) ∧
    { u with blocks := s.blocks, ctxs := s.ctxs } = s ∧ SameMemory s u ∧
    ∃ w', getWave u b.id wi = some w' ∧ w' = { w with trace := none, det := t.det, lanes := w'.lanes } ∧
      w'.lanes.length = w.lanes.length ∧ ∀ l, l < w.lanes.length → l < 32 → laneOf w' l =
        if t.batch.getLsbD l then { laneOf w l with
          tp := t.start, draw := (nth t.draws l).getD (laneOf w l).draw, seq := (nth t.seqs l).getD (laneOf w l).seq
          st := if l ∈ l0 :: ls then .trapped n e false word else .runnable }
        else laneOf w l) ∧
  (∀ (s : State) (b : Block) (w : Wave) (wi : Nat) (t : TraceRun) (l0 : Nat) (ls : List Nat) (va : Nat → Word64) (page : Nat)
    (word : Word64), getBlock s b.id = some b → nth b.waves wi = some w → w.trace = some t →
    (l0 :: ls).Pairwise (· < ·) → (∀ l ∈ l0 :: ls, (va l).toNat / 65536 = page) →
    let n := (getCtx s b.ctx).xseq
    let u := takeStops s b wi t.start word false ((l0 :: ls).map fun l => (l, .exc .pgflt 0xFF 0 (some (va l))))
    (∃ r, (getCtx u b.ctx).held = (getCtx s b.ctx).held ++ [r] ∧ (getCtx u b.ctx).xseq = n + 1 ∧ r.kind = 2 ∧
      r.exc = .pgflt ∧ r.seq = n ∧ r.tp = t.start ∧ r.word = word ∧ r.va = va l0 ∧ r.flags = 1 ∧
      r.lanes = maskOf fun l => decide (l ∈ l0 :: ls)) ∧
    SameMemory s u ∧
    ∃ w', getWave u b.id wi = some w' ∧ w'.trace = none ∧ (∀ p, p ∈ w'.parked ↔ p = page ∨ p ∈ w.parked) ∧
      ∀ l, l < w.lanes.length → t.batch.getLsbD l = true → (laneOf w' l).st = .runnable ∧ (laneOf w' l).tp = t.start)

/-! ### One step -/

/-- R27, R190, R206, R307, R357: A STEP RUNS THE INSTRUCTION THAT IS DECODED. The wave in the slot that issues executes the
next word of its trace, or the repeated word (R65), or the TRH of its next batch once that passes the checks of admission;
a sequencer executes the word at its pc, with the matrix array in turn (R178); the CP executes the next command; an event
happens. In the clock of a step the flits of the IOD's masters leave (R10, log 27) and the byte barriers' phases that are due
complete (R282). Whose move is next, and what goes on after an event, are the model's (log 2). -/
def Obligations.StepRunsDecodedWord : Prop :=
  ∀ (s z : State) (m : Move) (rest : List Move), s.agenda = m :: rest → s.halted = false →
    z = duePhases (sendIod { s with agenda := rest, tick := s.tick + 1 }) →
    let ran (o : Out) : Out := onNext o fun u => joinOrder { u with actor := .none }
    (∀ (core unit slot bid wi : Nat) (w : Wave) (b : Block), m = .issue core unit slot → slot < 8 →
      waveAt z core unit slot = some (bid, wi, w) → getBlock z bid = some b → (getCore z core).halted ≠ some b.ctx →
      w.ready = true →
      (∀ (t : TraceRun) (s1 : State) (v : Word128) (i : Instr), w.trace = some t → (match t.rep with
          | none => fetchWord z (whoOf z b 0) (t.addrOf t.pos) = (s1, .word v)
          | some r => s1 = z ∧ v = repWord r) →
        decode (.trace w.ws) v = .ok i → step s = ran (exec i { s1 with actor := .wave bid wi })) ∧
      (∀ (tp : Word64) (q : Mask) (s1 : State) (v : Word128) (words twb tsb mask : BitVec 17), w.trace = none →
        w.batch = some (tp, q) → tp.toNat % 16 = 0 → fetchWord z (whoOf z b 0) tp = (s1, .word v) →
        (Raw.ofWord v).op = 0 → decode (.trace w.ws) v = .ok (.traceAdmission words twb tsb mask) →
        admissionStop s1 (whoOf s1 b 0) tp words twb tsb mask = none →
        step s = ran (exec (.traceAdmission words twb tsb mask) { s1 with actor := .wave bid wi }))) ∧
    (∀ (bid : Nat) (b : Block) (q : SeqState) (s1 : State) (v : Word128) (i : Instr), m = .seq bid →
      getBlock z bid = some b → seqActive z b = some q → seqFetch z b q = (s1, .word v) → decode .stream v = .ok i →
      let core := b.core.getD 0
      let t := { s1 with actor := .seq bid }
      (arrayWord i = false → step s = ran (exec i t)) ∧
      (arrayWord i = true → arrayBlocked z bid core = false →
        step s = onNext (ran (exec i t)) (takeArray z bid core)) ∧
      (arrayWord i = true → arrayBlocked z bid core = true → step s = .next z)) ∧
    (∀ i, m = .cp → nextCommand z = some i → step s = onNext (exec i z) settleAll) ∧
    (∀ i, m = .event i → encode i = none → step s = onNext (exec i z) settleAll)

/-- R419: a halted module does nothing but resets and reads of control space. -/
def Obligations.HaltedModule : Prop :=
  ∀ s : State, s.halted = true → actsHalted (takeMove s).1 = false →
    step s = .next { (takeMove s).2 with tick := s.tick + 1 }

/-! ### The whole machine -/

/-- R189 to R206: words written out from the encoding tables decode to their instructions: MXM with two generators, SQWAIT,
ATOMR, TEND, a post-modulo LD, REP. -/
def Obligations.WordsDecode : Prop :=
  decode .stream (0x00000000_07C00000#64 ++ 0x00808F00_0002CD35#64) =
    .ok (.mxm ⟨false, false, true, .sm8, .sm8⟩ ⟨0, 7, 1, 2⟩ ⟨.v 0, .none, false⟩ ⟨.g 0, .none, false⟩ none) ∧
  decode .stream (0x00000000_00000200#64 ++ 0x80000000_00000130#64) = .ok (.sqwait 0 8) ∧
  decode (.trace 12) (0x80004000_08000404#64 ++ 0x00028000_001200EA#64) =
    .ok (.atomr Ctl.plain .device .acq .add false (.v 5) ⟨.v 2, .none, false⟩ (.imm 1) 1) ∧
  decode (.trace 12) (0x00002000_1FFFE400#64 ++ 0x00000000_00002601#64) = .ok (.tend Ctl.plain ⟨true, 3⟩ (-7) 1) ∧
  decode (.trace 12) (0x80102000_20000004#64 ++ 0x00038000_001840E0#64) =
    .ok (.ld Ctl.plain 2 false (.v 7) ⟨⟨.v 2, .none, false⟩, .postMod 2 64⟩) ∧
  decode (.trace 12) (0x00000000_10000000#64 ++ 0x01000040_0000060F#64) = .ok (.rep 3 1 1 0 1 0)

/-- R189 to R206: THE DECODER READS WHAT THE ENCODER WRITES, for every well-formed word of a trace under any window and of
the stream, with every operand at every value. -/
def Obligations.DecodeEncodeAgree : Prop :=
  ∀ (e : Env) (i : Instr) (w : Word128), wfWord e i = true → encode i = some w → decode e w = .ok i

/-- R368, R363, R115, R119, R354: after a power-on reset every byte of memory is zero and untagged; the boot region's frames
belong to the hypervisor and the others are free; each master has the access of R119's table; no context, queue, block or
task exists; the measurement registers and the time unit are zero; every link is at full width; HOSTOWN is 0xFFFF. The
state stands at step 3 of the boot (log 8). -/
def Obligations.ResetState : Prop :=
  State.reset.Canonical ∧
  (∀ a, State.reset.dram.read a = 0 ∧ State.reset.gran.read a = 0 ∧ fget 0 State.reset.dtag a = 0 ∧
    fget 0 State.reset.gtag a = 0) ∧
  (∀ f, frameOwner State.reset f = if f < 16384 then 0xFFFF else 0) ∧
  (∀ t m, m < 128 → accessBits State.reset t m =
    if m < 0x40 then 0 else if m < 0x49 then 3 else if m = 0x4B ∨ m = 0x4C then 3 else 0) ∧
  (∀ c, getCtx State.reset c = .empty) ∧ (∀ q, (getQueue State.reset q).enabled = false) ∧
  State.reset.blocks = [] ∧ State.reset.tasks = [] ∧ State.reset.rot.mr = List.replicate 8 0 ∧
  State.reset.time.ptp = 0 ∧ State.reset.hostown = 0xFFFF ∧ State.reset.halted = false ∧
  (∀ i, i < 10 → (getLink State.reset i).lanes = if i = 4 ∨ i = 5 then 0 else 64)

/-- EVERY STEP KEEPS the canonical form of DRAM, the granaries and every block's scratchpad, and of the map of contexts. -/
def Obligations.StepKeepsInvariant : Prop := ∀ s u : State, s.Canonical → step s = .next u → u.Canonical
end

