-- ==== Sys2Proof/Laws/Maps.lean ====
section
/-! SUPPORT. Laws of finite maps and memory (canonical form, read after write), of list updates and of lane masks. -/

namespace Sys2Proof.Machine

/-! ### Lists -/

theorem nth_modifyAt {α : Type} (f : α → α) (i j : Nat) (xs : List α) :
    nth (modifyAt f i xs) j = if i = j then (nth xs j).map f else nth xs j := by
  induction xs generalizing i j with
  | nil => cases i <;> cases j <;> simp [nth, modifyAt]
  | cons x xs ih =>
    cases i with
    | zero => cases j <;> simp [nth, modifyAt]
    | succ i => cases j with
      | zero => simp [nth, modifyAt]
      | succ j => simp [nth, modifyAt, ih]

theorem length_modifyAt {α : Type} (f : α → α) (i : Nat) (xs : List α) : (modifyAt f i xs).length = xs.length := by
  induction xs generalizing i with
  | nil => cases i <;> rfl
  | cons x xs ih => cases i <;> simp [modifyAt, ih]

theorem map_modifyAt {α β : Type} (g : α → β) (f : α → α) (h : β → β) (hc : ∀ x, g (f x) = h (g x)) (i : Nat)
    (xs : List α) : (modifyAt f i xs).map g = modifyAt h i (xs.map g) := by
  induction xs generalizing i with
  | nil => cases i <;> rfl
  | cons x xs ih => cases i <;> simp [modifyAt, hc, ih]

theorem map_modifyAt_same {α β : Type} (g : α → β) (f : α → α) (hc : ∀ x, g (f x) = g x) (i : Nat) (xs : List α) :
    (modifyAt f i xs).map g = xs.map g := by
  induction xs generalizing i with
  | nil => cases i <;> rfl
  | cons x xs ih => cases i <;> simp [modifyAt, hc, ih]

theorem nth_map {α β : Type} (f : α → β) (xs : List α) (i : Nat) : nth (xs.map f) i = (nth xs i).map f := by
  induction xs generalizing i with
  | nil => cases i <;> rfl
  | cons x xs ih => cases i <;> simp [nth, ih]

/-! ### Finite maps -/

theorem ffind_fins {α : Type} (m : FMap α) (k k' : Nat) (v : α) :
    ffind (fins m k v) k' = if k = k' then some v else ffind m k' := by
  induction m with
  | nil => simp [fins, ffind]
  | cons p m ih =>
    obtain ⟨q, w⟩ := p
    simp only [fins]
    split
    · simp only [ffind, ih]
      by_cases h1 : q = k'
      · have : ¬ k = k' := by omega
        simp [h1, this]
      · simp [h1]
    · split
      · subst q; simp only [ffind]
        by_cases h1 : k = k' <;> simp [h1]
      · simp only [ffind]

theorem ffind_fdel {α : Type} (m : FMap α) (k k' : Nat) :
    ffind (fdel m k) k' = if k = k' then none else ffind m k' := by
  induction m with
  | nil => simp [fdel, ffind]
  | cons p m ih =>
    obtain ⟨q, w⟩ := p
    simp only [fdel]
    split
    · subst q; rw [ih]; simp only [ffind]
      by_cases h1 : k = k' <;> simp [h1]
    · simp only [ffind, ih]
      by_cases h1 : q = k'
      · have : ¬ k = k' := by omega
        simp [h1, this]
      · simp [h1]

theorem fget_fins {α : Type} (d : α) (m : FMap α) (k k' : Nat) (v : α) :
    fget d (fins m k v) k' = if k = k' then v else fget d m k' := by
  simp only [fget, ffind_fins]; split <;> rfl

theorem fget_fdel {α : Type} (d : α) (m : FMap α) (k k' : Nat) :
    fget d (fdel m k) k' = if k = k' then d else fget d m k' := by
  simp only [fget, ffind_fdel]; split <;> rfl

/-- Read after write. -/
theorem fget_fput {α : Type} [DecidableEq α] (d : α) (m : FMap α) (k k' : Nat) (v : α) :
    fget d (fput d m k v) k' = if k = k' then v else fget d m k' := by
  unfold fput
  split
  · subst v; exact fget_fdel d m k k'
  · exact fget_fins d m k k' v

theorem fget_fmod {α : Type} [DecidableEq α] (d : α) (m : FMap α) (k k' : Nat) (f : α → α) :
    fget d (fmod d m k f) k' = if k = k' then f (fget d m k') else fget d m k' := by
  rw [fmod, fget_fput]; split
  · subst k; rfl
  · rfl

theorem frising_mono {α : Type} {lo lo' : Nat} {m : FMap α} (h : frising (some lo) m = true) (hk : lo' ≤ lo) :
    frising (some lo') m = true := by
  cases m with
  | nil => rfl
  | cons p m =>
    obtain ⟨q, v⟩ := p
    simp only [frising, Bool.and_eq_true, decide_eq_true_eq] at h ⊢
    exact ⟨by omega, h.2⟩

theorem frising_none {α : Type} {lo : Nat} {m : FMap α} (h : frising (some lo) m = true) : frising none m = true := by
  cases m with
  | nil => rfl
  | cons p m =>
    obtain ⟨q, v⟩ := p
    simp only [frising, Bool.and_eq_true] at h ⊢
    exact h.2

theorem frising_fins {α : Type} {m : FMap α} {lo : Option Nat} (h : frising lo m = true) {k : Nat}
    (hk : ∀ l, lo = some l → l < k) (v : α) : frising lo (fins m k v) = true := by
  induction m generalizing lo with
  | nil => cases lo with
    | none => rfl
    | some l => simpa [fins, frising] using hk l rfl
  | cons p m ih =>
    obtain ⟨q, w⟩ := p
    have hm : frising (some q) m = true := by
      cases lo with
      | none => exact h
      | some l => simp only [frising, Bool.and_eq_true] at h; exact h.2
    simp only [fins]
    split
    · have := ih hm (by intro l hl; cases hl; assumption)
      cases lo with
      | none => exact this
      | some l =>
        simp only [frising, Bool.and_eq_true, decide_eq_true_eq] at h ⊢
        exact ⟨h.1, this⟩
    · split
      · subst q
        cases lo with
        | none => exact hm
        | some l =>
          simp only [frising, Bool.and_eq_true, decide_eq_true_eq] at h ⊢
          exact ⟨h.1, hm⟩
      · have : frising (some k) ((q, w) :: m) = true := by
          simp only [frising, Bool.and_eq_true, decide_eq_true_eq]; exact ⟨by omega, hm⟩
        cases lo with
        | none => exact this
        | some l =>
          simp only [frising, Bool.and_eq_true, decide_eq_true_eq] at this ⊢
          exact ⟨hk l rfl, this⟩

theorem frising_fdel {α : Type} {m : FMap α} {lo : Option Nat} (h : frising lo m = true) (k : Nat) :
    frising lo (fdel m k) = true := by
  induction m generalizing lo with
  | nil => cases lo <;> rfl
  | cons p m ih =>
    obtain ⟨q, w⟩ := p
    have hm : frising (some q) m = true := by
      cases lo with
      | none => exact h
      | some l => simp only [frising, Bool.and_eq_true] at h; exact h.2
    simp only [fdel]
    split
    · cases lo with
      | none => exact frising_none (ih hm)
      | some l =>
        simp only [frising, Bool.and_eq_true, decide_eq_true_eq] at h
        exact frising_mono (ih hm) (Nat.le_of_lt h.1)
    · have := ih hm
      cases lo with
      | none => exact this
      | some l =>
        simp only [frising, Bool.and_eq_true, decide_eq_true_eq] at h ⊢
        exact ⟨h.1, this⟩

theorem mem_fins {α : Type} {m : FMap α} {k : Nat} {v : α} {p : Nat × α} (h : p ∈ fins m k v) : p = (k, v) ∨ p ∈ m := by
  induction m with
  | nil => simp only [fins, List.mem_singleton] at h; exact .inl h
  | cons q m ih =>
    simp only [fins] at h
    split at h
    · rcases List.mem_cons.1 h with h | h
      · exact .inr (by simp [h])
      · exact (ih h).imp_right fun h => List.mem_cons_of_mem _ h
    · split at h
      · rcases List.mem_cons.1 h with h | h
        · exact .inl h
        · exact .inr (List.mem_cons_of_mem _ h)
      · rcases List.mem_cons.1 h with h | h
        · exact .inl h
        · exact .inr h

theorem mem_fdel {α : Type} {m : FMap α} {k : Nat} {p : Nat × α} (h : p ∈ fdel m k) : p ∈ m := by
  induction m with
  | nil => exact h
  | cons q m ih =>
    simp only [fdel] at h
    split at h
    · exact List.mem_cons_of_mem _ (ih h)
    · rcases List.mem_cons.1 h with h | h
      · simp [h]
      · exact List.mem_cons_of_mem _ (ih h)

/-- A write keeps the canonical form. -/
theorem fwf_fput {α : Type} [DecidableEq α] {d : α} {m : FMap α} (h : fwf d m = true) (k : Nat) (v : α) :
    fwf d (fput d m k v) = true := by
  simp only [fwf, Bool.and_eq_true, List.all_eq_true, decide_eq_true_eq] at h ⊢
  unfold fput
  split
  · exact ⟨frising_fdel h.1 k, fun p hp => h.2 p (mem_fdel hp)⟩
  · refine ⟨frising_fins h.1 (by simp) v, fun p hp => ?_⟩
    rcases mem_fins hp with rfl | hp
    · assumption
    · exact h.2 p hp

/-! ### Memory -/

theorem frising_filter {α : Type} (p : Nat × α → Bool) : ∀ {m : FMap α} {lo : Option Nat}, frising lo m = true →
    frising lo (m.filter p) = true
  | [], _, _ => rfl
  | x :: xs, none, h => by
    have t := frising_filter p (m := xs) (lo := some x.1) h
    rw [List.filter_cons]
    split
    · exact t
    · exact frising_none t
  | x :: xs, some k, h => by
    simp only [frising, Bool.and_eq_true, decide_eq_true_eq] at h
    have t := frising_filter p (m := xs) h.2
    rw [List.filter_cons]
    split
    · simp only [frising, Bool.and_eq_true, decide_eq_true_eq]; exact ⟨h.1, t⟩
    · exact frising_mono t (Nat.le_of_lt h.1)

theorem Memory.wf_filter {m : Memory} (h : m.wf = true) (p : Host.Cell → Bool) : Memory.wf (m.filter p) = true := by
  simp only [Memory.wf, fwf, Bool.and_eq_true, List.all_eq_true] at h ⊢
  exact ⟨frising_filter p h.1, fun x hx => h.2 x (List.mem_of_mem_filter hx)⟩

theorem Memory.wf_empty : Memory.wf [] = true := rfl

theorem Memory.wf_write {m : Memory} (h : m.wf = true) (a : Nat) (b : Byte) : (m.write a b).wf = true := fwf_fput h a b

theorem Memory.wf_writeN {m : Memory} (h : m.wf = true) (a : Nat) (bs : List Byte) : (m.writeN a bs).wf = true := by
  induction bs generalizing m a with
  | nil => exact h
  | cons b bs ih => exact ih (Memory.wf_write h a b) (a + 1)

/-- Read after write. -/
theorem Memory.read_write (m : Memory) (a a' : Nat) (b : Byte) :
    (m.write a b).read a' = if a = a' then b else m.read a' := fget_fput unlisted m a a' b

/-- A write of several bytes gives each its byte and leaves every other address alone. -/
theorem Memory.read_writeN (m : Memory) (a : Nat) (bs : List Byte) (a' : Nat) :
    (m.writeN a bs).read a' = if a ≤ a' ∧ a' < a + bs.length then (bs[a' - a]?).getD 0 else m.read a' := by
  induction bs generalizing m a with
  | nil =>
    have : ¬ (a ≤ a' ∧ a' < a) := by omega
    simp [Memory.writeN, this]
  | cons b bs ih =>
    simp only [Memory.writeN, ih, Memory.read_write, List.length_cons]
    by_cases h1 : a = a'
    · subst h1; simp
    · by_cases h2 : a + 1 ≤ a' ∧ a' < a + 1 + bs.length
      · have h3 : a ≤ a' ∧ a' < a + (bs.length + 1) := by omega
        have h4 : a' - a = (a' - (a + 1)) + 1 := by omega
        simp only [if_pos h2, if_pos h3]; rw [h4]; simp
      · have h3 : ¬ (a ≤ a' ∧ a' < a + (bs.length + 1)) := by omega
        rw [if_neg h2, if_neg h3, if_neg h1]

/-! ### Lanes and masks -/

theorem mem_allLanes (l : Nat) : l ∈ allLanes ↔ l < 32 := by
  constructor
  · intro h; simp only [allLanes, List.mem_cons, List.not_mem_nil, or_false] at h; omega
  · intro h; simp only [allLanes, List.mem_cons, List.not_mem_nil, or_false]; omega

@[simp] theorem mem_lanesOf (m : Mask) (l : Nat) : l ∈ lanesOf m ↔ m.getLsbD l = true := by
  simp only [lanesOf, List.mem_filter, mem_allLanes]
  exact ⟨fun h => h.2, fun h => ⟨BitVec.lt_of_getLsbD h, h⟩⟩

theorem laneBit_getLsbD (l k : Nat) : (laneBit l).getLsbD k = (decide (k < 32) && decide (l = k)) := by
  simp only [laneBit, BitVec.getLsbD_shiftLeft, BitVec.getLsbD_one]
  by_cases h1 : k < 32
  · by_cases h2 : k < l
    · have : ¬ l = k := by omega
      simp [h1, h2, this]
    · by_cases h3 : l = k
      · subst h3; simp [h1]
      · have : ¬ k - l = 0 := by omega
        simp [h1, h2, h3, this]
  · simp [h1]

theorem maskOf_fold (p : Nat → Bool) (ls : List Nat) (m : Mask) (k : Nat) :
    (ls.foldl (fun m l => if p l then m ||| laneBit l else m) m).getLsbD k
      = (m.getLsbD k || decide (k < 32 ∧ k ∈ ls ∧ p k = true)) := by
  induction ls generalizing m with
  | nil => simp
  | cons l ls ih =>
    rw [List.foldl_cons, ih]
    by_cases hp : p l = true
    · simp only [hp, if_true, BitVec.getLsbD_or, laneBit_getLsbD, List.mem_cons]
      by_cases h1 : l = k
      · subst h1; by_cases h2 : l < 32 <;> simp [h2, hp]
      · have : ¬ k = l := fun h => h1 h.symm
        simp [h1, this]
    · simp only [hp, List.mem_cons]
      by_cases h1 : k = l
      · subst h1; simp [hp]
      · simp [h1]

@[simp] theorem maskOf_getLsbD (p : Nat → Bool) (l : Nat) : (maskOf p).getLsbD l = (decide (l < 32) && p l) := by
  rw [maskOf, maskOf_fold]
  by_cases h : l < 32
  · simp [h, (mem_allLanes l).2 h]
  · simp [h]

theorem lowest_mem {m : Mask} {l : Nat} (h : lowest m = some l) : m.getLsbD l = true :=
  (mem_lanesOf m l).1 (List.mem_of_head? h)

theorem mask_ext {a b : Mask} (h : ∀ l, l < 32 → a.getLsbD l = b.getLsbD l) : a = b :=
  BitVec.eq_of_getLsbD_eq fun i hi => h i hi

end Sys2Proof.Machine
end

