-- ==== Sys2Proof/Laws/State.lean ====
section
/-! SUPPORT. One lemma per field of the state and named update: what the update leaves in the field. -/

namespace Sys2Proof.Machine

/-! ### setBlock -/

@[simp] theorem setBlock_agenda (s : State) (b : Block) : (setBlock s b).agenda = s.agenda := rfl
@[simp] theorem setBlock_freeIx (s : State) (b : Block) : (setBlock s b).freeIx = s.freeIx := rfl
@[simp] theorem setBlock_tick (s : State) (b : Block) : (setBlock s b).tick = s.tick := rfl
@[simp] theorem setBlock_actor (s : State) (b : Block) : (setBlock s b).actor = s.actor := rfl
@[simp] theorem setBlock_nextId (s : State) (b : Block) : (setBlock s b).nextId = s.nextId := rfl
@[simp] theorem setBlock_outbox (s : State) (b : Block) : (setBlock s b).outbox = s.outbox := rfl
@[simp] theorem setBlock_live (s : State) (b : Block) : (setBlock s b).live = s.live := rfl
@[simp] theorem setBlock_cores (s : State) (b : Block) : (setBlock s b).cores = s.cores := rfl
@[simp] theorem setBlock_blocks (s : State) (b : Block) : (setBlock s b).blocks = s.blocks.map fun x => if x.id = b.id then b else x := rfl
@[simp] theorem setBlock_pendings (s : State) (b : Block) : (setBlock s b).pendings = s.pendings := rfl
@[simp] theorem setBlock_flights (s : State) (b : Block) : (setBlock s b).flights = s.flights := rfl
@[simp] theorem setBlock_ops (s : State) (b : Block) : (setBlock s b).ops = s.ops := rfl
@[simp] theorem setBlock_copies (s : State) (b : Block) : (setBlock s b).copies = s.copies := rfl
@[simp] theorem setBlock_arrivals (s : State) (b : Block) : (setBlock s b).arrivals = s.arrivals := rfl
@[simp] theorem setBlock_posts (s : State) (b : Block) : (setBlock s b).posts = s.posts := rfl
@[simp] theorem setBlock_detbuf (s : State) (b : Block) : (setBlock s b).detbuf = s.detbuf := rfl
@[simp] theorem setBlock_fences (s : State) (b : Block) : (setBlock s b).fences = s.fences := rfl
@[simp] theorem setBlock_dram (s : State) (b : Block) : (setBlock s b).dram = s.dram := rfl
@[simp] theorem setBlock_dtag (s : State) (b : Block) : (setBlock s b).dtag = s.dtag := rfl
@[simp] theorem setBlock_dpoison (s : State) (b : Block) : (setBlock s b).dpoison = s.dpoison := rfl
@[simp] theorem setBlock_upsets (s : State) (b : Block) : (setBlock s b).upsets = s.upsets := rfl
@[simp] theorem setBlock_gran (s : State) (b : Block) : (setBlock s b).gran = s.gran := rfl
@[simp] theorem setBlock_gtag (s : State) (b : Block) : (setBlock s b).gtag = s.gtag := rfl
@[simp] theorem setBlock_gpoison (s : State) (b : Block) : (setBlock s b).gpoison = s.gpoison := rfl
@[simp] theorem setBlock_gupsets (s : State) (b : Block) : (setBlock s b).gupsets = s.gupsets := rfl
@[simp] theorem setBlock_regions (s : State) (b : Block) : (setBlock s b).regions = s.regions := rfl
@[simp] theorem setBlock_refresh (s : State) (b : Block) : (setBlock s b).refresh = s.refresh := rfl
@[simp] theorem setBlock_owners (s : State) (b : Block) : (setBlock s b).owners = s.owners := rfl
@[simp] theorem setBlock_asked (s : State) (b : Block) : (setBlock s b).asked = s.asked := rfl
@[simp] theorem setBlock_gone (s : State) (b : Block) : (setBlock s b).gone = s.gone := rfl
@[simp] theorem setBlock_access (s : State) (b : Block) : (setBlock s b).access = s.access := rfl
@[simp] theorem setBlock_l1 (s : State) (b : Block) : (setBlock s b).l1 = s.l1 := rfl
@[simp] theorem setBlock_stack (s : State) (b : Block) : (setBlock s b).stack = s.stack := rfl
@[simp] theorem setBlock_stackGen (s : State) (b : Block) : (setBlock s b).stackGen = s.stackGen := rfl
@[simp] theorem setBlock_stamps (s : State) (b : Block) : (setBlock s b).stamps = s.stamps := rfl
@[simp] theorem setBlock_tlbs (s : State) (b : Block) : (setBlock s b).tlbs = s.tlbs := rfl
@[simp] theorem setBlock_ctxs (s : State) (b : Block) : (setBlock s b).ctxs = s.ctxs := rfl
@[simp] theorem setBlock_queues (s : State) (b : Block) : (setBlock s b).queues = s.queues := rfl
@[simp] theorem setBlock_tasks (s : State) (b : Block) : (setBlock s b).tasks = s.tasks := rfl
@[simp] theorem setBlock_versions (s : State) (b : Block) : (setBlock s b).versions = s.versions := rfl
@[simp] theorem setBlock_cp (s : State) (b : Block) : (setBlock s b).cp = s.cp := rfl
@[simp] theorem setBlock_plog (s : State) (b : Block) : (setBlock s b).plog = s.plog := rfl
@[simp] theorem setBlock_buckets (s : State) (b : Block) : (setBlock s b).buckets = s.buckets := rfl
@[simp] theorem setBlock_retiredSlices (s : State) (b : Block) : (setBlock s b).retiredSlices = s.retiredSlices := rfl
@[simp] theorem setBlock_retiredBanks (s : State) (b : Block) : (setBlock s b).retiredBanks = s.retiredBanks := rfl
@[simp] theorem setBlock_spareRows (s : State) (b : Block) : (setBlock s b).spareRows = s.spareRows := rfl
@[simp] theorem setBlock_gen (s : State) (b : Block) : (setBlock s b).gen = s.gen := rfl
@[simp] theorem setBlock_meters (s : State) (b : Block) : (setBlock s b).meters = s.meters := rfl
@[simp] theorem setBlock_links (s : State) (b : Block) : (setBlock s b).links = s.links := rfl
@[simp] theorem setBlock_traffic (s : State) (b : Block) : (setBlock s b).traffic = s.traffic := rfl
@[simp] theorem setBlock_dirs (s : State) (b : Block) : (setBlock s b).dirs = s.dirs := rfl
@[simp] theorem setBlock_iodOut (s : State) (b : Block) : (setBlock s b).iodOut = s.iodOut := rfl
@[simp] theorem setBlock_pairSent (s : State) (b : Block) : (setBlock s b).pairSent = s.pairSent := rfl
@[simp] theorem setBlock_pairs (s : State) (b : Block) : (setBlock s b).pairs = s.pairs := rfl
@[simp] theorem setBlock_results (s : State) (b : Block) : (setBlock s b).results = s.results := rfl
@[simp] theorem setBlock_deadDisp (s : State) (b : Block) : (setBlock s b).deadDisp = s.deadDisp := rfl
@[simp] theorem setBlock_beats (s : State) (b : Block) : (setBlock s b).beats = s.beats := rfl
@[simp] theorem setBlock_netTab (s : State) (b : Block) : (setBlock s b).netTab = s.netTab := rfl
@[simp] theorem setBlock_portsUp (s : State) (b : Block) : (setBlock s b).portsUp = s.portsUp := rfl
@[simp] theorem setBlock_netOut (s : State) (b : Block) : (setBlock s b).netOut = s.netOut := rfl
@[simp] theorem setBlock_netSeen (s : State) (b : Block) : (setBlock s b).netSeen = s.netSeen := rfl
@[simp] theorem setBlock_netSeq (s : State) (b : Block) : (setBlock s b).netSeq = s.netSeq := rfl
@[simp] theorem setBlock_time (s : State) (b : Block) : (setBlock s b).time = s.time := rfl
@[simp] theorem setBlock_rot (s : State) (b : Block) : (setBlock s b).rot = s.rot := rfl
@[simp] theorem setBlock_hostown (s : State) (b : Block) : (setBlock s b).hostown = s.hostown := rfl
@[simp] theorem setBlock_power (s : State) (b : Block) : (setBlock s b).power = s.power := rfl
@[simp] theorem setBlock_dvfs (s : State) (b : Block) : (setBlock s b).dvfs = s.dvfs := rfl
@[simp] theorem setBlock_order (s : State) (b : Block) : (setBlock s b).order = s.order := rfl
@[simp] theorem setBlock_thermal (s : State) (b : Block) : (setBlock s b).thermal = s.thermal := rfl
@[simp] theorem setBlock_halted (s : State) (b : Block) : (setBlock s b).halted = s.halted := rfl

/-! ### dropBlock -/

@[simp] theorem dropBlock_agenda (s : State) (k : Nat) : (dropBlock s k).agenda = s.agenda := rfl
@[simp] theorem dropBlock_freeIx (s : State) (k : Nat) : (dropBlock s k).freeIx = s.freeIx := rfl
@[simp] theorem dropBlock_tick (s : State) (k : Nat) : (dropBlock s k).tick = s.tick := rfl
@[simp] theorem dropBlock_actor (s : State) (k : Nat) : (dropBlock s k).actor = s.actor := rfl
@[simp] theorem dropBlock_nextId (s : State) (k : Nat) : (dropBlock s k).nextId = s.nextId := rfl
@[simp] theorem dropBlock_outbox (s : State) (k : Nat) : (dropBlock s k).outbox = s.outbox := rfl
@[simp] theorem dropBlock_live (s : State) (k : Nat) : (dropBlock s k).live = s.live := rfl
@[simp] theorem dropBlock_cores (s : State) (k : Nat) : (dropBlock s k).cores = s.cores := rfl
@[simp] theorem dropBlock_blocks (s : State) (k : Nat) : (dropBlock s k).blocks = s.blocks.filter fun x => x.id ≠ k := rfl
@[simp] theorem dropBlock_pendings (s : State) (k : Nat) : (dropBlock s k).pendings = s.pendings := rfl
@[simp] theorem dropBlock_flights (s : State) (k : Nat) : (dropBlock s k).flights = s.flights := rfl
@[simp] theorem dropBlock_ops (s : State) (k : Nat) : (dropBlock s k).ops = s.ops := rfl
@[simp] theorem dropBlock_copies (s : State) (k : Nat) : (dropBlock s k).copies = s.copies := rfl
@[simp] theorem dropBlock_arrivals (s : State) (k : Nat) : (dropBlock s k).arrivals = s.arrivals := rfl
@[simp] theorem dropBlock_posts (s : State) (k : Nat) : (dropBlock s k).posts = s.posts := rfl
@[simp] theorem dropBlock_detbuf (s : State) (k : Nat) : (dropBlock s k).detbuf = s.detbuf := rfl
@[simp] theorem dropBlock_fences (s : State) (k : Nat) : (dropBlock s k).fences = s.fences := rfl
@[simp] theorem dropBlock_dram (s : State) (k : Nat) : (dropBlock s k).dram = s.dram := rfl
@[simp] theorem dropBlock_dtag (s : State) (k : Nat) : (dropBlock s k).dtag = s.dtag := rfl
@[simp] theorem dropBlock_dpoison (s : State) (k : Nat) : (dropBlock s k).dpoison = s.dpoison := rfl
@[simp] theorem dropBlock_upsets (s : State) (k : Nat) : (dropBlock s k).upsets = s.upsets := rfl
@[simp] theorem dropBlock_gran (s : State) (k : Nat) : (dropBlock s k).gran = s.gran := rfl
@[simp] theorem dropBlock_gtag (s : State) (k : Nat) : (dropBlock s k).gtag = s.gtag := rfl
@[simp] theorem dropBlock_gpoison (s : State) (k : Nat) : (dropBlock s k).gpoison = s.gpoison := rfl
@[simp] theorem dropBlock_gupsets (s : State) (k : Nat) : (dropBlock s k).gupsets = s.gupsets := rfl
@[simp] theorem dropBlock_regions (s : State) (k : Nat) : (dropBlock s k).regions = s.regions := rfl
@[simp] theorem dropBlock_refresh (s : State) (k : Nat) : (dropBlock s k).refresh = s.refresh := rfl
@[simp] theorem dropBlock_owners (s : State) (k : Nat) : (dropBlock s k).owners = s.owners := rfl
@[simp] theorem dropBlock_asked (s : State) (k : Nat) : (dropBlock s k).asked = s.asked := rfl
@[simp] theorem dropBlock_gone (s : State) (k : Nat) : (dropBlock s k).gone = s.gone := rfl
@[simp] theorem dropBlock_access (s : State) (k : Nat) : (dropBlock s k).access = s.access := rfl
@[simp] theorem dropBlock_l1 (s : State) (k : Nat) : (dropBlock s k).l1 = s.l1 := rfl
@[simp] theorem dropBlock_stack (s : State) (k : Nat) : (dropBlock s k).stack = s.stack := rfl
@[simp] theorem dropBlock_stackGen (s : State) (k : Nat) : (dropBlock s k).stackGen = s.stackGen := rfl
@[simp] theorem dropBlock_stamps (s : State) (k : Nat) : (dropBlock s k).stamps = s.stamps := rfl
@[simp] theorem dropBlock_tlbs (s : State) (k : Nat) : (dropBlock s k).tlbs = s.tlbs := rfl
@[simp] theorem dropBlock_ctxs (s : State) (k : Nat) : (dropBlock s k).ctxs = s.ctxs := rfl
@[simp] theorem dropBlock_queues (s : State) (k : Nat) : (dropBlock s k).queues = s.queues := rfl
@[simp] theorem dropBlock_tasks (s : State) (k : Nat) : (dropBlock s k).tasks = s.tasks := rfl
@[simp] theorem dropBlock_versions (s : State) (k : Nat) : (dropBlock s k).versions = s.versions := rfl
@[simp] theorem dropBlock_cp (s : State) (k : Nat) : (dropBlock s k).cp = s.cp := rfl
@[simp] theorem dropBlock_plog (s : State) (k : Nat) : (dropBlock s k).plog = s.plog := rfl
@[simp] theorem dropBlock_buckets (s : State) (k : Nat) : (dropBlock s k).buckets = s.buckets := rfl
@[simp] theorem dropBlock_retiredSlices (s : State) (k : Nat) : (dropBlock s k).retiredSlices = s.retiredSlices := rfl
@[simp] theorem dropBlock_retiredBanks (s : State) (k : Nat) : (dropBlock s k).retiredBanks = s.retiredBanks := rfl
@[simp] theorem dropBlock_spareRows (s : State) (k : Nat) : (dropBlock s k).spareRows = s.spareRows := rfl
@[simp] theorem dropBlock_gen (s : State) (k : Nat) : (dropBlock s k).gen = s.gen := rfl
@[simp] theorem dropBlock_meters (s : State) (k : Nat) : (dropBlock s k).meters = s.meters := rfl
@[simp] theorem dropBlock_links (s : State) (k : Nat) : (dropBlock s k).links = s.links := rfl
@[simp] theorem dropBlock_traffic (s : State) (k : Nat) : (dropBlock s k).traffic = s.traffic := rfl
@[simp] theorem dropBlock_dirs (s : State) (k : Nat) : (dropBlock s k).dirs = s.dirs := rfl
@[simp] theorem dropBlock_iodOut (s : State) (k : Nat) : (dropBlock s k).iodOut = s.iodOut := rfl
@[simp] theorem dropBlock_pairSent (s : State) (k : Nat) : (dropBlock s k).pairSent = s.pairSent := rfl
@[simp] theorem dropBlock_pairs (s : State) (k : Nat) : (dropBlock s k).pairs = s.pairs := rfl
@[simp] theorem dropBlock_results (s : State) (k : Nat) : (dropBlock s k).results = s.results := rfl
@[simp] theorem dropBlock_deadDisp (s : State) (k : Nat) : (dropBlock s k).deadDisp = s.deadDisp := rfl
@[simp] theorem dropBlock_beats (s : State) (k : Nat) : (dropBlock s k).beats = s.beats := rfl
@[simp] theorem dropBlock_netTab (s : State) (k : Nat) : (dropBlock s k).netTab = s.netTab := rfl
@[simp] theorem dropBlock_portsUp (s : State) (k : Nat) : (dropBlock s k).portsUp = s.portsUp := rfl
@[simp] theorem dropBlock_netOut (s : State) (k : Nat) : (dropBlock s k).netOut = s.netOut := rfl
@[simp] theorem dropBlock_netSeen (s : State) (k : Nat) : (dropBlock s k).netSeen = s.netSeen := rfl
@[simp] theorem dropBlock_netSeq (s : State) (k : Nat) : (dropBlock s k).netSeq = s.netSeq := rfl
@[simp] theorem dropBlock_time (s : State) (k : Nat) : (dropBlock s k).time = s.time := rfl
@[simp] theorem dropBlock_rot (s : State) (k : Nat) : (dropBlock s k).rot = s.rot := rfl
@[simp] theorem dropBlock_hostown (s : State) (k : Nat) : (dropBlock s k).hostown = s.hostown := rfl
@[simp] theorem dropBlock_power (s : State) (k : Nat) : (dropBlock s k).power = s.power := rfl
@[simp] theorem dropBlock_dvfs (s : State) (k : Nat) : (dropBlock s k).dvfs = s.dvfs := rfl
@[simp] theorem dropBlock_order (s : State) (k : Nat) : (dropBlock s k).order = s.order := rfl
@[simp] theorem dropBlock_thermal (s : State) (k : Nat) : (dropBlock s k).thermal = s.thermal := rfl
@[simp] theorem dropBlock_halted (s : State) (k : Nat) : (dropBlock s k).halted = s.halted := rfl

/-! ### modBlock -/

@[simp] theorem modBlock_agenda (s : State) (k : Nat) (f : Block → Block) : (modBlock s k f).agenda = s.agenda := rfl
@[simp] theorem modBlock_freeIx (s : State) (k : Nat) (f : Block → Block) : (modBlock s k f).freeIx = s.freeIx := rfl
@[simp] theorem modBlock_tick (s : State) (k : Nat) (f : Block → Block) : (modBlock s k f).tick = s.tick := rfl
@[simp] theorem modBlock_actor (s : State) (k : Nat) (f : Block → Block) : (modBlock s k f).actor = s.actor := rfl
@[simp] theorem modBlock_nextId (s : State) (k : Nat) (f : Block → Block) : (modBlock s k f).nextId = s.nextId := rfl
@[simp] theorem modBlock_outbox (s : State) (k : Nat) (f : Block → Block) : (modBlock s k f).outbox = s.outbox := rfl
@[simp] theorem modBlock_live (s : State) (k : Nat) (f : Block → Block) : (modBlock s k f).live = s.live := rfl
@[simp] theorem modBlock_cores (s : State) (k : Nat) (f : Block → Block) : (modBlock s k f).cores = s.cores := rfl
@[simp] theorem modBlock_blocks (s : State) (k : Nat) (f : Block → Block) : (modBlock s k f).blocks = s.blocks.map fun x => if x.id = k then f x else x := rfl
@[simp] theorem modBlock_pendings (s : State) (k : Nat) (f : Block → Block) : (modBlock s k f).pendings = s.pendings := rfl
@[simp] theorem modBlock_flights (s : State) (k : Nat) (f : Block → Block) : (modBlock s k f).flights = s.flights := rfl
@[simp] theorem modBlock_ops (s : State) (k : Nat) (f : Block → Block) : (modBlock s k f).ops = s.ops := rfl
@[simp] theorem modBlock_copies (s : State) (k : Nat) (f : Block → Block) : (modBlock s k f).copies = s.copies := rfl
@[simp] theorem modBlock_arrivals (s : State) (k : Nat) (f : Block → Block) : (modBlock s k f).arrivals = s.arrivals := rfl
@[simp] theorem modBlock_posts (s : State) (k : Nat) (f : Block → Block) : (modBlock s k f).posts = s.posts := rfl
@[simp] theorem modBlock_detbuf (s : State) (k : Nat) (f : Block → Block) : (modBlock s k f).detbuf = s.detbuf := rfl
@[simp] theorem modBlock_fences (s : State) (k : Nat) (f : Block → Block) : (modBlock s k f).fences = s.fences := rfl
@[simp] theorem modBlock_dram (s : State) (k : Nat) (f : Block → Block) : (modBlock s k f).dram = s.dram := rfl
@[simp] theorem modBlock_dtag (s : State) (k : Nat) (f : Block → Block) : (modBlock s k f).dtag = s.dtag := rfl
@[simp] theorem modBlock_dpoison (s : State) (k : Nat) (f : Block → Block) : (modBlock s k f).dpoison = s.dpoison := rfl
@[simp] theorem modBlock_upsets (s : State) (k : Nat) (f : Block → Block) : (modBlock s k f).upsets = s.upsets := rfl
@[simp] theorem modBlock_gran (s : State) (k : Nat) (f : Block → Block) : (modBlock s k f).gran = s.gran := rfl
@[simp] theorem modBlock_gtag (s : State) (k : Nat) (f : Block → Block) : (modBlock s k f).gtag = s.gtag := rfl
@[simp] theorem modBlock_gpoison (s : State) (k : Nat) (f : Block → Block) : (modBlock s k f).gpoison = s.gpoison := rfl
@[simp] theorem modBlock_gupsets (s : State) (k : Nat) (f : Block → Block) : (modBlock s k f).gupsets = s.gupsets := rfl
@[simp] theorem modBlock_regions (s : State) (k : Nat) (f : Block → Block) : (modBlock s k f).regions = s.regions := rfl
@[simp] theorem modBlock_refresh (s : State) (k : Nat) (f : Block → Block) : (modBlock s k f).refresh = s.refresh := rfl
@[simp] theorem modBlock_owners (s : State) (k : Nat) (f : Block → Block) : (modBlock s k f).owners = s.owners := rfl
@[simp] theorem modBlock_asked (s : State) (k : Nat) (f : Block → Block) : (modBlock s k f).asked = s.asked := rfl
@[simp] theorem modBlock_gone (s : State) (k : Nat) (f : Block → Block) : (modBlock s k f).gone = s.gone := rfl
@[simp] theorem modBlock_access (s : State) (k : Nat) (f : Block → Block) : (modBlock s k f).access = s.access := rfl
@[simp] theorem modBlock_l1 (s : State) (k : Nat) (f : Block → Block) : (modBlock s k f).l1 = s.l1 := rfl
@[simp] theorem modBlock_stack (s : State) (k : Nat) (f : Block → Block) : (modBlock s k f).stack = s.stack := rfl
@[simp] theorem modBlock_stackGen (s : State) (k : Nat) (f : Block → Block) : (modBlock s k f).stackGen = s.stackGen := rfl
@[simp] theorem modBlock_stamps (s : State) (k : Nat) (f : Block → Block) : (modBlock s k f).stamps = s.stamps := rfl
@[simp] theorem modBlock_tlbs (s : State) (k : Nat) (f : Block → Block) : (modBlock s k f).tlbs = s.tlbs := rfl
@[simp] theorem modBlock_ctxs (s : State) (k : Nat) (f : Block → Block) : (modBlock s k f).ctxs = s.ctxs := rfl
@[simp] theorem modBlock_queues (s : State) (k : Nat) (f : Block → Block) : (modBlock s k f).queues = s.queues := rfl
@[simp] theorem modBlock_tasks (s : State) (k : Nat) (f : Block → Block) : (modBlock s k f).tasks = s.tasks := rfl
@[simp] theorem modBlock_versions (s : State) (k : Nat) (f : Block → Block) : (modBlock s k f).versions = s.versions := rfl
@[simp] theorem modBlock_cp (s : State) (k : Nat) (f : Block → Block) : (modBlock s k f).cp = s.cp := rfl
@[simp] theorem modBlock_plog (s : State) (k : Nat) (f : Block → Block) : (modBlock s k f).plog = s.plog := rfl
@[simp] theorem modBlock_buckets (s : State) (k : Nat) (f : Block → Block) : (modBlock s k f).buckets = s.buckets := rfl
@[simp] theorem modBlock_retiredSlices (s : State) (k : Nat) (f : Block → Block) : (modBlock s k f).retiredSlices = s.retiredSlices := rfl
@[simp] theorem modBlock_retiredBanks (s : State) (k : Nat) (f : Block → Block) : (modBlock s k f).retiredBanks = s.retiredBanks := rfl
@[simp] theorem modBlock_spareRows (s : State) (k : Nat) (f : Block → Block) : (modBlock s k f).spareRows = s.spareRows := rfl
@[simp] theorem modBlock_gen (s : State) (k : Nat) (f : Block → Block) : (modBlock s k f).gen = s.gen := rfl
@[simp] theorem modBlock_meters (s : State) (k : Nat) (f : Block → Block) : (modBlock s k f).meters = s.meters := rfl
@[simp] theorem modBlock_links (s : State) (k : Nat) (f : Block → Block) : (modBlock s k f).links = s.links := rfl
@[simp] theorem modBlock_traffic (s : State) (k : Nat) (f : Block → Block) : (modBlock s k f).traffic = s.traffic := rfl
@[simp] theorem modBlock_dirs (s : State) (k : Nat) (f : Block → Block) : (modBlock s k f).dirs = s.dirs := rfl
@[simp] theorem modBlock_iodOut (s : State) (k : Nat) (f : Block → Block) : (modBlock s k f).iodOut = s.iodOut := rfl
@[simp] theorem modBlock_pairSent (s : State) (k : Nat) (f : Block → Block) : (modBlock s k f).pairSent = s.pairSent := rfl
@[simp] theorem modBlock_pairs (s : State) (k : Nat) (f : Block → Block) : (modBlock s k f).pairs = s.pairs := rfl
@[simp] theorem modBlock_results (s : State) (k : Nat) (f : Block → Block) : (modBlock s k f).results = s.results := rfl
@[simp] theorem modBlock_deadDisp (s : State) (k : Nat) (f : Block → Block) : (modBlock s k f).deadDisp = s.deadDisp := rfl
@[simp] theorem modBlock_beats (s : State) (k : Nat) (f : Block → Block) : (modBlock s k f).beats = s.beats := rfl
@[simp] theorem modBlock_netTab (s : State) (k : Nat) (f : Block → Block) : (modBlock s k f).netTab = s.netTab := rfl
@[simp] theorem modBlock_portsUp (s : State) (k : Nat) (f : Block → Block) : (modBlock s k f).portsUp = s.portsUp := rfl
@[simp] theorem modBlock_netOut (s : State) (k : Nat) (f : Block → Block) : (modBlock s k f).netOut = s.netOut := rfl
@[simp] theorem modBlock_netSeen (s : State) (k : Nat) (f : Block → Block) : (modBlock s k f).netSeen = s.netSeen := rfl
@[simp] theorem modBlock_netSeq (s : State) (k : Nat) (f : Block → Block) : (modBlock s k f).netSeq = s.netSeq := rfl
@[simp] theorem modBlock_time (s : State) (k : Nat) (f : Block → Block) : (modBlock s k f).time = s.time := rfl
@[simp] theorem modBlock_rot (s : State) (k : Nat) (f : Block → Block) : (modBlock s k f).rot = s.rot := rfl
@[simp] theorem modBlock_hostown (s : State) (k : Nat) (f : Block → Block) : (modBlock s k f).hostown = s.hostown := rfl
@[simp] theorem modBlock_power (s : State) (k : Nat) (f : Block → Block) : (modBlock s k f).power = s.power := rfl
@[simp] theorem modBlock_dvfs (s : State) (k : Nat) (f : Block → Block) : (modBlock s k f).dvfs = s.dvfs := rfl
@[simp] theorem modBlock_order (s : State) (k : Nat) (f : Block → Block) : (modBlock s k f).order = s.order := rfl
@[simp] theorem modBlock_thermal (s : State) (k : Nat) (f : Block → Block) : (modBlock s k f).thermal = s.thermal := rfl
@[simp] theorem modBlock_halted (s : State) (k : Nat) (f : Block → Block) : (modBlock s k f).halted = s.halted := rfl

/-! ### modWave -/

@[simp] theorem modWave_agenda (s : State) (k w : Nat) (f : Wave → Wave) : (modWave s k w f).agenda = s.agenda := rfl
@[simp] theorem modWave_freeIx (s : State) (k w : Nat) (f : Wave → Wave) : (modWave s k w f).freeIx = s.freeIx := rfl
@[simp] theorem modWave_tick (s : State) (k w : Nat) (f : Wave → Wave) : (modWave s k w f).tick = s.tick := rfl
@[simp] theorem modWave_actor (s : State) (k w : Nat) (f : Wave → Wave) : (modWave s k w f).actor = s.actor := rfl
@[simp] theorem modWave_nextId (s : State) (k w : Nat) (f : Wave → Wave) : (modWave s k w f).nextId = s.nextId := rfl
@[simp] theorem modWave_outbox (s : State) (k w : Nat) (f : Wave → Wave) : (modWave s k w f).outbox = s.outbox := rfl
@[simp] theorem modWave_live (s : State) (k w : Nat) (f : Wave → Wave) : (modWave s k w f).live = s.live := rfl
@[simp] theorem modWave_cores (s : State) (k w : Nat) (f : Wave → Wave) : (modWave s k w f).cores = s.cores := rfl
@[simp] theorem modWave_blocks (s : State) (k w : Nat) (f : Wave → Wave) : (modWave s k w f).blocks = s.blocks.map fun x => if x.id = k then { x with waves := modifyAt f w x.waves } else x := rfl
@[simp] theorem modWave_pendings (s : State) (k w : Nat) (f : Wave → Wave) : (modWave s k w f).pendings = s.pendings := rfl
@[simp] theorem modWave_flights (s : State) (k w : Nat) (f : Wave → Wave) : (modWave s k w f).flights = s.flights := rfl
@[simp] theorem modWave_ops (s : State) (k w : Nat) (f : Wave → Wave) : (modWave s k w f).ops = s.ops := rfl
@[simp] theorem modWave_copies (s : State) (k w : Nat) (f : Wave → Wave) : (modWave s k w f).copies = s.copies := rfl
@[simp] theorem modWave_arrivals (s : State) (k w : Nat) (f : Wave → Wave) : (modWave s k w f).arrivals = s.arrivals := rfl
@[simp] theorem modWave_posts (s : State) (k w : Nat) (f : Wave → Wave) : (modWave s k w f).posts = s.posts := rfl
@[simp] theorem modWave_detbuf (s : State) (k w : Nat) (f : Wave → Wave) : (modWave s k w f).detbuf = s.detbuf := rfl
@[simp] theorem modWave_fences (s : State) (k w : Nat) (f : Wave → Wave) : (modWave s k w f).fences = s.fences := rfl
@[simp] theorem modWave_dram (s : State) (k w : Nat) (f : Wave → Wave) : (modWave s k w f).dram = s.dram := rfl
@[simp] theorem modWave_dtag (s : State) (k w : Nat) (f : Wave → Wave) : (modWave s k w f).dtag = s.dtag := rfl
@[simp] theorem modWave_dpoison (s : State) (k w : Nat) (f : Wave → Wave) : (modWave s k w f).dpoison = s.dpoison := rfl
@[simp] theorem modWave_upsets (s : State) (k w : Nat) (f : Wave → Wave) : (modWave s k w f).upsets = s.upsets := rfl
@[simp] theorem modWave_gran (s : State) (k w : Nat) (f : Wave → Wave) : (modWave s k w f).gran = s.gran := rfl
@[simp] theorem modWave_gtag (s : State) (k w : Nat) (f : Wave → Wave) : (modWave s k w f).gtag = s.gtag := rfl
@[simp] theorem modWave_gpoison (s : State) (k w : Nat) (f : Wave → Wave) : (modWave s k w f).gpoison = s.gpoison := rfl
@[simp] theorem modWave_gupsets (s : State) (k w : Nat) (f : Wave → Wave) : (modWave s k w f).gupsets = s.gupsets := rfl
@[simp] theorem modWave_regions (s : State) (k w : Nat) (f : Wave → Wave) : (modWave s k w f).regions = s.regions := rfl
@[simp] theorem modWave_refresh (s : State) (k w : Nat) (f : Wave → Wave) : (modWave s k w f).refresh = s.refresh := rfl
@[simp] theorem modWave_owners (s : State) (k w : Nat) (f : Wave → Wave) : (modWave s k w f).owners = s.owners := rfl
@[simp] theorem modWave_asked (s : State) (k w : Nat) (f : Wave → Wave) : (modWave s k w f).asked = s.asked := rfl
@[simp] theorem modWave_gone (s : State) (k w : Nat) (f : Wave → Wave) : (modWave s k w f).gone = s.gone := rfl
@[simp] theorem modWave_access (s : State) (k w : Nat) (f : Wave → Wave) : (modWave s k w f).access = s.access := rfl
@[simp] theorem modWave_l1 (s : State) (k w : Nat) (f : Wave → Wave) : (modWave s k w f).l1 = s.l1 := rfl
@[simp] theorem modWave_stack (s : State) (k w : Nat) (f : Wave → Wave) : (modWave s k w f).stack = s.stack := rfl
@[simp] theorem modWave_stackGen (s : State) (k w : Nat) (f : Wave → Wave) : (modWave s k w f).stackGen = s.stackGen := rfl
@[simp] theorem modWave_stamps (s : State) (k w : Nat) (f : Wave → Wave) : (modWave s k w f).stamps = s.stamps := rfl
@[simp] theorem modWave_tlbs (s : State) (k w : Nat) (f : Wave → Wave) : (modWave s k w f).tlbs = s.tlbs := rfl
@[simp] theorem modWave_ctxs (s : State) (k w : Nat) (f : Wave → Wave) : (modWave s k w f).ctxs = s.ctxs := rfl
@[simp] theorem modWave_queues (s : State) (k w : Nat) (f : Wave → Wave) : (modWave s k w f).queues = s.queues := rfl
@[simp] theorem modWave_tasks (s : State) (k w : Nat) (f : Wave → Wave) : (modWave s k w f).tasks = s.tasks := rfl
@[simp] theorem modWave_versions (s : State) (k w : Nat) (f : Wave → Wave) : (modWave s k w f).versions = s.versions := rfl
@[simp] theorem modWave_cp (s : State) (k w : Nat) (f : Wave → Wave) : (modWave s k w f).cp = s.cp := rfl
@[simp] theorem modWave_plog (s : State) (k w : Nat) (f : Wave → Wave) : (modWave s k w f).plog = s.plog := rfl
@[simp] theorem modWave_buckets (s : State) (k w : Nat) (f : Wave → Wave) : (modWave s k w f).buckets = s.buckets := rfl
@[simp] theorem modWave_retiredSlices (s : State) (k w : Nat) (f : Wave → Wave) : (modWave s k w f).retiredSlices = s.retiredSlices := rfl
@[simp] theorem modWave_retiredBanks (s : State) (k w : Nat) (f : Wave → Wave) : (modWave s k w f).retiredBanks = s.retiredBanks := rfl
@[simp] theorem modWave_spareRows (s : State) (k w : Nat) (f : Wave → Wave) : (modWave s k w f).spareRows = s.spareRows := rfl
@[simp] theorem modWave_gen (s : State) (k w : Nat) (f : Wave → Wave) : (modWave s k w f).gen = s.gen := rfl
@[simp] theorem modWave_meters (s : State) (k w : Nat) (f : Wave → Wave) : (modWave s k w f).meters = s.meters := rfl
@[simp] theorem modWave_links (s : State) (k w : Nat) (f : Wave → Wave) : (modWave s k w f).links = s.links := rfl
@[simp] theorem modWave_traffic (s : State) (k w : Nat) (f : Wave → Wave) : (modWave s k w f).traffic = s.traffic := rfl
@[simp] theorem modWave_dirs (s : State) (k w : Nat) (f : Wave → Wave) : (modWave s k w f).dirs = s.dirs := rfl
@[simp] theorem modWave_iodOut (s : State) (k w : Nat) (f : Wave → Wave) : (modWave s k w f).iodOut = s.iodOut := rfl
@[simp] theorem modWave_pairSent (s : State) (k w : Nat) (f : Wave → Wave) : (modWave s k w f).pairSent = s.pairSent := rfl
@[simp] theorem modWave_pairs (s : State) (k w : Nat) (f : Wave → Wave) : (modWave s k w f).pairs = s.pairs := rfl
@[simp] theorem modWave_results (s : State) (k w : Nat) (f : Wave → Wave) : (modWave s k w f).results = s.results := rfl
@[simp] theorem modWave_deadDisp (s : State) (k w : Nat) (f : Wave → Wave) : (modWave s k w f).deadDisp = s.deadDisp := rfl
@[simp] theorem modWave_beats (s : State) (k w : Nat) (f : Wave → Wave) : (modWave s k w f).beats = s.beats := rfl
@[simp] theorem modWave_netTab (s : State) (k w : Nat) (f : Wave → Wave) : (modWave s k w f).netTab = s.netTab := rfl
@[simp] theorem modWave_portsUp (s : State) (k w : Nat) (f : Wave → Wave) : (modWave s k w f).portsUp = s.portsUp := rfl
@[simp] theorem modWave_netOut (s : State) (k w : Nat) (f : Wave → Wave) : (modWave s k w f).netOut = s.netOut := rfl
@[simp] theorem modWave_netSeen (s : State) (k w : Nat) (f : Wave → Wave) : (modWave s k w f).netSeen = s.netSeen := rfl
@[simp] theorem modWave_netSeq (s : State) (k w : Nat) (f : Wave → Wave) : (modWave s k w f).netSeq = s.netSeq := rfl
@[simp] theorem modWave_time (s : State) (k w : Nat) (f : Wave → Wave) : (modWave s k w f).time = s.time := rfl
@[simp] theorem modWave_rot (s : State) (k w : Nat) (f : Wave → Wave) : (modWave s k w f).rot = s.rot := rfl
@[simp] theorem modWave_hostown (s : State) (k w : Nat) (f : Wave → Wave) : (modWave s k w f).hostown = s.hostown := rfl
@[simp] theorem modWave_power (s : State) (k w : Nat) (f : Wave → Wave) : (modWave s k w f).power = s.power := rfl
@[simp] theorem modWave_dvfs (s : State) (k w : Nat) (f : Wave → Wave) : (modWave s k w f).dvfs = s.dvfs := rfl
@[simp] theorem modWave_order (s : State) (k w : Nat) (f : Wave → Wave) : (modWave s k w f).order = s.order := rfl
@[simp] theorem modWave_thermal (s : State) (k w : Nat) (f : Wave → Wave) : (modWave s k w f).thermal = s.thermal := rfl
@[simp] theorem modWave_halted (s : State) (k w : Nat) (f : Wave → Wave) : (modWave s k w f).halted = s.halted := rfl

/-! ### modTask -/

@[simp] theorem modTask_agenda (s : State) (k : Nat) (f : Task → Task) : (modTask s k f).agenda = s.agenda := rfl
@[simp] theorem modTask_freeIx (s : State) (k : Nat) (f : Task → Task) : (modTask s k f).freeIx = s.freeIx := rfl
@[simp] theorem modTask_tick (s : State) (k : Nat) (f : Task → Task) : (modTask s k f).tick = s.tick := rfl
@[simp] theorem modTask_actor (s : State) (k : Nat) (f : Task → Task) : (modTask s k f).actor = s.actor := rfl
@[simp] theorem modTask_nextId (s : State) (k : Nat) (f : Task → Task) : (modTask s k f).nextId = s.nextId := rfl
@[simp] theorem modTask_outbox (s : State) (k : Nat) (f : Task → Task) : (modTask s k f).outbox = s.outbox := rfl
@[simp] theorem modTask_live (s : State) (k : Nat) (f : Task → Task) : (modTask s k f).live = s.live := rfl
@[simp] theorem modTask_cores (s : State) (k : Nat) (f : Task → Task) : (modTask s k f).cores = s.cores := rfl
@[simp] theorem modTask_blocks (s : State) (k : Nat) (f : Task → Task) : (modTask s k f).blocks = s.blocks := rfl
@[simp] theorem modTask_pendings (s : State) (k : Nat) (f : Task → Task) : (modTask s k f).pendings = s.pendings := rfl
@[simp] theorem modTask_flights (s : State) (k : Nat) (f : Task → Task) : (modTask s k f).flights = s.flights := rfl
@[simp] theorem modTask_ops (s : State) (k : Nat) (f : Task → Task) : (modTask s k f).ops = s.ops := rfl
@[simp] theorem modTask_copies (s : State) (k : Nat) (f : Task → Task) : (modTask s k f).copies = s.copies := rfl
@[simp] theorem modTask_arrivals (s : State) (k : Nat) (f : Task → Task) : (modTask s k f).arrivals = s.arrivals := rfl
@[simp] theorem modTask_posts (s : State) (k : Nat) (f : Task → Task) : (modTask s k f).posts = s.posts := rfl
@[simp] theorem modTask_detbuf (s : State) (k : Nat) (f : Task → Task) : (modTask s k f).detbuf = s.detbuf := rfl
@[simp] theorem modTask_fences (s : State) (k : Nat) (f : Task → Task) : (modTask s k f).fences = s.fences := rfl
@[simp] theorem modTask_dram (s : State) (k : Nat) (f : Task → Task) : (modTask s k f).dram = s.dram := rfl
@[simp] theorem modTask_dtag (s : State) (k : Nat) (f : Task → Task) : (modTask s k f).dtag = s.dtag := rfl
@[simp] theorem modTask_dpoison (s : State) (k : Nat) (f : Task → Task) : (modTask s k f).dpoison = s.dpoison := rfl
@[simp] theorem modTask_upsets (s : State) (k : Nat) (f : Task → Task) : (modTask s k f).upsets = s.upsets := rfl
@[simp] theorem modTask_gran (s : State) (k : Nat) (f : Task → Task) : (modTask s k f).gran = s.gran := rfl
@[simp] theorem modTask_gtag (s : State) (k : Nat) (f : Task → Task) : (modTask s k f).gtag = s.gtag := rfl
@[simp] theorem modTask_gpoison (s : State) (k : Nat) (f : Task → Task) : (modTask s k f).gpoison = s.gpoison := rfl
@[simp] theorem modTask_gupsets (s : State) (k : Nat) (f : Task → Task) : (modTask s k f).gupsets = s.gupsets := rfl
@[simp] theorem modTask_regions (s : State) (k : Nat) (f : Task → Task) : (modTask s k f).regions = s.regions := rfl
@[simp] theorem modTask_refresh (s : State) (k : Nat) (f : Task → Task) : (modTask s k f).refresh = s.refresh := rfl
@[simp] theorem modTask_owners (s : State) (k : Nat) (f : Task → Task) : (modTask s k f).owners = s.owners := rfl
@[simp] theorem modTask_asked (s : State) (k : Nat) (f : Task → Task) : (modTask s k f).asked = s.asked := rfl
@[simp] theorem modTask_gone (s : State) (k : Nat) (f : Task → Task) : (modTask s k f).gone = s.gone := rfl
@[simp] theorem modTask_access (s : State) (k : Nat) (f : Task → Task) : (modTask s k f).access = s.access := rfl
@[simp] theorem modTask_l1 (s : State) (k : Nat) (f : Task → Task) : (modTask s k f).l1 = s.l1 := rfl
@[simp] theorem modTask_stack (s : State) (k : Nat) (f : Task → Task) : (modTask s k f).stack = s.stack := rfl
@[simp] theorem modTask_stackGen (s : State) (k : Nat) (f : Task → Task) : (modTask s k f).stackGen = s.stackGen := rfl
@[simp] theorem modTask_stamps (s : State) (k : Nat) (f : Task → Task) : (modTask s k f).stamps = s.stamps := rfl
@[simp] theorem modTask_tlbs (s : State) (k : Nat) (f : Task → Task) : (modTask s k f).tlbs = s.tlbs := rfl
@[simp] theorem modTask_ctxs (s : State) (k : Nat) (f : Task → Task) : (modTask s k f).ctxs = s.ctxs := rfl
@[simp] theorem modTask_queues (s : State) (k : Nat) (f : Task → Task) : (modTask s k f).queues = s.queues := rfl
@[simp] theorem modTask_tasks (s : State) (k : Nat) (f : Task → Task) : (modTask s k f).tasks = s.tasks.map fun x => if x.id = k then f x else x := rfl
@[simp] theorem modTask_versions (s : State) (k : Nat) (f : Task → Task) : (modTask s k f).versions = s.versions := rfl
@[simp] theorem modTask_cp (s : State) (k : Nat) (f : Task → Task) : (modTask s k f).cp = s.cp := rfl
@[simp] theorem modTask_plog (s : State) (k : Nat) (f : Task → Task) : (modTask s k f).plog = s.plog := rfl
@[simp] theorem modTask_buckets (s : State) (k : Nat) (f : Task → Task) : (modTask s k f).buckets = s.buckets := rfl
@[simp] theorem modTask_retiredSlices (s : State) (k : Nat) (f : Task → Task) : (modTask s k f).retiredSlices = s.retiredSlices := rfl
@[simp] theorem modTask_retiredBanks (s : State) (k : Nat) (f : Task → Task) : (modTask s k f).retiredBanks = s.retiredBanks := rfl
@[simp] theorem modTask_spareRows (s : State) (k : Nat) (f : Task → Task) : (modTask s k f).spareRows = s.spareRows := rfl
@[simp] theorem modTask_gen (s : State) (k : Nat) (f : Task → Task) : (modTask s k f).gen = s.gen := rfl
@[simp] theorem modTask_meters (s : State) (k : Nat) (f : Task → Task) : (modTask s k f).meters = s.meters := rfl
@[simp] theorem modTask_links (s : State) (k : Nat) (f : Task → Task) : (modTask s k f).links = s.links := rfl
@[simp] theorem modTask_traffic (s : State) (k : Nat) (f : Task → Task) : (modTask s k f).traffic = s.traffic := rfl
@[simp] theorem modTask_dirs (s : State) (k : Nat) (f : Task → Task) : (modTask s k f).dirs = s.dirs := rfl
@[simp] theorem modTask_iodOut (s : State) (k : Nat) (f : Task → Task) : (modTask s k f).iodOut = s.iodOut := rfl
@[simp] theorem modTask_pairSent (s : State) (k : Nat) (f : Task → Task) : (modTask s k f).pairSent = s.pairSent := rfl
@[simp] theorem modTask_pairs (s : State) (k : Nat) (f : Task → Task) : (modTask s k f).pairs = s.pairs := rfl
@[simp] theorem modTask_results (s : State) (k : Nat) (f : Task → Task) : (modTask s k f).results = s.results := rfl
@[simp] theorem modTask_deadDisp (s : State) (k : Nat) (f : Task → Task) : (modTask s k f).deadDisp = s.deadDisp := rfl
@[simp] theorem modTask_beats (s : State) (k : Nat) (f : Task → Task) : (modTask s k f).beats = s.beats := rfl
@[simp] theorem modTask_netTab (s : State) (k : Nat) (f : Task → Task) : (modTask s k f).netTab = s.netTab := rfl
@[simp] theorem modTask_portsUp (s : State) (k : Nat) (f : Task → Task) : (modTask s k f).portsUp = s.portsUp := rfl
@[simp] theorem modTask_netOut (s : State) (k : Nat) (f : Task → Task) : (modTask s k f).netOut = s.netOut := rfl
@[simp] theorem modTask_netSeen (s : State) (k : Nat) (f : Task → Task) : (modTask s k f).netSeen = s.netSeen := rfl
@[simp] theorem modTask_netSeq (s : State) (k : Nat) (f : Task → Task) : (modTask s k f).netSeq = s.netSeq := rfl
@[simp] theorem modTask_time (s : State) (k : Nat) (f : Task → Task) : (modTask s k f).time = s.time := rfl
@[simp] theorem modTask_rot (s : State) (k : Nat) (f : Task → Task) : (modTask s k f).rot = s.rot := rfl
@[simp] theorem modTask_hostown (s : State) (k : Nat) (f : Task → Task) : (modTask s k f).hostown = s.hostown := rfl
@[simp] theorem modTask_power (s : State) (k : Nat) (f : Task → Task) : (modTask s k f).power = s.power := rfl
@[simp] theorem modTask_dvfs (s : State) (k : Nat) (f : Task → Task) : (modTask s k f).dvfs = s.dvfs := rfl
@[simp] theorem modTask_order (s : State) (k : Nat) (f : Task → Task) : (modTask s k f).order = s.order := rfl
@[simp] theorem modTask_thermal (s : State) (k : Nat) (f : Task → Task) : (modTask s k f).thermal = s.thermal := rfl
@[simp] theorem modTask_halted (s : State) (k : Nat) (f : Task → Task) : (modTask s k f).halted = s.halted := rfl

/-! ### modCtx -/

@[simp] theorem modCtx_agenda (s : State) (c : Nat) (f : Ctx → Ctx) : (modCtx s c f).agenda = s.agenda := rfl
@[simp] theorem modCtx_freeIx (s : State) (c : Nat) (f : Ctx → Ctx) : (modCtx s c f).freeIx = s.freeIx := rfl
@[simp] theorem modCtx_tick (s : State) (c : Nat) (f : Ctx → Ctx) : (modCtx s c f).tick = s.tick := rfl
@[simp] theorem modCtx_actor (s : State) (c : Nat) (f : Ctx → Ctx) : (modCtx s c f).actor = s.actor := rfl
@[simp] theorem modCtx_nextId (s : State) (c : Nat) (f : Ctx → Ctx) : (modCtx s c f).nextId = s.nextId := rfl
@[simp] theorem modCtx_outbox (s : State) (c : Nat) (f : Ctx → Ctx) : (modCtx s c f).outbox = s.outbox := rfl
@[simp] theorem modCtx_live (s : State) (c : Nat) (f : Ctx → Ctx) : (modCtx s c f).live = s.live := rfl
@[simp] theorem modCtx_cores (s : State) (c : Nat) (f : Ctx → Ctx) : (modCtx s c f).cores = s.cores := rfl
@[simp] theorem modCtx_blocks (s : State) (c : Nat) (f : Ctx → Ctx) : (modCtx s c f).blocks = s.blocks := rfl
@[simp] theorem modCtx_pendings (s : State) (c : Nat) (f : Ctx → Ctx) : (modCtx s c f).pendings = s.pendings := rfl
@[simp] theorem modCtx_flights (s : State) (c : Nat) (f : Ctx → Ctx) : (modCtx s c f).flights = s.flights := rfl
@[simp] theorem modCtx_ops (s : State) (c : Nat) (f : Ctx → Ctx) : (modCtx s c f).ops = s.ops := rfl
@[simp] theorem modCtx_copies (s : State) (c : Nat) (f : Ctx → Ctx) : (modCtx s c f).copies = s.copies := rfl
@[simp] theorem modCtx_arrivals (s : State) (c : Nat) (f : Ctx → Ctx) : (modCtx s c f).arrivals = s.arrivals := rfl
@[simp] theorem modCtx_posts (s : State) (c : Nat) (f : Ctx → Ctx) : (modCtx s c f).posts = s.posts := rfl
@[simp] theorem modCtx_detbuf (s : State) (c : Nat) (f : Ctx → Ctx) : (modCtx s c f).detbuf = s.detbuf := rfl
@[simp] theorem modCtx_fences (s : State) (c : Nat) (f : Ctx → Ctx) : (modCtx s c f).fences = s.fences := rfl
@[simp] theorem modCtx_dram (s : State) (c : Nat) (f : Ctx → Ctx) : (modCtx s c f).dram = s.dram := rfl
@[simp] theorem modCtx_dtag (s : State) (c : Nat) (f : Ctx → Ctx) : (modCtx s c f).dtag = s.dtag := rfl
@[simp] theorem modCtx_dpoison (s : State) (c : Nat) (f : Ctx → Ctx) : (modCtx s c f).dpoison = s.dpoison := rfl
@[simp] theorem modCtx_upsets (s : State) (c : Nat) (f : Ctx → Ctx) : (modCtx s c f).upsets = s.upsets := rfl
@[simp] theorem modCtx_gran (s : State) (c : Nat) (f : Ctx → Ctx) : (modCtx s c f).gran = s.gran := rfl
@[simp] theorem modCtx_gtag (s : State) (c : Nat) (f : Ctx → Ctx) : (modCtx s c f).gtag = s.gtag := rfl
@[simp] theorem modCtx_gpoison (s : State) (c : Nat) (f : Ctx → Ctx) : (modCtx s c f).gpoison = s.gpoison := rfl
@[simp] theorem modCtx_gupsets (s : State) (c : Nat) (f : Ctx → Ctx) : (modCtx s c f).gupsets = s.gupsets := rfl
@[simp] theorem modCtx_regions (s : State) (c : Nat) (f : Ctx → Ctx) : (modCtx s c f).regions = s.regions := rfl
@[simp] theorem modCtx_refresh (s : State) (c : Nat) (f : Ctx → Ctx) : (modCtx s c f).refresh = s.refresh := rfl
@[simp] theorem modCtx_owners (s : State) (c : Nat) (f : Ctx → Ctx) : (modCtx s c f).owners = s.owners := rfl
@[simp] theorem modCtx_asked (s : State) (c : Nat) (f : Ctx → Ctx) : (modCtx s c f).asked = s.asked := rfl
@[simp] theorem modCtx_gone (s : State) (c : Nat) (f : Ctx → Ctx) : (modCtx s c f).gone = s.gone := rfl
@[simp] theorem modCtx_access (s : State) (c : Nat) (f : Ctx → Ctx) : (modCtx s c f).access = s.access := rfl
@[simp] theorem modCtx_l1 (s : State) (c : Nat) (f : Ctx → Ctx) : (modCtx s c f).l1 = s.l1 := rfl
@[simp] theorem modCtx_stack (s : State) (c : Nat) (f : Ctx → Ctx) : (modCtx s c f).stack = s.stack := rfl
@[simp] theorem modCtx_stackGen (s : State) (c : Nat) (f : Ctx → Ctx) : (modCtx s c f).stackGen = s.stackGen := rfl
@[simp] theorem modCtx_stamps (s : State) (c : Nat) (f : Ctx → Ctx) : (modCtx s c f).stamps = s.stamps := rfl
@[simp] theorem modCtx_tlbs (s : State) (c : Nat) (f : Ctx → Ctx) : (modCtx s c f).tlbs = s.tlbs := rfl
@[simp] theorem modCtx_ctxs (s : State) (c : Nat) (f : Ctx → Ctx) : (modCtx s c f).ctxs = fmod .empty s.ctxs c f := rfl
@[simp] theorem modCtx_queues (s : State) (c : Nat) (f : Ctx → Ctx) : (modCtx s c f).queues = s.queues := rfl
@[simp] theorem modCtx_tasks (s : State) (c : Nat) (f : Ctx → Ctx) : (modCtx s c f).tasks = s.tasks := rfl
@[simp] theorem modCtx_versions (s : State) (c : Nat) (f : Ctx → Ctx) : (modCtx s c f).versions = s.versions := rfl
@[simp] theorem modCtx_cp (s : State) (c : Nat) (f : Ctx → Ctx) : (modCtx s c f).cp = s.cp := rfl
@[simp] theorem modCtx_plog (s : State) (c : Nat) (f : Ctx → Ctx) : (modCtx s c f).plog = s.plog := rfl
@[simp] theorem modCtx_buckets (s : State) (c : Nat) (f : Ctx → Ctx) : (modCtx s c f).buckets = s.buckets := rfl
@[simp] theorem modCtx_retiredSlices (s : State) (c : Nat) (f : Ctx → Ctx) : (modCtx s c f).retiredSlices = s.retiredSlices := rfl
@[simp] theorem modCtx_retiredBanks (s : State) (c : Nat) (f : Ctx → Ctx) : (modCtx s c f).retiredBanks = s.retiredBanks := rfl
@[simp] theorem modCtx_spareRows (s : State) (c : Nat) (f : Ctx → Ctx) : (modCtx s c f).spareRows = s.spareRows := rfl
@[simp] theorem modCtx_gen (s : State) (c : Nat) (f : Ctx → Ctx) : (modCtx s c f).gen = s.gen := rfl
@[simp] theorem modCtx_meters (s : State) (c : Nat) (f : Ctx → Ctx) : (modCtx s c f).meters = s.meters := rfl
@[simp] theorem modCtx_links (s : State) (c : Nat) (f : Ctx → Ctx) : (modCtx s c f).links = s.links := rfl
@[simp] theorem modCtx_traffic (s : State) (c : Nat) (f : Ctx → Ctx) : (modCtx s c f).traffic = s.traffic := rfl
@[simp] theorem modCtx_dirs (s : State) (c : Nat) (f : Ctx → Ctx) : (modCtx s c f).dirs = s.dirs := rfl
@[simp] theorem modCtx_iodOut (s : State) (c : Nat) (f : Ctx → Ctx) : (modCtx s c f).iodOut = s.iodOut := rfl
@[simp] theorem modCtx_pairSent (s : State) (c : Nat) (f : Ctx → Ctx) : (modCtx s c f).pairSent = s.pairSent := rfl
@[simp] theorem modCtx_pairs (s : State) (c : Nat) (f : Ctx → Ctx) : (modCtx s c f).pairs = s.pairs := rfl
@[simp] theorem modCtx_results (s : State) (c : Nat) (f : Ctx → Ctx) : (modCtx s c f).results = s.results := rfl
@[simp] theorem modCtx_deadDisp (s : State) (c : Nat) (f : Ctx → Ctx) : (modCtx s c f).deadDisp = s.deadDisp := rfl
@[simp] theorem modCtx_beats (s : State) (c : Nat) (f : Ctx → Ctx) : (modCtx s c f).beats = s.beats := rfl
@[simp] theorem modCtx_netTab (s : State) (c : Nat) (f : Ctx → Ctx) : (modCtx s c f).netTab = s.netTab := rfl
@[simp] theorem modCtx_portsUp (s : State) (c : Nat) (f : Ctx → Ctx) : (modCtx s c f).portsUp = s.portsUp := rfl
@[simp] theorem modCtx_netOut (s : State) (c : Nat) (f : Ctx → Ctx) : (modCtx s c f).netOut = s.netOut := rfl
@[simp] theorem modCtx_netSeen (s : State) (c : Nat) (f : Ctx → Ctx) : (modCtx s c f).netSeen = s.netSeen := rfl
@[simp] theorem modCtx_netSeq (s : State) (c : Nat) (f : Ctx → Ctx) : (modCtx s c f).netSeq = s.netSeq := rfl
@[simp] theorem modCtx_time (s : State) (c : Nat) (f : Ctx → Ctx) : (modCtx s c f).time = s.time := rfl
@[simp] theorem modCtx_rot (s : State) (c : Nat) (f : Ctx → Ctx) : (modCtx s c f).rot = s.rot := rfl
@[simp] theorem modCtx_hostown (s : State) (c : Nat) (f : Ctx → Ctx) : (modCtx s c f).hostown = s.hostown := rfl
@[simp] theorem modCtx_power (s : State) (c : Nat) (f : Ctx → Ctx) : (modCtx s c f).power = s.power := rfl
@[simp] theorem modCtx_dvfs (s : State) (c : Nat) (f : Ctx → Ctx) : (modCtx s c f).dvfs = s.dvfs := rfl
@[simp] theorem modCtx_order (s : State) (c : Nat) (f : Ctx → Ctx) : (modCtx s c f).order = s.order := rfl
@[simp] theorem modCtx_thermal (s : State) (c : Nat) (f : Ctx → Ctx) : (modCtx s c f).thermal = s.thermal := rfl
@[simp] theorem modCtx_halted (s : State) (c : Nat) (f : Ctx → Ctx) : (modCtx s c f).halted = s.halted := rfl

/-! ### modQueue -/

@[simp] theorem modQueue_agenda (s : State) (q : Nat) (f : QueueSt → QueueSt) : (modQueue s q f).agenda = s.agenda := rfl
@[simp] theorem modQueue_freeIx (s : State) (q : Nat) (f : QueueSt → QueueSt) : (modQueue s q f).freeIx = s.freeIx := rfl
@[simp] theorem modQueue_tick (s : State) (q : Nat) (f : QueueSt → QueueSt) : (modQueue s q f).tick = s.tick := rfl
@[simp] theorem modQueue_actor (s : State) (q : Nat) (f : QueueSt → QueueSt) : (modQueue s q f).actor = s.actor := rfl
@[simp] theorem modQueue_nextId (s : State) (q : Nat) (f : QueueSt → QueueSt) : (modQueue s q f).nextId = s.nextId := rfl
@[simp] theorem modQueue_outbox (s : State) (q : Nat) (f : QueueSt → QueueSt) : (modQueue s q f).outbox = s.outbox := rfl
@[simp] theorem modQueue_live (s : State) (q : Nat) (f : QueueSt → QueueSt) : (modQueue s q f).live = s.live := rfl
@[simp] theorem modQueue_cores (s : State) (q : Nat) (f : QueueSt → QueueSt) : (modQueue s q f).cores = s.cores := rfl
@[simp] theorem modQueue_blocks (s : State) (q : Nat) (f : QueueSt → QueueSt) : (modQueue s q f).blocks = s.blocks := rfl
@[simp] theorem modQueue_pendings (s : State) (q : Nat) (f : QueueSt → QueueSt) : (modQueue s q f).pendings = s.pendings := rfl
@[simp] theorem modQueue_flights (s : State) (q : Nat) (f : QueueSt → QueueSt) : (modQueue s q f).flights = s.flights := rfl
@[simp] theorem modQueue_ops (s : State) (q : Nat) (f : QueueSt → QueueSt) : (modQueue s q f).ops = s.ops := rfl
@[simp] theorem modQueue_copies (s : State) (q : Nat) (f : QueueSt → QueueSt) : (modQueue s q f).copies = s.copies := rfl
@[simp] theorem modQueue_arrivals (s : State) (q : Nat) (f : QueueSt → QueueSt) : (modQueue s q f).arrivals = s.arrivals := rfl
@[simp] theorem modQueue_posts (s : State) (q : Nat) (f : QueueSt → QueueSt) : (modQueue s q f).posts = s.posts := rfl
@[simp] theorem modQueue_detbuf (s : State) (q : Nat) (f : QueueSt → QueueSt) : (modQueue s q f).detbuf = s.detbuf := rfl
@[simp] theorem modQueue_fences (s : State) (q : Nat) (f : QueueSt → QueueSt) : (modQueue s q f).fences = s.fences := rfl
@[simp] theorem modQueue_dram (s : State) (q : Nat) (f : QueueSt → QueueSt) : (modQueue s q f).dram = s.dram := rfl
@[simp] theorem modQueue_dtag (s : State) (q : Nat) (f : QueueSt → QueueSt) : (modQueue s q f).dtag = s.dtag := rfl
@[simp] theorem modQueue_dpoison (s : State) (q : Nat) (f : QueueSt → QueueSt) : (modQueue s q f).dpoison = s.dpoison := rfl
@[simp] theorem modQueue_upsets (s : State) (q : Nat) (f : QueueSt → QueueSt) : (modQueue s q f).upsets = s.upsets := rfl
@[simp] theorem modQueue_gran (s : State) (q : Nat) (f : QueueSt → QueueSt) : (modQueue s q f).gran = s.gran := rfl
@[simp] theorem modQueue_gtag (s : State) (q : Nat) (f : QueueSt → QueueSt) : (modQueue s q f).gtag = s.gtag := rfl
@[simp] theorem modQueue_gpoison (s : State) (q : Nat) (f : QueueSt → QueueSt) : (modQueue s q f).gpoison = s.gpoison := rfl
@[simp] theorem modQueue_gupsets (s : State) (q : Nat) (f : QueueSt → QueueSt) : (modQueue s q f).gupsets = s.gupsets := rfl
@[simp] theorem modQueue_regions (s : State) (q : Nat) (f : QueueSt → QueueSt) : (modQueue s q f).regions = s.regions := rfl
@[simp] theorem modQueue_refresh (s : State) (q : Nat) (f : QueueSt → QueueSt) : (modQueue s q f).refresh = s.refresh := rfl
@[simp] theorem modQueue_owners (s : State) (q : Nat) (f : QueueSt → QueueSt) : (modQueue s q f).owners = s.owners := rfl
@[simp] theorem modQueue_asked (s : State) (q : Nat) (f : QueueSt → QueueSt) : (modQueue s q f).asked = s.asked := rfl
@[simp] theorem modQueue_gone (s : State) (q : Nat) (f : QueueSt → QueueSt) : (modQueue s q f).gone = s.gone := rfl
@[simp] theorem modQueue_access (s : State) (q : Nat) (f : QueueSt → QueueSt) : (modQueue s q f).access = s.access := rfl
@[simp] theorem modQueue_l1 (s : State) (q : Nat) (f : QueueSt → QueueSt) : (modQueue s q f).l1 = s.l1 := rfl
@[simp] theorem modQueue_stack (s : State) (q : Nat) (f : QueueSt → QueueSt) : (modQueue s q f).stack = s.stack := rfl
@[simp] theorem modQueue_stackGen (s : State) (q : Nat) (f : QueueSt → QueueSt) : (modQueue s q f).stackGen = s.stackGen := rfl
@[simp] theorem modQueue_stamps (s : State) (q : Nat) (f : QueueSt → QueueSt) : (modQueue s q f).stamps = s.stamps := rfl
@[simp] theorem modQueue_tlbs (s : State) (q : Nat) (f : QueueSt → QueueSt) : (modQueue s q f).tlbs = s.tlbs := rfl
@[simp] theorem modQueue_ctxs (s : State) (q : Nat) (f : QueueSt → QueueSt) : (modQueue s q f).ctxs = s.ctxs := rfl
@[simp] theorem modQueue_queues (s : State) (q : Nat) (f : QueueSt → QueueSt) : (modQueue s q f).queues = fmod .off s.queues q f := rfl
@[simp] theorem modQueue_tasks (s : State) (q : Nat) (f : QueueSt → QueueSt) : (modQueue s q f).tasks = s.tasks := rfl
@[simp] theorem modQueue_versions (s : State) (q : Nat) (f : QueueSt → QueueSt) : (modQueue s q f).versions = s.versions := rfl
@[simp] theorem modQueue_cp (s : State) (q : Nat) (f : QueueSt → QueueSt) : (modQueue s q f).cp = s.cp := rfl
@[simp] theorem modQueue_plog (s : State) (q : Nat) (f : QueueSt → QueueSt) : (modQueue s q f).plog = s.plog := rfl
@[simp] theorem modQueue_buckets (s : State) (q : Nat) (f : QueueSt → QueueSt) : (modQueue s q f).buckets = s.buckets := rfl
@[simp] theorem modQueue_retiredSlices (s : State) (q : Nat) (f : QueueSt → QueueSt) : (modQueue s q f).retiredSlices = s.retiredSlices := rfl
@[simp] theorem modQueue_retiredBanks (s : State) (q : Nat) (f : QueueSt → QueueSt) : (modQueue s q f).retiredBanks = s.retiredBanks := rfl
@[simp] theorem modQueue_spareRows (s : State) (q : Nat) (f : QueueSt → QueueSt) : (modQueue s q f).spareRows = s.spareRows := rfl
@[simp] theorem modQueue_gen (s : State) (q : Nat) (f : QueueSt → QueueSt) : (modQueue s q f).gen = s.gen := rfl
@[simp] theorem modQueue_meters (s : State) (q : Nat) (f : QueueSt → QueueSt) : (modQueue s q f).meters = s.meters := rfl
@[simp] theorem modQueue_links (s : State) (q : Nat) (f : QueueSt → QueueSt) : (modQueue s q f).links = s.links := rfl
@[simp] theorem modQueue_traffic (s : State) (q : Nat) (f : QueueSt → QueueSt) : (modQueue s q f).traffic = s.traffic := rfl
@[simp] theorem modQueue_dirs (s : State) (q : Nat) (f : QueueSt → QueueSt) : (modQueue s q f).dirs = s.dirs := rfl
@[simp] theorem modQueue_iodOut (s : State) (q : Nat) (f : QueueSt → QueueSt) : (modQueue s q f).iodOut = s.iodOut := rfl
@[simp] theorem modQueue_pairSent (s : State) (q : Nat) (f : QueueSt → QueueSt) : (modQueue s q f).pairSent = s.pairSent := rfl
@[simp] theorem modQueue_pairs (s : State) (q : Nat) (f : QueueSt → QueueSt) : (modQueue s q f).pairs = s.pairs := rfl
@[simp] theorem modQueue_results (s : State) (q : Nat) (f : QueueSt → QueueSt) : (modQueue s q f).results = s.results := rfl
@[simp] theorem modQueue_deadDisp (s : State) (q : Nat) (f : QueueSt → QueueSt) : (modQueue s q f).deadDisp = s.deadDisp := rfl
@[simp] theorem modQueue_beats (s : State) (q : Nat) (f : QueueSt → QueueSt) : (modQueue s q f).beats = s.beats := rfl
@[simp] theorem modQueue_netTab (s : State) (q : Nat) (f : QueueSt → QueueSt) : (modQueue s q f).netTab = s.netTab := rfl
@[simp] theorem modQueue_portsUp (s : State) (q : Nat) (f : QueueSt → QueueSt) : (modQueue s q f).portsUp = s.portsUp := rfl
@[simp] theorem modQueue_netOut (s : State) (q : Nat) (f : QueueSt → QueueSt) : (modQueue s q f).netOut = s.netOut := rfl
@[simp] theorem modQueue_netSeen (s : State) (q : Nat) (f : QueueSt → QueueSt) : (modQueue s q f).netSeen = s.netSeen := rfl
@[simp] theorem modQueue_netSeq (s : State) (q : Nat) (f : QueueSt → QueueSt) : (modQueue s q f).netSeq = s.netSeq := rfl
@[simp] theorem modQueue_time (s : State) (q : Nat) (f : QueueSt → QueueSt) : (modQueue s q f).time = s.time := rfl
@[simp] theorem modQueue_rot (s : State) (q : Nat) (f : QueueSt → QueueSt) : (modQueue s q f).rot = s.rot := rfl
@[simp] theorem modQueue_hostown (s : State) (q : Nat) (f : QueueSt → QueueSt) : (modQueue s q f).hostown = s.hostown := rfl
@[simp] theorem modQueue_power (s : State) (q : Nat) (f : QueueSt → QueueSt) : (modQueue s q f).power = s.power := rfl
@[simp] theorem modQueue_dvfs (s : State) (q : Nat) (f : QueueSt → QueueSt) : (modQueue s q f).dvfs = s.dvfs := rfl
@[simp] theorem modQueue_order (s : State) (q : Nat) (f : QueueSt → QueueSt) : (modQueue s q f).order = s.order := rfl
@[simp] theorem modQueue_thermal (s : State) (q : Nat) (f : QueueSt → QueueSt) : (modQueue s q f).thermal = s.thermal := rfl
@[simp] theorem modQueue_halted (s : State) (q : Nat) (f : QueueSt → QueueSt) : (modQueue s q f).halted = s.halted := rfl

/-! ### modCore -/

@[simp] theorem modCore_agenda (s : State) (p : Nat) (f : CoreSt → CoreSt) : (modCore s p f).agenda = s.agenda := rfl
@[simp] theorem modCore_freeIx (s : State) (p : Nat) (f : CoreSt → CoreSt) : (modCore s p f).freeIx = s.freeIx := rfl
@[simp] theorem modCore_tick (s : State) (p : Nat) (f : CoreSt → CoreSt) : (modCore s p f).tick = s.tick := rfl
@[simp] theorem modCore_actor (s : State) (p : Nat) (f : CoreSt → CoreSt) : (modCore s p f).actor = s.actor := rfl
@[simp] theorem modCore_nextId (s : State) (p : Nat) (f : CoreSt → CoreSt) : (modCore s p f).nextId = s.nextId := rfl
@[simp] theorem modCore_outbox (s : State) (p : Nat) (f : CoreSt → CoreSt) : (modCore s p f).outbox = s.outbox := rfl
@[simp] theorem modCore_live (s : State) (p : Nat) (f : CoreSt → CoreSt) : (modCore s p f).live = s.live := rfl
@[simp] theorem modCore_cores (s : State) (p : Nat) (f : CoreSt → CoreSt) : (modCore s p f).cores = fmod .init s.cores p f := rfl
@[simp] theorem modCore_blocks (s : State) (p : Nat) (f : CoreSt → CoreSt) : (modCore s p f).blocks = s.blocks := rfl
@[simp] theorem modCore_pendings (s : State) (p : Nat) (f : CoreSt → CoreSt) : (modCore s p f).pendings = s.pendings := rfl
@[simp] theorem modCore_flights (s : State) (p : Nat) (f : CoreSt → CoreSt) : (modCore s p f).flights = s.flights := rfl
@[simp] theorem modCore_ops (s : State) (p : Nat) (f : CoreSt → CoreSt) : (modCore s p f).ops = s.ops := rfl
@[simp] theorem modCore_copies (s : State) (p : Nat) (f : CoreSt → CoreSt) : (modCore s p f).copies = s.copies := rfl
@[simp] theorem modCore_arrivals (s : State) (p : Nat) (f : CoreSt → CoreSt) : (modCore s p f).arrivals = s.arrivals := rfl
@[simp] theorem modCore_posts (s : State) (p : Nat) (f : CoreSt → CoreSt) : (modCore s p f).posts = s.posts := rfl
@[simp] theorem modCore_detbuf (s : State) (p : Nat) (f : CoreSt → CoreSt) : (modCore s p f).detbuf = s.detbuf := rfl
@[simp] theorem modCore_fences (s : State) (p : Nat) (f : CoreSt → CoreSt) : (modCore s p f).fences = s.fences := rfl
@[simp] theorem modCore_dram (s : State) (p : Nat) (f : CoreSt → CoreSt) : (modCore s p f).dram = s.dram := rfl
@[simp] theorem modCore_dtag (s : State) (p : Nat) (f : CoreSt → CoreSt) : (modCore s p f).dtag = s.dtag := rfl
@[simp] theorem modCore_dpoison (s : State) (p : Nat) (f : CoreSt → CoreSt) : (modCore s p f).dpoison = s.dpoison := rfl
@[simp] theorem modCore_upsets (s : State) (p : Nat) (f : CoreSt → CoreSt) : (modCore s p f).upsets = s.upsets := rfl
@[simp] theorem modCore_gran (s : State) (p : Nat) (f : CoreSt → CoreSt) : (modCore s p f).gran = s.gran := rfl
@[simp] theorem modCore_gtag (s : State) (p : Nat) (f : CoreSt → CoreSt) : (modCore s p f).gtag = s.gtag := rfl
@[simp] theorem modCore_gpoison (s : State) (p : Nat) (f : CoreSt → CoreSt) : (modCore s p f).gpoison = s.gpoison := rfl
@[simp] theorem modCore_gupsets (s : State) (p : Nat) (f : CoreSt → CoreSt) : (modCore s p f).gupsets = s.gupsets := rfl
@[simp] theorem modCore_regions (s : State) (p : Nat) (f : CoreSt → CoreSt) : (modCore s p f).regions = s.regions := rfl
@[simp] theorem modCore_refresh (s : State) (p : Nat) (f : CoreSt → CoreSt) : (modCore s p f).refresh = s.refresh := rfl
@[simp] theorem modCore_owners (s : State) (p : Nat) (f : CoreSt → CoreSt) : (modCore s p f).owners = s.owners := rfl
@[simp] theorem modCore_asked (s : State) (p : Nat) (f : CoreSt → CoreSt) : (modCore s p f).asked = s.asked := rfl
@[simp] theorem modCore_gone (s : State) (p : Nat) (f : CoreSt → CoreSt) : (modCore s p f).gone = s.gone := rfl
@[simp] theorem modCore_access (s : State) (p : Nat) (f : CoreSt → CoreSt) : (modCore s p f).access = s.access := rfl
@[simp] theorem modCore_l1 (s : State) (p : Nat) (f : CoreSt → CoreSt) : (modCore s p f).l1 = s.l1 := rfl
@[simp] theorem modCore_stack (s : State) (p : Nat) (f : CoreSt → CoreSt) : (modCore s p f).stack = s.stack := rfl
@[simp] theorem modCore_stackGen (s : State) (p : Nat) (f : CoreSt → CoreSt) : (modCore s p f).stackGen = s.stackGen := rfl
@[simp] theorem modCore_stamps (s : State) (p : Nat) (f : CoreSt → CoreSt) : (modCore s p f).stamps = s.stamps := rfl
@[simp] theorem modCore_tlbs (s : State) (p : Nat) (f : CoreSt → CoreSt) : (modCore s p f).tlbs = s.tlbs := rfl
@[simp] theorem modCore_ctxs (s : State) (p : Nat) (f : CoreSt → CoreSt) : (modCore s p f).ctxs = s.ctxs := rfl
@[simp] theorem modCore_queues (s : State) (p : Nat) (f : CoreSt → CoreSt) : (modCore s p f).queues = s.queues := rfl
@[simp] theorem modCore_tasks (s : State) (p : Nat) (f : CoreSt → CoreSt) : (modCore s p f).tasks = s.tasks := rfl
@[simp] theorem modCore_versions (s : State) (p : Nat) (f : CoreSt → CoreSt) : (modCore s p f).versions = s.versions := rfl
@[simp] theorem modCore_cp (s : State) (p : Nat) (f : CoreSt → CoreSt) : (modCore s p f).cp = s.cp := rfl
@[simp] theorem modCore_plog (s : State) (p : Nat) (f : CoreSt → CoreSt) : (modCore s p f).plog = s.plog := rfl
@[simp] theorem modCore_buckets (s : State) (p : Nat) (f : CoreSt → CoreSt) : (modCore s p f).buckets = s.buckets := rfl
@[simp] theorem modCore_retiredSlices (s : State) (p : Nat) (f : CoreSt → CoreSt) : (modCore s p f).retiredSlices = s.retiredSlices := rfl
@[simp] theorem modCore_retiredBanks (s : State) (p : Nat) (f : CoreSt → CoreSt) : (modCore s p f).retiredBanks = s.retiredBanks := rfl
@[simp] theorem modCore_spareRows (s : State) (p : Nat) (f : CoreSt → CoreSt) : (modCore s p f).spareRows = s.spareRows := rfl
@[simp] theorem modCore_gen (s : State) (p : Nat) (f : CoreSt → CoreSt) : (modCore s p f).gen = s.gen := rfl
@[simp] theorem modCore_meters (s : State) (p : Nat) (f : CoreSt → CoreSt) : (modCore s p f).meters = s.meters := rfl
@[simp] theorem modCore_links (s : State) (p : Nat) (f : CoreSt → CoreSt) : (modCore s p f).links = s.links := rfl
@[simp] theorem modCore_traffic (s : State) (p : Nat) (f : CoreSt → CoreSt) : (modCore s p f).traffic = s.traffic := rfl
@[simp] theorem modCore_dirs (s : State) (p : Nat) (f : CoreSt → CoreSt) : (modCore s p f).dirs = s.dirs := rfl
@[simp] theorem modCore_iodOut (s : State) (p : Nat) (f : CoreSt → CoreSt) : (modCore s p f).iodOut = s.iodOut := rfl
@[simp] theorem modCore_pairSent (s : State) (p : Nat) (f : CoreSt → CoreSt) : (modCore s p f).pairSent = s.pairSent := rfl
@[simp] theorem modCore_pairs (s : State) (p : Nat) (f : CoreSt → CoreSt) : (modCore s p f).pairs = s.pairs := rfl
@[simp] theorem modCore_results (s : State) (p : Nat) (f : CoreSt → CoreSt) : (modCore s p f).results = s.results := rfl
@[simp] theorem modCore_deadDisp (s : State) (p : Nat) (f : CoreSt → CoreSt) : (modCore s p f).deadDisp = s.deadDisp := rfl
@[simp] theorem modCore_beats (s : State) (p : Nat) (f : CoreSt → CoreSt) : (modCore s p f).beats = s.beats := rfl
@[simp] theorem modCore_netTab (s : State) (p : Nat) (f : CoreSt → CoreSt) : (modCore s p f).netTab = s.netTab := rfl
@[simp] theorem modCore_portsUp (s : State) (p : Nat) (f : CoreSt → CoreSt) : (modCore s p f).portsUp = s.portsUp := rfl
@[simp] theorem modCore_netOut (s : State) (p : Nat) (f : CoreSt → CoreSt) : (modCore s p f).netOut = s.netOut := rfl
@[simp] theorem modCore_netSeen (s : State) (p : Nat) (f : CoreSt → CoreSt) : (modCore s p f).netSeen = s.netSeen := rfl
@[simp] theorem modCore_netSeq (s : State) (p : Nat) (f : CoreSt → CoreSt) : (modCore s p f).netSeq = s.netSeq := rfl
@[simp] theorem modCore_time (s : State) (p : Nat) (f : CoreSt → CoreSt) : (modCore s p f).time = s.time := rfl
@[simp] theorem modCore_rot (s : State) (p : Nat) (f : CoreSt → CoreSt) : (modCore s p f).rot = s.rot := rfl
@[simp] theorem modCore_hostown (s : State) (p : Nat) (f : CoreSt → CoreSt) : (modCore s p f).hostown = s.hostown := rfl
@[simp] theorem modCore_power (s : State) (p : Nat) (f : CoreSt → CoreSt) : (modCore s p f).power = s.power := rfl
@[simp] theorem modCore_dvfs (s : State) (p : Nat) (f : CoreSt → CoreSt) : (modCore s p f).dvfs = s.dvfs := rfl
@[simp] theorem modCore_order (s : State) (p : Nat) (f : CoreSt → CoreSt) : (modCore s p f).order = s.order := rfl
@[simp] theorem modCore_thermal (s : State) (p : Nat) (f : CoreSt → CoreSt) : (modCore s p f).thermal = s.thermal := rfl
@[simp] theorem modCore_halted (s : State) (p : Nat) (f : CoreSt → CoreSt) : (modCore s p f).halted = s.halted := rfl

/-! ### setOwner -/

@[simp] theorem setOwner_agenda (s : State) (n o : Nat) : (setOwner s n o).agenda = s.agenda := rfl
@[simp] theorem setOwner_freeIx (s : State) (n o : Nat) : (setOwner s n o).freeIx = s.freeIx := rfl
@[simp] theorem setOwner_tick (s : State) (n o : Nat) : (setOwner s n o).tick = s.tick := rfl
@[simp] theorem setOwner_actor (s : State) (n o : Nat) : (setOwner s n o).actor = s.actor := rfl
@[simp] theorem setOwner_nextId (s : State) (n o : Nat) : (setOwner s n o).nextId = s.nextId := rfl
@[simp] theorem setOwner_outbox (s : State) (n o : Nat) : (setOwner s n o).outbox = s.outbox := rfl
@[simp] theorem setOwner_live (s : State) (n o : Nat) : (setOwner s n o).live = s.live := rfl
@[simp] theorem setOwner_cores (s : State) (n o : Nat) : (setOwner s n o).cores = s.cores := rfl
@[simp] theorem setOwner_blocks (s : State) (n o : Nat) : (setOwner s n o).blocks = s.blocks := rfl
@[simp] theorem setOwner_pendings (s : State) (n o : Nat) : (setOwner s n o).pendings = s.pendings := rfl
@[simp] theorem setOwner_flights (s : State) (n o : Nat) : (setOwner s n o).flights = s.flights := rfl
@[simp] theorem setOwner_ops (s : State) (n o : Nat) : (setOwner s n o).ops = s.ops := rfl
@[simp] theorem setOwner_copies (s : State) (n o : Nat) : (setOwner s n o).copies = s.copies := rfl
@[simp] theorem setOwner_arrivals (s : State) (n o : Nat) : (setOwner s n o).arrivals = s.arrivals := rfl
@[simp] theorem setOwner_posts (s : State) (n o : Nat) : (setOwner s n o).posts = s.posts := rfl
@[simp] theorem setOwner_detbuf (s : State) (n o : Nat) : (setOwner s n o).detbuf = s.detbuf := rfl
@[simp] theorem setOwner_fences (s : State) (n o : Nat) : (setOwner s n o).fences = s.fences := rfl
@[simp] theorem setOwner_dram (s : State) (n o : Nat) : (setOwner s n o).dram = s.dram := rfl
@[simp] theorem setOwner_dtag (s : State) (n o : Nat) : (setOwner s n o).dtag = s.dtag := rfl
@[simp] theorem setOwner_dpoison (s : State) (n o : Nat) : (setOwner s n o).dpoison = s.dpoison := rfl
@[simp] theorem setOwner_upsets (s : State) (n o : Nat) : (setOwner s n o).upsets = s.upsets := rfl
@[simp] theorem setOwner_gran (s : State) (n o : Nat) : (setOwner s n o).gran = s.gran := rfl
@[simp] theorem setOwner_gtag (s : State) (n o : Nat) : (setOwner s n o).gtag = s.gtag := rfl
@[simp] theorem setOwner_gpoison (s : State) (n o : Nat) : (setOwner s n o).gpoison = s.gpoison := rfl
@[simp] theorem setOwner_gupsets (s : State) (n o : Nat) : (setOwner s n o).gupsets = s.gupsets := rfl
@[simp] theorem setOwner_regions (s : State) (n o : Nat) : (setOwner s n o).regions = s.regions := rfl
@[simp] theorem setOwner_refresh (s : State) (n o : Nat) : (setOwner s n o).refresh = s.refresh := rfl
@[simp] theorem setOwner_owners (s : State) (n o : Nat) : (setOwner s n o).owners = fput (ownerDefault n) s.owners n o := rfl
@[simp] theorem setOwner_asked (s : State) (n o : Nat) : (setOwner s n o).asked = s.asked := rfl
@[simp] theorem setOwner_gone (s : State) (n o : Nat) : (setOwner s n o).gone = s.gone := rfl
@[simp] theorem setOwner_access (s : State) (n o : Nat) : (setOwner s n o).access = s.access := rfl
@[simp] theorem setOwner_l1 (s : State) (n o : Nat) : (setOwner s n o).l1 = s.l1 := rfl
@[simp] theorem setOwner_stack (s : State) (n o : Nat) : (setOwner s n o).stack = s.stack := rfl
@[simp] theorem setOwner_stackGen (s : State) (n o : Nat) : (setOwner s n o).stackGen = s.stackGen := rfl
@[simp] theorem setOwner_stamps (s : State) (n o : Nat) : (setOwner s n o).stamps = s.stamps := rfl
@[simp] theorem setOwner_tlbs (s : State) (n o : Nat) : (setOwner s n o).tlbs = s.tlbs := rfl
@[simp] theorem setOwner_ctxs (s : State) (n o : Nat) : (setOwner s n o).ctxs = s.ctxs := rfl
@[simp] theorem setOwner_queues (s : State) (n o : Nat) : (setOwner s n o).queues = s.queues := rfl
@[simp] theorem setOwner_tasks (s : State) (n o : Nat) : (setOwner s n o).tasks = s.tasks := rfl
@[simp] theorem setOwner_versions (s : State) (n o : Nat) : (setOwner s n o).versions = s.versions := rfl
@[simp] theorem setOwner_cp (s : State) (n o : Nat) : (setOwner s n o).cp = s.cp := rfl
@[simp] theorem setOwner_plog (s : State) (n o : Nat) : (setOwner s n o).plog = s.plog := rfl
@[simp] theorem setOwner_buckets (s : State) (n o : Nat) : (setOwner s n o).buckets = s.buckets := rfl
@[simp] theorem setOwner_retiredSlices (s : State) (n o : Nat) : (setOwner s n o).retiredSlices = s.retiredSlices := rfl
@[simp] theorem setOwner_retiredBanks (s : State) (n o : Nat) : (setOwner s n o).retiredBanks = s.retiredBanks := rfl
@[simp] theorem setOwner_spareRows (s : State) (n o : Nat) : (setOwner s n o).spareRows = s.spareRows := rfl
@[simp] theorem setOwner_gen (s : State) (n o : Nat) : (setOwner s n o).gen = s.gen := rfl
@[simp] theorem setOwner_meters (s : State) (n o : Nat) : (setOwner s n o).meters = s.meters := rfl
@[simp] theorem setOwner_links (s : State) (n o : Nat) : (setOwner s n o).links = s.links := rfl
@[simp] theorem setOwner_traffic (s : State) (n o : Nat) : (setOwner s n o).traffic = s.traffic := rfl
@[simp] theorem setOwner_dirs (s : State) (n o : Nat) : (setOwner s n o).dirs = s.dirs := rfl
@[simp] theorem setOwner_iodOut (s : State) (n o : Nat) : (setOwner s n o).iodOut = s.iodOut := rfl
@[simp] theorem setOwner_pairSent (s : State) (n o : Nat) : (setOwner s n o).pairSent = s.pairSent := rfl
@[simp] theorem setOwner_pairs (s : State) (n o : Nat) : (setOwner s n o).pairs = s.pairs := rfl
@[simp] theorem setOwner_results (s : State) (n o : Nat) : (setOwner s n o).results = s.results := rfl
@[simp] theorem setOwner_deadDisp (s : State) (n o : Nat) : (setOwner s n o).deadDisp = s.deadDisp := rfl
@[simp] theorem setOwner_beats (s : State) (n o : Nat) : (setOwner s n o).beats = s.beats := rfl
@[simp] theorem setOwner_netTab (s : State) (n o : Nat) : (setOwner s n o).netTab = s.netTab := rfl
@[simp] theorem setOwner_portsUp (s : State) (n o : Nat) : (setOwner s n o).portsUp = s.portsUp := rfl
@[simp] theorem setOwner_netOut (s : State) (n o : Nat) : (setOwner s n o).netOut = s.netOut := rfl
@[simp] theorem setOwner_netSeen (s : State) (n o : Nat) : (setOwner s n o).netSeen = s.netSeen := rfl
@[simp] theorem setOwner_netSeq (s : State) (n o : Nat) : (setOwner s n o).netSeq = s.netSeq := rfl
@[simp] theorem setOwner_time (s : State) (n o : Nat) : (setOwner s n o).time = s.time := rfl
@[simp] theorem setOwner_rot (s : State) (n o : Nat) : (setOwner s n o).rot = s.rot := rfl
@[simp] theorem setOwner_hostown (s : State) (n o : Nat) : (setOwner s n o).hostown = s.hostown := rfl
@[simp] theorem setOwner_power (s : State) (n o : Nat) : (setOwner s n o).power = s.power := rfl
@[simp] theorem setOwner_dvfs (s : State) (n o : Nat) : (setOwner s n o).dvfs = s.dvfs := rfl
@[simp] theorem setOwner_order (s : State) (n o : Nat) : (setOwner s n o).order = s.order := rfl
@[simp] theorem setOwner_thermal (s : State) (n o : Nat) : (setOwner s n o).thermal = s.thermal := rfl
@[simp] theorem setOwner_halted (s : State) (n o : Nat) : (setOwner s n o).halted = s.halted := rfl

/-! ### emit -/

@[simp] theorem emit_agenda (s : State) (x : Signal) : (emit s x).agenda = s.agenda := rfl
@[simp] theorem emit_freeIx (s : State) (x : Signal) : (emit s x).freeIx = s.freeIx := rfl
@[simp] theorem emit_tick (s : State) (x : Signal) : (emit s x).tick = s.tick := rfl
@[simp] theorem emit_actor (s : State) (x : Signal) : (emit s x).actor = s.actor := rfl
@[simp] theorem emit_nextId (s : State) (x : Signal) : (emit s x).nextId = s.nextId := rfl
@[simp] theorem emit_outbox (s : State) (x : Signal) : (emit s x).outbox = s.outbox ++ [x] := rfl
@[simp] theorem emit_live (s : State) (x : Signal) : (emit s x).live = s.live := rfl
@[simp] theorem emit_cores (s : State) (x : Signal) : (emit s x).cores = s.cores := rfl
@[simp] theorem emit_blocks (s : State) (x : Signal) : (emit s x).blocks = s.blocks := rfl
@[simp] theorem emit_pendings (s : State) (x : Signal) : (emit s x).pendings = s.pendings := rfl
@[simp] theorem emit_flights (s : State) (x : Signal) : (emit s x).flights = s.flights := rfl
@[simp] theorem emit_ops (s : State) (x : Signal) : (emit s x).ops = s.ops := rfl
@[simp] theorem emit_copies (s : State) (x : Signal) : (emit s x).copies = s.copies := rfl
@[simp] theorem emit_arrivals (s : State) (x : Signal) : (emit s x).arrivals = s.arrivals := rfl
@[simp] theorem emit_posts (s : State) (x : Signal) : (emit s x).posts = s.posts := rfl
@[simp] theorem emit_detbuf (s : State) (x : Signal) : (emit s x).detbuf = s.detbuf := rfl
@[simp] theorem emit_fences (s : State) (x : Signal) : (emit s x).fences = s.fences := rfl
@[simp] theorem emit_dram (s : State) (x : Signal) : (emit s x).dram = s.dram := rfl
@[simp] theorem emit_dtag (s : State) (x : Signal) : (emit s x).dtag = s.dtag := rfl
@[simp] theorem emit_dpoison (s : State) (x : Signal) : (emit s x).dpoison = s.dpoison := rfl
@[simp] theorem emit_upsets (s : State) (x : Signal) : (emit s x).upsets = s.upsets := rfl
@[simp] theorem emit_gran (s : State) (x : Signal) : (emit s x).gran = s.gran := rfl
@[simp] theorem emit_gtag (s : State) (x : Signal) : (emit s x).gtag = s.gtag := rfl
@[simp] theorem emit_gpoison (s : State) (x : Signal) : (emit s x).gpoison = s.gpoison := rfl
@[simp] theorem emit_gupsets (s : State) (x : Signal) : (emit s x).gupsets = s.gupsets := rfl
@[simp] theorem emit_regions (s : State) (x : Signal) : (emit s x).regions = s.regions := rfl
@[simp] theorem emit_refresh (s : State) (x : Signal) : (emit s x).refresh = s.refresh := rfl
@[simp] theorem emit_owners (s : State) (x : Signal) : (emit s x).owners = s.owners := rfl
@[simp] theorem emit_asked (s : State) (x : Signal) : (emit s x).asked = s.asked := rfl
@[simp] theorem emit_gone (s : State) (x : Signal) : (emit s x).gone = s.gone := rfl
@[simp] theorem emit_access (s : State) (x : Signal) : (emit s x).access = s.access := rfl
@[simp] theorem emit_l1 (s : State) (x : Signal) : (emit s x).l1 = s.l1 := rfl
@[simp] theorem emit_stack (s : State) (x : Signal) : (emit s x).stack = s.stack := rfl
@[simp] theorem emit_stackGen (s : State) (x : Signal) : (emit s x).stackGen = s.stackGen := rfl
@[simp] theorem emit_stamps (s : State) (x : Signal) : (emit s x).stamps = s.stamps := rfl
@[simp] theorem emit_tlbs (s : State) (x : Signal) : (emit s x).tlbs = s.tlbs := rfl
@[simp] theorem emit_ctxs (s : State) (x : Signal) : (emit s x).ctxs = s.ctxs := rfl
@[simp] theorem emit_queues (s : State) (x : Signal) : (emit s x).queues = s.queues := rfl
@[simp] theorem emit_tasks (s : State) (x : Signal) : (emit s x).tasks = s.tasks := rfl
@[simp] theorem emit_versions (s : State) (x : Signal) : (emit s x).versions = s.versions := rfl
@[simp] theorem emit_cp (s : State) (x : Signal) : (emit s x).cp = s.cp := rfl
@[simp] theorem emit_plog (s : State) (x : Signal) : (emit s x).plog = s.plog := rfl
@[simp] theorem emit_buckets (s : State) (x : Signal) : (emit s x).buckets = s.buckets := rfl
@[simp] theorem emit_retiredSlices (s : State) (x : Signal) : (emit s x).retiredSlices = s.retiredSlices := rfl
@[simp] theorem emit_retiredBanks (s : State) (x : Signal) : (emit s x).retiredBanks = s.retiredBanks := rfl
@[simp] theorem emit_spareRows (s : State) (x : Signal) : (emit s x).spareRows = s.spareRows := rfl
@[simp] theorem emit_gen (s : State) (x : Signal) : (emit s x).gen = s.gen := rfl
@[simp] theorem emit_meters (s : State) (x : Signal) : (emit s x).meters = s.meters := rfl
@[simp] theorem emit_links (s : State) (x : Signal) : (emit s x).links = s.links := rfl
@[simp] theorem emit_traffic (s : State) (x : Signal) : (emit s x).traffic = s.traffic := rfl
@[simp] theorem emit_dirs (s : State) (x : Signal) : (emit s x).dirs = s.dirs := rfl
@[simp] theorem emit_iodOut (s : State) (x : Signal) : (emit s x).iodOut = s.iodOut := rfl
@[simp] theorem emit_pairSent (s : State) (x : Signal) : (emit s x).pairSent = s.pairSent := rfl
@[simp] theorem emit_pairs (s : State) (x : Signal) : (emit s x).pairs = s.pairs := rfl
@[simp] theorem emit_results (s : State) (x : Signal) : (emit s x).results = s.results := rfl
@[simp] theorem emit_deadDisp (s : State) (x : Signal) : (emit s x).deadDisp = s.deadDisp := rfl
@[simp] theorem emit_beats (s : State) (x : Signal) : (emit s x).beats = s.beats := rfl
@[simp] theorem emit_netTab (s : State) (x : Signal) : (emit s x).netTab = s.netTab := rfl
@[simp] theorem emit_portsUp (s : State) (x : Signal) : (emit s x).portsUp = s.portsUp := rfl
@[simp] theorem emit_netOut (s : State) (x : Signal) : (emit s x).netOut = s.netOut := rfl
@[simp] theorem emit_netSeen (s : State) (x : Signal) : (emit s x).netSeen = s.netSeen := rfl
@[simp] theorem emit_netSeq (s : State) (x : Signal) : (emit s x).netSeq = s.netSeq := rfl
@[simp] theorem emit_time (s : State) (x : Signal) : (emit s x).time = s.time := rfl
@[simp] theorem emit_rot (s : State) (x : Signal) : (emit s x).rot = s.rot := rfl
@[simp] theorem emit_hostown (s : State) (x : Signal) : (emit s x).hostown = s.hostown := rfl
@[simp] theorem emit_power (s : State) (x : Signal) : (emit s x).power = s.power := rfl
@[simp] theorem emit_dvfs (s : State) (x : Signal) : (emit s x).dvfs = s.dvfs := rfl
@[simp] theorem emit_order (s : State) (x : Signal) : (emit s x).order = s.order := rfl
@[simp] theorem emit_thermal (s : State) (x : Signal) : (emit s x).thermal = s.thermal := rfl
@[simp] theorem emit_halted (s : State) (x : Signal) : (emit s x).halted = s.halted := rfl

/-! ### fresh -/

@[simp] theorem fresh_agenda (s : State) : (fresh s).2.agenda = s.agenda := rfl
@[simp] theorem fresh_freeIx (s : State) : (fresh s).2.freeIx = s.freeIx := rfl
@[simp] theorem fresh_tick (s : State) : (fresh s).2.tick = s.tick := rfl
@[simp] theorem fresh_actor (s : State) : (fresh s).2.actor = s.actor := rfl
@[simp] theorem fresh_nextId (s : State) : (fresh s).2.nextId = s.nextId + 1 := rfl
@[simp] theorem fresh_outbox (s : State) : (fresh s).2.outbox = s.outbox := rfl
@[simp] theorem fresh_live (s : State) : (fresh s).2.live = s.live := rfl
@[simp] theorem fresh_cores (s : State) : (fresh s).2.cores = s.cores := rfl
@[simp] theorem fresh_blocks (s : State) : (fresh s).2.blocks = s.blocks := rfl
@[simp] theorem fresh_pendings (s : State) : (fresh s).2.pendings = s.pendings := rfl
@[simp] theorem fresh_flights (s : State) : (fresh s).2.flights = s.flights := rfl
@[simp] theorem fresh_ops (s : State) : (fresh s).2.ops = s.ops := rfl
@[simp] theorem fresh_copies (s : State) : (fresh s).2.copies = s.copies := rfl
@[simp] theorem fresh_arrivals (s : State) : (fresh s).2.arrivals = s.arrivals := rfl
@[simp] theorem fresh_posts (s : State) : (fresh s).2.posts = s.posts := rfl
@[simp] theorem fresh_detbuf (s : State) : (fresh s).2.detbuf = s.detbuf := rfl
@[simp] theorem fresh_fences (s : State) : (fresh s).2.fences = s.fences := rfl
@[simp] theorem fresh_dram (s : State) : (fresh s).2.dram = s.dram := rfl
@[simp] theorem fresh_dtag (s : State) : (fresh s).2.dtag = s.dtag := rfl
@[simp] theorem fresh_dpoison (s : State) : (fresh s).2.dpoison = s.dpoison := rfl
@[simp] theorem fresh_upsets (s : State) : (fresh s).2.upsets = s.upsets := rfl
@[simp] theorem fresh_gran (s : State) : (fresh s).2.gran = s.gran := rfl
@[simp] theorem fresh_gtag (s : State) : (fresh s).2.gtag = s.gtag := rfl
@[simp] theorem fresh_gpoison (s : State) : (fresh s).2.gpoison = s.gpoison := rfl
@[simp] theorem fresh_gupsets (s : State) : (fresh s).2.gupsets = s.gupsets := rfl
@[simp] theorem fresh_regions (s : State) : (fresh s).2.regions = s.regions := rfl
@[simp] theorem fresh_refresh (s : State) : (fresh s).2.refresh = s.refresh := rfl
@[simp] theorem fresh_owners (s : State) : (fresh s).2.owners = s.owners := rfl
@[simp] theorem fresh_asked (s : State) : (fresh s).2.asked = s.asked := rfl
@[simp] theorem fresh_gone (s : State) : (fresh s).2.gone = s.gone := rfl
@[simp] theorem fresh_access (s : State) : (fresh s).2.access = s.access := rfl
@[simp] theorem fresh_l1 (s : State) : (fresh s).2.l1 = s.l1 := rfl
@[simp] theorem fresh_stack (s : State) : (fresh s).2.stack = s.stack := rfl
@[simp] theorem fresh_stackGen (s : State) : (fresh s).2.stackGen = s.stackGen := rfl
@[simp] theorem fresh_stamps (s : State) : (fresh s).2.stamps = s.stamps := rfl
@[simp] theorem fresh_tlbs (s : State) : (fresh s).2.tlbs = s.tlbs := rfl
@[simp] theorem fresh_ctxs (s : State) : (fresh s).2.ctxs = s.ctxs := rfl
@[simp] theorem fresh_queues (s : State) : (fresh s).2.queues = s.queues := rfl
@[simp] theorem fresh_tasks (s : State) : (fresh s).2.tasks = s.tasks := rfl
@[simp] theorem fresh_versions (s : State) : (fresh s).2.versions = s.versions := rfl
@[simp] theorem fresh_cp (s : State) : (fresh s).2.cp = s.cp := rfl
@[simp] theorem fresh_plog (s : State) : (fresh s).2.plog = s.plog := rfl
@[simp] theorem fresh_buckets (s : State) : (fresh s).2.buckets = s.buckets := rfl
@[simp] theorem fresh_retiredSlices (s : State) : (fresh s).2.retiredSlices = s.retiredSlices := rfl
@[simp] theorem fresh_retiredBanks (s : State) : (fresh s).2.retiredBanks = s.retiredBanks := rfl
@[simp] theorem fresh_spareRows (s : State) : (fresh s).2.spareRows = s.spareRows := rfl
@[simp] theorem fresh_gen (s : State) : (fresh s).2.gen = s.gen := rfl
@[simp] theorem fresh_meters (s : State) : (fresh s).2.meters = s.meters := rfl
@[simp] theorem fresh_links (s : State) : (fresh s).2.links = s.links := rfl
@[simp] theorem fresh_traffic (s : State) : (fresh s).2.traffic = s.traffic := rfl
@[simp] theorem fresh_dirs (s : State) : (fresh s).2.dirs = s.dirs := rfl
@[simp] theorem fresh_iodOut (s : State) : (fresh s).2.iodOut = s.iodOut := rfl
@[simp] theorem fresh_pairSent (s : State) : (fresh s).2.pairSent = s.pairSent := rfl
@[simp] theorem fresh_pairs (s : State) : (fresh s).2.pairs = s.pairs := rfl
@[simp] theorem fresh_results (s : State) : (fresh s).2.results = s.results := rfl
@[simp] theorem fresh_deadDisp (s : State) : (fresh s).2.deadDisp = s.deadDisp := rfl
@[simp] theorem fresh_beats (s : State) : (fresh s).2.beats = s.beats := rfl
@[simp] theorem fresh_netTab (s : State) : (fresh s).2.netTab = s.netTab := rfl
@[simp] theorem fresh_portsUp (s : State) : (fresh s).2.portsUp = s.portsUp := rfl
@[simp] theorem fresh_netOut (s : State) : (fresh s).2.netOut = s.netOut := rfl
@[simp] theorem fresh_netSeen (s : State) : (fresh s).2.netSeen = s.netSeen := rfl
@[simp] theorem fresh_netSeq (s : State) : (fresh s).2.netSeq = s.netSeq := rfl
@[simp] theorem fresh_time (s : State) : (fresh s).2.time = s.time := rfl
@[simp] theorem fresh_rot (s : State) : (fresh s).2.rot = s.rot := rfl
@[simp] theorem fresh_hostown (s : State) : (fresh s).2.hostown = s.hostown := rfl
@[simp] theorem fresh_power (s : State) : (fresh s).2.power = s.power := rfl
@[simp] theorem fresh_dvfs (s : State) : (fresh s).2.dvfs = s.dvfs := rfl
@[simp] theorem fresh_order (s : State) : (fresh s).2.order = s.order := rfl
@[simp] theorem fresh_thermal (s : State) : (fresh s).2.thermal = s.thermal := rfl
@[simp] theorem fresh_halted (s : State) : (fresh s).2.halted = s.halted := rfl

/-! ### freeIx -/

@[simp] theorem freeIx_agenda (s : State) : (freeIx s).2.agenda = s.agenda := rfl
@[simp] theorem freeIx_freeIx (s : State) : (freeIx s).2.freeIx = s.freeIx + 1 := rfl
@[simp] theorem freeIx_tick (s : State) : (freeIx s).2.tick = s.tick := rfl
@[simp] theorem freeIx_actor (s : State) : (freeIx s).2.actor = s.actor := rfl
@[simp] theorem freeIx_nextId (s : State) : (freeIx s).2.nextId = s.nextId := rfl
@[simp] theorem freeIx_outbox (s : State) : (freeIx s).2.outbox = s.outbox := rfl
@[simp] theorem freeIx_live (s : State) : (freeIx s).2.live = s.live := rfl
@[simp] theorem freeIx_cores (s : State) : (freeIx s).2.cores = s.cores := rfl
@[simp] theorem freeIx_blocks (s : State) : (freeIx s).2.blocks = s.blocks := rfl
@[simp] theorem freeIx_pendings (s : State) : (freeIx s).2.pendings = s.pendings := rfl
@[simp] theorem freeIx_flights (s : State) : (freeIx s).2.flights = s.flights := rfl
@[simp] theorem freeIx_ops (s : State) : (freeIx s).2.ops = s.ops := rfl
@[simp] theorem freeIx_copies (s : State) : (freeIx s).2.copies = s.copies := rfl
@[simp] theorem freeIx_arrivals (s : State) : (freeIx s).2.arrivals = s.arrivals := rfl
@[simp] theorem freeIx_posts (s : State) : (freeIx s).2.posts = s.posts := rfl
@[simp] theorem freeIx_detbuf (s : State) : (freeIx s).2.detbuf = s.detbuf := rfl
@[simp] theorem freeIx_fences (s : State) : (freeIx s).2.fences = s.fences := rfl
@[simp] theorem freeIx_dram (s : State) : (freeIx s).2.dram = s.dram := rfl
@[simp] theorem freeIx_dtag (s : State) : (freeIx s).2.dtag = s.dtag := rfl
@[simp] theorem freeIx_dpoison (s : State) : (freeIx s).2.dpoison = s.dpoison := rfl
@[simp] theorem freeIx_upsets (s : State) : (freeIx s).2.upsets = s.upsets := rfl
@[simp] theorem freeIx_gran (s : State) : (freeIx s).2.gran = s.gran := rfl
@[simp] theorem freeIx_gtag (s : State) : (freeIx s).2.gtag = s.gtag := rfl
@[simp] theorem freeIx_gpoison (s : State) : (freeIx s).2.gpoison = s.gpoison := rfl
@[simp] theorem freeIx_gupsets (s : State) : (freeIx s).2.gupsets = s.gupsets := rfl
@[simp] theorem freeIx_regions (s : State) : (freeIx s).2.regions = s.regions := rfl
@[simp] theorem freeIx_refresh (s : State) : (freeIx s).2.refresh = s.refresh := rfl
@[simp] theorem freeIx_owners (s : State) : (freeIx s).2.owners = s.owners := rfl
@[simp] theorem freeIx_asked (s : State) : (freeIx s).2.asked = s.asked := rfl
@[simp] theorem freeIx_gone (s : State) : (freeIx s).2.gone = s.gone := rfl
@[simp] theorem freeIx_access (s : State) : (freeIx s).2.access = s.access := rfl
@[simp] theorem freeIx_l1 (s : State) : (freeIx s).2.l1 = s.l1 := rfl
@[simp] theorem freeIx_stack (s : State) : (freeIx s).2.stack = s.stack := rfl
@[simp] theorem freeIx_stackGen (s : State) : (freeIx s).2.stackGen = s.stackGen := rfl
@[simp] theorem freeIx_stamps (s : State) : (freeIx s).2.stamps = s.stamps := rfl
@[simp] theorem freeIx_tlbs (s : State) : (freeIx s).2.tlbs = s.tlbs := rfl
@[simp] theorem freeIx_ctxs (s : State) : (freeIx s).2.ctxs = s.ctxs := rfl
@[simp] theorem freeIx_queues (s : State) : (freeIx s).2.queues = s.queues := rfl
@[simp] theorem freeIx_tasks (s : State) : (freeIx s).2.tasks = s.tasks := rfl
@[simp] theorem freeIx_versions (s : State) : (freeIx s).2.versions = s.versions := rfl
@[simp] theorem freeIx_cp (s : State) : (freeIx s).2.cp = s.cp := rfl
@[simp] theorem freeIx_plog (s : State) : (freeIx s).2.plog = s.plog := rfl
@[simp] theorem freeIx_buckets (s : State) : (freeIx s).2.buckets = s.buckets := rfl
@[simp] theorem freeIx_retiredSlices (s : State) : (freeIx s).2.retiredSlices = s.retiredSlices := rfl
@[simp] theorem freeIx_retiredBanks (s : State) : (freeIx s).2.retiredBanks = s.retiredBanks := rfl
@[simp] theorem freeIx_spareRows (s : State) : (freeIx s).2.spareRows = s.spareRows := rfl
@[simp] theorem freeIx_gen (s : State) : (freeIx s).2.gen = s.gen := rfl
@[simp] theorem freeIx_meters (s : State) : (freeIx s).2.meters = s.meters := rfl
@[simp] theorem freeIx_links (s : State) : (freeIx s).2.links = s.links := rfl
@[simp] theorem freeIx_traffic (s : State) : (freeIx s).2.traffic = s.traffic := rfl
@[simp] theorem freeIx_dirs (s : State) : (freeIx s).2.dirs = s.dirs := rfl
@[simp] theorem freeIx_iodOut (s : State) : (freeIx s).2.iodOut = s.iodOut := rfl
@[simp] theorem freeIx_pairSent (s : State) : (freeIx s).2.pairSent = s.pairSent := rfl
@[simp] theorem freeIx_pairs (s : State) : (freeIx s).2.pairs = s.pairs := rfl
@[simp] theorem freeIx_results (s : State) : (freeIx s).2.results = s.results := rfl
@[simp] theorem freeIx_deadDisp (s : State) : (freeIx s).2.deadDisp = s.deadDisp := rfl
@[simp] theorem freeIx_beats (s : State) : (freeIx s).2.beats = s.beats := rfl
@[simp] theorem freeIx_netTab (s : State) : (freeIx s).2.netTab = s.netTab := rfl
@[simp] theorem freeIx_portsUp (s : State) : (freeIx s).2.portsUp = s.portsUp := rfl
@[simp] theorem freeIx_netOut (s : State) : (freeIx s).2.netOut = s.netOut := rfl
@[simp] theorem freeIx_netSeen (s : State) : (freeIx s).2.netSeen = s.netSeen := rfl
@[simp] theorem freeIx_netSeq (s : State) : (freeIx s).2.netSeq = s.netSeq := rfl
@[simp] theorem freeIx_time (s : State) : (freeIx s).2.time = s.time := rfl
@[simp] theorem freeIx_rot (s : State) : (freeIx s).2.rot = s.rot := rfl
@[simp] theorem freeIx_hostown (s : State) : (freeIx s).2.hostown = s.hostown := rfl
@[simp] theorem freeIx_power (s : State) : (freeIx s).2.power = s.power := rfl
@[simp] theorem freeIx_dvfs (s : State) : (freeIx s).2.dvfs = s.dvfs := rfl
@[simp] theorem freeIx_order (s : State) : (freeIx s).2.order = s.order := rfl
@[simp] theorem freeIx_thermal (s : State) : (freeIx s).2.thermal = s.thermal := rfl
@[simp] theorem freeIx_halted (s : State) : (freeIx s).2.halted = s.halted := rfl

end Sys2Proof.Machine
end

