-- ==== Sys2Proof/Laws/Slots.lean ====
section
/-! SUPPORT. Laws of blocks and waves under updates; the order of waves (R174 to R177) changes nothing else. -/

namespace Sys2Proof.Machine

/-! ### Blocks and waves under updates -/

theorem find?_map_keep {α : Type} (p : α → Bool) (f : α → α) (hf : ∀ x, p (f x) = p x) (xs : List α) :
    (xs.map f).find? p = (xs.find? p).map f := by
  induction xs with
  | nil => rfl
  | cons x xs ih => simp only [List.map_cons, List.find?_cons, hf]; split <;> simp [ih]

theorem getBlock_id {s : State} {bid : Nat} {b : Block} (h : getBlock s bid = some b) : b.id = bid := by
  simpa using List.find?_some h

theorem getBlock_modBlock (s : State) (bid bid' : Nat) (f : Block → Block) (hf : ∀ b, (f b).id = b.id) :
    getBlock (modBlock s bid f) bid' = (getBlock s bid').map fun b => if bid = bid' then f b else b := by
  have h : getBlock (modBlock s bid f) bid' = (getBlock s bid').map fun b => if b.id = bid then f b else b :=
    find?_map_keep (fun b : Block => decide (b.id = bid')) (fun b => if b.id = bid then f b else b)
      (fun b => by by_cases hb : b.id = bid <;> simp [hb, hf]) _
  rw [h]
  cases hb : getBlock s bid' with
  | none => rfl
  | some b =>
    have := getBlock_id hb
    subst this
    by_cases h1 : b.id = bid <;> simp [h1, eq_comm]

theorem getBlock_modWave (s : State) (bid bid' w : Nat) (f : Wave → Wave) :
    getBlock (modWave s bid w f) bid' =
      (getBlock s bid').map fun b => if bid = bid' then { b with waves := modifyAt f w b.waves } else b :=
  getBlock_modBlock s bid bid' _ fun _ => rfl

theorem getWave_modWave (s : State) (bid bid' w w' : Nat) (f : Wave → Wave) :
    getWave (modWave s bid w f) bid' w' =
      if bid = bid' ∧ w = w' then (getWave s bid' w').map f else getWave s bid' w' := by
  simp only [getWave, getBlock_modWave]
  cases getBlock s bid' with
  | none => simp
  | some b =>
    by_cases h1 : bid = bid'
    · simp only [h1, if_true, Option.map_some, Option.bind_some, nth_modifyAt, true_and]
    · simp [h1]

/-! ### The order of waves -/

theorem unslotted_modWave (s : State) (bid w : Nat) (f : Wave → Wave) (hf : ∀ x, (f x).unslotted = x.unslotted) :
    (modWave s bid w f).unslotted = s.unslotted := by
  simp only [State.unslotted, modWave, modBlock, List.map_map]
  congr 1
  apply List.map_congr_left
  intro b _
  simp only [Function.comp]
  split
  · simp only [Block.unslotted, map_modifyAt_same _ f hf]
  · rfl

theorem unslotted_activate (s : State) (bid w slot : Nat) : (activate s bid w slot).unslotted = s.unslotted :=
  unslotted_modWave _ _ _ _ fun _ => rfl

theorem unslotted_swapOut (s : State) (bid w : Nat) : (swapOut s bid w).unslotted = s.unslotted := by
  unfold swapOut
  split
  · split
    · rfl
    · split
      · rfl
      · split
        · rfl
        · rw [unslotted_activate]; exact unslotted_modWave _ _ _ _ fun _ => rfl
  · rfl

/-- AFTER A WORD only the order of waves changes. -/
theorem unslotted_settle (s : State) (bid w : Nat) (keep yld : Bool) :
    (settle s bid w keep yld).unslotted = s.unslotted := by
  have h1 : ∀ (s : State) (k : Wave → Wave), (∀ x, (k x).unslotted = x.unslotted) →
      (modWave s bid w k).unslotted = s.unslotted := fun s k hk => unslotted_modWave s bid w k hk
  unfold settle
  split
  · rfl
  · split
    · split
      · refine (h1 _ _ ?_).trans (h1 _ _ ?_) <;> intro x <;> rfl
      · refine (unslotted_swapOut _ _ _).trans (h1 _ _ ?_); intro x; rfl
    · split
      · exact unslotted_swapOut _ _ _
      · rfl

/-! ### What two states with the same unslotted form share -/

theorem unslotted_ext {s u : State} (h : u.unslotted = s.unslotted) : { u with blocks := s.blocks } = s := by
  have h1 : { u.unslotted with blocks := s.blocks } = { s.unslotted with blocks := s.blocks } := by rw [h]
  exact h1

theorem getBlock_unslotted (s : State) (bid : Nat) : getBlock s.unslotted bid = (getBlock s bid).map Block.unslotted :=
  find?_map_keep _ Block.unslotted (fun _ => rfl) _

theorem nth_unslotted (b : Block) (w : Nat) : nth b.unslotted.waves w = (nth b.waves w).map Wave.unslotted :=
  nth_map Wave.unslotted b.waves w

/-- Blocks correspond, up to the order of their waves. -/
theorem getBlock_of_unslotted {s u : State} (h : u.unslotted = s.unslotted) (bid : Nat) :
    (getBlock u bid).map Block.unslotted = (getBlock s bid).map Block.unslotted := by
  rw [← getBlock_unslotted, ← getBlock_unslotted, h]

theorem sameMemory_of_unslotted {s u : State} (h : u.unslotted = s.unslotted) : SameMemory s u := by
  have e := unslotted_ext h
  have hd : u.dram = s.dram := by rw [← e]
  have ht : u.dtag = s.dtag := by rw [← e]
  have hg : u.gran = s.gran := by rw [← e]
  have hgt : u.gtag = s.gtag := by rw [← e]
  refine ⟨fun _ => by rw [hd], fun _ => by rw [ht], fun _ => by rw [hg], fun _ => by rw [hgt], fun bid a => ?_⟩
  have hb := getBlock_of_unslotted h bid
  unfold spadByte
  cases h1 : getBlock u bid with
  | none => cases h2 : getBlock s bid with
    | none => rfl
    | some b => rw [h1, h2] at hb; cases hb
  | some b' => cases h2 : getBlock s bid with
    | none => rw [h1, h2] at hb; cases hb
    | some b =>
      rw [h1, h2] at hb
      have : b'.unslotted.spad = b.unslotted.spad := congrArg Block.spad (Option.some.inj hb)
      have : b'.spad = b.spad := this
      simp only [this]

theorem SameMemory.trans {s t u : State} (h : SameMemory s t) (k : SameMemory t u) : SameMemory s u :=
  ⟨fun a => (k.dram a).trans (h.dram a), fun a => (k.dtag a).trans (h.dtag a), fun a => (k.gran a).trans (h.gran a),
   fun a => (k.gtag a).trans (h.gtag a), fun b a => (k.spad b a).trans (h.spad b a)⟩

theorem sameMemory_modWave (s : State) (bid w : Nat) (f : Wave → Wave) : SameMemory s (modWave s bid w f) := by
  refine ⟨fun _ => rfl, fun _ => rfl, fun _ => rfl, fun _ => rfl, fun bid' a => ?_⟩
  simp only [spadByte, getBlock_modWave]
  cases getBlock s bid' with
  | none => rfl
  | some b => simp only [Option.map_some]; split <;> rfl

/-- WAVES THAT JOIN THE ORDER change no memory (R176, R177). -/
theorem sameMemory_joinOrder (s : State) : SameMemory s (joinOrder s) := by
  refine ⟨fun _ => rfl, fun _ => rfl, fun _ => rfl, fun _ => rfl, fun bid a => ?_⟩
  have h : ∀ bid, getBlock (joinOrder s) bid = (getBlock s bid).map fun b => if b.core.isNone then b
      else { b with waves := (List.range b.waves.length).zip b.waves |>.map fun p => joinWave s b p.1 p.2 } :=
    fun bid => find?_map_keep _ _ (fun b => by split <;> rfl) _
  simp only [spadByte, h]
  cases getBlock s bid with
  | none => rfl
  | some b => simp only [Option.map_some]; split <;> rfl

end Sys2Proof.Machine
end

