-- ==== Sys2Proof/Laws/Words.lean ====
section
/-! SUPPORT. Laws of a wave's word: what `issuing` says, what a word that is done leaves, what a write to a register
leaves. -/

namespace Sys2Proof.Machine

/-! ### The issuing word -/

/-- What `issuing` says. -/
structure Issued (s : State) (c : Ctl) (n : Need) (x : Iss) : Prop where
  state : x.s = s
  actor : s.actor = .wave x.bid x.wi
  block : getBlock s x.bid = some x.b
  wave : nth x.b.waves x.wi = some x.w
  trace : x.w.trace = some x.t
  addr : x.addr = x.t.addrOf x.t.pos
  shape : shapeOk x.t n = true
  need : x.need = n
  ex : x.ex = x.guarded c

theorem issued {s : State} {c : Ctl} {n : Need} {x : Iss} (h : issuing s c n = some x) : Issued s c n x := by
  unfold issuing at h
  split at h
  · rename_i bid wi ha
    simp only [Option.bind_eq_some_iff] at h
    obtain ⟨b, hb, w, hw, t, ht, h⟩ := h
    split at h
    · rename_i hs
      cases h
      exact ⟨rfl, ha, hb, hw, ht, rfl, hs, rfl, rfl⟩
    · cases h
  · cases h

theorem Issued.getWave {s : State} {c : Ctl} {n : Need} {x : Iss} (h : Issued s c n x) :
    getWave s x.bid x.wi = some x.w := by
  simp [Machine.getWave, h.block, h.wave]

/-- A word executes only in lanes of the trace. -/
theorem Issued.live {s : State} {c : Ctl} {n : Need} {x : Iss} (h : Issued s c n x) {l : Nat}
    (hl : x.ex.getLsbD l = true) : x.t.live.getLsbD l = true := by
  rw [h.ex] at hl
  simp only [Iss.guarded, maskOf_getLsbD, Bool.and_eq_true] at hl
  exact hl.2.1.1

/-- The frame of a wave's word: its meaning's answer is taken. -/
theorem waveWord_issued {s : State} {c : Ctl} {n : Need} {x : Iss} (h : Issued s c n x) (k : Iss → Ans) :
    waveWord c n k s = .next (takeAns c n x.t x.bid x.wi x.t.start (k x)) := by
  obtain ⟨rfl, ha, hb, hw, ht, had, hs, hn, hex⟩ := h
  have e : (⟨x.s, x.bid, x.wi, x.b, x.w, x.t, x.t.addrOf x.t.pos, x.guarded c, n⟩ : Iss) = x := by
    rw [← hex, ← had, ← hn]
  simp only [waveWord, ha, runWord, runFree, Iss.shaped, hb, hw, ht, hs, if_true]
  conv => rhs; rw [← e]
  rfl

/-- The wave in a state that differs in the order of waves only. -/
theorem later_of_unslotted {x : Iss} {base u : State} {w' : Wave} {b : Block} {t' : TraceRun}
    (hb : getBlock base x.bid = some b) (hw : (nth b.waves x.wi).isSome = true)
    (h : u.unslotted = (modWave base x.bid x.wi fun _ => { w' with trace := some t' }).unslotted) :
    ∃ y, x.later u = some y ∧ y.t = t' ∧ y.w.unslotted = ({ w' with trace := some t' } : Wave).unslotted ∧
      y.bid = x.bid ∧ y.wi = x.wi ∧ y.ex = x.ex ∧ y.addr = x.addr := by
  have hb' := getBlock_of_unslotted h x.bid
  rw [getBlock_modWave, hb] at hb'
  simp only [Option.map_some, if_true] at hb'
  obtain ⟨ub, hub, hub2⟩ := Option.map_eq_some_iff.1 hb'
  have hn := nth_unslotted ub x.wi
  rw [hub2, nth_unslotted] at hn
  simp only [nth_modifyAt, if_true, Option.map_map] at hn
  obtain ⟨w0, hw0⟩ := Option.isSome_iff_exists.1 hw
  rw [hw0] at hn
  simp only [Option.map_some, Function.comp] at hn
  obtain ⟨uw, huw, huw2⟩ := Option.map_eq_some_iff.1 hn.symm
  have ht : uw.trace = some t' := by
    have := congrArg Wave.trace huw2
    exact this
  exact ⟨{ x with s := u, b := ub, w := uw, t := t' }, by simp [Iss.later, hub, huw, ht], rfl, huw2, rfl, rfl, rfl, rfl⟩

/-! ### A word that is done -/

/-- `t'` differs from `t` in entries only. -/
structure SameTrace (t t' : TraceRun) : Prop where
  eq : t' = { t with ov := t'.ov, os := t'.os, op := t'.op, om := t'.om, og := t'.og, kc := t'.kc, flags := t'.flags, buf := t'.buf }

theorem SameTrace.refl (t : TraceRun) : SameTrace t t := ⟨rfl⟩

theorem SameTrace.trans {t u v : TraceRun} (h : SameTrace t u) (k : SameTrace u v) : SameTrace t v :=
  ⟨by rw [k.eq, h.eq]⟩

theorem SameTrace.live {t t' : TraceRun} (h : SameTrace t t') : t'.live = t.live := by rw [h.eq]

theorem past_of_sameTrace {x : Iss} {t' : TraceRun} (h : SameTrace x.t t') :
    ({ t' with twbUsed := t'.twbUsed + x.need.twb, tsbUsed := t'.tsbUsed + x.need.tsb } : TraceRun).advance
      = x.past t' := by
  have h1 := congrArg TraceRun.twbUsed h.eq
  have h2 := congrArg TraceRun.tsbUsed h.eq
  have h3 := congrArg TraceRun.rep h.eq
  simp only at h1 h2 h3
  rw [Iss.past, h1, h2]
  rw [h.eq]
  simp only [TraceRun.advance]
  cases hr : x.t.rep with
  | none => rfl
  | some r => simp only; split <;> rfl

/-- Values depend on the wave's registers and the trace's entries. -/
theorem Takes.congr {x y z : Iss} {e : Effect} (h : Takes x e y) (hw : { z.w.unslotted with trace := none } = { y.w.unslotted with trace := none })
    (h1 : z.t.ov = y.t.ov) (h2 : z.t.os = y.t.os) (h3 : z.t.op = y.t.op) (h4 : z.t.om = y.t.om) (h5 : z.t.og = y.t.og)
    (h9 : z.t.kc = y.t.kc) (h6 : z.t.flags = y.t.flags) (h7 : z.t.buf = y.t.buf) (h8 : z.t.live = y.t.live) : Takes x e z := by
  have a1 : z.w.vreg = y.w.vreg := by have := congrArg Wave.vreg hw; exact this
  have a2 : z.w.sreg = y.w.sreg := by have := congrArg Wave.sreg hw; exact this
  have a3 : z.w.preds = y.w.preds := by have := congrArg Wave.preds hw; exact this
  have a4 : z.w.spec = y.w.spec := by have := congrArg Wave.spec hw; exact this
  have a5 : z.w.gens = y.w.gens := by have := congrArg Wave.gens hw; exact this
  have a6 : z.w.wo = y.w.wo := by have := congrArg Wave.wo hw; exact this
  refine ⟨fun n l hl => ?_, fun n => ?_, fun q l hl => ?_, fun n => ?_, fun n => ?_, fun l => ?_, fun k l hl => ?_, ?_⟩
  · rw [← h.v n l hl]; simp only [Iss.vcell, a1, a6, h1, h8]
  · rw [← h.s n]; simp only [Iss.scell, a2, h2]
  · rw [← h.p q l hl]; simp only [Iss.pred, a3, h3, h8]
  · rw [← h.m n]; simp only [Iss.special, a4, h4]
  · rw [← h.g n]; simp only [Iss.gen, a5, h5]
  · rw [← h.flags l, h6]
  · rw [← h.kc k l hl, h9]
  · rw [← h.buf, h7]

theorem past_live (x : Iss) (t' : TraceRun) : (x.past t').live = x.t.live := by
  simp only [Iss.past, TraceRun.advance]
  cases x.t.rep with
  | none => rfl
  | some r => simp only; split <;> rfl

/-- A WORD THAT ANSWERS `done`, with the state `base`, the wave `w'` and the entries `t'`, has the effect `e`. -/
theorem done_word_in {i : Instr} {c : Ctl} {n : Need} {k : Iss → Ans} {s base : State} {x : Iss} {e : Effect}
    {t' : TraceRun} {w' : Wave}
    (hi : exec i s = waveWord c n k s) (hx : issuing s c n = some x)
    (hk : k x = .done { x with s := base, w := w', t := t' })
    (hb : (getBlock base x.bid).any (fun b => (nth b.waves x.wi).isSome) = true)
    (ht : SameTrace x.t t') (he : Takes { x with s := base, w := w' } e { x with s := base, w := w', t := t' }) :
    DoneIn i x e base w' := by
  have h := issued hx
  have hs := h.state
  subst hs
  obtain ⟨b, hb, hb2⟩ : ∃ b, getBlock base x.bid = some b ∧ (nth b.waves x.wi).isSome = true := by
    cases hc : getBlock base x.bid with
    | none => rw [hc] at hb; cases hb
    | some b => rw [hc] at hb; exact ⟨b, rfl, hb⟩
  have hu : (Iss.finish { x with s := base, w := w', t := t' } c).unslotted
      = ({ x with s := base, w := w' }.store (some (x.past t'))).unslotted := by
    simp only [Iss.finish]
    rw [unslotted_settle, past_of_sameTrace ht]
    rfl
  obtain ⟨y, hy, hyt, hyw, -⟩ := later_of_unslotted hb hb2 hu
  refine ⟨_, y, by rw [hi, waveWord_issued h, hk]; rfl, hy, ?_, ?_, ?_⟩
  · refine he.congr ?_ (by rw [hyt]; rfl) (by rw [hyt]; rfl) (by rw [hyt]; rfl) (by rw [hyt]; rfl) (by rw [hyt]; rfl)
      (by rw [hyt]; rfl) (by rw [hyt]; rfl) (by rw [hyt]; rfl) ?_
    · rw [hyw]; rfl
    · rw [hyt, past_live]; exact ht.live.symm
  · rw [hyt]; exact hu
  · exact (sameMemory_modWave base x.bid x.wi _).trans (sameMemory_of_unslotted hu)

/-- The same for a word that changes nothing outside its trace. -/
theorem done_word {i : Instr} {c : Ctl} {n : Need} {k : Iss → Ans} {s : State} {x : Iss} {e : Effect} {t' : TraceRun}
    (hi : exec i s = waveWord c n k s) (hx : issuing s c n = some x) (hk : k x = .done { x with t := t' })
    (ht : SameTrace x.t t') (he : Takes x e { x with t := t' }) : Done i x e :=
  done_word_in hi hx hk (by
    have h := issued hx
    rw [h.state, h.block]; simp [h.wave]) ht he

/-! ### Writes to registers -/

/-- No effect. -/
theorem takes_none (x : Iss) : Takes x {} x :=
  ⟨fun _ _ _ => rfl, fun _ => rfl, fun _ _ _ => rfl, fun _ => rfl, fun _ => rfl, fun _ => by simp, fun _ _ _ => by simp,
    by simp⟩

/-- Two effects, one after the other. -/
theorem Takes.trans {x y z : Iss} {e f : Effect} (h : Takes x e y) (k : Takes y f z) : Takes x (f.over e) z := by
  refine ⟨fun n l hl => ?_, fun n => ?_, fun q l hl => ?_, fun n => ?_, fun n => ?_, fun l => ?_, fun q l hl => ?_, ?_⟩
  · rw [k.v n l hl, h.v n l hl]; simp only [Effect.over]; cases f.v n l <;> rfl
  · rw [k.s n, h.s n]; simp only [Effect.over]; cases f.s n <;> rfl
  · rw [k.p q l hl, h.p q l hl]; simp only [Effect.over]; cases f.p q l <;> rfl
  · rw [k.m n, h.m n]; simp only [Effect.over]; cases f.m n <;> rfl
  · rw [k.g n, h.g n]; simp only [Effect.over]; cases f.g n <;> rfl
  · rw [k.flags l, h.flags l]; simp only [Effect.over, BitVec.or_assoc]
  · rw [k.kc q l hl, h.kc q l hl]; simp only [Effect.over, BitVec.add_assoc]
  · rw [k.buf, h.buf]; simp only [Effect.over, List.append_assoc]

theorem ov_putLanes (ix : Nat) (f : Nat → Word64) (g : Nat → Dest × Word64) (hg : ∀ l, g l = (.v ix l, f l)) (ls : List Nat)
    (hls : ∀ l ∈ ls, l < 32) (t : TraceRun) (i l : Nat) (hl : l < 32) :
    ffind ((ls.map g).foldl (fun t p => t.put p.1 p.2 .full) t).ov (vkey i l)
      = if i = ix ∧ l ∈ ls then some ⟨(f l).setWidth 32, .full⟩ else ffind t.ov (vkey i l) := by
  induction ls generalizing t with
  | nil => simp
  | cons a ls ih =>
    have ha : a < 32 := hls a (by simp)
    rw [List.map_cons, List.foldl_cons, ih fun l h => hls l (by simp [h]), hg]
    simp only [TraceRun.put, ffind_fins, List.mem_cons]
    by_cases h1 : i = ix ∧ l ∈ ls
    · simp [h1.1, h1.2]
    · by_cases h2 : i = ix ∧ l = a
      · obtain ⟨rfl, rfl⟩ := h2; simp
      · have h3 : ¬ vkey ix a = vkey i l := by simp only [vkey]; omega
        have h4 : ¬ (i = ix ∧ (l = a ∨ l ∈ ls)) := by
          rintro ⟨e1, e2 | e2⟩
          · exact h2 ⟨e1, e2⟩
          · exact h1 ⟨e1, e2⟩
        simp only [h1, h3, h4, if_false]

theorem sameTrace_put (t : TraceRun) (d : Dest) (v : Word64) (f : Fill) : SameTrace t (t.put d v f) := by
  cases d <;> exact ⟨rfl⟩

theorem sameTrace_foldl {α : Type} (g : TraceRun → α → TraceRun) (hg : ∀ t a, SameTrace t (g t a)) (xs : List α) (t : TraceRun) :
    SameTrace t (xs.foldl g t) := by
  induction xs generalizing t with
  | nil => exact .refl t
  | cons a xs ih => exact (hg t a).trans (ih _)

theorem sameTrace_putAll (x : Iss) (ws : List (Dest × Word64)) : SameTrace x.t (x.putAll ws).t :=
  sameTrace_foldl (fun (t : TraceRun) (p : Dest × Word64) => t.put p.1 p.2 .full)
    (fun t p => sameTrace_put t p.1 p.2 .full) ws x.t

/-- Entries of registers leave the other entries. -/
structure OnlyRegs (t t' : TraceRun) : Prop where
  eq : t' = { t with ov := t'.ov, os := t'.os }

theorem onlyRegs_putAll (x : Iss) (ws : List (Dest × Word64)) : OnlyRegs x.t (x.putAll ws).t := by
  suffices h : ∀ t, OnlyRegs t (ws.foldl (fun t p => t.put p.1 p.2 .full) t) from h x.t
  intro t
  induction ws generalizing t with
  | nil => exact ⟨rfl⟩
  | cons p ws ih =>
    have h1 : OnlyRegs t (t.put p.1 p.2 .full) := by cases p.1 <;> exact ⟨rfl⟩
    have h2 := ih (t.put p.1 p.2 .full)
    exact ⟨by rw [List.foldl_cons, h2.eq, h1.eq]⟩

/-- THE RESULT OF A WORD: register D holds it, and nothing else in the trace has changed. -/
theorem takes_results {s : State} {c : Ctl} {n : Need} {x : Iss} (h : Issued s c n x) (d : Reg) (f : Nat → Word64) :
    Takes x (x.into d f) (x.putAll (x.results d f)) := by
  have hr := onlyRegs_putAll x (x.results d f)
  have hop := congrArg TraceRun.op hr.eq
  have hom := congrArg TraceRun.om hr.eq
  have hog := congrArg TraceRun.og hr.eq
  have hfl := congrArg TraceRun.flags hr.eq
  have hbuf := congrArg TraceRun.buf hr.eq
  have hkc := congrArg TraceRun.kc hr.eq
  have hlive := congrArg TraceRun.live hr.eq
  simp only at hop hom hog hfl hbuf hkc hlive
  have e : (x.into d f).p = fun _ _ => none := by cases d <;> rfl
  have e2 : (x.into d f).m = fun _ => none := by cases d <;> rfl
  have e3 : (x.into d f).g = fun _ => none := by cases d <;> rfl
  have e4 : (x.into d f).flags = fun _ => 0 := by cases d <;> rfl
  have e5 : (x.into d f).buf = [] := by cases d <;> rfl
  have e6 : (x.into d f).kc = fun _ _ => 0 := by cases d <;> rfl
  refine ⟨fun m l hl => ?_, fun m => ?_, fun q l hl => ?_, fun m => ?_, fun m => ?_, fun l => ?_, fun q l _ => ?_, ?_⟩
  · cases d with
    | v k =>
      have hlive' := hlive
      simp only [Iss.putAll, Iss.results] at hlive'
      simp only [Iss.vcell, Iss.into, Iss.results, Iss.putAll, hlive']
      rw [ov_putLanes (x.w.wo + k) f _ (fun _ => rfl) _ (fun l hl => BitVec.lt_of_getLsbD ((mem_lanesOf _ l).1 hl)) _ _ l hl]
      by_cases h1 : m = k ∧ x.ex.getLsbD l = true
      · simp [h1.1, h1.2, h.live h1.2]
      · have h2 : ¬ (x.w.wo + m = x.w.wo + k ∧ l ∈ lanesOf x.ex) := by
          rw [mem_lanesOf]; rintro ⟨e1, e2⟩; exact h1 ⟨by omega, e2⟩
        simp only [if_neg h1, if_neg h2, Option.getD_none]
    | s k =>
      have hov : (x.putAll (x.results (.s k) f)).t.ov = x.t.ov := by
        simp only [Iss.results, Iss.putAll]
        cases lowest x.ex <;> rfl
      have hw : (x.putAll (x.results (.s k) f)).w = x.w := rfl
      simp only [Iss.vcell, hlive, hov, hw]; rfl
    | _ => rfl
  · cases d with
    | s k =>
      simp only [Iss.scell, Iss.into, Iss.results, Iss.putAll]
      cases hl : lowest x.ex with
      | none => simp
      | some l =>
        simp only [List.foldl_cons, List.foldl_nil, TraceRun.put, ffind_fins]
        by_cases h1 : m = k
        · simp [h1]
        · have : ¬ k = m := fun h => h1 h.symm
          simp [h1, this]
    | v k =>
      have : (x.putAll (x.results (.v k) f)).t.os = x.t.os := by
        simp only [Iss.results, Iss.putAll]
        generalize lanesOf x.ex = ls
        suffices ∀ t : TraceRun, ((ls.map fun l => (Dest.v (x.w.wo + k) l, f l)).foldl (fun t p => t.put p.1 p.2 .full) t).os
            = t.os from this x.t
        induction ls with
        | nil => intro t; rfl
        | cons a ls ih => intro t; rw [List.map_cons, List.foldl_cons, ih]; rfl
      simp only [Iss.scell, this]; rfl
    | _ => rfl
  · simp only [Iss.pred, hop, hlive, e]; rfl
  · simp only [Iss.special, hom, e2]; rfl
  · simp only [Iss.gen, hog, e3]; rfl
  · simp [hfl, e4]
  · simp [hkc, e6]
  · simp [hbuf, e5]

/-- THE RESULT OF A PREDICATE WORD. -/
theorem takes_putPred {s : State} {c : Ctl} {n : Need} {x : Iss} (h : Issued s c n x) (q : BitVec 4) (f : Nat → Bool)
    (v : Mask) (hv : ∀ l, x.ex.getLsbD l = true → v.getLsbD l = f l) : Takes x (x.intoPred q f) (x.putPred q x.ex v) := by
  unfold Iss.putPred
  by_cases hq : q = 0
  · subst hq
    simp only [if_true]
    refine ⟨fun _ _ _ => rfl, fun _ => rfl, fun _ _ _ => ?_, fun _ => rfl, fun _ => rfl, fun _ => ?_, fun _ _ _ => ?_, ?_⟩ <;>
      simp [Iss.intoPred]
  · simp only [hq, if_false]
    refine ⟨fun _ _ _ => rfl, fun _ => rfl, fun p l hl => ?_, fun _ => rfl, fun _ => rfl, fun _ => ?_, fun _ _ _ => ?_, ?_⟩
    · simp only [Iss.pred, Iss.intoPred, ffind_fins]
      by_cases hp : p = 0
      · subst hp
        have h0 : ¬ ((0 : BitVec 4) = q ∧ q ≠ 0 ∧ x.ex.getLsbD l = true) := fun e => hq e.1.symm
        simp only [if_true, if_neg h0, Option.getD_none]
      · simp only [hp, if_false]
        by_cases hpq : p = q
        · subst hpq
          simp only [if_true, true_and, ne_eq, hq, not_false_eq_true]
          by_cases hl2 : x.ex.getLsbD l = true
          · simp [h.live hl2, hl2, hv l hl2]
          · have hl3 : x.ex.getLsbD l = false := by simpa using hl2
            by_cases hlive : x.t.live.getLsbD l = true
            · simp only [hlive, if_true, fget]
              cases ffind x.t.op p.toNat with
              | none =>
                have h0 : (0 : Mask).getLsbD l = false := BitVec.getLsbD_zero
                simp only [Option.getD_none, BitVec.getLsbD_or, h0, hl3, Bool.or_false, Bool.false_eq_true, if_false]
              | some mv =>
                simp only [Option.getD_some, Option.getD_none, BitVec.getLsbD_or, BitVec.getLsbD_and, BitVec.getLsbD_not, hl,
                  decide_true, hl3, Bool.not_false, Bool.and_true, Bool.and_false, Bool.or_false, Bool.false_eq_true,
                  if_false]
            · have : x.t.live.getLsbD l = false := by simpa using hlive
              simp [this, hl3]
        · have : ¬ q.toNat = p.toNat := fun e => hpq (BitVec.eq_of_toNat_eq e.symm)
          simp [this, hpq]
    · simp [Iss.intoPred]
    · simp [Iss.intoPred]
    · simp [Iss.intoPred]

theorem sameTrace_putPred (x : Iss) (q : BitVec 4) (m v : Mask) : SameTrace x.t (x.putPred q m v).t := by
  unfold Iss.putPred; split
  · exact .refl _
  · exact ⟨rfl⟩

/-! ### Operand checks -/

theorem readLane_ok {x : Iss} {r : Read} {p : Nat × Nat} (h : ∀ f ∈ x.fills r.reg r.span p.2, f = .full) :
    x.readLane r p = .ok := by
  have h1 : (x.fills r.reg r.span p.2).any Fill.isDefer = false := by
    rw [List.any_eq_false]; intro f hf; rw [h f hf]; simp [Fill.isDefer]
  have h2 : ((x.fills r.reg r.span p.2).all fun f => decide (f = .full)) = true := by
    rw [List.all_eq_true]; intro f hf; simp [h f hf]
  simp only [Iss.readLane, h1, h2]; rfl

theorem checkRead_ok {x : Iss} {r : Read} (h : ∀ p ∈ r.lanes, ∀ f ∈ x.fills r.reg r.span p.2, f = .full) :
    x.checkRead r = .ok := by
  unfold Iss.checkRead
  suffices ∀ ps : List (Nat × Nat), (∀ p ∈ ps, ∀ f ∈ x.fills r.reg r.span p.2, f = .full) →
      (ps.map fun p => x.readLane r p).foldl OpChk.and .ok = .ok from this _ h
  intro ps
  induction ps with
  | nil => intro _; rfl
  | cons p ps ih =>
    intro h
    rw [List.map_cons, List.foldl_cons, readLane_ok (h p (by simp))]
    exact ih fun q hq => h q (by simp [hq])

/-- Full operands pass the checks. -/
theorem checkReads_ok {x : Iss} {rs : List Read} (h : x.Full rs) : x.checkReads rs = .ok := by
  unfold Iss.checkReads
  induction rs with
  | nil => rfl
  | cons r rs ih =>
    have h1 : x.checkRead { r with lanes := r.lanes.filter fun p => ([] : List Raise).all fun a => a.1 ≠ p.1 } = .ok :=
      checkRead_ok fun p hp => h r (by simp) p (by simpa using hp)
    simp only [Iss.checkReadsFrom, h1]
    exact ih fun q hq => h q (by simp [hq])

theorem reading_ok {x : Iss} {rs : List Read} (h : x.Full rs) (k : Ans) : x.reading rs k = k := by
  simp only [Iss.reading, checkReads_ok h]

theorem readingThen_ok {x : Iss} {rs : List Read} (h : x.Full rs) (k : List Raise → Ans) : x.readingThen rs k = k [] := by
  simp only [Iss.readingThen, checkReads_ok h]

/-! ### Flags -/

theorem takes_addFlags (x : Iss) (l : Nat) (f : Flags) :
    Takes x { flags := fun k => if k = l then f else 0 } (x.addFlags l f) := by
  unfold Iss.addFlags
  by_cases hf : f = 0
  · subst hf
    simp only [if_true]
    exact ⟨fun _ _ _ => rfl, fun _ => rfl, fun _ _ _ => rfl, fun _ => rfl, fun _ => rfl, fun _ => by simp,
      fun _ _ _ => by simp, by simp⟩
  · simp only [hf, if_false]
    refine ⟨fun _ _ _ => rfl, fun _ => rfl, fun _ _ _ => rfl, fun _ => rfl, fun _ => rfl, fun k => ?_, fun _ _ _ => by simp,
      by simp⟩
    simp only [fget_fmod]
    by_cases h : l = k
    · subst h; simp
    · have : ¬ k = l := fun e => h e.symm
      simp [h, this]

theorem sameTrace_addFlags (x : Iss) (l : Nat) (f : Flags) : SameTrace x.t (x.addFlags l f).t := by
  unfold Iss.addFlags; split
  · exact .refl _
  · exact ⟨rfl⟩

end Sys2Proof.Machine
end

