-- ==== Sys2Proof/Laws/Ops.lean ====
section
/-! SUPPORT. What the shared operations can do: words that compute a register or a predicate, the operations that write
memory or the contexts, the fields of a word. -/

namespace Sys2Proof

theorem extract_low {n k : Nat} (x : BitVec n) (y : BitVec k) : (x ++ y).extractLsb' 0 k = y := by
  apply BitVec.eq_of_getLsbD_eq
  intro i hi
  simp [BitVec.getLsbD_append, hi]

theorem extract_high {n k : Nat} (x : BitVec n) (y : BitVec k) (a w : Nat) (h : k ≤ a) :
    (x ++ y).extractLsb' a w = x.extractLsb' (a - k) w := by
  apply BitVec.eq_of_getLsbD_eq
  intro i hi
  have : ¬ a + i < k := by omega
  have h2 : a + i - k = a - k + i := by omega
  simp [BitVec.getLsbD_append, hi, this, h2]

/-- The fields of a word put together and taken apart again. -/
theorem Raw.ofWord_toWord (r : Raw) : Raw.ofWord r.toWord = r := by
  cases r
  simp only [Raw.ofWord, Raw.toWord, Raw.mk.injEq]
  refine ⟨?_, ?_, ?_, ?_, ?_, ?_, ?_, ?_, ?_, ?_, ?_⟩
  on_goal 11 =>
    (repeat rw [extract_high _ _ _ _ (by decide)])
    exact BitVec.extractLsb'_eq_self
  all_goals
    (repeat rw [extract_high _ _ _ _ (by decide)])
    exact extract_low _ _

end Sys2Proof

namespace Sys2Proof.Machine

/-! ### Words that compute -/

/-- A WORD THAT READS OPERANDS AND WRITES D is done with D's effect once they are full. -/
theorem result_done {i : Instr} {c : Ctl} {d : Reg} {rs : Iss → List Read} {f : Iss → Nat → Word64} {s : State} {x : Iss}
    (hi : exec i s = waveWord c (.mk2 1 0) (fun x => x.reading (rs x) (.done (x.putAll (x.results d (f x))))) s)
    (hx : issuing s c (.mk2 1 0) = some x) (hf : x.Full (rs x)) : Done i x (x.into d (f x)) :=
  done_word (t' := (x.putAll (x.results d (f x))).t) hi hx (by rw [reading_ok hf]; rfl) (sameTrace_putAll x _)
    (takes_results (issued hx) d (f x))

/-- One operand. -/
theorem alu1_done {i : Instr} {c : Ctl} {d : Reg} {a : Opnd} {f : Bool → Word64 → Word64} {s : State} {x : Iss}
    (hi : exec i s = alu1 c d a f s) (hx : issuing s c (.mk2 1 0) = some x) (hf : x.Full (x.readOps (isScalar d) [a])) :
    Done i x (x.into d fun l => f (isScalar d) (x.val (isScalar d) a l)) :=
  result_done (f := fun x l => f (isScalar d) (x.val (isScalar d) a l)) hi hx hf

/-- Two operands. -/
theorem alu2_done {i : Instr} {c : Ctl} {d : Reg} {a b : Opnd} {f : Bool → Word64 → Word64 → Word64} {s : State} {x : Iss}
    (hi : exec i s = alu2 c d a b f s) (hx : issuing s c (.mk2 1 0) = some x)
    (hf : x.Full (x.readOps (isScalar d) [a, b])) :
    Done i x (x.into d fun l => f (isScalar d) (x.val (isScalar d) a l) (x.val (isScalar d) b l)) :=
  result_done (f := fun x l => f (isScalar d) (x.val (isScalar d) a l) (x.val (isScalar d) b l)) hi hx hf

/-- Three operands. -/
theorem alu3_done {i : Instr} {c : Ctl} {d : Reg} {a b e : Opnd} {f : Bool → Word64 → Word64 → Word64 → Word64} {s : State}
    {x : Iss} (hi : exec i s = alu3 c d a b e f s) (hx : issuing s c (.mk2 1 0) = some x)
    (hf : x.Full (x.readOps (isScalar d) [a, b, e])) :
    Done i x (x.into d fun l => f (isScalar d) (x.val (isScalar d) a l) (x.val (isScalar d) b l) (x.val (isScalar d) e l)) :=
  result_done (f := fun x l => f (isScalar d) (x.val (isScalar d) a l) (x.val (isScalar d) b l) (x.val (isScalar d) e l))
    hi hx hf

/-- A WORD THAT READS OPERANDS AND WRITES A PREDICATE. -/
theorem test_done {i : Instr} {c : Ctl} {q : BitVec 4} {rs : Iss → List Read} {v : Iss → Mask} {f : Nat → Bool} {s : State}
    {x : Iss} (hi : exec i s = waveWord c (.mk2 1 0) (fun x => x.reading (rs x) (.done (x.putPred q x.ex (v x)))) s)
    (hx : issuing s c (.mk2 1 0) = some x) (hf : x.Full (rs x)) (hv : ∀ l, x.ex.getLsbD l = true → (v x).getLsbD l = f l) :
    Done i x (x.intoPred q f) :=
  done_word (t' := (x.putPred q x.ex (v x)).t) hi hx
    (by
      rw [reading_ok hf]
      simp only [Iss.putPred]; split <;> rfl)
    (sameTrace_putPred x q x.ex (v x))
    (by
      have h := takes_putPred (issued hx) q f (v x) hv
      have e : x.putPred q x.ex (v x) = { x with t := (x.putPred q x.ex (v x)).t } := by
        simp only [Iss.putPred]; split <;> rfl
      rw [← e]; exact h)

/-! ### The canonical form -/

theorem canonical_reset : State.reset.Canonical := ⟨rfl, rfl, nofun, rfl⟩

/-- A state that differs from a canonical one in other fields only. -/
theorem State.Canonical.of_eq {s u : State} (h : s.Canonical) (h1 : u.dram = s.dram) (h2 : u.gran = s.gran)
    (h3 : u.blocks = s.blocks) (h4 : u.ctxs = s.ctxs) : u.Canonical := by
  unfold State.Canonical; rw [h1, h2, h3, h4]; exact h

/-- Blocks changed without their scratchpads. -/
theorem State.Canonical.modBlock {s : State} (h : s.Canonical) (k : Nat) (f : Block → Block)
    (hf : ∀ b, b.spad.wf = true → (f b).spad.wf = true) : (modBlock s k f).Canonical := by
  refine ⟨h.1, h.2.1, fun b hb => ?_, h.2.2.2⟩
  simp only [modBlock_blocks, List.mem_map] at hb
  obtain ⟨c, hc, rfl⟩ := hb
  split
  · exact hf c (h.2.2.1 c hc)
  · exact h.2.2.1 c hc

theorem State.Canonical.modWave {s : State} (h : s.Canonical) (k w : Nat) (f : Wave → Wave) : (modWave s k w f).Canonical :=
  h.modBlock k _ fun _ hb => hb

theorem State.Canonical.setBlock {s : State} (h : s.Canonical) {b : Block} (hb : b.spad.wf = true) :
    (setBlock s b).Canonical := by
  refine ⟨h.1, h.2.1, fun c hc => ?_, h.2.2.2⟩
  simp only [setBlock_blocks, List.mem_map] at hc
  obtain ⟨d, hd, rfl⟩ := hc
  split
  · exact hb
  · exact h.2.2.1 d hd

theorem State.Canonical.modCtx {s : State} (h : s.Canonical) (c : Nat) (f : Ctx → Ctx) : (modCtx s c f).Canonical := by
  refine ⟨h.1, h.2.1, h.2.2.1, ?_⟩
  simp only [modCtx_ctxs, fmod, fput]
  split
  · exact frising_fdel h.2.2.2 c
  · exact frising_fins h.2.2.2 (by nofun) _

/-- WHAT A CLAIM CAN CHANGE (R117): the granary's contents and whom its regions are claimed for. -/
theorem claimRegion_only (s : State) (die region o : Nat) :
    ∃ g t p u r, claimRegion s die region o = { s with gran := g, gtag := t, gpoison := p, gupsets := u, regions := r } ∧
      (s.gran.wf = true → g.wf = true) := by
  unfold claimRegion
  simp only
  split
  · exact ⟨_, _, _, _, _, rfl, id⟩
  · split
    · exact ⟨_, _, _, _, _, rfl, id⟩
    · exact ⟨_, _, _, _, _, rfl, fun h => Memory.wf_filter h _⟩

theorem claimEntries_only (s : State) (d : CtxDesc) (is : List Nat) :
    ∃ g t p u r, claimEntries s d is = { s with gran := g, gtag := t, gpoison := p, gupsets := u, regions := r } ∧
      (s.gran.wf = true → g.wf = true) := by
  unfold claimEntries
  induction is generalizing s with
  | nil => exact ⟨_, _, _, _, _, rfl, id⟩
  | cons i is ih =>
    rw [List.foldl_cons]
    dsimp only
    split
    · obtain ⟨_, _, _, _, _, e, h⟩ := claimRegion_only s (natOf (s.dram.readN (d.gmap + 4 * i) 4) / 128 % 4)
        (natOf (s.dram.readN (d.gmap + 4 * i) 4) % 128) d.owner
      rw [e]
      obtain ⟨_, _, _, _, _, e', h'⟩ := ih _
      exact ⟨_, _, _, _, _, e', fun w => h' (h w)⟩
    · exact ih s

theorem claimWritten_only (s : State) (pa n : Nat) :
    ∃ g t p u r, claimWritten s pa n = { s with gran := g, gtag := t, gpoison := p, gupsets := u, regions := r } ∧
      (s.gran.wf = true → g.wf = true) := by
  have go : ∀ (cs : FMap Ctx) (s : State), ∃ g t p u r, cs.foldl (fun s p => match p.2.desc with
      | some d => if pa < d.gmap + 2048 ∧ d.gmap < pa + n then
          claimEntries s d ((List.range 512).filter fun i => decide (pa < d.gmap + 4 * i + 4) && decide (d.gmap + 4 * i < pa + n))
        else s
      | none => s) s = { s with gran := g, gtag := t, gpoison := p, gupsets := u, regions := r } ∧
      (s.gran.wf = true → g.wf = true) := by
    intro cs
    induction cs with
    | nil => exact fun s => ⟨_, _, _, _, _, rfl, id⟩
    | cons c cs ih =>
      intro s
      rw [List.foldl_cons]
      split
      · split
        · rename_i d _ _
          obtain ⟨_, _, _, _, _, e, h⟩ := claimEntries_only s d
            ((List.range 512).filter fun i => decide (pa < d.gmap + 4 * i + 4) && decide (d.gmap + 4 * i < pa + n))
          rw [e]
          obtain ⟨_, _, _, _, _, e', h'⟩ := ih { s with gran := _, gtag := _, gpoison := _, gupsets := _, regions := _ }
          exact ⟨_, _, _, _, _, e', fun w => h' (h w)⟩
        · exact ih s
      · exact ih s
  exact go s.ctxs s

/-- Where no installed context's map lies, a write claims nothing. -/
theorem claimWritten_noMap {s : State} {pa n : Nat} (h : NoMap s pa n) : claimWritten s pa n = s := by
  have go : ∀ (cs : FMap Ctx) (u : State), (∀ c ∈ cs, ∀ d, c.2.desc = some d → pa + n ≤ d.gmap ∨ d.gmap + 2048 ≤ pa) →
      cs.foldl (fun s p => match p.2.desc with
        | some d => if pa < d.gmap + 2048 ∧ d.gmap < pa + n then
            claimEntries s d ((List.range 512).filter fun i => decide (pa < d.gmap + 4 * i + 4) && decide (d.gmap + 4 * i < pa + n))
          else s
        | none => s) u = u := by
    intro cs
    induction cs with
    | nil => exact fun _ _ => rfl
    | cons c cs ih =>
      intro u hc
      rw [List.foldl_cons]
      have hr := ih u fun c' hc' => hc c' (List.mem_cons_of_mem _ hc')
      split
      · rename_i d hd
        rw [if_neg (by have := hc c List.mem_cons_self d hd; omega)]
        exact hr
      · exact hr
  exact go s.ctxs s h

theorem State.Canonical.claimWritten {s : State} (h : s.Canonical) (pa n : Nat) : (claimWritten s pa n).Canonical := by
  obtain ⟨_, _, _, _, _, e, hg⟩ := claimWritten_only s pa n
  rw [e]
  exact ⟨h.1, hg h.2.1, h.2.2⟩

theorem State.Canonical.dropL1s {s : State} (h : s.Canonical) (die line : Nat) (keep : Option Nat) :
    (dropL1s s die line keep).Canonical := h.of_eq rfl rfl rfl rfl

theorem State.Canonical.bumpStamp {s : State} (h : s.Canonical) (line : Nat) : (bumpStamp s line).Canonical := by
  unfold Sys2Proof.Machine.bumpStamp
  cases ffind s.stamps line with
  | none => exact h
  | some e => simp only; split <;> exact h.of_eq rfl rfl rfl rfl

/-- A whole block's poison and upsets go. -/
theorem State.Canonical.cleaned {s : State} (h : s.Canonical) (blk : Nat) (t : FMap (BitVec 16)) :
    ({ s with dtag := t, dpoison := fdel s.dpoison blk, upsets := fdel s.upsets blk } : State).Canonical :=
  h.of_eq rfl rfl rfl rfl

/-- Bytes reaching their home. -/
theorem State.Canonical.homePut {s : State} (h : s.Canonical) (pa : Nat) (bs : List Byte) : (homePut s pa bs).Canonical := by
  have h1 : ({ s with dram := s.dram.writeN pa bs } : State).Canonical := ⟨Memory.wf_writeN h.1 pa bs, h.2⟩
  have h2 := ((h1.claimWritten pa bs.length).dropL1s (paDie pa) (pa / 64) none).bumpStamp (pa / 64)
  unfold Sys2Proof.Machine.homePut
  by_cases hl : bs.length = 64
  · rw [if_pos hl]
    by_cases hp : fget false (Sys2Proof.Machine.bumpStamp (Sys2Proof.Machine.dropL1s (Sys2Proof.Machine.claimWritten
        { s with dram := s.dram.writeN pa bs } pa bs.length) (paDie pa) (pa / 64) none) (pa / 64)).dpoison (pa / 64) = true
    · rw [if_pos hp]; exact h2.cleaned _ _
    · rw [if_neg hp]; exact h2.cleaned _ _
  · rw [if_neg hl]; exact h2

theorem State.Canonical.dropStackLine {s : State} (h : s.Canonical) (die line : Nat) : (dropStackLine s die line).Canonical :=
  State.Canonical.dropL1s (h.of_eq rfl rfl rfl rfl) die line none

/-- The copies that took a write which is not performed go; memory is as it was. -/
theorem State.Canonical.undoCopies {s : State} (h : s.Canonical) (f : Flight) : (undoCopies s f).Canonical := by
  have hd (line : Nat) (m : FMap StampEntry) : ({ Sys2Proof.Machine.dropStackLine s (dieOf f.core) line with stamps := m } : State).Canonical :=
    (h.dropStackLine (dieOf f.core) line).of_eq rfl rfl rfl rfl
  have hl (m : FMap LineCopy) : ({ s with l1 := m } : State).Canonical := h.of_eq rfl rfl rfl rfl
  unfold Sys2Proof.Machine.undoCopies
  split
  · split
    · exact hd _ _
    · exact hl _
  · exact h

/-! ### What the die links can change (R10, R460) -/

theorem pump_only (k : Nat) (ps : List Nat) : ∀ (s : State) (d : LinkDirSt), ∃ o, (pump s k d ps).1 = { s with outbox := o } := by
  induction ps with
  | nil => exact fun s _ => ⟨s.outbox, rfl⟩
  | cons p ps ih =>
    intro s d
    unfold pump
    split
    · exact (ih _ _).imp fun _ h => h
    · exact ⟨s.outbox, rfl⟩

theorem pumpDir_only (s : State) (k : Nat) : ∃ d o, pumpDir s k = { s with dirs := d, outbox := o } := by
  obtain ⟨o, h⟩ := pump_only k (getDir s k).waiting s (getDir s k)
  exact ⟨fput .init s.dirs k (pump s k (getDir s k) (getDir s k).waiting).2, o, by simp only [pumpDir, setDir, h]⟩

/-- A flit changes the replay buffers and what the module has sent, and nothing else. -/
theorem sendFlit_only (s : State) (a b p : Nat) : ∃ d o, sendFlit s a b p = { s with dirs := d, outbox := o } := by
  unfold sendFlit
  split
  · exact ⟨s.dirs, s.outbox, rfl⟩
  · rename_i k _
    obtain ⟨d, o, h⟩ := pumpDir_only (setDir s k { getDir s k with waiting := (getDir s k).waiting ++ [p] }) k
    exact ⟨d, o, h⟩

/-- Traffic takes an identity besides. -/
theorem sendTraffic_only (s : State) (a b : Nat) :
    ∃ i t d o, sendTraffic s a b = { s with nextId := i, traffic := t, dirs := d, outbox := o } := by
  unfold sendTraffic
  split
  · exact ⟨s.nextId, s.traffic, s.dirs, s.outbox, rfl⟩
  · obtain ⟨d, o, h⟩ := sendFlit_only { (fresh s).2 with traffic := fins s.traffic (fresh s).1 b } a b (fresh s).1
    exact ⟨_, _, d, o, h⟩

theorem roundTrip_only (s : State) (a b : Nat) :
    ∃ i t d o, roundTrip s a b = { s with nextId := i, traffic := t, dirs := d, outbox := o } := by
  obtain ⟨_, _, _, _, h⟩ := sendTraffic_only s a b
  unfold roundTrip
  rw [h]
  exact sendTraffic_only _ b a

/-- What the IOD's masters owe the links leaves, and nothing else changes. -/
theorem sendIod_only (s : State) :
    ∃ i t d o, sendIod s = { s with iodOut := [], nextId := i, traffic := t, dirs := d, outbox := o } := by
  have go (ps : List (Nat × Bool)) : ∀ u : State,
      ∃ i t d o, ps.foldl (fun s p => if p.2 then roundTrip s 4 p.1 else sendTraffic s 4 p.1) u =
        { u with nextId := i, traffic := t, dirs := d, outbox := o } := by
    induction ps with
    | nil => exact fun u => ⟨u.nextId, u.traffic, u.dirs, u.outbox, rfl⟩
    | cons p ps ih =>
      intro u
      rw [List.foldl_cons]
      split
      · obtain ⟨_, _, _, _, h⟩ := roundTrip_only u 4 p.1
        rw [h]; exact ih _
      · obtain ⟨_, _, _, _, h⟩ := sendTraffic_only u 4 p.1
        rw [h]; exact ih _
  exact go s.iodOut { s with iodOut := [] }

theorem State.Canonical.sendIod {s : State} (h : s.Canonical) : (sendIod s).Canonical := by
  obtain ⟨_, _, _, _, e⟩ := sendIod_only s
  rw [e]
  exact h.of_eq rfl rfl rfl rfl

theorem State.Canonical.roundTrip {s : State} (h : s.Canonical) (a b : Nat) : (roundTrip s a b).Canonical := by
  obtain ⟨_, _, _, _, e⟩ := roundTrip_only s a b
  rw [e]
  exact h.of_eq rfl rfl rfl rfl

/-! ### Barriers (R282) -/

theorem State.Canonical.acquireDrops {s : State} (h : s.Canonical) (core : Nat) (sc : Scope) :
    (acquireDrops s core sc).Canonical := by
  cases sc <;> exact h.of_eq rfl rfl rfl rfl

theorem State.Canonical.barSettle {s : State} (h : s.Canonical) (bid : Nat) (n : BitVec 4) : (barSettle s bid n).Canonical := by
  unfold Sys2Proof.Machine.barSettle
  split
  · exact h
  · rename_i b hb
    simp only
    split
    · exact h
    · refine State.Canonical.acquireDrops (State.Canonical.setBlock h ?_) _ _
      exact h.2.2.1 b (List.mem_of_find?_eq_some hb)

/-- The phases of a clock keep the canonical form. -/
theorem State.Canonical.duePhases {s : State} (h : s.Canonical) : (duePhases s).Canonical := by
  unfold Sys2Proof.Machine.duePhases
  generalize (s.blocks.flatMap fun b => b.bars.map fun p => (b.id, BitVec.ofNat 4 p.1)) = ps
  induction ps generalizing s with
  | nil => exact h
  | cons p ps ih => exact ih (h.barSettle p.1 p.2)

/-! ### Trap records -/

/-- A record is held with its context's next SEQ; every other context is as it was. -/
theorem getCtx_holdTrap (s : State) (r : TrapRec) (c : Nat) :
    getCtx (holdTrap s r).2 c = if r.ctx = c then
      { getCtx s c with xseq := (getCtx s r.ctx).xseq + 1
                        held := (getCtx s c).held ++ [{ r with seq := (getCtx s r.ctx).xseq }] }
      else getCtx s c := by
  simp only [holdTrap, getCtx, modCtx_ctxs, fget_fmod]

end Sys2Proof.Machine
end

