-- ==== Sys2Proof/Tests/Slice0.lean ====
section
/-! SUPPORT. Tests: words written out from the encoding tables, ill-formed terms, single steps on a small state, and a
witness for the hypotheses of each statement. Expected values come from the rules and the worked examples of spec/. -/

namespace Sys2Proof.Tests

open Sys2Proof Sys2Proof.Machine

set_option Elab.async false

/-! ### Words by R189, R194 and R195 -/

/-- OP [8:0], MOD [20:9], D [55:38], A [73:56], B [91:74], C [109:92], E [127:110]; guards, HINT and SCH zero. -/
def word (op m d a b c e : Nat) : Word128 :=
  BitVec.ofNat 128 (op + m * 2 ^ 9 + d * 2 ^ 38 + a * 2 ^ 56 + b * 2 ^ 74 + c * 2 ^ 92 + e * 2 ^ 110)

/-- The register form: N in [16:9]. -/
def fV (n : Nat) : Nat := n * 2 ^ 9
def fS (n : Nat) : Nat := (192 + n) * 2 ^ 9
def fG (n : Nat) : Nat := (248 + n) * 2 ^ 9
/-- The immediate form: bit 17. -/
def fI (x : Nat) : Nat := 2 ^ 17 + x

/-- The terms. -/
def rV (n : Nat) : RegOp := ⟨.v n, .none, false⟩
def rS (n : Nat) : RegOp := ⟨.s n, .none, false⟩
def rG (n : Nat) : RegOp := ⟨.g n, .none, false⟩
def rZ (n : Nat) : RegOp := ⟨.z n, .none, false⟩
def oV (n : Nat) : Src := .reg (rV n)
def oS (n : Nat) : Src := .reg (rS n)
def oZ (n : Nat) : Src := .reg (rZ n)
def c0 : Ctl := Ctl.plain

/-- The word decodes to the instruction, in a trace with WS 16. -/
abbrev Reads (w : Word128) (i : Instr) : Prop := decode (.trace 16) w = .ok i
/-- The same in the sequencer stream. -/
abbrev Streams (w : Word128) (i : Instr) : Prop := decode .stream w = .ok i

/-- R286, R65, R292, R301, R302: trace control and system words. -/
theorem test_decode_control :
    Reads (word 0x000 0 (fI 6) (fI 4) (fI 1) (fI 8) 0) (.traceAdmission 6 4 1 8) ∧
    Reads (word 0x001 0x13 0 0 (fI 0x1FFF9) (fI 1) 0) (.tend c0 ⟨true, 3⟩ (-7) 1) ∧
    Reads (word 0x002 0 0 0 0 0 0) (.texit c0) ∧
    Reads (word 0x003 0x05 0 0 (fI 9) 0 0) (.grd c0 ⟨false, 5⟩ 9) ∧
    Reads (word 0x004 0 0 (fI 0x8001) (fI 7) 0 0) (.chkw c0 0x8001 7) ∧
    Reads (word 0x005 0 0 0 0 0 (fI 2)) (.tbar c0 2) ∧ Reads (word 0x006 0 0 0 0 0 (fI 3)) (.tgbar c0 3) ∧
    Reads (word 0x007 0 0 (fI 4) (fI 5) (fI 192) (fI 6)) (.tcall c0 (.off 4) 5 192 6) ∧
    Reads (word 0x007 0 0 (fS 9) (fI 5) (fI 12) (fI 6)) (.tcall c0 (.reg (rS 9)) 5 12 6) ∧
    Reads (word 0x008 0 0 0 0 0 0) (.tret c0) ∧ Reads (word 0x009 0 0 0 0 0 (fI 1)) (.tyield c0 1) ∧
    Reads (word 0x00A 0 0 (fI 0x1E) 0 0 (fI 1)) (.twait c0 14 true 1) ∧
    Reads (word 0x00B 0 0 (fI 0x0D) 0 0 (fI 1)) (.tsqw c0 13 false 1) ∧
    Reads (word 0x00C 0 0 0 0 0 (fI 1)) (.tordw c0 1) ∧ Reads (word 0x00D 0 0 0 0 0 (fI 1)) (.tordr c0 1) ∧
    Reads (word 0x00E 0 0 0 0 0 0) (.nop c0) ∧ Reads (word 0x00F 63 1 15 2 14 3) (.rep 63 1 15 2 14 3) ∧
    Reads (word 0x010 0 0 (fI 0xBEEF) 0 0 (fI 1)) (.trap c0 0xBEEF (some 1)) ∧
    Reads (word 0x011 0 0 (fI 0xFFFF) 0 0 0) (.brk c0 0xFFFF) ∧
    Reads (word 0x012 1 (fV 3) (fI 4) 0 0 0) (.srd c0 true (.v 3) 4) ∧
    Reads (word 0x013 1 0 (fI 9) (fV 2) 0 0) (.swr c0 true 9 (oV 2)) ∧
    Reads (word 0x014 0 0 (fV 1) (fV 4) (fI 7) 0) (.qpost c0 (oV 1) (rV 4) 7) := by decide +kernel

/-- R213 to R217, R247 to R253. -/
theorem test_decode_cross :
    Reads (word 0x020 (3 * 256 + 1 * 64 + 2 * 8 + 1) (fI 1) (fV 2) (fI 100) 0 0)
      (.pset c0 .lt false true .and 3 1 (oV 2) (.imm 100)) ∧
    Reads (word 0x021 (7 * 256 + 3 * 64 + 6 * 8) (fI 15) (fV 2) (fV 3) 0 0) (.fpset c0 .un .andn 7 15 (oV 2) (oV 3)) ∧
    Reads (word 0x022 0xD8 (fI 1) (fI 0x12) (fI 3) (fI 4) 0) (.plog c0 0xD8 1 ⟨true, 2⟩ ⟨false, 3⟩ ⟨false, 4⟩) ∧
    Reads (word 0x023 0 (fI 1) (fI 0x12) 0 0 0) (.pmov c0 1 ⟨true, 2⟩) ∧
    Reads (word 0x024 0 (fV 1) (fI 0xFFFF) 0 0 0) (.pbitsGet c0 (.v 1) 0xFFFF) ∧
    Reads (word 0x024 1 (fI 6) (fV 2) 0 0 0) (.pbitsPut c0 6 (oV 2)) ∧
    Reads (word 0x025 2 (fI 1) (fI 2) 0 0 0) (.vote c0 .eq 1 ⟨false, 2⟩) ∧
    Reads (word 0x026 0 (fS 1) (fI 2) 0 0 0) (.ballot c0 (.s 1) ⟨false, 2⟩) ∧
    Reads (word 0x027 0 (fV 1) (fV 2) 0 0 0) (.matchLanes c0 (.v 1) (oV 2)) ∧
    Reads (word 0x028 0 (fI 9) 0 0 0 0) (.elect c0 9) ∧
    Reads (word 0x029 (2 * 4 + 3) (fV 3) (fV 1) (fV 2) (fV 9) 0) (.lget c0 .shift 2 (.v 3) (oV 1) (oV 2) (some (oV 9))) ∧
    Reads (word 0x029 (2 * 4 + 1) (fV 3) (fV 1) (fV 2) 0 0) (.lget c0 .rot 2 (.v 3) (oV 1) (oV 2) none) ∧
    Reads (word 0x02A 3 (fV 2) (fV 1 + 3 * 64 + 3 * 2) (fV 1) 0 0)
      (.xchg c0 3 (.v 2) (.reg ⟨.v 1, .bf 3, false⟩) (oV 1)) ∧
    Reads (word 0x02B 10 (fS 2) (fV 1) 0 0 0) (.reduce c0 .fmax (.s 2) (oV 1)) ∧
    Reads (word 0x02C 4 (fV 2) (fV 1) 0 0 0) (.scan c0 .umax false (.v 2) (oV 1)) ∧
    Reads (word 0x02D 0 (fS 2) (fV 1) (fI 31) 0 0) (.rdlane c0 (.s 2) (oV 1) (.imm 31)) ∧
    Reads (word 0x02E 0 (fV 2) (fV 1) (fI 31) 0 0) (.wrlane c0 (.v 2) (oV 1) (.imm 31)) := by decide +kernel

/-- R218 to R222. -/
theorem test_decode_integer :
    Reads (word 0x040 (5 * 256 + 3 * 64 + 8) (fV 3) (fV 1) (fI 0x1FFFF) 0 0)
      (.iadd c0 true false .cio 5 (.v 3) (oV 1) (.imm (-1))) ∧
    Reads (word 0x041 (16 + 8) (fV 3) (fV 1) (fV 2) 0 0) (.isub c0 true true .none 0 (.v 3) (oV 1) (oV 2)) ∧
    Reads (word 0x042 0 (fS 3) (fS 1) (fS 2) 0 0) (.imul c0 false false (.s 3) (oS 1) (oS 2)) ∧
    Reads (word 0x043 8 (fV 3) (fV 1) (fV 2) 0 0) (.imulh c0 true (.v 3) (oV 1) (oV 2)) ∧
    Reads (word 0x044 16 (fV 3) (fV 1) (fV 2) (fV 4) 0) (.imad c0 false true (.v 3) (oV 1) (oV 2) (oV 4)) ∧
    Reads (word 0x045 8 (fV 6) (fV 1) (fV 2) (fV 4) 0) (.imadw c0 true (.v 6) (oV 1) (oV 2) (oV 4)) ∧
    Reads (word 0x046 16 (fV 3) (fV 1) 0 0 0) (.ineg c0 true (.v 3) (oV 1)) ∧
    Reads (word 0x047 0 (fV 3) (fV 1) 0 0 0) (.iabs c0 false (.v 3) (oV 1)) ∧
    Reads (word 0x048 8 (fV 3) (fV 1) (fV 2) 0 0) (.imin c0 true (.v 3) (oV 1) (oV 2)) ∧
    Reads (word 0x049 0 (fV 3) (fV 1) (fV 2) 0 0) (.imax c0 false (.v 3) (oV 1) (oV 2)) ∧
    Reads (word 0x04A (8 + 2) (fV 3) (fV 1) (fV 2) 0 0) (.idiv c0 true .rz (.v 3) (oV 1) (oV 2)) ∧
    Reads (word 0x04B 4 (fV 3) (fV 1) (fV 2) 0 0) (.irem c0 false .rm (.v 3) (oV 1) (oV 2)) ∧
    Reads (word 0x04C (16 + 8) (fV 3) (fV 1) (fV 2) (fV 4) 0) (.isad c0 true true (.v 3) (oV 1) (oV 2) (oV 4)) ∧
    Reads (word 0x04D 0 (fV 3) (fV 1) (fV 2) (fV 4) 0) (.iclamp c0 false (.v 3) (oV 1) (oV 2) (oV 4)) := by decide +kernel

/-- R223 to R230. -/
theorem test_decode_logic :
    Reads (word 0x04E 0 (fV 3) (fV 1) (fV 2) 0 0) (.andw c0 (.v 3) (oV 1) (oV 2)) ∧
    Reads (word 0x04F 0 (fV 3) (fV 1) (fV 2) 0 0) (.orw c0 (.v 3) (oV 1) (oV 2)) ∧
    Reads (word 0x050 0 (fV 3) (fV 1) (fV 2) 0 0) (.xorw c0 (.v 3) (oV 1) (oV 2)) ∧
    Reads (word 0x051 0 (fV 3) (fV 1) 0 0 0) (.notw c0 (.v 3) (oV 1)) ∧
    Reads (word 0x052 0 (fV 3) (fV 1) (fV 2) 0 0) (.andn c0 (.v 3) (oV 1) (oV 2)) ∧
    Reads (word 0x053 0xCA (fV 3) (fV 1) (fV 2) (fV 4) 0) (.blut c0 0xCA (.v 3) (oV 1) (oV 2) (oV 4)) ∧
    Reads (word 0x054 0 (fV 3) (fV 1) (fI 31) 0 0) (.shl c0 (.v 3) (oV 1) (.imm 31)) ∧
    Reads (word 0x055 0 (fV 3) (fV 1) (fV 2) 0 0) (.shr c0 (.v 3) (oV 1) (oV 2)) ∧
    Reads (word 0x056 0 (fV 3) (fV 1) (fV 2) 0 0) (.sar c0 (.v 3) (oV 1) (oV 2)) ∧
    Reads (word 0x057 0 (fV 3) (fV 1) (fV 2) 0 0) (.rotl c0 (.v 3) (oV 1) (oV 2)) ∧
    Reads (word 0x058 1 (fV 3) (fV 1) (fV 2) (fV 4) 0) (.shf c0 true (.v 3) (oV 1) (oV 2) (oV 4)) ∧
    Reads (word 0x059 8 (fV 3) (fV 1) (fI 0x0804) 0 0) (.bfe c0 true (.v 3) (oV 1) (.imm 0x0804)) ∧
    Reads (word 0x05A 0 (fV 3) (fV 1) (fV 2) (fI 0x0804) 0) (.bfi c0 (.v 3) (oV 1) (oV 2) (.imm 0x0804)) ∧
    Reads (word 0x05B 0 (fV 3) (fV 1) 0 0 0) (.popc c0 (.v 3) (oV 1)) ∧
    Reads (word 0x05C 0 (fV 3) (fV 1) 0 0 0) (.clz c0 (.v 3) (oV 1)) ∧
    Reads (word 0x05D 0 (fV 3) (fV 1) 0 0 0) (.brev c0 (.v 3) (oV 1)) ∧
    Reads (word 0x05E 0 (fV 3) (fV 1) 0 0 0) (.ffs c0 (.v 3) (oV 1)) ∧
    Reads (word 0x05F 0 (fV 3) (fV 1) (fV 2) (fV 4) 0) (.bswz c0 (.v 3) (oV 1) (oV 2) (oV 4)) ∧
    Reads (word 0x060 0 (fV 3) (fV 1) (fV 2) (fI 0x11) 0) (.sel c0 (.v 3) (oV 1) (oV 2) ⟨true, 1⟩) ∧
    Reads (word 0x061 0 (fV 3) (241 * 512 + 4 * 64) 0 0 0) (.mov c0 (.v 3) (.reg ⟨.laneIx, .mir, false⟩)) ∧
    Reads (BitVec.ofNat 128 (0x062 + fS 5 * 2 ^ 38 + 0x123456789ABCDEF0 * 2 ^ 56)) (.movi c0 (.s 5) 0x123456789ABCDEF0) := by
  decide +kernel

/-- R234 to R241. -/
theorem test_decode_float :
    Reads (word 0x080 1 (fV 3) (fV 1) (fV 2) 0 0) (.fadd c0 .rn (.v 3) (oV 1) (oV 2)) ∧
    Reads (word 0x081 2 (fV 3) (fV 1) (fV 2) 0 0) (.fsub c0 .rz (.v 3) (oV 1) (oV 2)) ∧
    Reads (word 0x082 0 (fV 3) (fV 1) (fV 2) 0 0) (.fmul c0 .dyn (.v 3) (oV 1) (oV 2)) ∧
    Reads (word 0x083 3 (fV 3) (fV 1) (fV 2) (fV 4) 0) (.ffma c0 .rp (.v 3) (oV 1) (oV 2) (oV 4)) ∧
    Reads (word 0x084 0 (fV 3) (fV 1) (fV 2) 0 0) (.fmin c0 (.v 3) (oV 1) (oV 2)) ∧
    Reads (word 0x085 0 (fV 3) (fV 1) (fV 2) 0 0) (.fmax c0 (.v 3) (oV 1) (oV 2)) ∧
    Reads (word 0x086 0 (fV 3) (fV 1) 0 0 0) (.fabs c0 (.v 3) (oV 1)) ∧
    Reads (word 0x087 0 (fV 3) (fV 1) 0 0 0) (.fneg c0 (.v 3) (oV 1)) ∧
    Reads (word 0x088 4 (fV 3) (fV 1) 0 0 0) (.frcp c0 .rm (.v 3) (oV 1)) ∧
    Reads (word 0x089 0 (fV 3) (fV 1) 0 0 0) (.frsq c0 .dyn (.v 3) (oV 1)) ∧
    Reads (word 0x08A 0 (fV 3) (fV 1) 0 0 0) (.fsqrt c0 .dyn (.v 3) (oV 1)) ∧
    Reads (word 0x08B 1 (fV 3) (fV 1) (fV 2) 0 0) (.fdiv c0 .rn (.v 3) (oV 1) (oV 2)) ∧
    Reads (word 0x08C 0 (fV 3) (fV 1) 0 0 0) (.fexp2 c0 (.v 3) (oV 1)) ∧
    Reads (word 0x08D 0 (fV 3) (fV 1) 0 0 0) (.flog2 c0 (.v 3) (oV 1)) ∧
    Reads (word 0x08E 0 (fV 3) (fV 1) 0 0 0) (.fsin c0 (.v 3) (oV 1)) ∧
    Reads (word 0x08F 0 (fV 3) (fV 1) 0 0 0) (.fcos c0 (.v 3) (oV 1)) ∧
    Reads (word 0x090 0 (fV 3) (fV 1) 0 0 0) (.ftanh c0 (.v 3) (oV 1)) ∧
    Reads (word 0x091 0 (fV 3) (fV 1) 0 0 0) (.fsigm c0 (.v 3) (oV 1)) ∧
    Reads (word 0x092 2 (fV 3) (fV 1) 0 0 0) (.frnd c0 .rz (.v 3) (oV 1)) ∧
    Reads (word 0x093 0 (fV 3) (fV 1) 0 0 0) (.ffrac c0 .dyn (.v 3) (oV 1)) ∧
    Reads (word 0x094 0 (fV 3) (fV 1) (fI 0x1FFFF) 0 0) (.fscale c0 .dyn (.v 3) (oV 1) (.imm (-1))) ∧
    Reads (word 0x095 0 (fV 3) (fV 1) 0 0 0) (.fgexp c0 (.v 3) (oV 1)) ∧
    Reads (word 0x096 0 (fV 3) (fV 1) 0 0 0) (.fclass c0 (.v 3) (oV 1)) ∧
    Reads (word 0x097 8 (fV 3) (fV 1) (fV 2) 0 0) (.hadd2 c0 true .dyn (.v 3) (oV 1) (oV 2)) ∧
    Reads (word 0x098 1 (fV 3) (fV 1) (fV 2) 0 0) (.hmul2 c0 false .rn (.v 3) (oV 1) (oV 2)) ∧
    Reads (word 0x099 0 (fV 3) (fV 1) (fV 2) (fI 0x3C00) 0) (.hfma2 c0 false .dyn (.v 3) (oV 1) (oV 2) (.imm 0x3C00)) ∧
    Reads (word 0x09A 8 (fV 3) (fV 1) (fV 2) 0 0) (.hmin2 c0 true (.v 3) (oV 1) (oV 2)) ∧
    Reads (word 0x09B 0 (fV 3) (fV 1) (fV 2) 0 0) (.hmax2 c0 false (.v 3) (oV 1) (oV 2)) := by decide +kernel

/-- R242 to R246, R254 to R259. -/
theorem test_decode_convert :
    Reads (word 0x0C0 0x208 (fV 2) (fV 1) 0 0 0) (.cvt c0 .f8a .fp32 .dyn (.v 2) (oV 1)) ∧
    Reads (word 0x0C1 (3 * 128 + 6 * 8 + 1) (fV 3) (fV 1) (fV 2) 0 0) (.pack c0 3 .sm8 .rn (.v 3) (oV 1) (oV 2)) ∧
    Reads (word 0x0C2 (7 * 128 + 7 * 8) (fV 3) (fV 1) 0 0 0) (.unpk c0 7 .sm4 (.v 3) (oV 1)) ∧
    Reads (word 0x0C3 (1 * 128 + 1) (fV 4) (fV 1) (fV 9) 0 0) (.qenc c0 1 true (.v 4) (oV 1) (oV 9)) ∧
    Reads (word 0x0C4 (1 * 128) (fV 5) (fV 4) (fV 9) 0 0) (.qdec c0 1 (.v 5) (oV 4) (oV 9)) ∧
    Reads (word 0x0C5 2 (fV 3) 0 0 0 0) (.rand c0 .gauss (.v 3)) ∧ Reads (word 0x0C6 0 0 (fS 4) 0 0 0) (.rkey c0 (oS 4)) ∧
    Reads (word 0x0C7 0 (fV 3) (fV 1) (fV 2) 0 0) (.hmix c0 (.v 3) (oV 1) (oV 2)) ∧
    Reads (word 0x0C8 (4 + 1) 0 (fV 7) 0 0 0) (.csacc c0 false true 1 (oV 7)) ∧
    Reads (word 0x0C9 1 0 0 0 0 0) (.cschk c0 1) ∧ Streams (word 0x0C9 (16 + 2) 0 0 0 0 0) (.cschkZ 2) := by decide +kernel

/-- R202, R203, R263 to R283; the LDD and ATOMR words are the spec's own. -/
theorem test_decode_memory :
    Reads (word 0x0E0 (3 * 1024 + 2 * 16) (fV 7) (fV 2) 0 (fI 2) (fI 64)) (.ld c0 2 false (.v 7) ⟨rV 2, .postMod 2 64⟩) ∧
    Reads (word 0x0E1 (1 * 1024 + 3 * 128 + 1 * 16) (fI 0x1FFFF) (fS 2) (fV 3) 0 0) (.st c0 1 (.imm (-1)) ⟨rS 2, .idx 3 (oV 3)⟩) ∧
    decode (.trace 16) (0x8004000000000188#64 ++ 0x00030000000022E2#64) =
      .ok (.ldd c0 1 .fp32 (.v 6) ⟨rS 4, .off 16⟩) ∧
    Reads (word 0x0E3 (2 * 1024 + 2 * 16 + 3) (fV 6) (fS 4) 0 0 (fI 8)) (.std c0 2 .bf16 (oV 6) ⟨rS 4, .post 8⟩) ∧
    Reads (word 0x0E4 0 (fV 6) (fS 4) 0 0 (fI 0)) (.tagld c0 (.v 6) ⟨rS 4, .off 0⟩) ∧
    Reads (word 0x0E5 0 (fV 6) (fS 4) 0 0 (fI 0)) (.tagst c0 (oV 6) ⟨rS 4, .off 0⟩) ∧
    Reads (word 0x0E6 (1 * 16 + 1) (fV 6) (fV 3) 0 0 (fI 2)) (.ldg c0 1 true false (.v 6) (oV 3) (.off 2)) ∧
    Reads (word 0x0E7 1 0 (fS 4) 0 0 (fI 64)) (.pref c0 true ⟨rS 4, .off 64⟩) ∧
    Reads (word 0x0E8 (2 * 16 + 3) (fV 6) (fS 4) 0 0 (fI 0)) (.ldwt c0 2 3 (.v 6) ⟨rS 4, .off 0⟩) ∧
    Reads (word 0x0E9 (3 * 1024 + 2 * 256 + 7 * 16 + 1) 0 (fS 4) (fS 6) 0 (fI 8)) (.atom c0 .system .rel .xor true (rS 4) (oS 6) 8) ∧
    decode (.trace 16) (0x8000400008000404#64 ++ 0x00028000001200EA#64) =
      .ok (.atomr c0 .device .acq .add false (.v 5) (rV 2) (.imm 1) 1) ∧
    Reads (word 0x0EB (1 * 1024 + 3 * 256) (fV 5) (fV 2) (fV 6) (fV 7) (fI 1)) (.cas c0 .die .ar false (.v 5) (rV 2) (oV 6) (oV 7) 1) ∧
    Reads (word 0x0EC 1 (fV 4) (fV 2) (fV 6) 0 (fI 1)) (.exch c0 .block .rlx true (.v 4) (rV 2) (oV 6) 1) ∧
    Reads (word 0x0ED (2 * 1024 + 8 + 1) (fV 4) (fV 2) 0 0 (fI 1)) (.lda c0 .device true 1 (.v 4) (rV 2) 1) ∧
    Reads (word 0x0EE (2 * 1024 + 3) (fV 4) (fV 2) 0 0 (fI 1)) (.stl c0 .device 3 (oV 4) (rV 2) 1) ∧
    Reads (word 0x0EF (3 * 1024 + 3 * 256) 0 0 0 0 (fI 1)) (.fence c0 .system .ar 1) ∧
    Reads (word 0x0F0 0 0 (fV 3) 0 0 (fI 1)) (.acqr c0 (oV 3) 1) ∧
    Reads (word 0x0F1 0 (fS 2) (fS 4) (fS 6) (fI (2 * 16 + 5)) 0) (.cpy c0 .device 5 (rS 2) (rS 4) (oS 6)) ∧
    Reads (word 0x0F2 0 (fS 2) (fS 4) (fS 44) (fI (1 * 16 + 15)) 0) (.cpyt c0 .die 15 (rS 2) (rS 4) (rS 44)) ∧
    Reads (word 0x0F3 0 (fS 2) (fS 4) (fV 6) (fI (12 * 64 + 3 * 16 + 1)) 0) (.cpyg c0 12 .system 1 (rS 2) (oS 4) (oV 6)) ∧
    Reads (word 0x0F4 0 0 (fI (2 * 16 + 3)) (fI 7) 0 0) (.binit c0 3 .device (.imm 7)) ∧
    Reads (word 0x0F5 0 0 (fI 3) (fS 7) 0 0) (.bexp c0 3 (oS 7)) ∧ Reads (word 0x0F6 0 0 (fI 3) (fI 1) 0 0) (.barv c0 3 (.imm 1)) ∧
    Reads (word 0x0F7 0 (fI 2) (fI 0x13) 0 0 0) (.btest c0 2 3 true) := by decide +kernel

/-- R309 to R332; the SQWAIT and MXM words are the spec's own. -/
theorem test_decode_sequencer :
    Reads (word 0x110 0 0 (fI 9) 0 0 0) (.sqarr c0 9) ∧
    Streams (0x0000000000000200#64 ++ 0x8000000000000130#64) (.sqwait 0 8) ∧ Streams (word 0x131 0 0 (fI 7) 0 0 0) (.sqsig 7) ∧
    Streams (word 0x132 0 (fV 3) 0 0 0 (fI 0x1FFFE)) (.sqloop (.z 3) (-2)) ∧
    Streams (word 0x133 0 0 0 0 0 (fI 5)) (.sqjmp 5) ∧ Streams (word 0x134 0 0 0 0 0 0) .sqend ∧
    Streams (0x0000000007C00000#64 ++ 0x00808F000002CD35#64)
      (.mxm ⟨false, false, true, .sm8, .sm8⟩ ⟨0, 7, 1, 2⟩ (rV 0) (rG 0) none) ∧
    Streams (word 0x136 (1 * 512 + 5 * 16 + 4) (fI (2 * 256 + 3)) (fG 1) (fV 8) (fV 4) (fV 64))
      (.mxms ⟨false, true, false, .f8b, .f8a⟩ ⟨3, 0, 0, 2⟩ (rG 1) (rV 8) (some (rZ 4)) (some (rV 64))) ∧
    Streams (word 0x137 0 (fI 2) (fI 0x1FFC0) 0 0 0) (.mxz 2 (.imm (-64))) ∧
    Streams (word 0x138 (1 * 8 + 2) (fI (7 * 4 + 1)) (fI 32) (fV 5) (fV 100) 0)
      (.mxrd (.conv .fp32) .rz 1 7 (.imm 32) (oZ 5) (rV 100)) ∧
    Streams (word 0x139 0 (fI (32 + 3 * 4 + 1)) (fI 0) (fI 64) (fV 0) 0) (.mxwr .raw true 1 3 (.imm 0) (.imm 64) (rV 0)) ∧
    Streams (word 0x13A 0 (fI 3) (fI 9) 0 0 0) (.mxswp 3 (.imm 9)) ∧
    Streams (word 0x13B 0 (fV 7) (fI 2) 0 0 0) (.mxst (.z 7) 2) ∧ Streams (word 0x13C 0 (fV 6) (fI 2) 0 0 0) (.mxcs (.z 6) 2) ∧
    Reads (word 0x111 (1 * 512 + 6 * 32 + 1 * 8 + 2) (fG 3) (fV 1) (fI 5) (fI 64) 0)
      (.gcfg c0 1 6 1 2 3 (oV 1) (.imm 5) (.imm 64)) ∧
    Reads (word 0x112 0 (fG 3) (fS 1) 0 0 0) (.gkey c0 3 (oS 1)) ∧
    Reads (word 0x113 3 (fV 5) (fG 0) (241 * 512) (fI 3) 0) (.geval c0 true true (.v 5) 0 (.reg ⟨.laneIx, .none, false⟩) (.imm 3)) ∧
    Reads (word 0x114 (1 * 128 + 6 * 8) (fV 10) (fV 9) 0 0 0) (.bmap c0 1 .sm8 (.v 10) (oV 9)) ∧
    Reads (word 0x115 (3 * 128 + 8 * 8) (fV 10) (fV 9) (fV 1) 0 0) (.cmpr c0 3 .q16 (.v 10) (oV 9) (oV 1)) := by decide +kernel

/-- R189: the guards, HINT and SCH: G1 [25:21], G2 [30:26], HINT [33:31], SCH [37:34]. -/
theorem test_decode_guards :
    decode (.trace 16) (word 0x0E0 0x020 (fV 7) (fS 2) 0 0 (fI 0) ||| (0x13#128 <<< 21) ||| (0x02#128 <<< 26) ||| (5#128 <<< 31) |||
      (3#128 <<< 34)) = .ok (.ld ⟨⟨true, 3⟩, ⟨false, 2⟩, 5, true, true⟩ 2 false (.v 7) ⟨rS 2, .off 0⟩) := by decide +kernel

/-- R206, R195, R196: what is refused, with its code. -/
theorem test_decode_refused :
    decode (.trace 16) (word 0x015 0 0 0 0 0 0) = .error .illop ∧ decode (.trace 16) (word 0x130 0 0 (fI 0) 0 0 0) = .error .illop ∧
    decode .stream (word 0x042 0 (fV 0) (fV 1) (fV 2) 0 0) = .error .seqerr ∧
    decode (.trace 16) (word 0x040 32 (fV 0) (fV 1) (fV 2) 0 0) = .error (.badfld 1) ∧
    decode (.trace 16) (word 0x040 0 (fV 16) (fV 1) (fV 2) 0 0) = .error (.badfld 6) ∧
    decode (.trace 16) (word 0x040 0 (fV 0) (fV 1 + 7 * 64) (fV 2) 0 0) = .error (.badfld 7) ∧
    decode (.trace 16) (word 0x040 0 (fV 0) (fV 1) (244 * 512) 0 0) = .error (.badfld 8) ∧
    decode (.trace 16) (word 0x040 0 (fV 0) (fV 1) (fV 2) (fI 0) 0) = .error (.badfld 9) ∧
    decode (.trace 16) (word 0x040 0 (fV 0) (fV 1) (fV 2) 0 1) = .error (.badfld 10) ∧
    decode (.trace 16) (word 0x040 0 (fV 0) (fV 1) (fV 2) 0 0 ||| (1#128 <<< 31)) = .error (.badfld 4) ∧
    decode (.trace 16) (word 0x040 0 (fV 0) (fV 1) (fV 2) 0 0 ||| (8#128 <<< 34)) = .error (.badfld 5) := by decide +kernel

/-! ### Ill-formed terms: one for each check, refused -/

/-- Refused in a trace with WS 16. -/
abbrev Ill (i : Instr) : Prop := wfWord (.trace 16) i = false
/-- Refused in the stream. -/
abbrev IllSeq (i : Instr) : Prop := wfWord .stream i = false

def gd : Ctl := { c0 with g1 := ⟨false, 1⟩ }
def hint (n : BitVec 3) : Ctl := { c0 with hint := n }
def pr (p : Perm) : Src := .reg ⟨.v 1, p, false⟩
def fe (r : Reg) : RegOp := ⟨r, .none, true⟩
def wr (b : RegOp) : Addr := ⟨b, .post 4⟩

/-- R30, R195 to R198: registers, permutations, immediates under H. -/
theorem test_ill_operands :
    Ill (.notw c0 (.v 16) (oV 1)) ∧ Ill (.notw c0 (.v 1) (oV 16)) ∧ Ill (.notw c0 (.s 48) (oV 1)) ∧ Ill (.notw c0 (.g 1) (oV 1)) ∧
    Ill (.notw c0 (.z 1) (oV 1)) ∧ Ill (.notw c0 (.v 1) (.reg (rG 1))) ∧ Ill (.notw c0 (.v 1) (pr (.bf 5))) ∧
    Ill (.notw c0 (.v 1) (pr (.rot8 8))) ∧ Ill (.notw c0 (.v 1) (pr (.bc8 8))) ∧
    Ill (.notw c0 (.v 1) (.reg ⟨.s 1, .mir, false⟩)) ∧ Ill (.hadd2 c0 false .dyn (.v 1) (.imm 0x10000) (oV 1)) ∧
    Ill (.hfma2 c0 true .rz (.v 1) (oV 1) (oV 1) (.imm 0x1FFFF)) := by decide +kernel

/-- R191, R192, R286: guards and HINT. -/
theorem test_ill_control :
    Ill (.tend gd ⟨false, 0⟩ 1 2) ∧ Ill (.texit gd) ∧ Ill (.tbar gd 1) ∧ Ill (.tgbar gd 1) ∧ Ill (.tret gd) ∧ Ill (.tsqw gd 1 true 1) ∧
    Ill (.tordw gd 1) ∧ Ill (.tordr gd 1) ∧ Ill (.tyield (hint 1) 1) ∧ Ill (.grd (hint 1) ⟨false, 1⟩ 1) ∧ Ill (.nop (hint 1)) ∧
    Ill (.ld (hint 6) 2 false (.v 1) ⟨rS 2, .off 0⟩) ∧ Ill (.qpost (hint 7) (.imm 1) (rS 2) 0) ∧
    Ill (.traceAdmission 1 0 0 0x10000) ∧ Ill (.trap c0 1 none) ∧ Ill (.fence c0 .die .rlx 1) := by decide +kernel

/-- R203, R261, R263: bases, runs, widths, SX, a run that meets the base it writes. -/
theorem test_ill_memory :
    Ill (.ld c0 2 false (.v 1) ⟨rV 3, .off 0⟩) ∧ Ill (.ld c0 2 false (.v 1) ⟨⟨.ones, .none, false⟩, .off 0⟩) ∧
    Ill (.ld c0 2 false (.v 1) (wr ⟨.v 2, .mir, false⟩)) ∧ Ill (.ld c0 2 false (.v 1) (wr (fe (.v 2)))) ∧
    Ill (.ld c0 2 false (.v 2) (wr (rV 2))) ∧ Ill (.ld c0 4 false (.v 0) (wr (rV 2))) ∧ Ill (.ld c0 3 false (.s 2) (wr (rS 2))) ∧
    Ill (.ld c0 2 false (.v 1) ⟨rS 2, .idx 1 (oV 16)⟩) ∧ Ill (.ld c0 5 false (.v 1) ⟨rS 2, .off 0⟩) ∧
    Ill (.ld c0 3 false (.v 1) ⟨rS 2, .off 0⟩) ∧ Ill (.ld c0 4 false (.v 14) ⟨rS 2, .off 0⟩) ∧ Ill (.ld c0 4 false (.s 47) ⟨rS 2, .off 0⟩) ∧
    Ill (.ld c0 2 true (.v 1) ⟨rS 2, .off 0⟩) ∧ Ill (.ld c0 3 true (.s 1) ⟨rS 2, .off 0⟩) ∧ Ill (.st c0 3 (oV 1) ⟨rS 2, .off 0⟩) ∧
    Ill (.st c0 2 (oV 3) (wr (rV 2))) ∧ Ill (.tagst c0 (oV 3) (wr (rV 2))) ∧ Ill (.tagld c0 (.v 3) (wr (rV 2))) ∧
    Ill (.ldd c0 4 .fp32 (.v 0) ⟨rS 2, .off 0⟩) ∧ Ill (.ldd c0 0 .f8a (.v 0) ⟨rS 2, .off 0⟩) ∧
    Ill (.ldd c0 0 .fp32 (.s 0) ⟨rS 2, .off 0⟩) ∧ Ill (.ldd c0 3 .fp32 (.v 4) ⟨rS 2, .off 0⟩) ∧
    Ill (.std c0 1 .bf16 (oS 2) ⟨rS 2, .off 0⟩) ∧ Ill (.std c0 3 .fp32 (oV 12) ⟨rS 2, .off 0⟩) ∧
    Ill (.ldg c0 1 false true (.v 1) (.imm 0) (.off 0)) ∧ Ill (.ldg c0 0 true true (.v 1) (.imm 0) (.off 0)) ∧
    Ill (.ldg c0 2 false false (.v 1) (.imm 0) (.post 4)) ∧ Ill (.ldwt c0 2 0 (.s 1) ⟨rS 2, .off 0⟩) ∧
    Ill (.atom c0 .die .acq .add false (rS 2) (.imm 1) 0) ∧ Ill (.atom c0 .die .rlx .fadd true (rS 2) (.imm 1) 0) ∧
    Ill (.atomr c0 .die .rlx .add true (.v 1) (rS 2) (.imm 1) 0) ∧ Ill (.exch c0 .die .rlx true (.v 2) (rS 2) (oV 1) 0) ∧
    Ill (.cas c0 .die .rlx true (.v 2) (rS 2) (oV 4) (oV 15) 0) ∧ Ill (.lda c0 .die false 4 (.v 0) (rS 2) 0) ∧
    Ill (.stl c0 .die 3 (oV 1) (rS 2) 0) ∧ Ill (.cpyt c0 .die 0 (rS 2) (rS 4) (rS 45)) ∧ Ill (.cpyt c0 .die 0 (rS 2) (rS 4) (rV 4)) ∧
    Ill (.cpyg c0 13 .die 0 (rS 2) (oS 4) (oV 1)) ∧ Ill (.cpy c0 .die 0 (rV 3) (rS 4) (oS 6)) := by decide +kernel

/-- The limits of the other wave words (R213, R218, R221, R230, R242 to R251, R292, R300 to R302, R327, R329). -/
theorem test_ill_fields :
    Ill (.pset c0 .un false false .none 0 1 (oV 1) (oV 2)) ∧ Ill (.pset c0 .ord false false .none 0 1 (oV 1) (oV 2)) ∧
    Ill (.fpset c0 .lt .none 1 1 (oV 1) (oV 2)) ∧ Ill (.iadd c0 false true .co 1 (.v 1) (oV 1) (oV 2)) ∧
    Ill (.isub c0 false false .none 1 (.v 1) (oV 1) (oV 2)) ∧ Ill (.imadw c0 false (.v 1) (oV 1) (oV 2) (oV 3)) ∧
    Ill (.imadw c0 false (.s 47) (oV 1) (oV 2) (oV 3)) ∧ Ill (.movi c0 (.v 1) 0x100000000) ∧
    Ill (.matchLanes c0 (.s 1) (oV 1)) ∧ Ill (.lget c0 .at 6 (.v 1) (oV 1) (oV 2) none) ∧
    Ill (.lget c0 .at 5 (.v 1) (oV 1) (oV 2) (some (oV 3))) ∧ Ill (.lget c0 .shift 5 (.v 1) (oV 1) (oV 2) none) ∧
    Ill (.xchg c0 5 (.v 1) (oV 1) (oV 2)) ∧ Ill (.scan c0 .add false (.s 1) (oV 1)) ∧ Ill (.wrlane c0 (.s 1) (oV 1) (oV 2)) ∧
    Ill (.cvt c0 .q16 .fp32 .dyn (.v 1) (oV 1)) ∧ Ill (.pack c0 2 .fp16 .dyn (.v 1) (oV 1) (oV 2)) ∧
    Ill (.unpk c0 4 .sm8 (.v 1) (oV 1)) ∧ Ill (.pack c0 0 .fp32 .dyn (.v 1) (oV 1) (oV 2)) ∧ Ill (.rand c0 .raw (.s 1)) ∧
    Ill (.srd c0 false (.v 1) 7) ∧ Ill (.srd c0 true (.v 1) 2) ∧ Ill (.srd c0 true (.s 1) 4) ∧ Ill (.swr c0 false 5 (oV 1)) ∧
    Ill (.swr c0 false 16 (oV 1)) ∧ Ill (.swr c0 true 0 (oV 1)) ∧ Ill (.swr c0 true 3 (oS 1)) ∧
    Ill (.tcall c0 (.reg (rV 1)) 0 16 1) ∧ Ill (.tcall c0 (.off 1) 17 16 1) ∧ Ill (.tcall c0 (.off 1) 0 0 1) ∧
    Ill (.tcall c0 (.off 1) 0 193 1) ∧ Ill (.bmap c0 8 .sm8 (.v 1) (oV 1)) ∧ Ill (.bmap c0 0 .int32 (.v 1) (oV 1)) ∧
    Ill (.cmpr c0 4 .q16 (.v 1) (oV 1) (oV 2)) ∧
    Ill (.gcfg { c0 with hint := 1 } 0 0 0 0 0 (oV 1) (oV 1) (oV 1)) ∧ Ill (.gcfg c0 0 0 0 0 8 (oV 1) (oV 1) (oV 1)) ∧
    decode (.trace 16) (word 0x0E0 0x020 (fV 7) (fS 2) 0 0 0) = .error (.badfld 10) ∧ Ill (.gkey c0 8 (oS 1)) ∧
    Ill (.geval c0 false false (.s 1) 0 (oV 1) (oV 1)) ∧ Ill (.sqwait 0 1) := by decide +kernel

/-- R205, R308 to R326: the stream. -/
theorem test_ill_stream :
    IllSeq (.iadd c0 true false .none 0 (.z 1) (oZ 1) (oZ 2)) ∧ IllSeq (.isub c0 false false .co 0 (.z 1) (oZ 1) (oZ 2)) ∧
    IllSeq (.mov c0 (.z 16) (oZ 1)) ∧ IllSeq (.mov c0 (.v 1) (oZ 1)) ∧ IllSeq (.mov c0 (.z 1) (.reg ⟨.laneIx, .none, false⟩)) ∧
    IllSeq (.mov c0 (.z 1) (.reg ⟨.ones, .mir, false⟩)) ∧ IllSeq (.mov gd (.z 1) (oZ 1)) ∧ IllSeq (.nop { c0 with yld := true }) ∧
    IllSeq (.trap c0 1 (some 0)) ∧ IllSeq (.cschkZ 3) ∧ IllSeq (.sqwait 0 0) ∧ IllSeq (.sqwait 0 33) ∧ IllSeq (.sqloop (.v 1) 1) ∧
    IllSeq (.orw c0 (.z 1) (oZ 1) (oZ 2)) ∧
    IllSeq (.mxm ⟨false, false, false, .sm8, .int32⟩ ⟨0, 0, 0, 0⟩ (rV 0) (rV 0) none) ∧
    IllSeq (.mxm ⟨false, false, false, .sm8, .sm4⟩ ⟨0, 0, 0, 0⟩ (rV 0) (rV 0) none) ∧
    IllSeq (.mxm ⟨false, false, false, .sm8, .sm8⟩ ⟨0, 0, 0, 3⟩ (rV 0) (rV 0) none) ∧
    IllSeq (.mxm ⟨false, true, false, .sm8, .sm8⟩ ⟨0, 0, 0, 0⟩ (rV 0) (rV 0) none) ∧
    IllSeq (.mxm ⟨false, false, false, .sm8, .sm8⟩ ⟨0, 0, 0, 0⟩ (rS 0) (rV 0) none) ∧
    IllSeq (.mxm ⟨false, false, false, .sm8, .sm8⟩ ⟨0, 0, 0, 0⟩ (rV 0) (rV 0) (some (rZ 3))) ∧
    IllSeq (.mxm ⟨false, false, false, .sm8, .sm8⟩ ⟨0, 0, 0, 0⟩ (rV 0) (rV 0) (some (rZ 0))) ∧
    IllSeq (.mxms ⟨false, false, false, .sm8, .sm8⟩ ⟨0, 0, 0, 0⟩ (rV 0) (rG 0) none none) ∧
    IllSeq (.mxms ⟨false, false, false, .sm8, .sm8⟩ ⟨0, 0, 0, 0⟩ (rG 0) (rG 1) none (some (rV 3))) ∧
    IllSeq (.mxz 0 (.imm 512)) ∧ IllSeq (.mxz 0 (.imm (-513))) ∧ IllSeq (.mxrd .raw .rn 0 0 (.imm 0) (.imm 1) (rV 0)) ∧
    IllSeq (.mxrd (.conv .q16) .dyn 0 0 (.imm 0) (.imm 1) (rV 0)) ∧ IllSeq (.mxrd .raw .dyn 0 0 (.imm 256) (oZ 1) (rV 0)) ∧
    IllSeq (.mxrd .raw .dyn 0 0 (oZ 1) (.imm 0) (rV 0)) ∧ IllSeq (.mxrd .raw .dyn 0 0 (oZ 1) (.imm 65) (rV 0)) ∧
    IllSeq (.mxrd .raw .dyn 0 0 (.imm 200) (.imm 57) (rV 0)) ∧ IllSeq (.mxrd .raw .dyn 0 0 (oZ 1) (oZ 2) (rS 0)) ∧
    IllSeq (.mxwr (.conv .fp16) false 0 0 (.imm 0) (.imm 1) (rV 0)) ∧ IllSeq (.mxswp 0 (oV 1)) ∧ IllSeq (.mxst (.s 1) 0) ∧
    IllSeq (.mxcs (.z 3) 0) ∧ IllSeq (.texit c0) := by decide +kernel

/-! ### A small machine -/

/-- A block of one wave and a sequencer on core 0, context 0 (R20, R24). -/
def blk : Block := placedBlock 1 0 0x100 0x1000 0
def wv : Wave := (nth blk.waves 0).getD default
/-- A trace of `n` words at its word `pos`, with every lane. -/
def tr (pos n : Nat) : TraceRun := { newTrace wv 0x1000 (~~~0) (BitVec.ofNat 17 n) 64 64 0xFFFF with pos := pos }
/-- The machine with that block, whose wave issues. -/
def stB (f : Block → Block) (a : Actor := .wave 1 0) : State := { State.reset with blocks := [f blk], actor := a, nextId := 2 }
def stW (f : Wave → Wave) : State := stB fun b => { b with waves := [f wv] }
/-- In the middle of a trace; v1 holds the lane, v2 the constant 7, s2 the scratchpad's address; p1 holds in lanes 0 to 3. -/
def inTrace (t : TraceRun) (w : Wave) : Wave := { w with
  trace := some t
  vreg := (allLanes.map fun l => (vkey 1 l, (⟨BitVec.ofNat 32 l, .full⟩ : RegCell))) ++
    allLanes.map fun l => (vkey 2 l, (⟨7, .full⟩ : RegCell))
  sreg := [(2, ⟨0xF000000000000000, .full⟩), (4, ⟨0xF000000000001000, .full⟩)]
  preds := [(1, 0x0000000F)] }
def sMid : State := stW (inTrace (tr 1 9))
/-- At the last word of a trace. -/
def sEnd : State := stW (inTrace (tr 9 9))
/-- The sequencer executes. -/
def sSeq : State := stB id (.seq 1)

/-- The issuing word, and the sequencer's. -/
def isu (s : State) (c : Ctl) (n : Need) : Iss := (issuing s c n).getD default
def sq (s : State) : Sq := (streaming s).getD default

theorem isu_eq {s : State} {c : Ctl} {n : Need} (h : (issuing s c n).isSome = true) : issuing s c n = some (isu s c n) := by
  obtain ⟨x, hx⟩ := Option.isSome_iff_exists.1 h
  simp [isu, hx]

theorem sq_eq {s : State} (h : (streaming s).isSome = true) : streaming s = some (sq s) := by
  obtain ⟨x, hx⟩ := Option.isSome_iff_exists.1 h
  simp [sq, hx]

def fullB (x : Iss) (rs : List Read) : Bool :=
  rs.all fun r => r.lanes.all fun p => (x.fills r.reg r.span p.2).all fun f => decide (f = .full)

theorem full_of {x : Iss} {rs : List Read} (h : fullB x rs = true) : x.Full rs := by
  intro r hr p hp f hf
  simp only [fullB, List.all_eq_true, decide_eq_true_eq] at h
  exact h r hr p hp f hf

theorem reaches_of {x : Iss} {ls : List Nat} {addr : Nat → Except Stop Word64} {n : Nat} {al : Word64 → Nat} {k : Acc}
    (h : (x.hits x.s ls addr n al k).2.1 = []) :
    x.Reaches ls addr n al k (x.hits x.s ls addr n al k).1 (x.hits x.s ls addr n al k).2.2 :=
  Prod.ext rfl (Prod.ext h rfl)

/-- A lane's read gives bytes. -/
def isGot : ReadRes → Bool
  | .got .. => true
  | _ => false

theorem reads_of {x : Iss} {s : State} {n : Nat} {hint : BitVec 3} {hs : List Hit}
    (h : ((x.readHits s n hint hs).2.1.isEmpty && !(x.readHits s n hint hs).2.2.1 &&
      (x.readHits s n hint hs).2.2.2.all fun g => isGot g.2) = true) :
    x.Reads s n hint hs (x.readHits s n hint hs).1 (x.readHits s n hint hs).2.2.2 := by
  simp only [Bool.and_eq_true, List.isEmpty_iff, Bool.not_eq_true', List.all_eq_true] at h
  refine ⟨Prod.ext rfl (Prod.ext h.1.1 (Prod.ext h.1.2 rfl)), fun g hg => ?_⟩
  have := h.2 g hg
  cases hr : g.2 with
  | got bs tag poison pa copy => exact ⟨bs, tag, poison, pa, copy, rfl⟩
  | _ => rw [hr] at this; cases this

/-- No granary map lies in the range. -/
def noMapB (s : State) (pa n : Nat) : Bool := s.ctxs.all fun c => c.2.desc.all fun d =>
  decide (pa + n ≤ d.gmap) || decide (d.gmap + 2048 ≤ pa)

theorem noMap_of {s : State} {pa n : Nat} (h : noMapB s pa n = true) : NoMap s pa n := by
  intro c hc d hd
  have := List.all_eq_true.1 h c hc
  rw [hd] at this
  simpa using this

/-- A computing word's hypotheses hold at `sMid`. -/
theorem computes_at {f : Instr → Option Computes} {i : Instr} {k : Computes} (h : f i = some k)
    (h1 : (issuing sMid k.c (.mk2 1 0)).isSome = true) (h2 : fullB (isu sMid k.c (.mk2 1 0)) (k.reads (isu sMid k.c (.mk2 1 0))) = true) :
    ∃ k s x, f i = some k ∧ issuing s k.c (.mk2 1 0) = some x ∧ x.Full (k.reads x) :=
  ⟨k, sMid, _, h, isu_eq h1, full_of h2⟩

/-! ### Witnesses: what the hypotheses of each statement allow -/

theorem witness_IntegerWords : ∃ i k s x, integerWord i = some k ∧ issuing s k.c (.mk2 1 0) = some x ∧ x.Full (k.reads x) :=
  ⟨.iadd c0 false true .none 0 (.v 3) (oV 1) (.imm (-1)), computes_at rfl (by decide +kernel) (by decide +kernel)⟩

theorem witness_IntegerResultRange : ∃ w : Nat, w = 32 ∨ w = 64 := ⟨64, by decide⟩

theorem witness_CarryAndPairWords :
    (∃ s x, issuing s c0 (.mk2 2 0) = some x ∧ x.Full (x.readOps false [opA (oV 1) .s true, opB (oV 2) .s true])) ∧
    (∃ s x, issuing s c0 (.mk2 2 0) = some x ∧
      x.Full (x.readOps true [opA (oS 4) .s true, opB (oS 4) .s true, opC (.imm (-1)) .s true])) :=
  ⟨⟨sMid, _, isu_eq (by decide +kernel), full_of (by decide +kernel)⟩,
   ⟨sMid, _, isu_eq (by decide +kernel), full_of (by decide +kernel)⟩⟩

theorem witness_LogicWords :
    (∃ i k s x, logicWord i = some k ∧ issuing s k.c (.mk2 1 0) = some x ∧ x.Full (k.reads x)) ∧
    ∃ w i, decode (.trace 12) w = .ok i ∧ (Raw.ofWord w).op.toNat = 0x05B + 3 :=
  ⟨⟨.shl c0 (.v 3) (oV 1) (.imm 31), computes_at rfl (by decide +kernel) (by decide +kernel)⟩,
   word 0x05E 0 (fV 3) (fV 1) 0 0 0, .ffs c0 (.v 3) (oV 1), by decide +kernel, by decide +kernel⟩

theorem witness_LaneWords :
    (∃ i k s x, laneWord i = some k ∧ issuing s k.c (.mk2 1 0) = some x ∧ x.Full (k.reads x)) ∧
    (∃ i k s x, combiningWord i = some k ∧ issuing s k.c (.mk2 1 0) = some x ∧ x.Full (k.reads x)) :=
  ⟨⟨.sel c0 (.v 3) (oV 1) (oV 2) ⟨true, 1⟩, computes_at rfl (by decide +kernel) (by decide +kernel)⟩,
   ⟨.reduce c0 .fmax (.s 3) (oV 1), computes_at rfl (by decide +kernel) (by decide +kernel)⟩⟩

theorem witness_FloatWords : ∃ i k s x, floatWord i = some k ∧ issuing s k.c (.mk2 1 0) = some x ∧ x.Full (k.reads x) :=
  ⟨.ffma c0 .rp (.v 3) (oV 1) (oV 2) (oV 4), computes_at rfl (by decide +kernel) (by decide +kernel)⟩

theorem witness_LateWords : ∃ i k s x, lateResult i = some k ∧ issuing s k.c (.mk2 1 0) = some x ∧ x.Full (k.reads x) :=
  ⟨.frcp c0 .dyn (.v 3) (oV 1), computes_at rfl (by decide +kernel) (by decide +kernel)⟩

theorem witness_PredicateWords :
    (∃ i k s x, predicateWord i = some k ∧ issuing s k.c (.mk2 1 0) = some x ∧ x.Full (k.reads x)) ∧
    (∃ s x, issuing s c0 (.mk2 ((List.range 16).filter fun i => (0x8003 : BitVec 16).getLsbD i && decide (i ≠ 0)).length 0) = some x ∧
      x.Full (x.readOps false [opA (oV 1) .z false])) ∧
    (∃ s x, isScalar (.v 3) = false ∧ issuing s c0 (.mk2 1 0) = some x ∧
      x.Full (x.readSrc true 7 (oV 1) 1 ++ x.readSrc true 8 (.imm 31) 1)) :=
  ⟨⟨.pset c0 .lt false true .and 1 1 (oV 1) (.imm 100), _, sMid, _, rfl, isu_eq (by decide +kernel), full_of (by decide +kernel)⟩,
   ⟨sMid, _, isu_eq (by decide +kernel), full_of (by decide +kernel)⟩,
   ⟨sMid, _, rfl, isu_eq (by decide +kernel), full_of (by decide +kernel)⟩⟩

theorem witness_RandomAndChecksumWords :
    (∃ s x, isScalar (.v 3) = false ∧ issuing s c0 (.mk2 1 0) = some x) ∧
    (∃ s x, issuing s c0 (.mk2 1 0) = some x ∧ x.Full (x.readSrc true 7 (oS 2) 1)) ∧
    (∃ s x, issuing s c0 (.mk2 1 0) = some x ∧ x.Full (x.readSrc false 7 (oV 1) 1)) ∧
    (∃ s x, issuing s c0 .zero = some x ∧ x.ex ≠ 0 ∧ x.checksum 3 = 0) ∧
    (∃ s x, issuing s c0 .zero = some x ∧ x.ex ≠ 0 ∧ x.checksum 3 ≠ 0) :=
  ⟨⟨sMid, _, rfl, isu_eq (by decide +kernel)⟩, ⟨sMid, _, isu_eq (by decide +kernel), full_of (by decide +kernel)⟩,
   ⟨sMid, _, isu_eq (by decide +kernel), full_of (by decide +kernel)⟩,
   ⟨sMid, _, isu_eq (by decide +kernel), by decide +kernel, by decide +kernel⟩,
   ⟨stW fun w => { inTrace (tr 1 9) w with kreg := [(3, 1)] }, _, isu_eq (by decide +kernel), by decide +kernel, by decide +kernel⟩⟩

/-- Memory that lets core 0 fetch the word after the trace's word 1 in the context 0 (R108, R109). -/
def withPage (s : State) (w : Word128) : State :=
  let p := placeWord State.reset w
  { s with dram := p.dram, access := p.access, owners := p.owners, ctxs := p.ctxs }

/-- The same wave in a trace whose second word is the one placed. -/
def sRep : State := withPage (stW fun w => { inTrace (tr 1 9) w with
  trace := some { tr 1 9 with start := BitVec.ofNat 64 placedVa - 32 } }) (word 0x040 0 (fV 5) (fV 70) (fI 1) 0 0)

theorem witness_SpecialWriteNopRep :
    (∃ s x, issuing s c0 (.mk2 1 0) = some x ∧ x.Full (x.readSrc true 8 (oS 2) 1)) ∧ (∃ s x, issuing s c0 .zero = some x) ∧
    noHint { c0 with keep := true } = true ∧ (∃ w i, decode .stream w = .ok i ∧ w = 0x00E) ∧
    (∃ s x, ∃ w : Word128, issuing s c0 .zero = some x ∧ (fetchWord s (whoOf s x.b 0) (x.addr + 16)).2 = .word w ∧
      repBadStep x.w.ws 64 (Raw.ofWord w) [1, -1, 0, 0, 0] = none ∧ repBanned (Raw.ofWord w).op.toNat = false) :=
  ⟨⟨sMid, _, isu_eq (by decide +kernel), full_of (by decide +kernel)⟩, ⟨sMid, _, isu_eq (by decide +kernel)⟩,
   by decide, ⟨0x00E, .nop c0, by decide +kernel, rfl⟩,
   ⟨sRep, _, word 0x040 0 (fV 5) (fV 70) (fI 1) 0 0, isu_eq (by decide +kernel), by decide +kernel, by decide +kernel,
    by decide +kernel⟩⟩

theorem nth_getElem? {α : Type} (xs : List α) (i : Nat) : nth xs i = xs[i]? := by
  induction xs generalizing i with
  | nil => rfl
  | cons x xs ih => cases i with
    | zero => rfl
    | succ i => simp [nth, ih]

/-- A task with these flags (R158) and this DETA. -/
def tk (flags : Word64) (deta : Nat) : Task where
  id := 0
  ctx := 0
  queue := 3
  tseq := 7
  accept := 0
  f := { Fields.zero with gx := 1, gy := 1, gz := 1, flags := flags }
  st := .placing
  deps := []
  copies := []
  tiles := []
  leader := 0
  next := 0
  launched := []
  claims := []
  again := []
  mirror := []
  begun := true
  ticket := 0
  endedAt := []
  ended := 0
  preempt := 0
  start := 0
  deta := deta
/-- The same machine with a DET task of 64 deferred atomics, and with a COOP task. -/
def sDet : State := { sMid with tasks := [tk 1 64] }
def sCoop : State := { sEnd with tasks := [tk 2 0] }

/-- A trace with a confirmed and a struck record in slot 3. -/
def sWatch : State := stW (inTrace { tr 1 9 with watch := [⟨5, 3, 0, 7, .confirmed, false⟩, ⟨6, 3, 1, 7, .struck, false⟩] })

theorem witness_GuardWords :
    (∃ s x, issuing s c0 .zero = some x ∧ (∀ l, ((laneOf x.w l).failGuard x.addr).gcount < 65536) ∧
      (maskOf fun l => x.ex.getLsbD l && !x.holds ⟨false, 1⟩ l) ≠ 0) ∧
    (∃ s x, issuing s c0 .zero = some x ∧ (0x8008 : BitVec 16) &&& ~~~x.t.wmask = 0 ∧
      (∀ r ∈ x.t.watch, ∀ i n, r.st ≠ .pending i n) ∧ x.t.watch ≠ []) := by
  refine ⟨⟨sMid, _, isu_eq (by decide +kernel), fun l => ?_, by decide +kernel⟩,
    ⟨sWatch, _, isu_eq (by decide +kernel), by decide +kernel, ?_, by decide +kernel⟩⟩
  · have h : ∀ y : Lane, y ∈ (isu sMid c0 .zero).w.lanes ∨ y = default → (y.failGuard (isu sMid c0 .zero).addr).gcount < 65536 := by
      rintro y (hy | rfl)
      · have : ∀ y ∈ (isu sMid c0 .zero).w.lanes, (y.failGuard (isu sMid c0 .zero).addr).gcount < 65536 := by decide +kernel
        exact this y hy
      · decide +kernel
    apply h
    unfold laneOf
    rw [nth_getElem?]
    cases hl : (isu sMid c0 .zero).w.lanes[l]? with
    | none => right; rfl
    | some y => left; exact List.mem_of_getElem? hl
  · intro r hr i n h
    have : ∀ r ∈ (isu sWatch c0 .zero).t.watch, (match r.st with | .pending .. => false | _ => true) = true := by decide +kernel
    have := this r hr
    rw [h] at this
    cases this

theorem witness_TraceAdmission : ∃ s b w tp m, s.actor = .wave 1 0 ∧ getBlock s 1 = some b ∧ getWave s 1 0 = some w ∧
    w.trace = none ∧ w.batch = some (tp, m) ∧ m ≠ 0 ∧ chkwOutside s (whoOf s b 0) tp 256 0 = false :=
  ⟨stW id, blk, wv, 0x1000, ~~~0, rfl, by decide +kernel, by decide +kernel, by decide +kernel, by decide +kernel,
    by decide +kernel, by decide +kernel⟩

theorem witness_BarrierWords :
    (∃ s x, issuing s c0 (.mk2 0 1) = some x ∧ x.ex ≠ 0 ∧ x.Full (x.readSrc true 8 (.imm 0) 1)) ∧
    (∃ s x, issuing s c0 (.mk2 0 1) = some x ∧ x.ex ≠ 0 ∧ x.Full (x.readSrc false 8 (oV 2) 1)) ∧
    (∃ s x, issuing s c0 (.mk2 0 1) = some x ∧ x.ex ≠ 0 ∧ x.b.seq.isSome = true) ∧
    (∃ s x, issuing s c0 (.mk2 0 1) = some x ∧ x.ex ≠ 0 ∧ x.b.seq = none) :=
  ⟨⟨sMid, _, isu_eq (by decide +kernel), by decide +kernel, full_of (by decide +kernel)⟩,
   ⟨sMid, _, isu_eq (by decide +kernel), by decide +kernel, full_of (by decide +kernel)⟩,
   ⟨sMid, _, isu_eq (by decide +kernel), by decide +kernel, by decide +kernel⟩,
   ⟨stB fun b => { b with waves := [inTrace (tr 1 9) wv], seq := none }, _, isu_eq (by decide +kernel), by decide +kernel,
      by decide +kernel⟩⟩

/-- The scratchpad from s2 on, at 16. -/
def at16 : Addr := ⟨rS 2, .off 16⟩
def at0 : Addr := ⟨rS 2, .off 0⟩
/-- The same with a tag F8A of scale 122 in its first block (R268's example). -/
def sTag : State := stB fun b => { b with waves := [inTrace (tr 1 9) wv], stag := [(0, 0x7A04)] }

theorem witness_StoreWords :
    (∃ s s' x hs, issuing s c0 (.mk2 0 1) = some x ∧ x.Full (x.readData (oV 1) 4 ++ x.readAddr false at16) ∧
      x.Reaches (lanesOf x.ex) (x.address at16) 4 (fun _ => 4) .write s' hs ∧ (∀ h ∈ hs, deferStop x.w 4 h = none) ∧ hs ≠ []) ∧
    (∃ s s' x hs, issuing s c0 (.mk2 0 1) = some x ∧ x.Full (x.readData (.imm 0x7A04) 4 ++ x.readAddr false at0) ∧
      x.Reaches (lanesOf x.ex) (x.address at0) 64 (fun _ => 64) .tagWrite s' hs ∧
      (∀ h ∈ hs, badTag (wordOf 16 (x.storeBytes (.imm 0x7A04) 2 h.lane)) = false) ∧ hs ≠ []) :=
  ⟨⟨sMid, _, _, _, isu_eq (by decide +kernel), full_of (by decide +kernel), reaches_of (by decide +kernel),
      by decide +kernel, by decide +kernel⟩,
   ⟨sMid, _, _, _, isu_eq (by decide +kernel), full_of (by decide +kernel), reaches_of (by decide +kernel),
      by decide +kernel, by decide +kernel⟩⟩

/-- A list of three results whose stops are none and that does not wait. -/
theorem settled_of {α : Type} {r : State × List Raise × Bool × List α} (h : (r.2.1.isEmpty && !r.2.2.1) = true) :
    r = (r.1, [], false, r.2.2.2) := by
  simp only [Bool.and_eq_true, List.isEmpty_iff, Bool.not_eq_true'] at h
  exact Prod.ext rfl (Prod.ext h.1 (Prod.ext h.2 rfl))

theorem witness_DescribedStore : ∃ s s1 s2 s3 x hs0 hs gs, issuing s c0 (.mk2 0 1) = some x ∧
    x.Full (x.readData (oV 2) 4 ++ x.readAddr false at16) ∧
    x.Reaches (lanesOf x.ex) (x.address at16) 1 (fun _ => 1) .tagWrite s1 hs0 ∧
    x.hits s1 (lanesOf x.ex) (x.address at16) 1 (fun _ => 1) .tagRead = (s2, [], hs) ∧
    x.describeAll s2 0 c0.hint hs = (s3, [], false, gs) ∧ gs ≠ [] :=
  ⟨sTag, _, _, _, _, _, _, _, isu_eq (by decide +kernel), full_of (by decide +kernel), reaches_of (by decide +kernel),
    Prod.ext rfl (Prod.ext (by decide +kernel) rfl), settled_of (by decide +kernel), by decide +kernel⟩

theorem witness_AtomAndQpost :
    (∃ s s' x hs, issuing s c0 (.mk2 0 1) = some x ∧ x.Full (x.readWide false 7 (rS 2) :: x.readSized false 8 true (oS 4)) ∧
      x.Reaches (lanesOf x.ex) (fun l => .ok (x.wide (rS 2) l + (8 : BitVec 17).signExtend 64)) 8 (fun _ => 8) .atomic s' hs ∧
      taskDet s x.b.task = false ∧ hs ≠ []) ∧
    (∃ s s' x hs, issuing s c0 (.mk2 0 1) = some x ∧ x.Full (x.readWide false 7 (rS 2) :: x.readSized false 8 false (oV 1)) ∧
      x.Reaches (lanesOf x.ex) (fun l => .ok (x.wide (rS 2) l + (0 : BitVec 17).signExtend 64)) 4 (fun _ => 4) .atomic s' hs ∧
      taskDet s x.b.task = true ∧ x.w.det + hs.length ≤ x.deta ∧ hs ≠ []) ∧
    (∃ s s1 s2 x hs gs, issuing s c0 (.mk2 0 1) = some x ∧ x.Full (x.readSrc false 7 (.imm 5) 1 ++ [x.readWide false 8 (rS 2)]) ∧
      x.Reaches (lanesOf x.ex) (fun l => .ok (x.wide (rS 2) l)) 64 (lineAlign 64) .read s1 hs ∧ x.Reads s1 64 0 hs s2 gs ∧
      (∀ g ∈ gs, (match g.2 with | .got _ _ p _ _ => p | _ => true) = false) ∧ gs ≠ []) :=
  ⟨⟨sMid, _, _, _, isu_eq (by decide +kernel), full_of (by decide +kernel), reaches_of (by decide +kernel),
      by decide +kernel, by decide +kernel⟩,
   ⟨sDet, _, _, _, isu_eq (by decide +kernel), full_of (by decide +kernel), reaches_of (by decide +kernel),
      by decide +kernel, by decide +kernel, by decide +kernel⟩,
   ⟨sMid, _, _, _, _, _, isu_eq (by decide +kernel), full_of (by decide +kernel), reaches_of (by decide +kernel),
      reads_of (by decide +kernel), by decide +kernel, by decide +kernel⟩⟩

theorem witness_CopyWords :
    (∃ s x, issuing s c0 (.mk2 0 1) = some x ∧ lowest x.ex = some 0 ∧
      x.Full ([x.readWide true 6 (rS 2), x.readWide true 7 (rS 4)] ++ x.readSrc true 8 (.imm 64) 1) ∧
      copyFault x.b [(x.wide (rS 2) 0, 64), (x.wide (rS 4) 0, 64)] = none ∧ copyEntries x.s (x.b.core.getD 0) < 64) ∧
    (∃ s x, issuing s c0 (.mk2 0 1) = some x ∧ lowest x.ex = some 0 ∧
      x.Full [x.readWide true 6 (rS 2), x.readWide true 7 (rS 4), x.readReg true 8 (rS 6) 3] ∧
      (x.scell 6).val = 0x0000000200000010 ∧ (x.scell 7).val = 16 ∧ (x.scell 8).val = 32 ∧
      copyFault x.b [(x.wide (rS 2) 0, 16), (x.wide (rS 4) 0, 16), (x.wide (rS 2) 0 + 32, 16), (x.wide (rS 4) 0 + 16, 16)] = none ∧
      copyEntries x.s (x.b.core.getD 0) < 64) ∧
    (∃ s x, issuing s c0 (.mk2 0 1) = some x ∧ lowest x.ex = some 0 ∧
      x.Full (x.readWide true 6 (rS 4) :: x.readSrc true 7 (oS 2) 1 ++ x.readSrc false 8 (oV 1) 1) ∧
      copyFault x.b ((List.range 32).map fun j => (x.wide (rS 4) 0 + BitVec.ofNat 64 j * 16, 16)) = none ∧
      (∀ k ∈ lanesOf x.ex, copyFault x.b [(x.val true (opA (oS 2) .z false) 0 + x.val false (opB (oV 1) .z false) k * 16, 16)] = none) ∧
      copyEntries s (x.b.core.getD 0) < 64) :=
  ⟨⟨sMid, _, isu_eq (by decide +kernel), by decide +kernel, full_of (by decide +kernel), by decide +kernel, by decide +kernel⟩,
   ⟨stW fun w => { inTrace (tr 1 9) w with sreg := (inTrace (tr 1 9) w).sreg ++
      [(6, ⟨0x0000000200000010, .full⟩), (7, ⟨16, .full⟩), (8, ⟨32, .full⟩)] }, _, isu_eq (by decide +kernel), by decide +kernel,
      full_of (by decide +kernel), by decide +kernel, by decide +kernel, by decide +kernel, by decide +kernel, by decide +kernel⟩,
   ⟨sMid, _, isu_eq (by decide +kernel), by decide +kernel, full_of (by decide +kernel), by decide +kernel, by decide +kernel,
      by decide +kernel⟩⟩

theorem witness_LoadWord : ∃ s s1 s2 x hs gs, issuing s c0 (.mk2 (runRegs 8 (.v 5) + baseNeed at16) 0) = some x ∧
    x.Full (x.readAddr false at16) ∧ x.Reaches (x.readers false) (x.address at16) 8 (fun _ => 8) .read s1 hs ∧
    x.Reads s1 8 c0.hint hs s2 gs ∧ gs ≠ [] :=
  ⟨sMid, _, _, _, _, _, isu_eq (by decide +kernel), full_of (by decide +kernel), reaches_of (by decide +kernel),
    reads_of (by decide +kernel), by decide +kernel⟩

theorem witness_WatchedLoad : ∃ s s1 s2 x hs gs, issuing s c0 (.mk2 (runRegs 4 (.v 5) + baseNeed at16) 0) = some x ∧
    x.Full (x.readAddr false at16) ∧ x.t.wmask.getLsbD 3 = true ∧ x.t.slots.getLsbD 3 = false ∧
    x.Reaches (x.readers false) (x.address at16) 4 (fun _ => 4) .read s1 hs ∧ (∀ h ∈ hs, x.unsettledLine s1 h = false) ∧
    x.Reads s1 4 c0.hint hs s2 gs ∧ gs ≠ [] :=
  ⟨sMid, _, _, _, _, _, isu_eq (by decide +kernel), full_of (by decide +kernel), by decide +kernel, by decide +kernel,
    reaches_of (by decide +kernel), by decide +kernel, reads_of (by decide +kernel), by decide +kernel⟩

/-- A lane's described read gives a run. -/
def isDesc : DescRes → Bool
  | .got .. => true
  | _ => false

theorem descs_of {α : Type} {gs : List (α × DescRes)} (h : (gs.all fun g => isDesc g.2) = true) :
    ∀ g ∈ gs, ∃ f sc sup bs pa cp, g.2 = .got f sc sup bs pa cp := by
  intro g hg
  have := List.all_eq_true.1 h g hg
  cases hr : g.2 with
  | got f sc sup bs pa cp => exact ⟨f, sc, sup, bs, pa, cp, rfl⟩
  | _ => rw [hr] at this; cases this

theorem witness_DescribedLoads :
    (∃ s s1 s2 x hs gs, isScalar (.v 5) = false ∧ issuing s c0 (.mk2 (runD 2 .fp16 + baseNeed at16) 0) = some x ∧
      x.Full (x.readAddr false at16) ∧ 0 < runD 2 .fp16 ∧
      x.Reaches (lanesOf x.ex) (x.address at16) 1 (fun _ => 1) .tagRead s1 hs ∧
      x.describeAll s1 2 c0.hint hs = (s2, [], false, gs) ∧ (∀ g ∈ gs, ∃ f sc sup bs pa cp, g.2 = .got f sc sup bs pa cp) ∧ gs ≠ []) ∧
    (∃ s s1 s2 x hs gs, issuing s c0 (.mk2 (1 + baseNeed at0) 0) = some x ∧ x.Full (x.readAddr true at0) ∧
      x.Reaches (x.readers true) (x.address at0) 64 (fun _ => 64) .tagRead s1 hs ∧ x.Reads s1 64 c0.hint hs s2 gs ∧ gs ≠ []) :=
  ⟨⟨sTag, _, _, _, _, _, rfl, isu_eq (by decide +kernel), full_of (by decide +kernel), by decide +kernel,
      reaches_of (by decide +kernel), settled_of (by decide +kernel), descs_of (by decide +kernel), by decide +kernel⟩,
   ⟨sTag, _, _, _, _, _, isu_eq (by decide +kernel), full_of (by decide +kernel), reaches_of (by decide +kernel),
      reads_of (by decide +kernel), by decide +kernel⟩⟩

/-- The same with a granary map whose first entry is block 5 of die 2's granary, which core 0 may read (R104). -/
def sGran : State :=
  let p := placeWord State.reset 0
  { sMid with
    dram := p.dram.writeN 0x80008000 [0x05, 0x01, 0x00, 0x80]
    owners := p.owners
    ctxs := [(0, { Ctx.empty with desc := some ⟨1, 1, placedRoot, 0, 16, 0, 0, 0x80008000, 0, 0⟩ })]
    access := fput 0 (fput 0 p.access (paTarget 0x80008000 * 128) 3) (66 * 128) 1 }

theorem witness_GranaryAndPrefetch :
    (∃ s s1 x hs, issuing s c0 (.mk2 (runRegs 4 (.v 5)) 0) = some x ∧
      x.Full (x.readSrc false 7 (.imm 64) 1 ++ x.readSrc false 8 (oV 1) 1) ∧
      x.granHits s (x.readers false) (x.granOffset (.imm 64) (.idx 2 (oV 1))) 4 = (s1, [], false, hs) ∧ hs.length = 32) ∧
    (∃ s x, issuing s c0 (.mk2 (baseNeed at16) 0) = some x ∧ x.Full (x.readAddr false at16)) :=
  ⟨⟨sGran, _, _, _, isu_eq (by decide +kernel), full_of (by decide +kernel), settled_of (by decide +kernel), by decide +kernel⟩,
   ⟨sMid, _, isu_eq (by decide +kernel), full_of (by decide +kernel)⟩⟩

/-- The same with a configured generator g3. -/
def sGen : State := stW fun w => { inTrace (tr 1 9) w with gens := [(3, { Gen.zero with fmt := some .sm8 })] }

theorem witness_GeneratorWords :
    (∃ s x, issuing s c0 (.mk2 1 0) = some x ∧ lowest x.ex = some 0 ∧
      x.Full (x.readOps true [opA (oS 2) .z false, opB (.imm 3) .z false, opC (oS 4) .z false]) ∧
      badParam .mask ((x.val false (opC (oS 4) .z false) 0).setWidth 32) = false ∧
      (gcfgOf 0 7 2 3).map (fun m => m.2.2.2) = some .mask ∧ gcfgOf 2 7 2 3 = none ∧ gcfgOf 1 7 2 3 = none) ∧
    (∃ s x, issuing s c0 (.mk2 1 0) = some x ∧ lowest x.ex = some 0 ∧ x.Full (x.readSrc true 7 (oS 2) 1)) ∧
    (∃ s x, issuing s c0 (.mk2 1 0) = some x ∧ x.Full (x.readOps false [opB (oV 1) .z false, opC (.imm 5) .z false]) ∧
      (x.gen 3).fmt = some .sm8 ∧ ∀ l ∈ lanesOf x.ex, tabCheck x.b (x.gen 3)
        (gevalAt (x.gen 3) false ((x.val false (opB (oV 1) .z false) l).setWidth 32)
          ((x.val false (opC (.imm 5) .z false) l).setWidth 32)).2 = .ok) :=
  ⟨⟨sMid, _, isu_eq (by decide +kernel), by decide +kernel, full_of (by decide +kernel), by decide +kernel,
    by decide +kernel⟩,
   ⟨sMid, _, isu_eq (by decide +kernel), by decide +kernel, full_of (by decide +kernel)⟩,
   ⟨sGen, _, isu_eq (by decide +kernel), full_of (by decide +kernel), by decide +kernel, by decide +kernel⟩⟩

theorem witness_TraceEnds :
    (∃ s x, issuing s c0 .final = some x ∧ uncheckedLanes x.t = 0 ∧ x.ex ≠ 0) ∧
    (∃ s x, issuing s c0 .final = some x ∧ uncheckedLanes x.t ≠ 0) :=
  ⟨⟨sEnd, _, isu_eq (by decide +kernel), by decide +kernel, by decide +kernel⟩,
   ⟨stW (inTrace { tr 9 9 with watch := [⟨5, 3, 0, 7, .confirmed, false⟩] }), _, isu_eq (by decide +kernel), by decide +kernel⟩⟩

theorem commits_empty {x : Iss} (h : x.t.ov = [] ∧ x.t.os = [] ∧ x.t.op = [] ∧ x.t.om = [] ∧ x.t.og = [] ∧ x.t.kc = [] ∧
    x.t.flags = []) : Commits x x.w := by
  obtain ⟨h1, h2, h3, h4, h5, h6, h7⟩ := h
  refine ⟨fun ix l _ => ?_, fun n => ?_, fun q l hq _ => ?_, fun n _ => ?_, fun i _ => ?_, fun q => ?_, fun n => ?_, rfl⟩
  · simp [h1, ffind]
  · simp [Iss.scell, h2, ffind]
  · have : q ≠ 0#4 := hq
    simp [Iss.pred, h3, ffind, this]
  · simp [Iss.special, h4, ffind]
  · simp [Iss.special, h4, h7, ffind, fget]
  · simp only [Iss.checksum, h6]
    generalize lanesOf x.t.live = ls
    induction ls with
    | nil => rfl
    | cons l ls ih => simp [fget, ffind]
  · simp [Iss.gen, h5, ffind]

theorem witness_CommittedStores :
    (∃ s x w', issuing s c0 .final = some x ∧ Commits x w' ∧ x.t.buf = [] ∧ x.w.path = []) ∧
    (∃ s : State, ∃ b : Block, ∃ w : Wave, getBlock s 1 = some b ∧ nth b.waves 0 = some w ∧
      w.path = [⟨3, true, .store 0 [⟨0, 0, 0, .spad 4, [1, 2]⟩, ⟨1, 0, 0, .spad 5, [7]⟩]⟩]) :=
  ⟨⟨sEnd, isu sEnd c0 .final, _, isu_eq (by decide +kernel), commits_empty (by decide +kernel), by decide +kernel,
      by decide +kernel⟩,
   ⟨stW fun w => { w with path := [⟨3, true, .store 0 [⟨0, 0, 0, .spad 4, [1, 2]⟩, ⟨1, 0, 0, .spad 5, [7]⟩]⟩] }, _, _, rfl,
      rfl, rfl⟩⟩

theorem witness_WaitStates :
    (∃ s x t, issuing s c0 .final = some x ∧ uncheckedLanes x.t = 0 ∧ getTask s x.b.task = some t ∧ t.coop = true ∧
      x.Full [x.readReg true 7 (rS 2) 1]) ∧
    (∃ s x, issuing s c0 .final = some x ∧ uncheckedLanes x.t = 0 ∧ x.w.depth ≠ 0) ∧
    (∃ s x t, issuing s c0 .final = some x ∧ getTask s x.b.task = some t ∧ t.coop = false) ∧
    (∃ s x, issuing s c0 .final = some x ∧ uncheckedLanes x.t = 0 ∧ x.w.depth = 0) :=
  ⟨⟨sCoop, _, tk 2 0, isu_eq (by decide +kernel), by decide +kernel, by decide +kernel, by decide +kernel,
      full_of (by decide +kernel)⟩,
   ⟨stW fun w => { inTrace (tr 9 9) w with depth := 1, frames := [⟨0x40, 0, 16⟩] }, _, isu_eq (by decide +kernel),
      by decide +kernel, by decide +kernel⟩,
   ⟨{ sEnd with tasks := [tk 0 0] }, _, tk 0 0, isu_eq (by decide +kernel), by decide +kernel, by decide +kernel⟩,
   ⟨sEnd, _, isu_eq (by decide +kernel), by decide +kernel, by decide +kernel⟩⟩

/-- The same with a one-shot pass for BRK at this word in lanes 0 and 1; p1 holds in the lanes `m`. -/
def sPass (m : Mask) : State := stW fun w =>
  let x := inTrace (tr 1 9) w
  { x with
    lanes := (List.range 32).map fun l => { laneOf x l with pass := if l < 2 then some 0x1010 else none }
    preds := [(1, m)] }

theorem witness_SoftwareTraps :
    (∃ s x, issuing s c0 .final = some x ∧ uncheckedLanes x.t = 0 ∧ x.ex ≠ 0) ∧
    (∃ s x, issuing s c0 .zero = some x ∧
      x.ex &&& ~~~(maskOf fun l => x.ex.getLsbD l && decide ((laneOf x.w l).pass = some x.addr)) = 0xFFFFFFFC) ∧
    (∃ s x, issuing s { c0 with g1 := ⟨false, 1⟩ } .zero = some x ∧ x.ex ≠ 0 ∧
      x.ex &&& ~~~(maskOf fun l => x.ex.getLsbD l && decide ((laneOf x.w l).pass = some x.addr)) = 0) :=
  ⟨⟨sEnd, _, isu_eq (by decide +kernel), by decide +kernel, by decide +kernel⟩,
   ⟨sPass 0, _, isu_eq (by decide +kernel), by decide +kernel⟩,
   ⟨sPass 3, _, isu_eq (by decide +kernel), by decide +kernel, by decide +kernel⟩⟩

theorem witness_BoundaryOperations :
    (∃ s x, issuing s c0 .final = some x ∧ uncheckedLanes x.t = 0 ∧ x.Full (x.readSrc false 7 (.imm 0) 1) ∧
      ∀ l ∈ lanesOf x.ex, (x.val true (opA (.imm 0) .z false) l).toNat < gridSize s x.b.task) ∧
    (∃ s s1 x hs, issuing s c0 .final = some x ∧ uncheckedLanes x.t = 0 ∧ x.Full (x.readData (oV 1) 4 ++ [x.readWide false 7 (rS 2)]) ∧
      x.Reaches (lanesOf x.ex) (fun l => .ok (x.wide (rS 2) l)) 4 (fun _ => 4) .write s1 hs ∧
      (∀ h ∈ hs, deferStop x.committed.1 4 h = none) ∧ hs ≠ []) ∧
    (∃ s s1 x hs, issuing s c0 .final = some x ∧ uncheckedLanes x.t = 0 ∧ x.Full [x.readWide false 7 (rS 2)] ∧
      x.Reaches (x.readers false) (fun l => .ok (x.wide (rS 2) l)) 4 (fun _ => 4) .read s1 hs ∧
      (∀ h ∈ hs, deferStop x.committed.1 4 h = none) ∧ hs ≠ []) ∧
    (∃ s s1 x hs, issuing s c0 .final = some x ∧ uncheckedLanes x.t = 0 ∧
      x.Full (x.readWide false 7 (rS 2) :: x.readSized false 8 true (oS 4) ++ x.readSized false 9 true (oS 2)) ∧
      x.Reaches (x.readers false) (fun l => .ok (x.wide (rS 2) l)) 8 (fun _ => 8) .atomic s1 hs ∧
      taskDet s x.b.task = false ∧ hs ≠ []) ∧
    (∃ s s1 x hs, issuing s c0 .final = some x ∧ uncheckedLanes x.t = 0 ∧
      x.Full (x.readWide false 7 (rS 2) :: x.readSized false 8 false (oV 1) ++ x.readSized false 9 false (.imm 0)) ∧
      x.Reaches (x.readers false) (fun l => .ok (x.wide (rS 2) l)) 4 (fun _ => 4) .atomic s1 hs ∧
      taskDet s x.b.task = true ∧ x.w.det + hs.length ≤ x.deta ∧ hs ≠ []) :=
  ⟨⟨sCoop, _, isu_eq (by decide +kernel), by decide +kernel, full_of (by decide +kernel), by decide +kernel⟩,
   ⟨sEnd, _, _, _, isu_eq (by decide +kernel), by decide +kernel, full_of (by decide +kernel), reaches_of (by decide +kernel),
      by decide +kernel, by decide +kernel⟩,
   ⟨sEnd, _, _, _, isu_eq (by decide +kernel), by decide +kernel, full_of (by decide +kernel), reaches_of (by decide +kernel),
      by decide +kernel, by decide +kernel⟩,
   ⟨sEnd, _, _, _, isu_eq (by decide +kernel), by decide +kernel, full_of (by decide +kernel), reaches_of (by decide +kernel),
      by decide +kernel, by decide +kernel⟩,
   ⟨{ sEnd with tasks := [tk 1 64] }, _, _, _, isu_eq (by decide +kernel), by decide +kernel, full_of (by decide +kernel),
      reaches_of (by decide +kernel), by decide +kernel, by decide +kernel, by decide +kernel⟩⟩

/-- A store of context 0 on its way to its home. -/
def storeOut : Flight := ⟨1, 1, 0, 1, 0, 0, 0, 1, 0, 0, 0x1010, 0x40, .phys 0x40000000 0 false false, .store [1], false, 0, false, 0, false⟩

theorem witness_OperationStarts :
    (∃ s : State, ∃ b w, getBlock s 1 = some b ∧ nth b.waves 0 = some w ∧ b.core.isSome = true ∧ (1 : Mask) &&& w.runnable ≠ 0 ∧
      (∀ o ∈ s.ops, o.id < s.nextId) ∧ releaseMet { s with nextId := s.nextId + 1 } (b.core.getD 0) .device s.nextId = false) ∧
    (∃ s : State, ∃ b w, getBlock s 1 = some b ∧ nth b.waves 0 = some w ∧ b.core.isSome = true ∧ (1 : Mask) &&& w.runnable ≠ 0 ∧
      (∀ o ∈ s.ops, o.id < s.nextId) ∧ releaseMet { s with nextId := s.nextId + 1 } (b.core.getD 0) .device s.nextId = true) :=
  ⟨⟨{ stW id with flights := [storeOut] },
      blk, wv, by decide +kernel, by decide +kernel, by decide +kernel, by decide +kernel, by decide +kernel, by decide +kernel⟩,
   ⟨stW id, blk, wv, by decide +kernel, by decide +kernel, by decide +kernel, by decide +kernel, by decide +kernel,
      by decide +kernel⟩⟩

def fullZ (x : Sq) (os : List Src) : Bool := os.all fun
  | .reg ⟨.z n, _, _⟩ => decide ((x.z n).fill = .full)
  | _ => true

theorem fullZ_of {x : Sq} {os : List Src} (h : fullZ x os = true) : x.Full os := by
  rintro o ho ⟨r, p, f⟩ n rfl hn
  cases hn
  exact of_decide_eq_true (List.all_eq_true.1 h _ ho)

theorem witness_StreamWords :
    (∃ i d os f s x, streamWord i = some (d, os, f) ∧ streaming s = some x ∧ x.Full os) ∧
    (∃ s x, streaming s = some x ∧ ∀ k, k ≤ 1 → x.z (4 + k) = ⟨0, .full⟩) :=
  ⟨⟨.iadd c0 false false .none 0 (.z 2) (oZ 1) (.imm (-1)), .z 2, _, _, sSeq, _, rfl, sq_eq (by decide +kernel),
      fullZ_of (by decide +kernel)⟩, ⟨sSeq, _, sq_eq (by decide +kernel), by decide +kernel⟩⟩

theorem witness_StreamNop : ∃ s x, streaming s = some x := ⟨sSeq, _, sq_eq (by decide +kernel)⟩

theorem witness_StreamControl :
    (∃ s x, streaming s = some x ∧ (7 : Nat) ≤ (getQBar x.b 2).ra ∧ drainPending s x.bid = false) ∧
    (∃ s x, streaming s = some x ∧ (getQBar x.b 2).ra < 8 ∧ (x.z 1).fill = .full) ∧
    (∃ s x, streaming s = some x ∧ drainPending s x.bid = true) :=
  ⟨⟨stB (fun b => { b with qbars := [(2, ⟨false, 7⟩)] }) (.seq 1), _, sq_eq (by decide +kernel), by decide +kernel, by decide +kernel⟩,
   ⟨stB (fun b => { b with qbars := [(2, ⟨false, 7⟩)] }) (.seq 1), _, sq_eq (by decide +kernel), by decide +kernel, by decide +kernel⟩,
   ⟨{ sSeq with pendings := [⟨1, 1, 0, [(.v 4 0, 9)], false, seqLane, 0, 0, false, none, 1, none⟩] }, _, sq_eq (by decide +kernel),
      by decide +kernel⟩⟩

theorem frag_full {x : Sq} {rows n cnt field : Nat} {fe : Bool} {y : SAns}
    (h : ((List.range rows).all fun r => (List.range cnt).all fun i => decide ((fragCell x.b r (n + i)).fill = .full)) = true) :
    x.frag (List.range rows) n cnt field fe y = y := by
  have hf : ∀ f ∈ (List.range rows).flatMap fun r => (List.range cnt).map fun i => (fragCell x.b r (n + i)).fill, f = Fill.full := by
    intro f hf
    obtain ⟨r, hr, hf⟩ := List.mem_flatMap.1 hf
    obtain ⟨i, hi, rfl⟩ := List.mem_map.1 hf
    exact of_decide_eq_true (List.all_eq_true.1 (List.all_eq_true.1 h r hr) i hi)
  unfold Sq.frag
  have h1 : (((List.range rows).flatMap fun r => (List.range cnt).map fun i => (fragCell x.b r (n + i)).fill).any Fill.isDefer) =
      false := by
    rw [List.any_eq_false]
    intro f h
    rw [hf f h]
    decide
  have h2 : (((List.range rows).flatMap fun r => (List.range cnt).map fun i => (fragCell x.b r (n + i)).fill).all
      fun f => decide (f = .full)) = true := List.all_eq_true.2 fun f h => decide_eq_true (hf f h)
  simp only [h1, Bool.false_eq_true, if_false, h2, if_true]

theorem witness_MatrixProduct : ∃ s x t, streaming s = some x ∧ x.b.tiles[3]? = some t ∧
    let p : MxSrc := ⟨rV 0, 7, .sm8, 32, 16, false, 127, 0x3F800000, none⟩
    let q : MxSrc := ⟨rV 8, 8, .sm8, 32, 16, true, 127, 0x3F800000, none⟩
    p.fits x.b = true ∧ q.fits x.b = true ∧
      ∀ o, o = p ∨ o = q → ∀ y : SAns, x.mxRead o y = y ∧ x.mxBits o false y = y := by
  refine ⟨sSeq, sq sSeq, .zero, sq_eq (by decide +kernel), by decide +kernel, by decide +kernel, by decide +kernel, ?_⟩
  have h1 : ∀ n ∈ [0, 8], (List.range 32).all (fun r => (List.range 4).all fun i =>
      decide ((fragCell (sq sSeq).b r (n + i)).fill = .full)) = true := by decide +kernel
  rintro o (rfl | rfl) y
  · exact ⟨frag_full (field := 7) (fe := false) (h1 0 (by decide)), rfl⟩
  · exact ⟨frag_full (field := 8) (fe := false) (h1 8 (by decide)), rfl⟩

/-- A list whose values are full in a fragment of the block. -/
theorem frag_cells {x : Sq} {rows n cnt : Nat}
    (h : ((List.range rows).all fun r => (List.range cnt).all fun i => decide ((fragCell x.b r (n + i)).fill = .full)) = true) :
    ∀ r q, r < rows → q < cnt → (fragCell x.b r (n + q)).fill = .full := by
  intro r q hr hq
  exact of_decide_eq_true (List.all_eq_true.1 (List.all_eq_true.1 h r (List.mem_range.2 hr)) q (List.mem_range.2 hq))

/-- Two waves, a scratchpad that holds a tile's image, and a sequencer that has done some steps of its word (R310). -/
def sReached (n : Nat) : State := stB (fun b => { b with
  waves := [wv, wv], shape := { b.shape with w := 2, sp := 1024 }, seq := b.seq.map fun q => { q with reached := n } }) (.seq 1)

theorem witness_AccumulatorWords :
    (∃ s x t, streaming s = some x ∧ x.b.tiles[3]? = some t ∧ x.Full [.imm (-512)] ∧
      (x.val .s false (.imm (-512))).toInt = -512) ∧
    (∃ s x t, streaming s = some x ∧ x.b.tiles[0]? = some t ∧ x.Full [oZ 0, .imm 64] ∧ x.q.reached = 0 ∧
      (x.val .z false (oZ 0)).toNat ≤ 255 ∧ 1 ≤ (x.val .z false (.imm 64)).toNat ∧ (x.val .z false (.imm 64)).toNat ≤ 64 ∧
      (x.val .z false (oZ 0)).toNat + (x.val .z false (.imm 64)).toNat ≤ 256 ∧
      fragFits x.b 32 (fragBase (rV 0)) (drainRegs .raw 64) = true ∧ (x.b.waves.take 1).length = 1) ∧
    (∃ s x t, streaming s = some x ∧ x.b.tiles[0]? = some t ∧ x.Full [.imm 255, .imm 1] ∧
      (x.val .z false (.imm 255)).toNat + (x.val .z false (.imm 1)).toNat ≤ 256 ∧
      fragFits x.b 32 (fragBase (rV 7)) (3 * 1) = true ∧
      x.q.reached = 0 ∧ ∀ r q, r < 32 → q < 3 * 1 → (fragCell x.b r (fragBase (rV 7) + q)).fill = .full) ∧
    (∃ s x, streaming s = some x ∧ x.q.reached ≠ 0) ∧
    (∃ s x t, streaming s = some x ∧ x.b.tiles[0]? = some t ∧ x.Full [.imm 0, .imm 64] ∧ x.q.reached = 1 ∧
      waveFits x.b (fragBase (rV 7)) (1 * 64) 1 = true ∧
      ∀ r q, r / 32 = 1 → q < 1 * 64 → (fragCell x.b r (fragBase (rV 7) + q)).fill = .full) ∧
    (∃ s x t, streaming s = some x ∧ x.b.tiles[1]? = some t ∧ x.Full [.imm 2] ∧
      (x.val .z false (.imm 2)).toNat * 64 + 789568 ≤ 1024 * x.b.shape.sp ∧ x.q.reached = 0 ∧
      absentIn x.b (128 + partAt 0) (partLen 0) = false ∧ poisonIn x.b (128 + partAt 0) (partLen 0) = none) ∧
    (∃ s x t, streaming s = some x ∧ x.b.tiles[1]? = some t ∧ x.Full [.imm 2] ∧
      (x.val .z false (.imm 2)).toNat * 64 + 789568 ≤ 1024 * x.b.shape.sp ∧ x.q.reached = 256 ∧
      absentIn x.b (128 + partAt 256) (partLen 256) = false ∧ poisonIn x.b (128 + partAt 256) (partLen 256) = none) ∧
    (∃ s x t, streaming s = some x ∧ x.b.tiles[1]? = some t ∧ x.q.reached = 7 ∧
      x.q.found = (((List.range (32 * 7)).map fun j => (List.range 256).foldl (fun v i => v + t.at1 i j) 0 - t.check1 j).find?
        fun v => v ≠ 0).getD 0) :=
  ⟨⟨sSeq, _, .zero, sq_eq (by decide +kernel), by decide +kernel, fullZ_of (by decide +kernel), by decide +kernel⟩,
   ⟨sSeq, _, .zero, sq_eq (by decide +kernel), by decide +kernel, fullZ_of (by decide +kernel), by decide +kernel,
      by decide +kernel, by decide +kernel, by decide +kernel, by decide +kernel, by decide +kernel, by decide +kernel⟩,
   ⟨sSeq, _, .zero, sq_eq (by decide +kernel), by decide +kernel, fullZ_of (by decide +kernel), by decide +kernel,
      by decide +kernel, by decide +kernel, frag_cells (by decide +kernel)⟩,
   ⟨sReached 1, _, sq_eq (by decide +kernel), by decide +kernel⟩,
   ⟨sReached 1, _, .zero, sq_eq (by decide +kernel), by decide +kernel, fullZ_of (by decide +kernel), by decide +kernel,
      by decide +kernel, fun r q hr hq => frag_cells (rows := 64) (by decide +kernel) r q (by omega) hq⟩,
   ⟨sReached 0, _, .zero, sq_eq (by decide +kernel), by decide +kernel, fullZ_of (by decide +kernel), by decide +kernel,
      by decide +kernel, by decide +kernel, by decide +kernel⟩,
   ⟨sReached 256, _, .zero, sq_eq (by decide +kernel), by decide +kernel, fullZ_of (by decide +kernel), by decide +kernel,
      by decide +kernel, by decide +kernel, by decide +kernel⟩,
   ⟨sReached 7, _, .zero, sq_eq (by decide +kernel), by decide +kernel, by decide +kernel, by decide +kernel⟩⟩

/-- The block's wave with its lanes in a state. -/
def lanesIn (st : LaneState) (w : Wave) : Wave := { w with lanes := w.lanes.map fun l => { l with st := st } }
def waits (st : LaneState) : State := stB (fun b => { b with waves := [lanesIn st wv] }) .none

/-- A deferred add of 5 at the scratchpad's byte 8, by lane 3 (R148). -/
def deferred : DetEntry := ⟨1, 0, 1, 0, 0, 0, 0, 3, 0, ⟨3, 0x1010, 0xF000000000000008, .spad 8, .rmw .add, false, 5, 0⟩,
  0xF000000000000008, none⟩

theorem witness_BarrierCompletions :
    (∃ s b, getBlock s 1 = some b ∧ b.core = some 0 ∧ taskDet s b.task = false ∧
      (∀ w ∈ b.waves, w.retired = true ∨ ∀ l ∈ w.lanes, l.st = .exited ∨ ∃ e, l.st = .tbar e) ∧
      ∃ w ∈ b.waves, ∃ l ∈ w.lanes, ∃ e, l.st = .tbar e) ∧
    (∃ s b b', getBlock s 1 = some b ∧ b.core = some 0 ∧ taskDet s b.task = true ∧
      (b.waves.all fun w => w.retired || w.lanes.all fun l => decide (l.st = .tbar 0x80)) = true ∧
      let es := s.detbuf.filter fun e => decide (e.bid = 1) && e.onSpad
      es ≠ [] ∧ (∀ e ∈ es, detPresent s e = true ∧ storeHeld b e = false) ∧
      getBlock ((sortBy detBefore es).foldl flushOne s) 1 = some b') ∧
    (∃ s t, getTask s 0 = some t ∧ t.det = false ∧ gridReady s t = true) ∧
    (∃ s s' t, getTask s 0 = some t ∧ t.det = true ∧ gridReady s t = true ∧ s.detbuf ≠ [] ∧ flushTask s 0 = (s', true)) := by
  refine ⟨⟨waits (.tbar 0x80), _, rfl, rfl, rfl, ?_, ?_⟩,
    ⟨{ waits (.tbar 0x80) with tasks := [tk 1 64], detbuf := [deferred] }, _, _, rfl, rfl, rfl, by decide +kernel, by decide +kernel,
      by decide +kernel, rfl⟩,
    ⟨{ waits (.tgbar 0x80 1) with tasks := [tk 2 0] }, tk 2 0, by decide +kernel, by decide +kernel, by decide +kernel⟩,
    ⟨{ waits (.tgbar 0x80 1) with tasks := [tk 3 64], detbuf := [deferred] }, _, tk 3 64, by decide +kernel, by decide +kernel,
      by decide +kernel, by decide +kernel, Prod.ext rfl (by decide +kernel)⟩⟩
  · intro w hw
    simp only [List.mem_singleton] at hw
    subst hw
    right
    intro l hl
    right
    obtain ⟨k, -, rfl⟩ := List.mem_map.1 hl
    exact ⟨0x80, rfl⟩
  · refine ⟨_, List.mem_singleton.2 rfl, (laneOf (lanesIn (.tbar 0x80) wv) 0), ?_, 0x80, by decide +kernel⟩
    decide +kernel

/-- The wave's lanes have called. -/
def sCall (shape : Shape → Shape) : State := stB (fun b => { b with
  shape := shape b.shape, waves := [lanesIn (.tcall 0x1010 0x2000 0x1020 16 32) { wv with ws := 176 }] }) .none

theorem witness_CallsAndReturns :
    (∃ s b w site callee ret k ws, getBlock s 1 = some b ∧ nth b.waves 0 = some w ∧ b.core.isSome = true ∧ w.parked = [] ∧
      w.callSite = some (site, callee, ret, k, ws) ∧ w.frames.length < 16 ∧ w.wo + k + ws ≤ w.low + b.shape.rpl) ∧
    (∃ s b w site callee ret k ws, getBlock s 1 = some b ∧ nth b.waves 0 = some w ∧ b.core.isSome = true ∧ w.parked = [] ∧
      w.callSite = some (site, callee, ret, k, ws) ∧ w.frames.length < 16 ∧ w.low + b.shape.rpl < w.wo + k + ws ∧
      spillLimit s b < 4 * (w.low + 16) + 16 * (w.depth + 1)) ∧
    (∃ s b w f fs site, getBlock s 1 = some b ∧ nth b.waves 0 = some w ∧ b.core.isSome = true ∧ w.parked = [] ∧
      w.returnSite = some site ∧ 0 < w.depth ∧ w.frames = f :: fs ∧ w.low ≤ f.wo ∧
      ∀ p ∈ w.vreg, f.wo + f.ws ≤ p.1 / 32 → p.2.fill = .full) :=
  ⟨⟨sCall id, _, _, 0x1010, 0x2000, 0x1020, 16, 32, rfl, rfl, rfl, rfl, by decide +kernel, by decide +kernel, by decide +kernel⟩,
   ⟨sCall fun x => { x with rpl := 16 }, _, _, 0x1010, 0x2000, 0x1020, 16, 32, rfl, rfl, rfl, rfl, by decide +kernel,
      by decide +kernel, by decide +kernel, by decide +kernel⟩,
   ⟨stB (fun b => { b with waves := [lanesIn (.tret 0x1010)
        { wv with depth := 1, wo := 16, frames := [⟨0x40, 0, 16⟩], vreg := [(vkey 20 3, ⟨7, .full⟩)] }] }) .none, _, _,
      ⟨0x40, 0, 16⟩, [], 0x1010, rfl, rfl, rfl, rfl, by decide +kernel, by decide +kernel, rfl, by decide +kernel, by decide +kernel⟩⟩

/-- Two producers of the wave: one fills v5 of lane 2 and a trace's entry, the other, of an atomic, s3; and poison. -/
def sArrive : State := { stW fun w => { inTrace { tr 1 9 with ov := [(vkey 5 2, ⟨0, .pend 7⟩)] } w with
    sreg := [(3, ⟨0, .pend 8⟩)] } with
  pendings := [⟨7, 1, 0, [(.v 5 2, 9)], false, 2, 0, 0x40000000, false, none, 7, none⟩,
    ⟨8, 1, 0, [(.s 3, 0xFF)], false, 2, 0, 0x40000000, true, none, 8, none⟩,
    ⟨9, 1, 0, [(.v 5 2, 9)], true, 2, 0, 0x40000000, false, none, 9, none⟩] }

theorem witness_DataArrives :
    (∃ s : State, ∃ p b w, findPending s 7 = some p ∧ responseDue s p = true ∧ p.atom = false ∧ underRefresh s p.pa = false ∧ getBlock s p.bid = some b ∧
      nth b.waves p.wave = some w ∧ p.lane ≠ seqLane ∧ p.poison = false ∧ w.wants 7 p.dests = true) ∧
    (∃ s : State, ∃ p b w, findPending s 8 = some p ∧ responseDue s p = true ∧ p.atom = true ∧ getBlock s p.bid = some b ∧ nth b.waves p.wave = some w ∧
      p.lane ≠ seqLane ∧ p.poison = false) ∧
    (∃ s : State, ∃ p b w, findPending s 9 = some p ∧ responseDue s p = true ∧ p.atom = false ∧ underRefresh s p.pa = false ∧ getBlock s p.bid = some b ∧
      nth b.waves p.wave = some w ∧ p.lane ≠ seqLane ∧ p.poison = true ∧ w.wants 9 p.dests = true ∧
      (getCtx s b.ctx).lost = false ∧ (getCtx s b.ctx).losing = none) ∧
    (∃ s : State, ∃ p b w q, findPending s 7 = some p ∧ responseDue s p = true ∧ p.atom = false ∧ underRefresh s p.pa = false ∧
      drainAhead s p = false ∧ p.lane = seqLane ∧ p.poison = false ∧ getBlock s p.bid = some b ∧ nth b.waves p.wave = some w ∧
      w.retired = false ∧ b.seq = some q ∧ p.dests = [(.z 4, 9), (.v 5 2, 8)] ∧ (fget fullS q.z 4).fill = .pend 7) := by
  refine ⟨⟨sArrive, _, _, _, rfl, ?_, rfl, ?_, rfl, rfl, ?_, rfl, by decide +kernel⟩,
    ⟨sArrive, _, _, _, rfl, ?_, rfl, rfl, rfl, ?_, rfl⟩,
    ⟨{ sArrive with blocks := (stW fun w => { w with vreg := [(vkey 5 2, ⟨0, .pend 9⟩)] }).blocks }, _, _, _, rfl, ?_, rfl, ?_, rfl,
      rfl, ?_, rfl, by decide +kernel, by decide +kernel, by decide +kernel⟩,
    ⟨{ stB (fun b => { b with seq := some ⟨0x100, [(4, ⟨0, .pend 7⟩)], .running, 0, 0, [], 0⟩ }) with
        pendings := [⟨7, 1, 0, [(.z 4, 9), (.v 5 2, 8)], false, seqLane, 0, 0, false, none, 7, none⟩] }, _, _, _, _, rfl, ?_, rfl, ?_, ?_, rfl,
      rfl, rfl, rfl, rfl, rfl, rfl, rfl⟩⟩ <;> decide +kernel

/-- A watched copy of the first line of a frame, not yet confirmed (R145). -/
def sPending (frame : Nat) : State :=
  withPage (stW (inTrace { tr 1 9 with watch := [⟨9, 3, 0, frame * 1024, .pending 4 2, false⟩] })) 0

theorem witness_WaveEvents :
    (∃ s : State, ∃ o b w core, (s.ops.find? fun o => o.id = 5) = some o ∧ getBlock s o.bid = some b ∧ b.core = some core ∧
      nth b.waves o.wave = some w ∧ o.body = .fence ∧ o.sent = false ∧ o.waits = [] ∧ releaseMet s core o.scope 5 = true) ∧
    (∃ s : State, ∃ a b, (s.arrivals.find? fun a => a.id = 6) = some a ∧ a.waits = [] ∧ getBlock s a.bid = some b ∧
      (getQBar b a.q).ra = 65534) ∧
    (∃ s b w, getBlock s 1 = some b ∧ nth b.waves 0 = some w ∧ b.core.isSome = true ∧ w.retired = false ∧ w.trace = none ∧
      w.path = [] ∧ (∀ l ∈ w.lanes, l.st = .exited) ∧ w.landed = true) ∧
    (∃ s b r, findWatch s 9 = some (b, r) ∧ r.st = .pending 4 2 ∧ ownerOk s (ctxOwner s b.ctx) (r.line * 64) = true ∧
      requestsAhead s (b.core.getD 0) (r.line * 64) = false) ∧
    (∃ s b r, findWatch s 9 = some (b, r) ∧ r.st = .pending 4 2 ∧ ownerOk s (ctxOwner s b.ctx) (r.line * 64) = false ∧
      requestsAhead s (b.core.getD 0) (r.line * 64) = false) ∧
    (∃ s b r, findWatch s 9 = some (b, r) ∧ r.st = .pending 4 2 ∧ requestsAhead s (b.core.getD 0) (r.line * 64) = true) ∧
    (∃ s b w, (oldestPending s 0 0).isSome = true ∧
      leastBy (fun p : Nat × Nat × Wave => p.2.2.since.getD s.tick) ((unitWaves s 0 0).filter fun p => decide (p.2.2.slot < 8) && p.2.2.ready) =
        some (1, 0, w) ∧
      getBlock s 1 = some b ∧ nth b.waves 0 = some w) := by
  refine ⟨⟨{ waits (.op 5) with ops := [⟨5, 1, 0, ~~~0, 0x1010, 0x40, .device, .ar, .fence, false, false, []⟩] }, _, _, _, 0, rfl,
      rfl, rfl, rfl, rfl, rfl, rfl, by decide +kernel⟩,
    ⟨{ stB (fun b => { b with qbars := [(2, ⟨false, 65534⟩)] }) with arrivals := [⟨6, 1, 0, 2, []⟩] }, _, _, rfl, rfl, rfl,
      by decide +kernel⟩,
    ⟨waits .exited, _, _, rfl, rfl, rfl, rfl, rfl, rfl, by decide +kernel, by decide +kernel⟩,
    ⟨sPending 16384, _, _, rfl, rfl, by decide +kernel⟩, ⟨sPending 5, _, _, rfl, rfl, by decide +kernel⟩,
    ⟨{ sPending (0xB40000000 / 65536) with flights := [{ storeOut with place := .phys 0xB40000040 0 false false }] }, _, _, rfl, rfl,
      by decide +kernel⟩,
    ⟨stB (fun b => { b with waves := [wv, { wv with slot := 9, readyAt := some 4 }] }), _, _, by decide +kernel, rfl, rfl, rfl⟩⟩

/-- The answer of a checked operation. -/
def okd {ε α : Type} [Inhabited α] (r : State × Except ε α) : α := match r.2 with
  | .ok v => v
  | .error _ => default

def isOk {ε α : Type} (r : State × Except ε α) : Bool := match r.2 with
  | .ok _ => true
  | .error _ => false

theorem ok_eq {ε α : Type} [Inhabited α] {r : State × Except ε α} (h : isOk r = true) : r = (r.1, .ok (okd r)) := by
  obtain ⟨s, e | v⟩ := r
  · cases h
  · rfl

/-- A sequencer at an address that no page maps. -/
def sNoPage : State := withPage (stB (fun b => { b with seq := some ⟨0x40000010, [], .running, 0, 0, [], 0⟩ }) .none) 0

theorem witness_SequencerFetchFaults : ∃ s s' b q f d va, getBlock s 1 = some b ∧ b.core.isSome = true ∧ b.seq = some q ∧
    q.run = .running ∧ seqFetch s b q = (s', .stop (.exc .pgflt f d va)) ∧ getBlock s' 1 = some b :=
  ⟨sNoPage, (seqFetch sNoPage ((getBlock sNoPage 1).getD default) ⟨0x40000010, [], .running, 0, 0, [], 0⟩).1, _, ⟨0x40000010, [], .running, 0, 0, [], 0⟩,
    0xFF, 0, some 0x40000010, rfl, rfl, rfl, rfl, Prod.ext rfl (by decide +kernel), by decide +kernel⟩

/-- An enabled queue of context 0 with one free place before its ring turns, and a post of two words. -/
def sPost : State :=
  let p := placeWord State.reset 0
  { stW id with
    ctxs := p.ctxs
    owners := fput 0 (fput 0 p.owners 16384 1) 20480 1
    access := p.access
    queues := [(3, { QueueSt.off with ring := 0x50000000, ctx := 0, enabled := true, widx := 63, ridx := 1 })]
    posts := [⟨9, 0, 1, 0, 0, 0, 3, [0x1122334455667788, 5]⟩] }

theorem witness_QueueAppend : ∃ s : State, ∃ p, (s.posts.find? fun p => p.id = 9) = some p ∧
    (∀ x ∈ s.posts, ¬(x.id < p.id ∧ x.core = p.core ∧ x.queue = p.queue)) ∧ releaseMet s p.core .device p.id = true ∧
    p.queue < 4096 ∧ (getQueue s p.queue).enabled = true ∧ (getQueue s p.queue).ctx = p.ctx ∧
    ((getQueue s p.queue).widx - (getQueue s p.queue).ridx).toNat + p.words.length ≤ 2 ^ (getQueue s p.queue).logd ∧
    ∀ i, i < p.words.length →
      let unit := (getQueue s p.queue).ring + 8 * (((getQueue s p.queue).widx.toNat + i) % 2 ^ (getQueue s p.queue).logd)
      masterAns s 0x48 (ctxOwner s p.ctx) unit 8 true = none ∧ fget 0 s.upsets (unit / 64) = 0 ∧ NoMap s unit 8 :=
  ⟨sPost, _, rfl, by decide +kernel, by decide +kernel, by decide +kernel, by decide +kernel, by decide +kernel, by decide +kernel,
    fun i hi => by
      have h : ∀ i, i < 2 → masterAns sPost 0x48 1 (0x50000000 + 8 * ((63 + i) % 64)) 8 true = none ∧
        fget 0 sPost.upsets ((0x50000000 + 8 * ((63 + i) % 64)) / 64) = 0 ∧ noMapB sPost (0x50000000 + 8 * ((63 + i) % 64)) 8 = true := by
        decide +kernel
      obtain ⟨h1, h2, h3⟩ := h i hi
      exact ⟨h1, h2, noMap_of h3⟩⟩

/-- A copy of 64 bytes within the scratchpad, to a line whose byte 20 a wave has stored to since (R97), and one to DRAM;
both of context 0, which maps one page (R108). -/
def cpCmd (dst : Word64) : CopyCmd := ⟨[0xF000000000000000], dst, 0, 64, 2, .device, 0, 0x1010, 0x1000⟩
def sCopy (dst : Word64) (done : List Nat) (bar : Bar) : State :=
  let s := withPage (stB (fun b => { b with absent := [(64, [(3, 0x100000)])], bars := [(2, bar)] }) .none) 0
  { s with copies := [⟨3, 0, 1, 0, 0, cpCmd dst, done, [], [], none, [], []⟩], access := fput 0 s.access (paTarget 0x40000100 * 128) 3 }

def srcChunks (s : State) : State × Except CopyStop (List Chunk) :=
  match s.copies, s.blocks with
  | c :: _, b :: _ => readChunks s b c (chunksOf c.cmd c.cmd.dst)
  | _, _ => (s, .error .wait)

def dstPlace (s : State) : State × Except CopyStop Place :=
  match s.copies, s.blocks with
  | c :: _, b :: _ =>
    let s1 := (srcChunks s).1
    copyPlace s1 { whoOf s1 b 2 with core := c.core, master := c.core } c.cmd.dst true
  | _, _ => (s, .error .wait)

theorem witness_CopyEvents :
    (∃ s s1 s2 c b a xs off b1, (s.copies.find? fun c => c.id = 3) = some c ∧ getBlock s c.bid = some b ∧ b.core.isSome = true ∧
      nth (linesOf c.cmd) 0 = some a ∧ c.stopped = none ∧ channelFree s c = true ∧ 0 ∉ c.done ∧ lineTaken s c a = false ∧
      (∀ l, physLine s b c a = some l → ownedEarlier s c l = false) ∧ readChunks s b c (chunksOf c.cmd a) = (s1, .ok xs) ∧
      (∀ x ∈ xs, x.poison = false ∧ x.bytes.length = 16 ∧ x.j < 4) ∧ (xs.map (·.j)).Nodup ∧
      (xs.length = 4 → xs.map (·.j) = [0, 1, 2, 3]) ∧
      copyPlace s1 { whoOf s1 b 2 with core := c.core, master := c.core } a true = (s2, .ok (.spad off)) ∧
      getBlock s2 c.bid = some b1) ∧
    (∃ s s1 s2 c b a xs pa cp desc, (s.copies.find? fun c => c.id = 3) = some c ∧ getBlock s c.bid = some b ∧ b.core.isSome = true ∧
      nth (linesOf c.cmd) 0 = some a ∧ c.stopped = none ∧ channelFree s c = true ∧ 0 ∉ c.done ∧ lineTaken s c a = false ∧
      (∀ l, physLine s b c a = some l → ownedEarlier s c l = false) ∧ readChunks s b c (chunksOf c.cmd a) = (s1, .ok xs) ∧
      (∀ x ∈ xs, x.poison = false ∧ x.bytes.length = 16 ∧ x.j < 4) ∧ (xs.map (·.j)).Nodup ∧
      (xs.length = 4 → xs.map (·.j) = [0, 1, 2, 3]) ∧
      copyPlace s1 { whoOf s1 b 2 with core := c.core, master := c.core } a true = (s2, .ok (.phys pa cp desc false)) ∧
      pa < ctlBase ∧ homeAns s2 c.core (ctxOwner s1 b.ctx) pa true = .ok ∧ xs.length = 4 ∧ readByCopyLine c.cmd a = false ∧
      requestsAhead s2 c.core pa = false ∧ pageHeld s2 c.core b.ctx a.toNat (.phys pa cp desc false) c.id = false ∧
      NoMap s2 (pa / 64 * 64) 64) ∧
    (∃ s c b, (s.copies.find? fun c => c.id = 3) = some c ∧ getBlock s c.bid = some b ∧ b.core.isSome = true ∧
      (linesOf c.cmd).length ≤ c.done.length ∧ channelFree s c = true ∧ copyAcked s c = true ∧
      (getBar b c.cmd.bar).pb - BitVec.ofNat 64 (c.cmd.rowBytes * c.cmd.srcs.length) = 0 ∧ 0 < (getBar b c.cmd.bar).xa ∧
      2 * (getBar b c.cmd.bar).xa ≤ (getBar b c.cmd.bar).ra.toNat) ∧
    (∃ s c b, (s.copies.find? fun c => c.id = 3) = some c ∧ getBlock s c.bid = some b ∧ b.core.isSome = true ∧
      (linesOf c.cmd).length ≤ c.done.length ∧ channelFree s c = true ∧ copyAcked s c = true ∧
      (getBar b c.cmd.bar).pb - BitVec.ofNat 64 (c.cmd.rowBytes * c.cmd.srcs.length) ≠ 0) := by
  refine ⟨⟨sCopy 0xF000000000001000 [] .init, (srcChunks (sCopy 0xF000000000001000 [] .init)).1,
      (dstPlace (sCopy 0xF000000000001000 [] .init)).1, _, _, 0xF000000000001000, okd (srcChunks (sCopy 0xF000000000001000 [] .init)),
      4096, (getBlock (dstPlace (sCopy 0xF000000000001000 [] .init)).1 1).getD default, rfl, rfl, rfl, by decide +kernel, rfl,
      by decide +kernel, by decide +kernel, by decide +kernel, fun l _ => by decide +kernel +revert,
      ok_eq (r := srcChunks (sCopy 0xF000000000001000 [] .init)) (by decide +kernel), by decide +kernel, by decide +kernel,
      by decide +kernel, Prod.ext rfl (by decide +kernel), by decide +kernel⟩,
    ⟨sCopy 0x100 [] .init, (srcChunks (sCopy 0x100 [] .init)).1, (dstPlace (sCopy 0x100 [] .init)).1, _, _, 0x100,
      okd (srcChunks (sCopy 0x100 [] .init)), 0x40000100, 0, false, rfl, rfl, rfl, by decide +kernel, rfl, by decide +kernel,
      by decide +kernel, by decide +kernel, fun l _ => by decide +kernel +revert,
      ok_eq (r := srcChunks (sCopy 0x100 [] .init)) (by decide +kernel), by decide +kernel, by decide +kernel, by decide +kernel,
      Prod.ext rfl (by decide +kernel), by decide +kernel, by decide +kernel, by decide +kernel, by decide +kernel,
      by decide +kernel, by decide +kernel, noMap_of (by decide +kernel)⟩,
    ⟨sCopy 0x100 [0] ⟨false, .block, 1, 2, 64⟩, _, _, rfl, rfl, by decide +kernel⟩,
    ⟨sCopy 0x100 [0] ⟨false, .block, 1, 1, 128⟩, _, _, rfl, rfl, by decide +kernel⟩⟩

/-- Context 0 is halted on core 0 for another's work: a placing task of context 1; its pool has the frames that a save of
the block takes (R182). -/
def sHalt (h : Option Nat) : State := { stB (fun b => { b with shape := ⟨1, 16, 0, 0, false⟩ }) .none with
  cores := [(0, { CoreSt.init with halted := h })]
  ctxs := [(0, { Ctx.empty with pool := [9] }),
    (1, { placedCtx with desc := placedCtx.desc.map fun d => { d with pblocks := 4, gmap := 0x80000000 } })]
  tasks := [tk 0 0, { tk 0 0 with id := 1, ctx := 1 }] }
/-- The block saved. -/
def sSaved : State := { stB (fun b => { b with core := none, saveFrames := [3] }) .none with tasks := [tk 0 0] }

theorem witness_SlicesAndSaves :
    (∃ s0 s : State, s = barriersFirst s0 ((residents s0 0).filter fun b => b.ctx = 0) ∧
      (∃ b ∈ s.blocks, b.core = some 0 ∧ b.ctx = 0 ∧ blockDone s b = false) ∧ (getCore s 0).halted = none ∧
      hasWork s 0 (fun c => decide (c ≠ 0)) 0 = true) ∧
    (∃ s0 s b, s = tryTbar s0 1 ∧ getBlock s 1 = some b ∧ b.core = some 0 ∧ (getCore s 0).halted = some b.ctx ∧ blockDone s b = false ∧ settled s b = true ∧
      saveSize b.shape ≤ (freePool s b.ctx).length ∧ saveDenied s ((freePool s b.ctx).take (saveSize b.shape)) = none ∧
      ((freePool s b.ctx).take (saveSize b.shape)).all fun f => noMapB s (f * 65536) 65536) ∧
    (∃ s0 s b, s = tryTbar s0 1 ∧ getBlock s 1 = some b ∧ b.core = some 0 ∧ (getCore s 0).halted = none ∧
      stalled s b = true ∧ hasWork s 0 (fun _ => true) 1 = true ∧ blockDone s b = false ∧ settled s b = true ∧
      saveSize b.shape ≤ (freePool s b.ctx).length ∧ saveDenied s ((freePool s b.ctx).take (saveSize b.shape)) = none ∧
      ((freePool s b.ctx).take (saveSize b.shape)).all fun f => noMapB s (f * 65536) 65536) ∧
    (∃ s b places, getBlock s 1 = some b ∧ b.core = none ∧ pagesResolved s b = true ∧ holderWaits s b = false ∧
      restoreOn s b 5 = true ∧ wavePlaces s 5 b.shape.w = some places ∧ places.length = b.waves.length) :=
  ⟨⟨sHalt none, sHalt none, by decide +kernel, ⟨(sHalt none).blocks.headD default, by decide +kernel⟩, by decide +kernel⟩,
   ⟨sHalt (some 0), sHalt (some 0), _, by decide +kernel, rfl, rfl, by decide +kernel⟩,
   ⟨{ sHalt none with blocks := (stB fun b => { b with
        shape := ⟨1, 16, 0, 0, false⟩, waves := [{ wv with parked := [7] }] }).blocks }, _, _, rfl, rfl, rfl,
      by decide +kernel⟩,
   ⟨sSaved, _, [(0, 0)], rfl, rfl, by decide +kernel⟩⟩

/-- Fields of a LAUNCH of one block of one wave at 0x1000. -/
def fLaunch : Fields := { Fields.zero with entry := 0x1000, gx := 1, gy := 1, gz := 1, shape := 0x00000101 }
/-- A queue whose ring holds one record; the contract record of the LAUNCH stands before its entry (R350). -/
def sHead (h : Word64) (f : Fields) (c : Ctx → Ctx) (vs : List Version) : State :=
  let p := placeWord State.reset 0
  { State.reset with
    dram := ((p.dram.writeN 0x50000000 (bytesOfNat 8 h.toNat)).writeN 0x40000FE0 (bytesOfNat 8 0x14C43)).writeN 0x1000
      (bytesOfNat 8 0x50010000)
    owners := fput 0 (fput 0 p.owners 20480 1) 20481 1
    access := p.access
    ctxs := [(0, c placedCtx)]
    queues := [(3, { QueueSt.off with ring := 0x50000000, enabled := true, widx := 1, inh := f })]
    versions := vs
    nextId := 9 }
def record (kind : Nat) : Word64 := BitVec.ofNat 64 (5 * 2 ^ 48 + kind * 2 ^ 40 + 2 ^ 32)
def serve (s : State) : State := { s with cp := { s.cp with served := modifyAt (fun _ => 3) 0 s.cp.served } }

/-- A read of tile 5 of the arena, a write of it, with a task before that writes it. -/
def fTile (wr : Bool) : Fields := { fLaunch with
  rset := if wr then [] else [⟨5, 1, false⟩], wset := if wr then [⟨5, 1, true⟩] else [] }
def inPool (c : Ctx) : Ctx := { c with sched := some ⟨1000, 16, 0, 0x1000, 1⟩ }
def sTile (wr : Bool) : State := { sHead (record 1) (fTile wr) inPool [⟨2, 0, 5, 0x50020000, some 0, none, true⟩] with
  tasks := [{ tk 0 0 with f := fTile true }] }

theorem witness_QueueRecords :
    (∃ (s : State) (v : BitVec 32), (getQueue s 3).enabled = true ∧ (getQueue s 3).frozen = false ∧
      (v - (getQueue s 3).ridx).toNat = 2 ^ (getQueue s 3).logd) ∧
    (∃ (s : State) (v : BitVec 32), (getQueue s 3).enabled = true ∧ (getQueue s 3).frozen = false ∧
      2 ^ (getQueue s 3).logd < (v - (getQueue s 3).ridx).toNat) ∧
    (∃ s s' h f deta, nextQueue s = some 3 ∧ headKind s 3 = some 1 ∧ queueHead (serve s) 3 = (s', .record h f deta) ∧
      hdrKind h = 1 ∧ poolPoison s' (getQueue s 3).ctx = none ∧
      let s' := checkPool s' (getQueue s 3).ctx
      ∀ tile, inArena s' (getQueue s' 3).ctx tile = false) ∧
    (∃ s s' h f deta y, nextQueue s = some 3 ∧ headKind s 3 = some 1 ∧ queueHead (serve s) 3 = (s', .record h f deta) ∧
      hdrKind h = 1 ∧ poolPoison s' (getQueue s 3).ctx = none ∧
      let s' := checkPool s' (getQueue s 3).ctx
      (tilesOf f.rset ++ tilesOf f.wset).eraseDups = [5] ∧ inArena s' (getQueue s' 3).ctx 5 = true ∧
      newestVersion { s' with nextId := s'.nextId + 1 } 0 5 = some y ∧ inSet f.rset 5 = true ∧ inSet f.wset 5 = false) ∧
    (∃ s s' h f deta y fr, nextQueue s = some 3 ∧ headKind s 3 = some 1 ∧ queueHead (serve s) 3 = (s', .record h f deta) ∧
      hdrKind h = 1 ∧ poolPoison s' (getQueue s 3).ctx = none ∧
      let s' := checkPool s' (getQueue s 3).ctx
      (tilesOf f.rset ++ tilesOf f.wset).eraseDups = [5] ∧ inArena s' (getQueue s' 3).ctx 5 = true ∧
      newestVersion { s' with nextId := s'.nextId + 1 } 0 5 = some y ∧ inSet f.wset 5 = true ∧
      (∃ v ∈ s'.tasks, v.ctx = 0 ∧ (readsTile v 5 || writesTile v 5) = true) ∧ (freeArena s' 0).head? = some fr) ∧
    (∃ s s' h f deta, nextQueue s = some 3 ∧ headKind s 3 = some 2 ∧ queueHead (serve s) 3 = (s', .record h f deta) ∧ hdrKind h = 2) ∧
    (∃ s s' h f deta, nextQueue s = some 3 ∧ headKind s 3 = some 3 ∧ queueHead (serve s) 3 = (s', .record h f deta) ∧ hdrKind h = 3) ∧
    (∃ s s' h, nextQueue s = some 3 ∧ headKind s 3 = some 3 ∧ queueHead (serve s) 3 = (s', .refused h) ∧ hdrKind h = 3 ∧
      getQueue s' 3 = getQueue s 3) :=
  ⟨⟨sHead (record 2) .zero id [], 64, by decide +kernel⟩, ⟨sHead (record 2) .zero id [], 65, by decide +kernel⟩,
   ⟨sHead (record 1) fLaunch id [], (queueHead (serve (sHead (record 1) fLaunch id [])) 3).1, record 1, fLaunch, 0, by decide +kernel,
      by decide +kernel, Prod.ext rfl (by decide +kernel), by decide +kernel, by decide +kernel, fun tile => by
        have h : ∀ u : State, (getCtx u (getQueue u 3).ctx).sched = none → inArena u (getQueue u 3).ctx tile = false :=
          fun u h => by simp only [inArena, h]
        exact h _ (by decide +kernel)⟩,
   ⟨sTile false, (queueHead (serve (sTile false)) 3).1, record 1, fTile false, 0, ⟨2, 0, 5, 0x50020000, some 0, none, true⟩, by decide +kernel,
      by decide +kernel, Prod.ext rfl (by decide +kernel), by decide +kernel, by decide +kernel, by decide +kernel, by decide +kernel, by decide +kernel,
      by decide +kernel, by decide +kernel⟩,
   ⟨sTile true, (queueHead (serve (sTile true)) 3).1, record 1, fTile true, 0, ⟨2, 0, 5, 0x50020000, some 0, none, true⟩, 0x50010000,
      by decide +kernel, by decide +kernel, Prod.ext rfl (by decide +kernel), by decide +kernel, by decide +kernel, by decide +kernel,
      by decide +kernel, by decide +kernel, by decide +kernel, ⟨{ tk 0 0 with f := fTile true }, by decide +kernel⟩, by decide +kernel⟩,
   ⟨sHead (record 2) .zero id [], (queueHead (serve (sHead (record 2) .zero id [])) 3).1, record 2, .zero, 0, by decide +kernel,
      by decide +kernel, Prod.ext rfl (by decide +kernel), by decide +kernel⟩,
   ⟨sHead (record 3) .zero id [], (queueHead (serve (sHead (record 3) .zero id [])) 3).1, record 3, .zero, 0, by decide +kernel,
      by decide +kernel, Prod.ext rfl (by decide +kernel), by decide +kernel⟩,
   ⟨sHead (record 3 + 0x80000) .zero id [], (queueHead (serve (sHead (record 3 + 0x80000) .zero id [])) 3).1, record 3 + 0x80000,
      by decide +kernel, by decide +kernel, Prod.ext rfl (by decide +kernel), by decide +kernel, by decide +kernel⟩⟩

def writableB (s : State) (pa n : Nat) : Bool := noMapB s pa n && (piecesOf pa n).all fun p =>
  decide (masterAns s cpMaster 0xFFFF p.1 p.2 true = none) && decide (fget 0 s.upsets (p.1 / 64) = 0)

theorem writable_of {s : State} {pa n : Nat} (h : writableB s pa n = true) : Writable s pa n := by
  obtain ⟨h1, h2⟩ := Bool.and_eq_true_iff.1 h
  exact ⟨noMap_of h1, fun p hp => by simpa using List.all_eq_true.1 h2 p hp⟩

/-- A queue blocked at a SIGNAL or a WAITSIG of context 0; the word at 0x100 is 9. -/
def sBlocked (x : Block1) : State :=
  let s := sHead 0 .zero id []
  { s with
    dram := s.dram.writeN 0x40000100 (bytesOfNat 8 9)
    queues := [(3, { QueueSt.off with ring := 0x50000000, carea := 0x8000, enabled := true, blocked := some x })] }

def sigPlace (x : Block1) : State × Except SigFail Place := cpPlace (sBlocked x) 0 0x100 true
def sigLoad (x : Block1) : State × Except SigFail Word64 := cpLoad (sBlocked x) 0 0x100

theorem witness_SignalEvents :
    (∃ s seq val, (getQueue s 3).blocked = some (.signal seq 0 val) ∧ ∀ t ∈ s.tasks, t.queue ≠ 3) ∧
    (∃ (s s1 : State) (seq : BitVec 16) (addr val : Word64) (pa : Nat) (cp : BitVec 2) (desc : Bool),
      (getQueue s 3).blocked = some (.signal seq addr val) ∧ (∀ t ∈ s.tasks, t.queue ≠ 3) ∧ addr ≠ 0 ∧
      cpPlace s (getQueue s 3).ctx addr true = (s1, .ok (.phys pa cp desc false)) ∧ pa < ctlBase ∧ pa % 8 = 0 ∧
      homeAns s1 cpMaster (ctxOwner s1 (getQueue s 3).ctx) pa true = .ok ∧ fget 0 s1.upsets (pa / 64) = 0 ∧
      getQueue s1 3 = getQueue s 3 ∧ s1.time = s.time ∧ Writable s1 (recordAt s 3) 32) ∧
    (∃ s seq val, (getQueue s 3).blocked = some (.waitsig seq 0 val)) ∧
    (∃ (s s1 : State) (seq : BitVec 16) (addr val v : Word64), (getQueue s 3).blocked = some (.waitsig seq addr val) ∧ addr ≠ 0 ∧
      cpLoad s (getQueue s 3).ctx addr = (s1, .ok v) ∧ getQueue s1 3 = getQueue s 3 ∧ s1.time = s.time ∧ val.toNat = v.toNat) ∧
    (∃ (s s1 : State) (seq : BitVec 16) (addr val v : Word64), (getQueue s 3).blocked = some (.waitsig seq addr val) ∧ addr ≠ 0 ∧
      cpLoad s (getQueue s 3).ctx addr = (s1, .ok v) ∧ getQueue s1 3 = getQueue s 3 ∧ s1.time = s.time ∧ v.toNat < val.toNat) :=
  ⟨⟨sBlocked (.signal 7 0 1), 7, 1, by decide +kernel, by decide +kernel⟩,
   ⟨sBlocked (.signal 7 0x100 1), (sigPlace (.signal 7 0x100 1)).1, 7, 0x100, 1, 0x40000100, 0, false, by decide +kernel,
      by decide +kernel, by decide +kernel, Prod.ext rfl (by decide +kernel), by decide +kernel, by decide +kernel,
      by decide +kernel, by decide +kernel, by decide +kernel, by decide +kernel, writable_of (by decide +kernel)⟩,
   ⟨sBlocked (.waitsig 7 0 1), 7, 1, by decide +kernel⟩,
   ⟨sBlocked (.waitsig 7 0x100 9), (sigLoad (.waitsig 7 0x100 9)).1, 7, 0x100, 9, 9, by decide +kernel, by decide +kernel,
      Prod.ext rfl (by decide +kernel), by decide +kernel, by decide +kernel, by decide +kernel⟩,
   ⟨sBlocked (.waitsig 7 0x100 10), (sigLoad (.waitsig 7 0x100 10)).1, 7, 0x100, 10, 9, by decide +kernel, by decide +kernel,
      Prod.ext rfl (by decide +kernel), by decide +kernel, by decide +kernel, by decide +kernel⟩⟩

/-- A version without its bytes, after another or none; a waiting task. -/
def sVersion (src : Option Nat) : State := { State.reset with
  ctxs := [(0, placedCtx)]
  owners := [(20481, 1), (20482, 1)]
  versions := [⟨2, 0, 5, 0x50020000, some 0, none, true⟩, ⟨3, 0, 5, 0x50010000, some 1, src, false⟩] }
def sWaiting (flags : Word64) (deps : List Nat) : State := { State.reset with
  tasks := [{ tk flags 0 with st := .waiting, deps := deps, f := { fLaunch with flags := flags } }, { tk 0 0 with id := 1 }]
  ctxs := [(0, { placedCtx with desc := placedCtx.desc.map fun d => { d with pblocks := 4 } })] }

theorem witness_VersionsAndDispatch :
    (∃ s : State, ∃ v, (s.versions.find? fun v => decide (v.id = 3) && !v.ready) = some v ∧ v.frame % 65536 = 0 ∧ v.src = none ∧
      v.frame + 65536 ≤ dramEnd ∧ ∀ i, i < 64 → tableOk s i washMaster true = true) ∧
    (∃ s : State, ∃ v y, (s.versions.find? fun v => decide (v.id = 3) && !v.ready) = some v ∧ v.frame % 65536 = 0 ∧
      (v.src.bind fun k => s.versions.find? fun y => y.id = k) = some y ∧ y.frame % 65536 = 0 ∧ y.frame ≠ v.frame ∧
      writerDone s y = true ∧ copyDenied s (ctxOwner s v.ctx) y.frame v.frame = none ∧
      ∀ i, i < 1024 → fget 0 s.upsets (y.frame / 64 + i) = 0) ∧
    (∃ s t, getTask s 0 = some t ∧ t.st = .waiting ∧ (liveDispatchers s).head? = some 0 ∧ ¬∀ k ∈ t.deps, getTask s k = none) ∧
    (∃ s t, getTask s 0 = some t ∧ t.st = .waiting ∧ (liveDispatchers s).head? = some 0 ∧ (∀ k ∈ t.deps, getTask s k = none) ∧
      t.copies = [] ∧ (getCtx s t.ctx).lost = false ∧ t.coop = true ∧ coopFits s t = true ∧ t.det = false) ∧
    (∃ s t, getTask s 0 = some t ∧ t.st = .waiting ∧ (liveDispatchers s).head? = some 0 ∧ (∀ k ∈ t.deps, getTask s k = none) ∧
      t.copies = [] ∧ (getCtx s t.ctx).lost = false ∧ t.coop = true ∧ coopFits s t = false ∧ Writable s (recordAt s t.queue) 32) := by
  refine ⟨⟨sVersion none, _, rfl, rfl, rfl, by decide +kernel, by decide +kernel⟩,
    ⟨sVersion (some 2), _, _, rfl, rfl, rfl, rfl, by decide, by decide +kernel, by decide +kernel, fun i _ => rfl⟩,
    ⟨sWaiting 0 [1], _, rfl, rfl, by decide +kernel, by decide +kernel⟩,
    ⟨sWaiting 2 [7], _, rfl, rfl, by decide +kernel, by decide +kernel, rfl, rfl, by decide +kernel, by decide +kernel, by decide +kernel⟩,
    ⟨{ sWaiting 2 [7] with ctxs := [] }, _, rfl, rfl, by decide +kernel, by decide +kernel, rfl, rfl, by decide +kernel,
      by decide +kernel, writable_of (by decide +kernel)⟩⟩

/-- A placing task of one block. -/
def sPlacing (flags : Word64) : State := { sWaiting 0 [] with
  tasks := [{ tk flags 0 with f := { fLaunch with flags := flags } }] }

def detC : Nat := (detCore (sPlacing 1) ((getTask (sPlacing 1) 0).getD default) 0).getD 0

theorem witness_BlockLaunches :
    (∃ s t p, getTask s 0 = some t ∧ physicalOf s 5 = some p ∧ canLaunch s t 5 p = true ∧ t.det = false ∧
      (∀ v ∈ s.tasks, ahead v t = true → canLaunch s v 5 p = false) ∧ nextIndex s t 5 0 = some 0) ∧
    (∃ s t p c, getTask s 0 = some t ∧ physicalOf s c = some p ∧ canLaunch s t c p = true ∧ t.det = true ∧
      (detCore s t 0).isSome = true ∧ (∀ v ∈ s.tasks, ahead v t = true → canLaunch s v c p = false) ∧ nextIndex s t c 0 = some 0) :=
  ⟨⟨sPlacing 0, _, 5, rfl, by decide +kernel, by decide +kernel, by decide +kernel, by decide +kernel, by decide +kernel⟩,
   ⟨sPlacing 1, _, (physicalOf (sPlacing 1) detC).getD 0, detC, rfl, by decide +kernel, by decide +kernel, by decide +kernel,
      by decide +kernel, by decide +kernel, by decide +kernel⟩⟩

theorem witness_TaskEnds :
    (∃ s b t, getBlock s 1 = some b ∧ b.core = some 0 ∧ blockDone s b = true ∧ releaseMet s 0 .device (b.ended.getD s.nextId) = true ∧
      getTask s b.task = some t ∧ t.ended + 1 = taskSize t ∧ b.lin = t.ticket) ∧
    (∃ s t, getTask s 0 = some t ∧ t.st = .ending ∧ t.det = false ∧ (getCtx s t.ctx).lost = false ∧ (∀ f ∈ s.flights, f.task ≠ 0) ∧ peersBusy s 0 = false ∧
      t.f.sigAddr = 0) :=
  ⟨⟨{ stB (fun b => { b with waves := [{ wv with retired := true }], seq := none }) .none with tasks := [tk 0 0] }, _, tk 0 0, rfl,
      rfl, by decide +kernel⟩,
   ⟨{ State.reset with tasks := [{ tk 0 0 with st := .ending, ended := 1 }] }, _, rfl, rfl, by decide +kernel⟩⟩

/-- The CP's ring holds one command; the bytes `d` stand at 0x3000. -/
def sCmd (bs d : List Byte) (f : State → State) : State :=
  let m : Memory := Memory.writeN [] 0x2000 bs
  f { State.reset with
    dram := m.writeN 0x3000 d
    cp := { State.reset.cp with ring := 0x2000, log := 4, widx := 1 } }
/-- A command: its code, its tag 0x1234, its bytes from 8 on. -/
def cmd (code : Byte) (args : List Byte) : List Byte := [code, 0, 0x34, 0x12, 0, 0, 0, 0] ++ args
def hd : CmdHead := ⟨0x1234, false⟩
def le (n v : Nat) : List Byte := bytesOfNat n v

theorem fetch_eq {s : State} {i : Instr} (h : (fetchCommand s).2 = some i) : fetchCommand s = ((fetchCommand s).1, some i) :=
  Prod.ext rfl h

theorem some_eq {α : Type} {r : State × Option α} {v : α} (h : r.2 = some v) : r = (r.1, some v) := Prod.ext rfl h

/-- A claim changes no home's answer. -/
theorem writable_claim {s : State} {d : CtxDesc} {pa n : Nat} (h : Writable s pa n) : Writable (claimMap s d) pa n := by
  obtain ⟨_, _, _, _, _, e, -⟩ := claimEntries_only s d (List.range 512)
  rw [claimMap, e]
  exact h

/-- R108's, R162's and R154's descriptors; a list of one frame. -/
def dCtx : List Byte := le 2 1 ++ le 2 1 ++ le 4 0 ++ le 8 0x80000000 ++ le 8 0 ++ le 4 16 ++ le 4 64 ++ le 8 4 ++ le 8 0 ++
  le 2 10 ++ le 2 20 ++ le 12 0
def dSched : List Byte := le 4 1000 ++ le 4 16 ++ le 8 0 ++ le 8 0 ++ le 4 0 ++ le 4 0
def dQueue : List Byte := le 8 0x50000000 ++ [6, 2] ++ le 6 0 ++ le 8 0x8000 ++ le 8 4 ++ le 12 0 ++ le 20 0
def withTask (s : State) : State := { s with tasks := [tk 0 0] }
def withCtx (s : State) : State := { s with ctxs := [(0, placedCtx)] }

theorem witness_InstallCommands :
    (∃ s z i h, fetchCommand s = (z, some i) ∧ cmdHead i = some h ∧ h.resv = true ∧ Writable z (cmdAddr z + 4) 4) ∧
    (∃ s z i h c, fetchCommand s = (z, some i) ∧ cmdHead i = some h ∧ i = .cpCommandUnknown h c ∧ Writable z (cmdAddr z + 4) 4) ∧
    (∃ s z s1 bs d, fetchCommand s = (z, some (.ctxset hd 0 0x3000)) ∧ cmdRead z (some 0) 0x3000 64 = (s1, some bs) ∧
      ctxDesc bs = some d ∧ (∀ t ∈ s1.tasks, t.ctx ≠ 0) ∧
      Writable (claimMap (modCtx s1 0 fun x => { x with desc := some d, lost := false }) d) (cmdAddr s1 + 4) 4) ∧
    (∃ s z s1 bs d, fetchCommand s = (z, some (.ctxset hd 0 0x3000)) ∧ cmdRead z (some 0) 0x3000 64 = (s1, some bs) ∧
      ctxDesc bs = some d ∧ ∃ t ∈ s1.tasks, t.ctx = 0) ∧
    (∃ s z s1 bs r, fetchCommand s = (z, some (.schedset hd 0 0x3000)) ∧ cmdRead z (some 0) 0x3000 32 = (s1, some bs) ∧
      schedRec bs = some r ∧ ∀ t ∈ s1.tasks, t.ctx ≠ 0) ∧
    (∃ s z s1 bs r, fetchCommand s = (z, some (.schedset hd 0 0x3000)) ∧ cmdRead z (some 0) 0x3000 32 = (s1, some bs) ∧
      schedRec bs = some r ∧ ∃ t ∈ s1.tasks, t.ctx = 0) ∧
    (∃ s z s1 bs x, fetchCommand s = (z, some (.qset hd 4095 0x3000)) ∧ cmdRead z (queueOwner z 4095) 0x3000 64 = (s1, some bs) ∧
      queueDesc bs = some x ∧ ownedByHyp s1 x.carea (32 * 2 ^ x.logc) = true ∧ (getCtx s1 x.ctx).desc.isSome = true) ∧
    (∃ s z, fetchCommand s = (z, some (.qstop hd 4095))) ∧
    (∃ s z s1 bs, fetchCommand s = (z, some (.savepool hd 4095 0x3000 1)) ∧ cmdRead z (some 4095) 0x3000 8 = (s1, some bs) ∧
      ∀ a ∈ (List.range 1).map fun i => natOf ((bs.drop (8 * i)).take 8), a % 65536 = 0 ∧ ownedByHyp s1 a 65536 = true) ∧
    (∃ s z, fetchCommand s = (z, some (.meter hd 63 100))) :=
  ⟨⟨sCmd (cmd 4 (le 2 3 ++ [1])) [] id, _, .qstop ⟨0x1234, true⟩ 3, ⟨0x1234, true⟩, fetch_eq (by decide +kernel), rfl, rfl,
      writable_of (by decide +kernel)⟩,
   ⟨sCmd (cmd 0x3F []) [] id, _, .cpCommandUnknown hd 0x3F, hd, 0x3F, fetch_eq (by decide +kernel), rfl, rfl,
      writable_of (by decide +kernel)⟩,
   ⟨sCmd (cmd 1 (le 8 0 ++ le 8 0x3000)) dCtx id, _, _, dCtx, ⟨1, 1, 0x80000000, 0, 16, 64, 4, 0, 10, 20⟩, fetch_eq (by decide +kernel),
      some_eq (by decide +kernel), by decide +kernel, by decide +kernel, writable_claim (writable_of (by decide +kernel))⟩,
   ⟨sCmd (cmd 1 (le 8 0 ++ le 8 0x3000)) dCtx withTask, _, _, dCtx, ⟨1, 1, 0x80000000, 0, 16, 64, 4, 0, 10, 20⟩,
      fetch_eq (by decide +kernel), some_eq (by decide +kernel), by decide +kernel, ⟨tk 0 0, by decide +kernel⟩⟩,
   ⟨sCmd (cmd 2 (le 8 0 ++ le 8 0x3000)) dSched id, _, _, dSched, ⟨1000, 16, 0, 0, 0⟩, fetch_eq (by decide +kernel),
      some_eq (by decide +kernel), by decide +kernel, by decide +kernel⟩,
   ⟨sCmd (cmd 2 (le 8 0 ++ le 8 0x3000)) dSched withTask, _, _, dSched, ⟨1000, 16, 0, 0, 0⟩, fetch_eq (by decide +kernel),
      some_eq (by decide +kernel), by decide +kernel, ⟨tk 0 0, by decide +kernel⟩⟩,
   ⟨sCmd (cmd 3 (le 8 4095 ++ le 8 0x3000)) dQueue withCtx, _, _, dQueue, ⟨0x50000000, 6, 2, 0, 0x8000, 4, 0, 0, 0, true, false, .zero, none⟩,
      fetch_eq (by decide +kernel), some_eq (by decide +kernel), by decide +kernel, by decide +kernel, by decide +kernel⟩,
   ⟨sCmd (cmd 4 (le 8 4095)) [] id, _, fetch_eq (by decide +kernel)⟩,
   ⟨sCmd (cmd 5 (le 8 4095 ++ le 8 0x3000 ++ le 4 1)) (le 8 0x30000) id, _, _, le 8 0x30000, fetch_eq (by decide +kernel),
      some_eq (by decide +kernel), by decide +kernel⟩,
   ⟨sCmd (cmd 10 (le 4 63 ++ le 4 100)) [] id, _, fetch_eq (by decide +kernel)⟩⟩

/-- Lane 0 is trapped by record 5 of context 0, at BRK. -/
def withTrap (s : State) : State := { s with blocks := (waits (.trapped 5 .brkpt false 0x1010)).blocks }
/-- The block's sequencer is stopped by record 6, of a TRAP (R298, R334). -/
def withStop (s : State) : State := { s with blocks := (stB fun b => { b with
  seq := some ⟨0x4000, [], .stopped 6 true, 0, 0, [], 0⟩ }).blocks }
/-- A granary copy's source may be read by the context that maps the region; here the CP's own (R459). -/
theorem witness_ActingCommands :
    (∃ s z, fetchCommand s = (z, some (.ownset hd (dramEnd / 65536 - 1) 1 7)) ∧
      (∀ i, i < 1 → fget false z.gone (dramEnd / 65536 - 1 + i) = false) ∧ ∀ i, i < 64 → tableOk z i washMaster true = true) ∧
    (∃ s z, fetchCommand s = (z, some (.tlbinv hd 4095 1 0)) ∧ writesPending z 4095 1 0 = false) ∧
    (∃ s z, fetchCommand s = (z, some (.tlbinv hd 1 1 0)) ∧ writesPending z 1 1 0 = true) ∧
    (∃ s z, fetchCommand s = (z, some (.pgdone hd 0 0x10000))) ∧
    (∃ s z, fetchCommand s = (z, some (.grancopy hd 3 (2 ^ 28 - 64) 0x3000 64)) ∧ tableOk z (64 + 3) 0x48 true = true ∧
      let y := checkMaps z
      sourceDenied y (copyOwners y 3 (2 ^ 28 - 64) 64) 0x3000 64 = none ∧ regionBusy y 3 (2 ^ 28 - 64) 64 = false ∧
      (∀ b, b < 32 → fget false y.retiredBanks (32 * 3 + b) = false) ∧
      ∀ i, i < 64 → fget 0 (claimRange y 3 (2 ^ 28 - 64) 64).upsets ((0x3000 + i) / 64) = 0) ∧
    (∃ s z, (getCtx z 0).lost = false ∧ fetchCommand s = (z, some (.resume hd (0 * 2 ^ 32 + 5))) ∧
      (∀ r ∈ (getCtx z 0).held, r.seq % 2 ^ 32 ≠ 5) ∧
      ∃ b ∈ z.blocks, b.ctx = 0 ∧ ∃ w ∈ b.waves, ∃ y ∈ w.lanes, (match y.st with
        | .trapped r e post _ => decide (r % 2 ^ 32 = 5) && !resumeRefused e post
        | _ => false) = true) ∧
    (∃ s z, (getCtx z 0).lost = false ∧ fetchCommand s = (z, some (.resume hd (0 * 2 ^ 32 + 6))) ∧
      (∀ r ∈ (getCtx z 0).held, r.seq % 2 ^ 32 ≠ 6) ∧
      ∃ b ∈ z.blocks, b.ctx = 0 ∧ ∃ q, b.seq = some q ∧ q.run = .stopped 6 true) ∧
    (∃ s z, fetchCommand s = (z, some (.kill hd 0)) ∧ (getCtx z 0).losing = none ∧ ∀ t ∈ z.tasks, t.ctx ≠ 0) ∧
    (∃ s z, fetchCommand s = (z, some (.kill hd 0)) ∧ (getCtx z 0).losing = none ∧ (getCtx z 0).lost = true) ∧
    (∃ s z, fetchCommand s = (z, some (.kill hd 0)) ∧ (getCtx z 0).losing = none ∧ (∃ t ∈ z.tasks, t.ctx = 0) ∧
      (getCtx z 0).lost = false ∧ lossWaits z 0 = false) ∧
    (∃ s z, fetchCommand s = (z, some (.kill hd 0)) ∧ (getCtx z 0).losing = none ∧ (∃ t ∈ z.tasks, t.ctx = 0) ∧
      (getCtx z 0).lost = false ∧ ∃ f ∈ z.flights, f.ctx = 0 ∧ f.held = false) ∧
    (∃ s z, fetchCommand s = (z, some (.kill hd 0)) ∧ (getCtx z 0).losing ≠ none) ∧
    (∃ s z s1 n, fetchCommand s = (z, some (.quote hd 0x3000 0x4000)) ∧ masterAns z 0x48 0xFFFF 0x3000 32 false = none ∧
      masterAns z 0x48 0xFFFF 0x4000 352 true = none ∧ cmdRead z none 0x3000 32 = (s1, some n) ∧ Writable s1 0x4000 352) :=
  ⟨⟨sCmd (cmd 6 (le 8 0 ++ le 8 (dramEnd / 65536 - 1) ++ le 4 1 ++ le 2 7)) [] id, _, fetch_eq (by decide +kernel), by decide +kernel,
      by decide +kernel⟩,
   ⟨sCmd (cmd 7 (le 2 4095 ++ [1])) [] id, _, fetch_eq (by decide +kernel), by decide +kernel⟩,
   ⟨sCmd (cmd 7 (le 2 1 ++ [1])) [] fun s => { withCtx s with flights := [storeOut] }, _, fetch_eq (by decide +kernel), by decide +kernel⟩,
   ⟨sCmd (cmd 8 (le 8 0 ++ le 8 0x10000)) [] id, _, fetch_eq (by decide +kernel)⟩,
   ⟨sCmd (cmd 9 (le 4 3 ++ le 4 (2 ^ 28 - 64) ++ le 8 0x3000 ++ le 8 64)) [] id, _, fetch_eq (by decide +kernel), by decide +kernel,
      by decide +kernel, by decide +kernel, by decide +kernel, by decide +kernel⟩,
   ⟨sCmd (cmd 11 (le 8 5)) [] withTrap, _, by decide +kernel, fetch_eq (by decide +kernel), by decide +kernel,
      ⟨(withTrap State.reset).blocks.headD default, by decide +kernel, by decide +kernel, by decide +kernel⟩⟩,
   ⟨sCmd (cmd 11 (le 8 6)) [] withStop, _, by decide +kernel, fetch_eq (by decide +kernel), by decide +kernel,
      ⟨(withStop State.reset).blocks.headD default, by decide +kernel, by decide +kernel, _, rfl, by decide +kernel⟩⟩,
   ⟨sCmd (cmd 12 (le 8 0)) [] id, _, fetch_eq (by decide +kernel), by decide +kernel⟩,
   ⟨sCmd (cmd 12 (le 8 0)) [] fun s => modCtx s 0 fun x => { x with lost := true }, _, fetch_eq (by decide +kernel), by decide +kernel⟩,
   ⟨sCmd (cmd 12 (le 8 0)) [] withTask, _, fetch_eq (by decide +kernel), by decide +kernel, ⟨tk 0 0, by decide +kernel⟩, by decide +kernel⟩,
   ⟨sCmd (cmd 12 (le 8 0)) [] fun s => { withTask s with flights := [storeOut] }, _, fetch_eq (by decide +kernel), by decide +kernel,
      ⟨tk 0 0, by decide +kernel⟩, by decide +kernel, storeOut, by decide +kernel⟩,
   ⟨sCmd (cmd 12 (le 8 0)) [] fun s => modCtx s 0 fun x => { x with lost := true, losing := some ⟨9, 1, false⟩ }, _,
      fetch_eq (by decide +kernel), by decide +kernel⟩,
   ⟨sCmd (cmd 13 (le 8 0 ++ le 8 0x3000 ++ le 8 0x4000)) [] id, _, _, List.replicate 32 0, fetch_eq (by decide +kernel), by decide +kernel,
      by decide +kernel, some_eq (by decide +kernel), writable_of (by decide +kernel)⟩⟩

/-- A block of DRAM with stored bits flipped; a core that launches no more; a capped die's opposite. -/
def sUpset (n : Nat) : State := { State.reset with upsets := [(5, n)] }
def sClosing (c : Option (Nat × Nat)) : State := { State.reset with cores := [(3, { CoreSt.init with closing := some c })] }

theorem witness_DeviceEvents :
    (∃ s : State, fget 0 s.upsets 5 = 0) ∧
    (∃ s : State, fget 0 s.upsets 5 = 1 ∧ fget 0 s.buckets (bucketKey (.frame 0)) + 1 < 16 ∧ s.plog.base = 0 ∧
      ∀ c ∈ s.ctxs, c.2.vq.v = false) ∧
    (∃ s : State, 2 ≤ fget 0 s.upsets 5 ∧ fget 0 s.buckets (bucketKey (.frame 0)) < 16 ∧ s.plog.base = 0 ∧
      ∀ c ∈ s.ctxs, c.2.vq.v = false) ∧
    (∃ s : State, fget 0 s.gupsets (2 ^ 24 - 1) = 0) ∧
    (∃ s : State, frising none s.ctxs = true ∧ (getCtx s 0).desc.isSome = true) ∧
    (∃ s : State, (∀ b ∈ s.blocks, b.core ≠ some 3) ∧ inService s 3 = true ∧ (getCore s 3).closing = some (some (15, 32)) ∧
      fullLanes s 3 (15, 32) = [(15, 32)] ∧ ffind (getCore s 3).spare 15 = none) ∧
    (∃ s : State, (∀ b ∈ s.blocks, b.core ≠ some 3) ∧ inService s 3 = true ∧ (getCore s 3).closing = some none) ∧
    (∃ s : State, fget false s.deadDisp 3 = false ∧ fget .normal s.thermal 3 = .normal) ∧
    (∃ s : State, fget false s.deadDisp 0 = false ∧ ∃ b ∈ s.blocks, onDie s 0 b = true ∧ (getCtx s b.ctx).losing = none) ∧
    (∃ n, 1000000 ≤ n ∧ n ≤ 2800000) :=
  ⟨⟨State.reset, rfl⟩, ⟨sUpset 1, by decide +kernel⟩, ⟨sUpset 2, by decide +kernel⟩, ⟨State.reset, rfl⟩,
   ⟨withCtx State.reset, by decide +kernel⟩, ⟨sClosing (some (15, 32)), by decide +kernel⟩, ⟨sClosing none, by decide +kernel⟩,
   ⟨State.reset, rfl, rfl⟩, ⟨sSeq, by decide +kernel, blk, by decide +kernel⟩, ⟨1000000, by decide⟩⟩

/-- A store of core 0 to a home on die 1, in the replay buffer of link 0 as its flit 3 (R460). -/
def sLink (d : LinkDirSt → LinkDirSt) : State := { State.reset with
  dirs := [(0, d { LinkDirSt.init with next := 4, unacked := [(2, 6), (3, 7)], expected := 3 })]
  flights := [⟨7, 7, 0, 1, 0, 0, 0, 1, 0, 0, 0x1010, 0x40, .phys 0xB40000000 0 false false, .store [1], false, 0, false, 1, false⟩] }

theorem witness_LinkEvents :
    (∃ s, realDir ⟨0, false⟩ = some 0 ∧ (getDir s 0).nak = false) ∧ (∃ s, (getDir s 0).nak = true) ∧
    (∃ (s : State) (f : Flight), (3 : BitVec 10) = (getDir s 0).expected ∧ (3, 7) ∈ (getDir s 0).unacked ∧
      (s.flights.find? fun f => f.id = 7) = some f ∧ flightHome f = dirTo 0 ∧ flightThere s f = false) ∧
    (∃ s : State, (3 : BitVec 10) = (getDir s 0).expected ∧ (3, 9) ∈ (getDir s 0).unacked ∧ (∀ f ∈ s.flights, f.id ≠ 9) ∧
      ffind s.traffic 9 = some (dirTo 0)) ∧
    (∃ s, (2 : BitVec 10) ≠ (getDir s 0).expected ∧ ((getDir s 0).expected - 2).toNat = 1 ∧ (getDir s 0).waiting = []) ∧
    (∃ s, (3 : BitVec 10) ≠ (getDir s 0).expected + 512 ∧ ((getDir s 0).expected - (getDir s 0).expected - 512).toNat = 512 ∧
      (getDir s 0).waiting = []) ∧
    (∃ s : State, (getDir s 0).waiting = [] ∧ (getDir s 0).unacked = [(2, 6)] ++ (3, 7) :: [] ∧ ∀ x ∈ [((2 : BitVec 10), 6)], x.1 ≠ 3) ∧
    (∃ s : State, ∀ x ∈ (getDir s 0).unacked, x.1 ≠ 5) ∧
    (∃ s, 512 < ((getDir s 0).expected - 5).toNat) ∧ realDir ⟨4, false⟩ = none ∧
    (∃ s, ((getDir s 0).unacked.dropWhile fun x => x.1 ≠ 3) ≠ [] ∧ (getDir s 0).unacked ≠ [] ∧ (getLink s 0).bucket + 1 < 256 ∧
      s.plog.base = 0) :=
  ⟨⟨sLink id, by decide +kernel⟩, ⟨sLink fun d => { d with nak := true }, by decide +kernel⟩, ⟨sLink id, _, rfl, by decide +kernel, rfl,
    by decide +kernel, by decide +kernel⟩, ⟨{ sLink fun d => { d with unacked := [(3, 9)] } with traffic := [(9, 1)] }, by decide +kernel⟩,
    ⟨sLink id, by decide +kernel⟩, ⟨sLink id, by decide +kernel⟩, ⟨sLink id, by decide +kernel⟩, ⟨sLink id, by decide +kernel⟩,
    ⟨sLink id, by decide +kernel⟩, rfl,
    ⟨sLink id, by decide +kernel⟩⟩

/-- The tables of R361: peer 0 has the source address 9 and is up, with ports 1 and 4; window 0 is 64 KiB at 0x10000,
for owner 0xFFFF; the permission byte of the window. The transport may read and write. -/
def netBytes : List (Nat × Byte) := [(0, 9), (18, 0x12), (20, 1), (0x4002, 1), (0x400A, 1), (0x4010, 0xFF), (0x4011, 0xFF), (0x4012, 3),
  (0x4013, 1)]
def sNet : State := { State.reset with
  netTab := netBytes
  netSeen := [(9, 4)]
  access := fput 0 State.reset.access (paTarget 0x10040 * 128 + 0x4A) 3 }
def rq (a : Access) : NetRequest := ⟨9, 5, some 4, 0, 64, a⟩
/-- Requests to peer 0 not yet answered. -/
def sOut : State := { sNet with
  blocks := [blk]
  netOut := [⟨7, 7, 0, 0, .write [1, 2], 1, 0, 1, 0, 0, 0, 0, 0x1010, 0x40, none, 1, 1, none⟩,
    ⟨8, 8, 0, 0, .read 4, 1, 0, 1, 0, 0, 0, 0, 0x1010, 0x40, none, 1, 4, some ⟨11, [.v 3 0], false, []⟩⟩] }
/-- The same, to a peer that is given up; the wave's trace waits for the read. -/
def sDown : State := { sOut with
  netTab := []
  blocks := (stW (inTrace { tr 1 9 with ov := [(vkey 3 0, ⟨0, .pend 11⟩)] })).blocks }

theorem inTurn {s : State} {a : Access} (h : (9, 4) ∈ s.netSeen) : ∀ q, (rq a).prior = some q → ((rq a).src, q) ∈ s.netSeen := by
  rintro q ⟨⟩
  exact h

theorem witness_NetworkEvents :
    (∃ s r, ((r : NetRequest).src, r.seq) ∈ (s : State).netSeen) ∧
    (∃ s r q, ((r : NetRequest).src, r.seq) ∉ (s : State).netSeen ∧ r.prior = some q ∧ (r.src, q) ∉ s.netSeen) ∧
    (∃ s r c, ((r : NetRequest).src, r.seq) ∉ (s : State).netSeen ∧ (∀ q, r.prior = some q → (r.src, q) ∈ s.netSeen) ∧ failedCheck s r = some c ∧ c ≠ 5 ∧ s.plog.base = 0) ∧
    (∃ s r, ((r : NetRequest).src, r.seq) ∉ (s : State).netSeen ∧ (∀ q, r.prior = some q → (r.src, q) ∈ s.netSeen) ∧ failedCheck s r = none ∧ r.access = .read 8 ∧
      natOf ((List.range 8).map fun i => fget 0 s.netTab (0x4000 + 32 * r.window + i)) + r.offset = 0x10040 ∧
      transportDenied s 0x10040 8 false = false ∧ masterWaits s 0x10040 8 = false ∧
      ∀ p ∈ piecesOf 0x10040 8, fget 0 s.upsets (p.1 / 64) = 0 ∧ fget false s.dpoison (p.1 / 64) = false) ∧
    (∃ s r, ((r : NetRequest).src, r.seq) ∉ (s : State).netSeen ∧ (∀ q, r.prior = some q → (r.src, q) ∈ s.netSeen) ∧ failedCheck s r = none ∧ r.access = .write [1, 2, 3] ∧
      natOf ((List.range 8).map fun i => fget 0 s.netTab (0x4000 + 32 * r.window + i)) + r.offset = 0x10040 ∧
      transportDenied s 0x10040 3 true = false ∧ NoMap s 0x10040 3 ∧ masterWaits s 0x10040 3 = false ∧
      ∀ p ∈ piecesOf 0x10040 3, fget 0 s.upsets (p.1 / 64) = 0) ∧
    (∃ s : State, ∃ n, (s.netOut.find? fun n => n.id = 7) = some n ∧ peerUp s n.peer = true ∧ n.access = .write [1, 2] ∧ n.ret = none ∧ fget 0 s.netTab (64 * n.peer + 20) = 1 ∧
      (fget 0 s.netTab (64 * n.peer + 18)).getLsbD 4 = true ∧ s.portsUp.getLsbD 4 = true) ∧
    (∃ s : State, ∃ n, (s.netOut.find? fun n => n.id = 7) = some n ∧ fget 0 s.netTab (64 * n.peer + 20) = 1 ∧ s.portsUp = 0) ∧
    (∃ s : State, ∃ n r, (s.netOut.find? fun n => n.id = 8) = some n ∧ peerUp s n.peer = true ∧ n.access = .read 4 ∧ n.ret = some r ∧
      [1, 2, 3, 4].length = 4) ∧
    (∃ s : State, ∃ n b w, (s.netOut.find? fun n => n.id = 7) = some n ∧ getBlock s n.bid = some b ∧ nth b.waves n.wave = some w ∧
      n.lane < 64 ∧ peerUp s n.peer = false ∧ n.access = .write [1, 2] ∧ n.ret = none) ∧
    (∃ s : State, ∃ n b w r t, (s.netOut.find? fun n => n.id = 8) = some n ∧ getBlock s n.bid = some b ∧ nth b.waves n.wave = some w ∧
      n.lane < 64 ∧ peerUp s n.peer = false ∧ n.access = .read 4 ∧ n.ret = some r ∧ w.trace = some t ∧ .v 3 0 ∈ r.dests ∧
      t.awaits (.v 3 0) r.id = true) :=
  ⟨⟨{ sNet with netSeen := [(9, 5)] }, rq (.read 8), by decide +kernel⟩, ⟨State.reset, rq (.read 8), 4, by decide +kernel⟩,
   ⟨{ State.reset with netSeen := [(9, 4)] }, rq (.read 8), 1, by decide +kernel, inTurn (by decide +kernel), by decide +kernel⟩,
   ⟨sNet, rq (.read 8), by decide +kernel, inTurn (by decide +kernel), by decide +kernel⟩,
   ⟨sNet, rq (.write [1, 2, 3]), by decide +kernel, inTurn (by decide +kernel), by decide +kernel, by decide +kernel, by decide +kernel,
      by decide +kernel, noMap_of (by decide +kernel), by decide +kernel⟩,
   ⟨sOut, _, rfl, by decide +kernel, rfl, rfl, rfl, rfl, rfl⟩, ⟨{ sOut with portsUp := 0 }, _, rfl, rfl, rfl⟩,
   ⟨sOut, _, _, rfl, by decide +kernel, rfl, rfl, rfl⟩, ⟨sDown, _, _, _, rfl, rfl, rfl, by decide, by decide +kernel, rfl, rfl⟩,
   ⟨sDown, _, _, _, _, _, rfl, rfl, rfl, by decide, by decide +kernel, rfl, rfl, rfl, by decide +kernel, by decide +kernel⟩⟩

/-- The host, or a reeve, may reach DRAM at 0x10040; a line of it is 0x41. -/
def sHost : State := { State.reset with access := fput 0 State.reset.access (paTarget 0x10040 * 128 + 0x49) 3 }

/-- The boot is done (R363). -/
def sBooted : State := { State.reset with rot := { State.reset.rot with phase := .done } }

theorem witness_MasterAccesses :
    (∃ s : State, 2 ^ 38 - 8 + 8 ≤ 2 ^ 38 ∧ masterWaits s (2 ^ 38 - 8) (min 8 (dramEnd - (2 ^ 38 - 8))) = false ∧ dramEnd ≤ 2 ^ 38 - 8) ∧
    (∃ s : State, masterWaits s (dramEnd - 4) (min 8 (dramEnd - (dramEnd - 4))) = false ∧
      masterAns s 0x49 s.hostown.toNat (dramEnd - 4) (min 8 (dramEnd - (dramEnd - 4))) false = none ∧
      ∀ p ∈ piecesOf (dramEnd - 4) (min 8 (dramEnd - (dramEnd - 4))), fget 0 s.upsets (p.1 / 64) = 0 ∧ fget false s.dpoison (p.1 / 64) = false) ∧
    (∃ s : State, masterWaits s 0x10040 8 = false ∧ masterAns s 0x49 s.hostown.toNat 0x10040 8 false = none ∧
      (∀ p ∈ piecesOf 0x10040 8, fget 0 s.upsets (p.1 / 64) = 0) ∧ ∃ p ∈ piecesOf 0x10040 8, fget false s.dpoison (p.1 / 64) = true) ∧
    (∃ (s : State) (a : Nat), masterWaits s 0x10040 8 = false ∧ s.plog.base = 0 ∧
      masterAns s 0x49 s.hostown.toNat 0x10040 8 false = some (a, .table)) ∧
    (∃ (s : State) (a : Nat), masterWaits s 0x10040 8 = false ∧ s.plog.base = 0 ∧
      masterAns s 0x49 s.hostown.toNat 0x10040 8 false = some (a, .owner 0xFFFF)) ∧
    (∃ (s : State) (a : Nat), masterWaits s 0x10040 3 = false ∧ s.plog.base = 0 ∧ piecesOf 0x10040 3 = [(0x10040, 3)] ∧
      masterAns s 0x49 s.hostown.toNat 0x10040 3 true = some (a, .table)) ∧
    (∃ (s : State) (a : Nat), masterWaits s 0x10040 3 = false ∧ s.plog.base = 0 ∧ piecesOf 0x10040 3 = [(0x10040, 3)] ∧
      masterAns s 0x49 s.hostown.toNat 0x10040 3 true = some (a, .owner 0xFFFF)) ∧
    (∃ s : State, masterWaits s 0x10040 3 = false ∧ masterAns s 0x49 s.hostown.toNat 0x10040 3 true = none ∧ NoMap s 0x10040 3 ∧
      ∀ p ∈ piecesOf 0x10040 3, fget 0 s.upsets (p.1 / 64) = 0) ∧
    (∃ s : State, s.rot.phase ≠ .done) ∧
    (∃ s : State, s.rot.phase = .done ∧ masterWaits s 0x1003C 8 = false ∧ NoMap s 0x1003C 8 ∧ masterAns s (0x40 + 7) 0xFFFF 0x1003C 8 false = none ∧
      masterAns s (0x40 + 7) 0xFFFF 0x1003C 8 true = none ∧
      ∀ p ∈ piecesOf 0x1003C 8, fget 0 s.upsets (p.1 / 64) = 0 ∧ fget false s.dpoison (p.1 / 64) = false) ∧
    (∃ s : State, s.rot.phase = .done ∧ 0x10040 % 8 = 0 ∧ masterWaits s 0x10040 8 = false ∧ NoMap s 0x10040 8 ∧
      masterAns s (0x40 + 7) 0xFFFF 0x10040 8 true = none ∧ fget 0 s.upsets (0x10040 / 64) = 0 ∧
      fget false s.dpoison (0x10040 / 64) = false) :=
  ⟨⟨State.reset, by decide, by decide +kernel, by decide⟩,
   ⟨{ State.reset with
        owners := [((dramEnd - 4) / 65536, 0xFFFF)]
        access := fput 0 State.reset.access (paTarget (dramEnd - 4) * 128 + 0x49) 3 }, by decide +kernel⟩,
   ⟨{ sHost with dpoison := [(0x401, true)] }, by decide +kernel, by decide +kernel, by decide +kernel, (0x10040, 8), by decide +kernel⟩,
   ⟨State.reset, 0x10040, by decide +kernel, rfl, by decide +kernel⟩, ⟨{ sHost with hostown := 5 }, 0x10040, by decide +kernel, rfl, by decide +kernel⟩,
   ⟨State.reset, 0x10040, by decide +kernel, rfl, by decide +kernel⟩, ⟨{ sHost with hostown := 5 }, 0x10040, by decide +kernel, rfl, by decide +kernel⟩,
   ⟨sHost, by decide +kernel, by decide +kernel, noMap_of rfl, by decide +kernel⟩,
   ⟨State.reset, by decide⟩, ⟨sBooted, rfl, by decide +kernel, noMap_of rfl, by decide +kernel, by decide +kernel, by decide +kernel⟩,
   ⟨sBooted, rfl, rfl, by decide +kernel, noMap_of rfl, by decide +kernel, rfl, rfl⟩⟩

/-- A held trap record of context 0, whose ring has room. -/
def sHeld : State := { State.reset with ctxs := [(0, { placedCtx with
  xq := ⟨0x20000, 4, true, 15, 0, 0⟩
  held := [⟨0, .swtrap, 0, 5, 0, 3, 7, 0, 0xFF, 1, 0x99, 0x1000, 0x1010, 0, 0⟩] })] }

/-- The boot is done: the reeves run (R363). -/
def sRun : State := { State.reset with rot := { State.reset.rot with phase := .done } }

theorem witness_ControlEvents :
    (∃ s : State, masterHeld s 0x00 = false ∧ ctlOk s 0x00 0x1000000 8 true = false ∧ bootgoOk s 0x00 0x1000000 8 = false ∧ s.plog.base = 0) ∧
    (∃ s : State, masterHeld s 0x49 = false ∧ ctlOk s 0x49 0x1000000 8 true = false ∧ bootgoOk s 0x49 0x1000000 8 = false ∧ s.plog.base = 0) ∧
    (∃ s : State, masterHeld s 0x40 = false ∧ ctlOk s 0x40 0x1000000 8 true = true) ∧
    (∃ s : State, masterHeld s 0x40 = false ∧ ctlOk s 0x40 (0x1800000 + 32 * 4095 + 8) 8 true = true ∧
      ownedByHyp s (getCtx s 4095).vq.base.toNat (64 * 2 ^ 12) = true) ∧
    (∃ s : State, masterHeld s 0x40 = false ∧ ctlOk s 0x40 (0x1A00000 + 32 * 4095 + 8) 8 true = true ∧
      ownedByHyp s (getCtx s 4095).xq.base.toNat (64 * 2 ^ 12) = true) ∧
    (∃ s : State, ∃ r rest, (getCtx s 0).held = r :: rest ∧ (getCtx s 0).xq.v = true ∧
      ((getCtx s 0).xq.widx - (getCtx s 0).xq.ridx).toNat < 2 ^ (getCtx s 0).xq.log.toNat ∧
      Writable s ((getCtx s 0).xq.base.toNat + 64 * ((getCtx s 0).xq.widx.toNat % 2 ^ (getCtx s 0).xq.log.toNat)) r.bytes.length) ∧
    (∃ s : State, masterHeld s 0x40 = false ∧ ctlOk s 0x40 (0x300000 + 64 * 255 + 20) 4 true = true ∧ ∀ n ∈ s.netOut, n.peer ≠ 255) ∧
    (∃ s : State, masterHeld s 0x40 = false ∧ ctlOk s 0x40 0x400010 8 true = true) ∧ (∃ s : State, masterHeld s 0x40 = false ∧ ctlOk s 0x40 0x500140 4 true = true) ∧
    (∃ s : State, s.rot.phase = .waitGo) ∧ (∃ s : State, masterHeld s 0x40 = false ∧ ctlOk s 0x40 0x500018 4 true = true) ∧
    (∃ s : State, masterHeld s 0x49 = false ∧ ctlOk s 0x49 0x500018 4 true = true) ∧ (∃ s : State, masterHeld s 0x48 = false ∧ ctlOk s 0x48 0x500018 4 true = true) ∧
    (∃ s : State, masterHeld s 0x41 = true) :=
  ⟨⟨sRun, by decide +kernel⟩, ⟨sRun, by decide +kernel⟩, ⟨sRun, by decide +kernel⟩,
   ⟨sRun, by decide +kernel⟩, ⟨sRun, by decide +kernel⟩, ⟨sHeld, _, _, rfl, rfl, by decide +kernel, writable_of (by decide +kernel)⟩,
   ⟨sRun, by decide +kernel⟩, ⟨sRun, by decide +kernel⟩, ⟨sRun, by decide +kernel⟩,
   ⟨{ State.reset with rot := { State.reset.rot with phase := .waitGo } }, rfl⟩, ⟨sRun, by decide +kernel⟩,
   ⟨{ State.reset with access := fput 0 State.reset.access (73 * 128 + 0x49) 3 }, by decide +kernel⟩, ⟨sRun, by decide +kernel⟩,
   ⟨State.reset, by decide +kernel⟩⟩

/-- R364's image: 16 bytes to 0x1000, its DIGEST, no signature. -/
def imHead : List Byte := [0x42, 0x4C, 0x4D, 0x31] ++ le 2 1 ++ [0, 0] ++ le 8 16 ++ le 8 0x1000 ++ le 8 0x1000
def imBody : List Byte := le 16 0x0F0E0D0C0B0A09080706050403020100
def image : List Byte := imHead ++ sm3 (imHead ++ imBody) ++ List.replicate 64 0 ++ imBody
def sFetch : State := { State.reset with rot := { State.reset.rot with phase := .fetching } }

theorem bootResult_one {t : State} (h1 : t.dram.readN 0 4 = [0x42, 0x4C, 0x4D, 0x31]) (h2 : imageField t 4 2 = 1)
    (h3 : imageField t 6 1 < 4) (h4 : t.rot.revoked.getLsbD (imageField t 6 1) = false)
    (h5 : sm3 (t.dram.readN 0 32 ++ t.dram.readN 128 (imageField t 8 8)) = t.dram.readN 32 32)
    (h6 : Config.sm2Verify ((nth t.rot.keys (imageField t 6 1)).getD 0) (natOf (t.dram.readN 32 32)) (imageField t 64 64) = true)
    (h7 : ¬(bootRegion < imageField t 16 8 + imageField t 8 8 ∨ imageField t 16 8 < 128 + imageField t 8 8 ∨
      imageField t 24 8 < imageField t 16 8 ∨ imageField t 16 8 + imageField t 8 8 ≤ imageField t 24 8)) : bootResult t = 1 := by
  have h3' : ¬4 ≤ imageField t 6 1 := by omega
  simp only [bootResult, h1, h2, h3', h4, h5, h6, h7, ne_eq, not_true, or_self, if_false, Bool.false_eq_true, Bool.not_true]

/-- Stores at their homes: one that its owner permits, one that it denies, one under migration, one held whose page has
moved. -/
def fl (id : Nat) (place : Place) (op : FlightOp) (held : Bool) : Flight :=
  ⟨id, id, 0, 1, 0, 0, 0, 1, 0, 0, 0x1010, 0x100, place, op, false, 0, held, 0, false⟩
def sHome (f : Flight) : State :=
  let s := withPage (stB id .none) 0
  { s with flights := [f], access := fput 0 s.access (paTarget 0x40000100 * 128) 3 }
def atHome (mig : Bool) : Flight := fl 7 (.phys 0x40000100 0 false mig) (.store [1, 2]) false

/-- The page is still being migrated. -/
def sMig : State :=
  let s := sHome (fl 7 (.phys 0x60000000 0 false true) (.store [1, 2]) true)
  { s with dram := s.dram.writeN placedTable (bytesOfNat 8 (2 ^ 48 + 0x40000000 + 15)) }

/-- The page now lies in a window of peer 5 (R360). -/
def sFar : State :=
  let s := sHome (fl 7 (.phys 0x60000000 0 false true) (.store [1, 2]) true)
  { s with dram := s.dram.writeN placedTable (bytesOfNat 8 (5 * 2 ^ 40 + 0x4000008F)) }

theorem witness_BootResetsAndHomes :
    (∃ s : State, s.rot.phase = .fetching) ∧
    (∃ s : State, ∃ bs : List Byte, s.rot.phase = .fetching ∧ bs.length ≤ 2 ^ 30 ∧ s.upsets = [] ∧ s.dpoison = [] ∧ Writable s 0 bs.length ∧
      Writable (cpPut s 0 bs) (natOf ((cpPut s 0 bs).dram.readN 16 8)) (natOf ((cpPut s 0 bs).dram.readN 8 8)) ∧
      (Config.sm2Verify ((nth s.rot.keys 0).getD 0) (natOf (sm3 (imHead ++ imBody))) 0 = true → bootResult (cpPut s 0 bs) = 1)) ∧
    (∃ s : State, ∃ bs : List Byte, s.rot.phase = .fetching ∧ bs.length ≤ 2 ^ 30 ∧ s.upsets = [] ∧ s.dpoison = [] ∧
      bootResult (cpPut s 0 bs) ≠ 1) ∧
    (∃ s : State, ∃ bs : List Byte, s.rot.phase = .fetching ∧ bs.length ≤ 2 ^ 30 ∧ s.upsets = [] ∧
      rangePoisoned (cpPut s 0 bs) 0 128 = true) ∧
    (∃ s : State, s.rot.phase = .retryWait ∧ ∀ i, i < 64 → tableOk s i washMaster true = true) ∧
    (∃ s : State, ∃ f, (s.flights.find? fun f => f.id = 7) = some f ∧ f.place = .phys 0x40000100 0 false true ∧ flightReady s f = true) ∧
    (∃ s : State, ∃ f, (s.flights.find? fun f => f.id = 7) = some f ∧ f.place = .phys 0x40000100 0 false false ∧ flightReady s f = true ∧
      f.op = .store [1, 2] ∧ fget 0 s.upsets (0x40000100 / 64) = 0 ∧ NoMap s 0x40000100 2 ∧ ownerOk s f.owner 0x40000100 = true) ∧
    (∃ s : State, ∃ f, (s.flights.find? fun f => f.id = 7) = some f ∧ f.place = .phys 0x60000000 0 false false ∧ flightReady s f = true ∧
      ownerOk s f.owner 0x60000000 = false ∧ (getCtx s f.ctx).lost = false ∧ (getCtx s f.ctx).losing = none) ∧
    (∃ (s s1 : State) (f : Flight) (pa : Nat) (cp : BitVec 2) (desc : Bool), (s.flights.find? fun f => f.id = 7) = some f ∧ f.held = true ∧
      retryWaits s f = false ∧ translate s ⟨f.core, f.owner, f.ctx, f.task, f.core, 0⟩ (globalVa s f) true f.op.isTag = (s1, .ok (.phys pa cp desc false)) ∧
      pa < ctlBase ∧ writeAllowed s1 f.core (.phys pa cp desc false) f.op.size = true) ∧
    (∃ (s s1 : State) (f : Flight) (pa : Nat) (cp : BitVec 2) (desc : Bool), (s.flights.find? fun f => f.id = 7) = some f ∧ f.held = true ∧
      retryWaits s f = false ∧ translate s ⟨f.core, f.owner, f.ctx, f.task, f.core, 0⟩ (globalVa s f) true f.op.isTag = (s1, .ok (.phys pa cp desc true))) ∧
    (∃ (s : State) (f : Flight), (s.flights.find? fun f => f.id = 7) = some f ∧ f.held = true ∧ retryWaits s f = true) ∧
    (∃ (s s1 : State) (f : Flight), (s.flights.find? fun f => f.id = 7) = some f ∧ f.held = true ∧ f.op = .store [1, 2] ∧
      retryWaits s f = false ∧
      translate s ⟨f.core, f.owner, f.ctx, f.task, f.core, 0⟩ (globalVa s f) true false = (s1, .ok (.remote 5 0x40000100))) := by
  refine ⟨⟨sFetch, rfl⟩, ⟨sFetch, image, rfl, by decide +kernel, rfl, rfl, writable_of (by decide +kernel), writable_of (by decide +kernel), fun h => bootResult_one (by decide +kernel) (by decide +kernel)
      (by decide +kernel) (by decide +kernel) (by decide +kernel) ?_ (by decide +kernel)⟩,
    ⟨sFetch, [0x42, 0x4C, 0x4D, 0x32], rfl, by decide +kernel, rfl, rfl, by decide +kernel⟩,
    ⟨{ sFetch with dpoison := [(1, true)] }, [0x42, 0x4C, 0x4D, 0x32], rfl, by decide +kernel, rfl, by decide +kernel⟩,
    ⟨{ State.reset with rot := { State.reset.rot with phase := .retryWait } }, rfl, by decide +kernel⟩,
    ⟨sHome (atHome true), _, rfl, rfl, by decide +kernel⟩,
    ⟨sHome (atHome false), _, rfl, rfl, by decide +kernel, rfl, rfl, noMap_of (by decide +kernel), by decide +kernel⟩,
    ⟨sHome (fl 7 (.phys 0x60000000 0 false false) (.store [1, 2]) false), _, rfl, rfl, by decide +kernel, by decide +kernel, rfl, rfl⟩,
    ⟨sHome (fl 7 (.phys 0x60000000 0 false true) (.store [1, 2]) true), _, _, 0x40000100, 0, false, rfl, rfl, by decide +kernel,
      Prod.ext rfl (by decide +kernel), by decide +kernel, by decide +kernel⟩,
    ⟨sMig, _, _, 0x40000100, 0, false, rfl, rfl, by decide +kernel,
      Prod.ext rfl (by decide +kernel)⟩,
    ⟨{ sMig with flights := [fl 3 (.phys 0x60000000 0 false true) (.store [1, 2]) true,
        fl 7 (.phys 0x60000000 0 false true) (.store [1, 2]) true] }, _, rfl, rfl, by decide +kernel⟩,
    ⟨sFar, _, _, rfl, rfl, rfl, by decide +kernel, Prod.ext rfl (by decide +kernel)⟩⟩
  have h1 : natOf ((cpPut sFetch 0 image).dram.readN 32 32) = natOf (sm3 (imHead ++ imBody)) := by decide +kernel
  have h2 : imageField (cpPut sFetch 0 image) 64 64 = 0 := by decide +kernel
  have h3 : imageField (cpPut sFetch 0 image) 6 1 = 0 := by decide +kernel
  have h4 : (cpPut sFetch 0 image).rot.keys = sFetch.rot.keys := by decide +kernel
  rw [h1, h2, h3, h4]
  exact h

/-- v1 is empty in lane 3. -/
def sEmpty : State := stW fun w =>
  let x := inTrace (tr 1 9) w
  { x with vreg := fput fullV x.vreg (vkey 1 3) ⟨0, .pend 77⟩ }
def addV1 (fe : Bool) : Instr := .iadd c0 false false .none 0 (.v 5) (.reg ⟨.v 1, .none, fe⟩) (.imm 1)
def sumOfV1 (fe : Bool) : Computes := exactly c0 false false (.v 5) [opA (.reg ⟨.v 1, .none, fe⟩) .s true, opB (.imm 1) .s true]
  fun v => v 0 + v 1

def plainB (x : Iss) (r : Read) : Bool :=
  r.lanes.all fun p => (x.fills r.reg r.span p.2).all fun f => !f.isDefer

theorem plain_of {x : Iss} {r : Read} (h : plainB x r = true) :
    ∀ p ∈ r.lanes, ∀ f ∈ x.fills r.reg r.span p.2, f.isDefer = false := by
  intro p hp f hf
  simp only [plainB, List.all_eq_true, Bool.not_eq_true'] at h
  exact h p hp f hf

theorem witness_TakingExceptions :
    (∃ x r, (r : Read).lanes ≠ [] ∧ ∀ p ∈ r.lanes, ∀ f ∈ (x : Iss).fills r.reg r.span p.2, f.isDefer = false) ∧
    (∃ i k s x rs, integerWord i = some k ∧ issuing s k.c (.mk2 1 0) = some x ∧ x.checkReads (k.reads x) = .stop rs ∧ rs ≠ []) ∧
    (∃ i k s x, integerWord i = some k ∧ issuing s k.c (.mk2 1 0) = some x ∧ x.checkReads (k.reads x) = .wait) ∧
    (∃ s b w t, getBlock s b.id = some b ∧ nth b.waves 0 = some w ∧ w.trace = some t ∧ [0, 31].Pairwise (· < ·) ∧
      (∀ l ∈ [0, 31], l < 32 ∧ l < w.lanes.length ∧ t.batch.getLsbD l = true) ∧ Exc.swtrap ≠ .pgflt) ∧
    (∃ s b w t, getBlock s b.id = some b ∧ nth b.waves 0 = some w ∧ w.trace = some t ∧ [4, 9].Pairwise (· < ·) ∧
      ∀ l ∈ [4, 9], (BitVec.ofNat 64 (0x20000 + 8 * l)).toNat / 65536 = 2) :=
  ⟨⟨isu sEmpty c0 (.mk2 1 0), (isu sEmpty c0 (.mk2 1 0)).readReg false 7 (rV 1) 1, by decide +kernel, plain_of (by decide +kernel)⟩,
   ⟨addV1 true, sumOfV1 true, sEmpty, isu sEmpty c0 (.mk2 1 0), [(3, .exc .emptyt 7 0 none)], rfl, isu_eq (by decide +kernel),
      by decide +kernel, by decide⟩,
   ⟨addV1 false, sumOfV1 false, sEmpty, isu sEmpty c0 (.mk2 1 0), rfl, isu_eq (by decide +kernel), by decide +kernel⟩,
   ⟨sMid, { blk with waves := [inTrace (tr 1 9) wv] }, inTrace (tr 1 9) wv, tr 1 9, rfl, rfl, rfl, by decide, by decide +kernel, by decide⟩,
   ⟨sMid, { blk with waves := [inTrace (tr 1 9) wv] }, inTrace (tr 1 9) wv, tr 1 9, rfl, rfl, rfl, by decide, by decide⟩⟩

/-- The machine in a trace, with a page over the addresses below 1 GiB and this private layout (R95, R351). -/
def sPriv (pbase splim : Nat) : State :=
  { withPage sMid 0 with ctxs := [(0, { placedCtx with desc := some ⟨1, 1, placedRoot, pbase, 16, splim, 0, 0, 0, 0⟩ })] }
def bMid : Block := { blk with waves := [inTrace (tr 1 9) wv] }
def wMid : Wave := inTrace (tr 1 9) wv
/-- The access lies in its aperture's extent (R95). -/
abbrev Inside (s : State) (b : Block) (w : Wave) (wi lane n : Nat) (a : Word64) (acc : Acc) : Prop :=
  let ap := a.toNat / 2 ^ 56
  let off := a.toNat % 2 ^ 56
  (ap = 0 ∧ off + n ≤ 2 ^ 56) ∨ (ap = 0xF0 ∧ off + n ≤ 1024 * b.shape.sp) ∨
  (ap = 0xF1 ∧ ∃ d, (getCtx s b.ctx).desc = some d ∧ off + n ≤ 2 ^ d.psz ∧
    d.pbase + ((b.frame * 32 + wi) * 32 + lane) * 2 ^ d.psz + off + n ≤ 2 ^ 56) ∨
  (ap = 0xF2 ∧ acc.regs = true ∧ off / 128 < w.ws ∧ off % 128 + n ≤ 128)
/-- The descriptor of `sPriv`. -/
def dPriv (pbase splim : Nat) : CtxDesc := ⟨1, 1, placedRoot, pbase, 16, splim, 0, 0, 0, 0⟩
def whoMid : Who := whoOf (sPriv 0 0) bMid 0

theorem witness_AddressChecks :
    ¬Inside sMid bMid wMid 0 0 4 0x00FFFFFFFFFFFFFD .read ∧ ¬Inside sMid bMid wMid 0 0 4 0xF00000000000FFFD .read ∧
    ¬Inside sMid bMid wMid 0 0 4 0xF100000000000000 .read ∧ ¬Inside sMid bMid wMid 0 0 4 0xF200000000006000 .read ∧
    ¬Inside sMid bMid wMid 0 0 4 0xF200000000000000 .atomic ∧
    (Inside sMid bMid wMid 0 0 3 0x00FFFFFFFFFFFFFD .read ∧ (0x00FFFFFFFFFFFFFD : Word64).toNat % 4 ≠ 0) ∧
    (Inside sMid bMid wMid 0 0 4 0x00FFFFFFFFFFFFFC .read ∧ (0x00FFFFFFFFFFFFFC : Word64).toNat % 4 = 0) ∧
    (Inside sMid bMid wMid 0 0 4 0xF00000000000FFFC .read ∧ (0xF00000000000FFFC : Word64).toNat % 4 = 0) ∧
    (Inside sMid bMid wMid 0 0 4 0xF200000000005FFC .read ∧ (0xF200000000005FFC : Word64).toNat % 4 = 0) ∧
    (Inside (sPriv 0 16) bMid wMid 0 0 4 0xF10000000000000C .read ∧ (0xF10000000000000C : Word64).toNat % 4 = 0 ∧
      (getCtx (sPriv 0 16) 0).desc = some (dPriv 0 16) ∧ 0xC < (dPriv 0 16).splim) ∧
    (∃ q, (translate (sPriv 0 16) whoMid (BitVec.ofNat 64 0x10) false false).2 = .ok q) ∧
    (∃ v, (translate (sPriv 0 16) whoMid (BitVec.ofNat 64 0x10) false true).2 = .error (addrExc .prot v)) ∧
    (∃ v, (translate (sPriv 0x40000000 16) whoMid (BitVec.ofNat 64 0x40000010) false false).2 = .error (addrExc .pgflt v)) ∧
    (∃ t d, (getCtx (sPriv 0 0) 0).desc = some d ∧ arenaFrame (sPriv 0 0) whoMid 0x40000010 = none ∧
      lookupLeaf (sPriv 0 0) whoMid d 0x40000010 = (t, .error .fault)) ∧
    ∃ t d e, (getCtx (sPriv 0 0) 0).desc = some d ∧ arenaFrame (sPriv 0 0) whoMid 0x10 = none ∧
      lookupLeaf (sPriv 0 0) whoMid d 0x10 = (t, .ok e) ∧ e.owner = whoMid.owner ∧ leafAllows e.leaf false true = false := by
  refine ⟨?_, ?_, ?_, ?_, ?_, ⟨.inl (by decide), by decide⟩, ⟨.inl (by decide), by decide⟩,
    ⟨.inr (.inl (by decide +kernel)), by decide⟩, ⟨.inr (.inr (.inr (by decide +kernel))), by decide⟩,
    ⟨.inr (.inr (.inl ⟨by decide, dPriv 0 16, rfl, by decide, by decide⟩)), by decide, rfl, by decide⟩,
    ⟨okd (translate (sPriv 0 16) whoMid (BitVec.ofNat 64 0x10) false false), by decide +kernel⟩, ⟨0x10, by decide +kernel⟩,
    ⟨0x40000010, by decide +kernel⟩,
    ⟨(lookupLeaf (sPriv 0 0) whoMid (dPriv 0 0) 0x40000010).1, dPriv 0 0, rfl, by decide +kernel, Prod.ext rfl (by decide +kernel)⟩,
    (lookupLeaf (sPriv 0 0) whoMid (dPriv 0 0) 0x10).1, dPriv 0 0, okd (lookupLeaf (sPriv 0 0) whoMid (dPriv 0 0) 0x10), rfl,
    by decide +kernel, Prod.ext rfl (by decide +kernel), by decide +kernel, by decide +kernel⟩
  all_goals
    rintro (h | h | ⟨h, _, hd, _⟩ | h) <;> first | exact absurd h (by decide +kernel) | cases hd

/-- The machine in a trace, these scalars holding these values too. -/
def sScal (vs : List (Nat × Word64)) : State := stW fun w => { inTrace (tr 1 9) w with
  sreg := (inTrace (tr 1 9) w).sreg ++ vs.map fun v => (v.1, (⟨v.2, .full⟩ : SCell)) }
def misLoad : Addr := ⟨rS 2, .off 2⟩
/-- What a memory word asks of the address checks. -/
def accessesOf (i : Instr) : Accesses :=
  (accessWord i).getD ⟨c0, .zero, fun _ => [], fun _ => [], fun _ _ => .ok 0, 0, .read, fun _ s _ => (s, [])⟩

theorem witness_AccessTraps :
    (∃ i k s x, accessWord i = some k ∧ issuing s k.c k.need = some x ∧ x.Full (k.reads x) ∧
      (x.hits s (k.lanes x) (k.addr x) k.n (fun _ => k.n) k.acc).2.1 ≠ []) ∧
    (∃ i k s x, accessWord i = some k ∧ issuing s k.c k.need = some x ∧ x.Full (k.reads x) ∧
      let r := x.hits s (k.lanes x) (k.addr x) k.n (fun _ => k.n) k.acc
      r.2.1 = [] ∧ (k.later x r.1 r.2.2).2 ≠ []) ∧
    copyFault bMid [(0xF00000000000FFF0, 16), (0, 16)] = none ∧ (copyFault bMid [(0xF00000000000FFF0, 17)]).isSome = true ∧
    (copyFault bMid [(0xF000000000000008, 16)]).isSome = true ∧
    (∃ s x, issuing s c0 (.mk2 0 1) = some x ∧ lowest x.ex = some 0 ∧
      x.Full ([x.readWide true 6 (rS 2), x.readWide true 7 (rS 4)] ++ x.readSrc true 8 (oS 6) 1) ∧
      2 ^ 32 - 16 < (x.val true (opB (oS 6) .z false) 0).toNat) ∧
    (∃ s x n, issuing s c0 (.mk2 0 1) = some x ∧ lowest x.ex = some 0 ∧ n = (x.val true (opB (.imm 0xF010) .z false) 0).toNat ∧
      x.Full ([x.readWide true 6 (rS 2), x.readWide true 7 (rS 4)] ++ x.readSrc true 8 (.imm 0xF010) 1) ∧ n ≤ 2 ^ 32 - 16 ∧
      (copyFault x.b [(x.wide (rS 2) 0, n), (x.wide (rS 4) 0, n)]).isSome = true) ∧
    (∃ s x n, issuing s c0 (.mk2 0 1) = some x ∧ lowest x.ex = some 0 ∧ n = (x.val true (opB (.imm 8) .z false) 0).toNat ∧
      x.Full ([x.readWide true 6 (rS 2), x.readWide true 7 (rS 4)] ++ x.readSrc true 8 (.imm 8) 1) ∧ n ≤ 2 ^ 32 - 16 ∧
      copyFault x.b [(x.wide (rS 2) 0, n), (x.wide (rS 4) 0, n)] = none ∧ n % 16 ≠ 0) ∧
    (∃ s x, issuing s c0 (.mk2 0 1) = some x ∧ lowest x.ex = some 0 ∧
      x.Full [x.readWide true 6 (rS 2), x.readWide true 7 (rS 4), x.readReg true 8 (rS 6) 3] ∧
      2 ^ 16 < ((x.scell 6).val >>> 32).toNat) ∧
    (∃ s x, issuing s c0 (.mk2 0 1) = some x ∧ lowest x.ex = some 0 ∧
      x.Full [x.readWide true 6 (rS 2), x.readWide true 7 (rS 4), x.readReg true 8 (rS 6) 3] ∧
      (x.scell 6).val = 0x0000000100000010 ∧ (copyFault x.b [(x.wide (rS 2) 0, 16), (x.wide (rS 4) 0, 16)]).isSome = true) ∧
    (∃ s x, issuing s c0 (.mk2 0 1) = some x ∧ lowest x.ex = some 0 ∧
      x.Full (x.readWide true 6 (rS 4) :: x.readSrc true 7 (oS 2) 1 ++ x.readSrc false 8 (oV 1) 1) ∧
      (copyFault x.b [(x.val true (opA (oS 2) .z false) 0 + x.val false (opB (oV 1) .z false) 0 * 16, 16)]).isSome = true) :=
  ⟨⟨.ld c0 3 false (.v 5) misLoad, accessesOf (.ld c0 3 false (.v 5) misLoad), sMid, _, rfl, isu_eq (by decide +kernel),
      full_of (by decide +kernel), by decide +kernel⟩,
   ⟨.atom c0 .die .rlx .add false (rS 2) (oV 1) 0, accessesOf (.atom c0 .die .rlx .add false (rS 2) (oV 1) 0),
      { sMid with tasks := [tk 1 0] }, _, rfl, isu_eq (by decide +kernel), full_of (by decide +kernel), by decide +kernel,
      by decide +kernel⟩,
   by decide +kernel, by decide +kernel, by decide +kernel,
   ⟨sScal [(6, 0xFFFFFFF8)], _, isu_eq (by decide +kernel), by decide +kernel, full_of (by decide +kernel), by decide +kernel⟩,
   ⟨sMid, _, _, isu_eq (by decide +kernel), by decide +kernel, rfl, full_of (by decide +kernel), by decide +kernel, by decide +kernel⟩,
   ⟨sMid, _, _, isu_eq (by decide +kernel), by decide +kernel, rfl, full_of (by decide +kernel), by decide +kernel,
      by decide +kernel, by decide +kernel⟩,
   ⟨sScal [(6, 0x0001000100000010), (7, 16), (8, 32)], _, isu_eq (by decide +kernel), by decide +kernel,
      full_of (by decide +kernel), by decide +kernel⟩,
   ⟨stW fun w => { inTrace (tr 1 9) w with sreg := [(2, ⟨0xF000000000000004, .full⟩), (4, ⟨0xF000000000001000, .full⟩),
      (6, ⟨0x0000000100000010, .full⟩), (7, ⟨16, .full⟩), (8, ⟨32, .full⟩)] }, _, isu_eq (by decide +kernel), by decide +kernel,
      full_of (by decide +kernel), by decide +kernel, by decide +kernel⟩,
   ⟨stW fun w => { inTrace (tr 1 9) w with sreg := [(2, ⟨0xF000000000010000, .full⟩), (4, ⟨0xF000000000001000, .full⟩)] }, _,
      isu_eq (by decide +kernel), by decide +kernel, full_of (by decide +kernel), by decide +kernel⟩⟩

/-! One step: the moves that run a word, a command and an event. -/

/-- The state of the move that `s` makes: its agenda is one shorter, and a step is counted. -/
def moving (s : State) : State := duePhases (sendIod { s with agenda := s.agenda.tail, tick := s.tick + 1 })
/-- The word that a wave, or the sequencer, fetches then. -/
def placed (w : Word128) : State := State.reset.withFetchWord 128 w.toNat
def waveWordOf (s : State) : State × FetchRes := match (moving s).blocks with
  | b :: _ => match b.waves with
    | w :: _ => fetchWord (moving s) (whoOf (moving s) b 0) (match w.trace with
      | some t => t.addrOf t.pos
      | none => placedVa)
    | [] => (s, .wait)
  | [] => (s, .wait)
def seqWordOf (s : State) : State × FetchRes := match (moving s).blocks with
  | b :: _ => match b.seq with
    | some q => seqFetch (moving s) b q
    | none => (s, .wait)
  | [] => (s, .wait)

abbrev wIadd : Word128 := word 0x040 0 (fV 5) (fV 70) (fI 1) 0 0
abbrev wTrh : Word128 := word 0x000 0 (fI 9) (fI 64) (fI 64) (fI 0x8001) 0
abbrev wSqloop : Word128 := word 0x132 0 (fV 3) 0 0 0 (fI 0x1FFFE)
abbrev wMxst : Word128 := word 0x13B 0 (fV 7) (fI 2) 0 0 0

theorem witness_StepRunsDecodedWord :
    (∃ s z m rest core unit slot bid wi w b t s1 v i, (s : State).agenda = m :: rest ∧ s.halted = false ∧
      z = { s with agenda := rest, tick := s.tick + 1 } ∧ m = .issue core unit slot ∧ slot < 8 ∧
      waveAt z core unit slot = some (bid, wi, w) ∧ getBlock z bid = some b ∧ (getCore z core).halted ≠ some b.ctx ∧
      w.ready = true ∧ w.trace = some t ∧ t.rep = none ∧ fetchWord z (whoOf z b 0) (t.addrOf t.pos) = (s1, .word v) ∧
      decode (.trace w.ws) v = .ok i) ∧
    (∃ s z m rest core unit slot bid wi w b tp q s1 v words twb tsb mask, (s : State).agenda = m :: rest ∧ s.halted = false ∧
      z = { s with agenda := rest, tick := s.tick + 1 } ∧ m = .issue core unit slot ∧ slot < 8 ∧
      waveAt z core unit slot = some (bid, wi, w) ∧ getBlock z bid = some b ∧ (getCore z core).halted ≠ some b.ctx ∧
      w.ready = true ∧ w.trace = none ∧ w.batch = some (tp, q) ∧ tp.toNat % 16 = 0 ∧
      fetchWord z (whoOf z b 0) tp = (s1, .word v) ∧ (Raw.ofWord v).op = 0 ∧
      decode (.trace w.ws) v = .ok (.traceAdmission words twb tsb mask) ∧
      admissionStop s1 (whoOf s1 b 0) tp words twb tsb mask = none) ∧
    (∃ s z rest bid b q s1 v i, (s : State).agenda = .seq bid :: rest ∧ s.halted = false ∧
      z = { s with agenda := rest, tick := s.tick + 1 } ∧ getBlock z bid = some b ∧ seqActive z b = some q ∧
      seqFetch z b q = (s1, .word v) ∧ decode .stream v = .ok i ∧ arrayWord i = false) ∧
    (∃ s z rest bid b q s1 v i, (s : State).agenda = .seq bid :: rest ∧ s.halted = false ∧
      z = { s with agenda := rest, tick := s.tick + 1 } ∧ getBlock z bid = some b ∧ seqActive z b = some q ∧
      seqFetch z b q = (s1, .word v) ∧ decode .stream v = .ok i ∧ arrayWord i = true ∧ arrayBlocked z bid (b.core.getD 0) = false) ∧
    (∃ s z rest i, (s : State).agenda = .cp :: rest ∧ s.halted = false ∧ z = { s with agenda := rest, tick := s.tick + 1 } ∧
      nextCommand z = some i) ∧
    (∃ s rest i, (s : State).agenda = .event i :: rest ∧ s.halted = false ∧ encode i = none) :=
  ⟨⟨placed wIadd, moving (placed wIadd), .issue 0 0 0, [], 0, 0, 0, 1, 0, _, _, _, (waveWordOf (placed wIadd)).1, wIadd,
      .iadd c0 false false .none 0 (.v 5) (oV 70) (.imm 1), by decide +kernel, by decide +kernel, rfl, rfl, by decide, rfl, rfl,
      by decide +kernel, by decide +kernel, rfl, by decide +kernel, Prod.ext rfl (by decide +kernel), by decide +kernel⟩,
   ⟨placed wTrh, moving (placed wTrh), .issue 0 0 0, [], 0, 0, 0, 1, 0, _, _, placedVa, ~~~0, (waveWordOf (placed wTrh)).1, wTrh, 9,
      64, 64, 0x8001, by decide +kernel, by decide +kernel, rfl, rfl, by decide, rfl, rfl, by decide +kernel, by decide +kernel,
      by decide +kernel, by decide +kernel, by decide +kernel, Prod.ext rfl (by decide +kernel), by decide +kernel,
      by decide +kernel, by decide +kernel⟩,
   ⟨placed wSqloop, moving (placed wSqloop), [], 1, _, ((moving (placed wSqloop)).blocks.head?.bind (·.seq)).getD default,
      (seqWordOf (placed wSqloop)).1, wSqloop, .sqloop (.z 3) (-2), by decide +kernel, by decide +kernel, rfl, rfl,
      by decide +kernel, Prod.ext rfl (by decide +kernel), by decide +kernel, by decide +kernel⟩,
   ⟨placed wMxst, moving (placed wMxst), [], 1, _, ((moving (placed wMxst)).blocks.head?.bind (·.seq)).getD default,
      (seqWordOf (placed wMxst)).1, wMxst, .mxst (.z 7) 2, by decide +kernel, by decide +kernel, rfl, rfl, by decide +kernel,
      Prod.ext rfl (by decide +kernel), by decide +kernel, by decide +kernel, by decide +kernel⟩,
   ⟨{ sCmd (cmd 4 (le 8 4095)) [] id with agenda := [.cp] }, { sCmd (cmd 4 (le 8 4095)) [] id with agenda := [], tick := 1 }, [],
      .qstop hd 4095, by decide +kernel, by decide +kernel, by rfl, by decide +kernel⟩,
   ⟨{ State.reset with agenda := [.event .powerOnReset] }, [], .powerOnReset, rfl, rfl, rfl⟩⟩

theorem witness_HaltedModule : ∃ s : State, s.halted = true ∧ actsHalted (takeMove s).1 = false :=
  ⟨{ State.reset with halted := true, agenda := [.cp] }, rfl, rfl⟩

theorem witness_DecodeEncodeAgree :
    (∃ i w, wfWord (.trace 16) i = true ∧ encode i = some w) ∧ (∃ i w, wfWord .stream i = true ∧ encode i = some w) :=
  ⟨⟨.iadd c0 false false .none 0 (.v 15) (oV 1) (.imm (-1)), word 0x040 0 (fV 15) (fV 1) (fI 0x1FFFF) 0 0, by decide +kernel,
      by decide +kernel⟩,
   ⟨.sqloop (.z 3) (-2), wSqloop, by decide +kernel, by decide +kernel⟩⟩

theorem witness_StepKeepsInvariant : ∃ s u : State, s.Canonical ∧ step s = .next u :=
  ⟨{ State.reset with agenda := [.event (.powerLimitSet 1000000)] },
    _, ⟨rfl, rfl, (fun b hb => by cases hb), rfl⟩, rfl⟩

/-! ### Worked examples of the spec -/

/-- R222's table: the quotient, the remainder and their flags at 32 bits. -/
theorem test_divide :
    idivResult 32 false .rz (-7) 2 = (0xFFFFFFFD, 0) ∧ iremResult 32 false .rz (-7) 2 = (0xFFFFFFFF, 0) ∧
    idivResult 32 false .rm (-7) 2 = (0xFFFFFFFC, 0) ∧ iremResult 32 false .rm (-7) 2 = (1, 0) ∧
    idivResult 32 false .rn (-7) 2 = (0xFFFFFFFC, 0) ∧ idivResult 32 false .rp (-7) 2 = (0xFFFFFFFD, 0) ∧
    idivResult 32 true .rn 7 4 = (2, 0) ∧ iremResult 32 true .rn 7 4 = (0xFFFFFFFF, 0) ∧
    idivResult 32 false .rz (-2 ^ 31) (-1) = (0x7FFFFFFF, flNV) ∧ iremResult 32 false .rz (-2 ^ 31) (-1) = (0, 0) ∧
    idivResult 32 false .rn 5 0 = (0x7FFFFFFF, flDZ) ∧ iremResult 32 false .rn 5 0 = (5, flDZ) ∧
    idivResult 32 true .rn 5 0 = (0xFFFFFFFF, flDZ) ∧ idivResult 32 false .rn 0 0 = (0, flNV) := by decide +kernel

/-- R91's example: anchor 62, three F8A products, the drain to FP32 and RAW. -/
theorem test_products :
    let e (c : Nat) : MxElem := ⟨true, match decodeElem .f8a c with
      | .fin x => some x
      | _ => none⟩
    mxProduct 62 (e 0x54) (e 0x3A) = (60, 0) ∧ mxProduct 62 (e 0xB3) (e 0x40) = (-5, flINX) ∧
    mxProduct 62 (e 0x78) (e 0x38) = (0, flINV) ∧
    drainReg (.conv .fp32) .dyn 0 { Tile.zero with x := [(0, 55)], anchor := 62 } 0 0 1 0 = 0x415C0000 ∧
    drainReg .raw .dyn 0 { Tile.zero with x := [(0, 55)], anchor := 62 } 0 0 1 0 = 0x37 := by decide +kernel

/-- R92's table and R93's example. -/
theorem test_mixer :
    mixStep 0x9E3779B97F4A7C15 = 0xE220A8397B1DCDAF ∧ mixStep 0x3C6EF372FE94F82A = 0x6E789E6AA1B965F4 ∧
    mixStep 0xDAA66D2C7DDF743F = 0x06C45D188009454F ∧ mixRound 0 (mixRound 0 0 0) 1 = 0xE220A8397B1DCDAF ∧
    uniformVal 0xE220A8397B1DCDAF = 0x3F6220A8 ∧ byteSum 0xE220A8397B1DCDAF = 1015 ∧
    (roundTo .plain .fp32 (gaussVal 0xE220A8397B1DCDAF (.fin ⟨false, 1, 0⟩))).1 = 0xBCC3F5EF := by decide +kernel

/-- R101's example: die 1, slice 14. -/
theorem test_home : paDie 0xB40025C40 = 1 ∧ paChannel 0xB40025C40 = 14 := by decide +kernel

/-! ### Single steps -/

/-- In the middle of a trace, each lane's registers as given. -/
def sRegs (vs : List (Nat × (Nat → Word32))) : State := stW fun w => { inTrace (tr 1 9) w with
  vreg := vs.flatMap fun p => allLanes.map fun l => (vkey p.1 l, (⟨p.2 l, .full⟩ : RegCell)) }

/-- The word's wave after it, or nothing where it does not go on in its trace. -/
def after (s : State) (i : Instr) : Option Iss := match exec i s with
  | .next u => (isu s c0 .zero).later u
  | _ => none
def cell (s : State) (i : Instr) (n l : Nat) : Option Word32 := (after s i).map fun x => (x.vcell n l).val
def scal (s : State) (i : Instr) (n : Nat) : Option Word64 := (after s i).map fun x => (x.scell n).val
def pred (s : State) (i : Instr) (q : BitVec 4) (l : Nat) : Option Bool := (after s i).map fun x => x.pred q l

/-- R242's example: 1.3125 to F8A, to nearest and upward, raising NX. -/
theorem test_step_cvt :
    cell (sRegs [(1, fun _ => 0x3FA80000)]) (.cvt c0 .f8a .fp32 .dyn (.v 2) (oV 1)) 2 31 = some 0x3A ∧
    cell (sRegs [(1, fun _ => 0x3FA80000)]) (.cvt c0 .f8a .fp32 .rp (.v 2) (oV 1)) 2 0 = some 0x3B ∧
    ((after (sRegs [(1, fun _ => 0x3FA80000)]) (.cvt c0 .f8a .fp32 .dyn (.v 2) (oV 1))).map fun x => fget 0 x.t.flags 5) =
      some flNX := by decide +kernel

def sLget (b : Word32) : State := sRegs [(1, fun l => 10 + BitVec.ofNat 32 l), (2, fun _ => b), (9, fun _ => 0xFFFFFFFF)]

/-- R249's example. -/
theorem test_step_lget :
    ((List.range 8).map fun l => cell (sLget 2) (.lget c0 .shift 2 (.v 3) (oV 1) (oV 2) (some (oV 9))) 3 l) =
      [12, 13, 14, 15, 16, 17, 0xFFFFFFFF, 0xFFFFFFFF].map some ∧
    ((List.range 8).map fun l => cell (sLget 2) (.lget c0 .rot 2 (.v 3) (oV 1) (oV 2) none) 3 l) =
      [12, 13, 14, 15, 16, 17, 10, 11].map some ∧
    ((List.range 8).map fun l => cell (sLget (-2)) (.lget c0 .shift 2 (.v 3) (oV 1) (oV 2) (some (oV 9))) 3 l) =
      [0xFFFFFFFF, 0xFFFFFFFF, 10, 11, 12, 13, 14, 15].map some := by decide +kernel

/-- R327's example. -/
theorem test_step_bmap :
    cell (sRegs [(9, fun _ => 0x03000500)]) (.bmap c0 1 .sm8 (.v 10) (oV 9)) 10 3 = some 0xA0 := by decide +kernel

/-- R226: bits [11:4]. R227: bytes reversed, b with the bits of each byte reversed. -/
theorem test_step_fields :
    cell (sRegs [(1, fun _ => 0x12345678)]) (.bfe c0 true (.v 3) (oV 1) (.imm 0x0804)) 3 0 = some 0x67 ∧
    cell (sRegs [(1, fun _ => 0x11223344), (2, fun _ => 0x80402001), (4, fun _ => 0x00010203)])
      (.bswz c0 (.v 3) (oV 1) (oV 2) (oV 4)) 3 7 = some 0x44332211 ∧
    cell (sRegs [(1, fun _ => 0x11223344), (2, fun _ => 0x80402001), (4, fun _ => 0x0F0E0D0C)])
      (.bswz c0 (.v 3) (oV 1) (oV 2) (oV 4)) 3 7 = some 0x01020480 := by decide +kernel

/-- R218, R219: a sum wraps, saturates, carries; a source that is the destination is read before it is written. -/
theorem test_step_add :
    let s := sRegs [(1, fun l => 0x7FFFFFFF - BitVec.ofNat 32 l), (2, fun _ => 1)]
    cell s (.iadd c0 false false .none 0 (.v 1) (oV 1) (oV 2)) 1 0 = some 0x80000000 ∧
    cell s (.iadd c0 false true .none 0 (.v 1) (oV 1) (oV 2)) 1 0 = some 0x7FFFFFFF ∧
    cell s (.isub c0 true true .none 0 (.v 3) (oV 2) (oV 1)) 3 0 = some 0 ∧
    cell s (.iadd c0 true false .co 4 (.v 3) (oV 1) (.imm (-1))) 3 0 = some 0x7FFFFFFE ∧
    pred s (.iadd c0 true false .co 4 (.v 3) (oV 1) (.imm (-1))) 4 0 = some true ∧
    cell s (.iadd { c0 with g1 := ⟨true, 0⟩ } false false .none 0 (.v 1) (oV 1) (oV 2)) 1 0 = some 0x7FFFFFFF := by decide +kernel

/-- R28, R214: a predicate is written in the executing lanes; p0 stays true. -/
theorem test_step_pset :
    let s := sRegs [(1, fun l => BitVec.ofNat 32 l)]
    pred s (.pset c0 .lt false false .none 0 5 (oV 1) (.imm 4)) 5 3 = some true ∧
    pred s (.pset c0 .lt false false .none 0 5 (oV 1) (.imm 4)) 5 4 = some false ∧
    pred s (.pset c0 .lt false false .none 0 0 (oV 1) (.imm 4)) 0 9 = some true ∧
    pred s (.pset { c0 with g1 := ⟨false, 1⟩ } .ne false false .none 0 5 (oV 1) (.imm 4)) 5 9 = some false := by decide +kernel

/-- R29, R221: a scalar destination takes the value once, from the lowest executing lane; a product's two halves. -/
theorem test_step_scalar :
    scal (sRegs [(1, fun l => BitVec.ofNat 32 l)]) (.mov c0 (.s 5) (oV 1)) 5 = some 0 ∧
    scal (sRegs []) (.imadw c0 true (.s 6) (.imm (-1)) (.imm 2) (.imm 0)) 6 = some 0xFFFFFFFFFFFFFFFE ∧
    scal (sRegs []) (.imadw c0 true (.s 6) (.imm (-1)) (.imm 2) (.imm 0)) 7 = some 1 ∧
    scal (sRegs []) (.movi c0 (.s 5) 0x1122334455667788) 5 = some 0x1122334455667788 := by decide +kernel

/-- The instruction answers a next state of which `p` holds. -/
def nextIs (i : Instr) (s : State) (p : State → Bool) : Bool := match exec i s with
  | .next u => p u
  | _ => false

/-- The scratchpad block of R268's example. -/
def sDesc : State := stB fun b => { b with
  waves := [{ inTrace (tr 1 9) wv with sreg := [(4, ⟨0xF0000000000002C0, .full⟩)] }]
  stag := [(11, 0x7A04)], spad := [(0x2D0, 0x54), (0x2D1, 0xB3)] }

/-- R268's example: LDD leaves v6 and v7 to producers that hold 0x3EC00000 and 0xBCB00000; no flag is raised. -/
theorem test_step_ldd : nextIs (.ldd c0 1 .fp32 (.v 6) ⟨rS 4, .off 0x10⟩) sDesc (fun u =>
    ((u.pendings.map fun p => p.dests.map (·.2)) = List.replicate 32 [0x3EC00000, 0xBCB00000] : Bool) &&
    ((isu sDesc c0 .zero).later u).any fun x => fget 0 x.t.flags 0 = 0 && (x.vcell 6 9).fill ≠ .full) = true := by decide +kernel

/-- A store of two bytes by lane 3 in the buffer of the trace's last word. -/
def sStored : State := stW (inTrace { tr 9 9 with buf := [.store 0 [⟨3, 0x1000, 0xF000000000000008, .spad 8, [0x2A, 0]⟩]] })

/-- R55, R57, R58, R270: a store reaches the scratchpad at the commit, and not before; the lanes go where TEND says. -/
theorem test_step_store : spadByte sStored 1 8 = 0 ∧
    nextIs (.tend c0 ⟨false, 0⟩ 4 1) sStored (fun u => (spadByte u 1 8 = 0x2A : Bool) &&
      (getWave u 1 0).any fun w => (laneOf w 3).tp = 0x10D0 && w.trace.isNone) = true := by decide +kernel

/-- R33: where an entry with v0 to v63 has called P at v8 and P has called Q at v16, Q's return takes none of the entry's
registers; it takes Q's own above P's window. -/
theorem test_step_return :
    let w : Wave := { wv with
      depth := 2, wo := 16, ws := 24, frames := [⟨0x40, 8, 16⟩, ⟨0x80, 0, 64⟩]
      vreg := [(vkey 20 3, ⟨7, .full⟩), (vkey 30 3, ⟨8, .full⟩), (vkey 50 3, ⟨9, .full⟩)] }
    nextIs (.returnComplete 1 0) (stB (fun b => { b with waves := [lanesIn (.tret 0x1010) w] }) .none) (fun u =>
      (getWave u 1 0).any fun w => w.vreg.map (fun p => p.2.val) = [7, 9]) = true := by decide +kernel

/-- R460: with 512 flits unacknowledged, an acknowledgement of the one before the oldest frees none. -/
theorem test_step_ack :
    let us : List (BitVec 10 × Nat) := (List.range 512).map fun i => (BitVec.ofNat 10 (7 + i), i)
    nextIs (.ackReceived ⟨0, false⟩ 6) (sLink fun d => { d with next := 519, unacked := us, expected := 7 }) (fun u =>
      (getDir u 0).unacked.length = 512) = true := by decide +kernel

/-- R127: a store waits in its path behind an older one of the core's other wave to the same line. -/
theorem test_path_order :
    let p (id : Nat) : PathRec := ⟨id, false, .store 0 [⟨0, 0x1000, 0x40, .phys 0x40000040 0 false false, [1]⟩]⟩
    let s : State := stB (fun b => { b with waves := [{ wv with path := [p 5] }, { wv with path := [p 6] }] }) .none
    writeAhead s 0 1 1 6 (p 6).item.places = true ∧ writeAhead s 0 1 0 5 (p 5).item.places = false := by decide +kernel

/-- R299, R421, R425: BRK's record and its trapped lanes. -/
theorem test_step_brk : nextIs (.brk c0 0x77) sMid (fun u =>
    ((getCtx u 0).held.map (fun r => (r.exc, r.detail, r.lanes, r.tp, r.word)) = [(Exc.brkpt, 0x77, ~~~0, 0x1000, 0x1010)] : Bool) &&
    (getWave u 1 0).any fun w => (laneOf w 31).st = .trapped 0 .brkpt false 0x1010) = true := by decide +kernel

/-- R36, R425: a read of an empty register with FE raises EMPTYT in its lane alone. -/
theorem test_step_emptyt : nextIs (addV1 true) sEmpty (fun u =>
    ((getCtx u 0).held.map (fun r => (r.exc, r.lanes, r.field)) = [(Exc.emptyt, 8, 7)] : Bool) &&
    (getWave u 1 0).any fun w => (laneOf w 3).st ≠ .runnable && (laneOf w 4).st = .runnable) = true := by decide +kernel

/-- R329, R423: a MOD that names no configuration raises BADFLD in the lowest executing lane alone. -/
theorem test_step_gcfg : nextIs (.gcfg c0 0 0 2 0 3 (oS 2) (.imm 5) (.imm 64)) sMid (fun u =>
    ((getCtx u 0).held.map (fun r => (r.exc, r.lanes, r.field)) = [(Exc.badfld, 1, 1)] : Bool)) = true := by decide +kernel

/-- R31: a store through the register aperture is in its register at the commit. -/
theorem test_step_aperture : nextIs (.tend c0 ⟨false, 0⟩ 4 1) (stW (inTrace { tr 9 9 with
    buf := [.store 0 [⟨3, 0x1000, 0xF200000000000000, .regs (4 * vkey 4 3), [1, 2, 0, 0]⟩]] })) (fun u =>
    (getWave u 1 0).any fun w => (fget fullV w.vreg (vkey 4 3) = ⟨0x201, .full⟩ : Bool) && w.path.isEmpty) = true := by decide +kernel

/-- R73: a conversion to an integer format that gives 0 of what is not raises UF with NX. -/
theorem test_round_underflow :
    roundTo .plain .sm8 (.fin ⟨false, 1, -2⟩) = (0, flNX ||| flUF) ∧ roundTo .plain .sm8 (.fin ⟨false, 5, -2⟩) = (1, flNX) := by
  decide +kernel

/-- R330: the sine of 2^-100 (1 + 2^-8) lies below that tie of BF16. -/
theorem test_tiny_sine : (roundTo genMode .bf16 (trigVal false (Sys2Proof.Machine.decodeFloat 8 23 127 0x0D808000)).1).1 = 0x0D80 := by decide +kernel

/-- R97: a store survives every copy that has still to write the line. -/
theorem test_two_copies : (spadStore { blk with absent := [(0, [(3, 0), (4, 0)])] } 5 [7]).absent = [(0, [(3, 32), (4, 32)])] := by
  decide +kernel

/-- R310, R323: MXRD's first step drains the first wave; the second is still to come. -/
theorem test_step_mxrd : nextIs (.mxrd .raw .rz 0 1 (.imm 0) (.imm 1) (rV 5)) (sReached 0) (fun u =>
    (u.pendings.map (·.wave) = [0] : Bool) && ((getBlock u 1).bind (·.seq)).any fun q => q.reached = 1 && q.drains.length = 1) = true := by
  decide +kernel

/-- R368: a reeve's write of 1 to RSTREQ resets the module; the CP's does not. -/
theorem test_step_rstreq :
    nextIs (.rstreq 0x40 1) { sRun with hostown := 5 } (fun u => u.hostown = 0xFFFF) = true ∧
    nextIs (.rstreq 0x48 1) { State.reset with hostown := 5 } (fun u => u.hostown = 5) = true := by decide +kernel

/-- A z register of the block's sequencer, and its pc. -/
def zOf (u : State) (n : Nat) : Option (Word64 × Word64) :=
  ((getBlock u 1).bind (·.seq)).map fun q => ((fget fullS q.z n).val, q.pc)

/-- R308, R309, R312: the sequencer's words. -/
theorem test_step_sequencer :
    nextIs (.movi c0 (.z 3) 0x1122334455667788) sSeq (fun u => zOf u 3 = some (0x1122334455667788, (sq sSeq).q.pc + 16)) = true ∧
    nextIs (.sqloop (.z 3) (-2)) sSeq (fun u => zOf u 3 = some (-1, (sq sSeq).q.pc - 32)) = true ∧
    nextIs (.sqwait 2 1) sSeq (fun u => u = sSeq) = true := by decide +kernel

/-- R355: beyond DRAM the host reads ones. R371, R419: an overtemperature halts the module. -/
theorem test_step_host :
    nextIs (.hostBar2Read (2 ^ 38 - 4) 4) State.reset (fun u => u.outbox = [.bar2Data [0xFF, 0xFF, 0xFF, 0xFF] false]) = true ∧
    nextIs (.thermalHalt 4) State.reset (fun u => u.halted) = true := by decide +kernel

/-- The state after one step, if there is one. -/
def stepped (s : State) : Option State := match step s with
  | .next u => some u
  | _ => none

/-- Log 28: the word placed after reset runs in the very next step, in a trace and in the stream. -/
theorem test_step_placed :
    ((stepped (placed wIadd)).any fun u => ((getWave u 1 0).bind (·.trace)).any fun t =>
      t.pos = 2 && (ffind t.ov (vkey 5 9)).map (·.val) = some 1) = true ∧
    ((stepped (placed wSqloop)).any fun u => (zOf u 3).map (·.1) = some (-1)) = true ∧
    decodeTableWord 128 wIadd.toNat = some (.iadd c0 false false .none 0 (.v 5) (oV 70) (.imm 1)) ∧
    decodeTableWord 128 wSqloop.toNat = some (.sqloop (.z 3) (-2)) := by decide +kernel

end Sys2Proof.Tests
end

section
/-! PROOFS. Logic, shift, bit-field, count and move words (R223 to R226, R229, R230): each function of Machine/Logic.lean
bit by bit, and the words themselves. -/

namespace Sys2Proof.Machine

/-! ### A word that computes D bit by bit, or as a number -/

/-- A destination takes the bits below its width only (R210). -/
theorem into_congr (x : Iss) (d : Reg) {f g : Nat → Word64}
    (h : ∀ l i, i < bitsOf (isScalar d) → (f l).getLsbD i = (g l).getLsbD i) : x.into d f = x.into d g := by
  cases d with
  | s n =>
    have e : f = g := funext fun l => BitVec.eq_of_getLsbD_eq fun i hi => h l i hi
    rw [e]
  | v n =>
    have e (l : Nat) : (f l).setWidth 32 = (g l).setWidth 32 :=
      BitVec.eq_of_getLsbD_eq fun i hi => by rw [BitVec.getLsbD_setWidth, BitVec.getLsbD_setWidth, h l i hi]
    simp only [Iss.into, e]
  | _ => rfl

/-- A word that raises no flags has the effect of its destination alone. -/
theorem Computes.effect_of_flags_zero {k : Computes} {x : Iss} (h : k.flags = fun _ _ => 0) :
    k.effect x = x.into k.d (k.f x) := by
  simp [Computes.effect, Computes.raises, h, Effect.over]

/-- The bits that are set in turn by a fold. -/
theorem getLsbD_foldl_or (p : Nat → Bool) (g : Nat → Word64) (is : List Nat) (v : Word64) (j : Nat) :
    (is.foldl (fun r i => if p i then r ||| g i else r) v).getLsbD j =
      (v.getLsbD j || is.any fun i => p i && (g i).getLsbD j) := by
  induction is generalizing v with
  | nil => simp
  | cons i is ih =>
    rw [List.foldl_cons, ih, List.any_cons]
    cases p i <;> simp [Bool.or_assoc]

theorem getLsbD_one_shiftLeft (n : Nat) {j : Nat} (hj : j < 64) : (1#64 <<< n).getLsbD j = decide (n = j) := by
  simp only [BitVec.getLsbD_shiftLeft, BitVec.getLsbD_one]
  grind

/-- Where a fold sets bit `q i` for each `i` of which `p` holds, and only `k` stands for bit `j`, bit `j` is `p k`. -/
theorem getLsbD_foldl_setBit (p : Nat → Bool) (q : Nat → Nat) {is : List Nat} {j k : Nat} (hj : j < 64) (hk : k ∈ is)
    (hq : ∀ i ∈ is, q i = j ↔ i = k) :
    (is.foldl (fun r i => if p i then r ||| (1#64 <<< q i) else r) 0).getLsbD j = p k := by
  rw [getLsbD_foldl_or p fun i => 1#64 <<< q i, Bool.eq_iff_iff]
  simp only [BitVec.ofNat_eq_ofNat, BitVec.getLsbD_zero, Bool.false_or, getLsbD_one_shiftLeft _ hj, List.any_eq_true,
    Bool.and_eq_true, decide_eq_true_eq]
  constructor
  · rintro ⟨i, hi, hp, e⟩
    exact (hq i hi).1 e ▸ hp
  · exact fun hp => ⟨k, hk, hp, (hq k hk).2 rfl⟩

theorem bitsOf_le (w : Bool) : bitsOf w ≤ 64 := by cases w <;> decide

theorem bitsTo_getLsbD (w : Bool) (f : Nat → Bool) {j : Nat} (hj : j < bitsOf w) : (bitsTo w f).getLsbD j = f j :=
  getLsbD_foldl_setBit f (fun i => i) (Nat.lt_of_lt_of_le hj (bitsOf_le w)) (List.mem_range.2 hj) fun _ _ => Iff.rfl

/-- A WORD WHOSE RESULT HAS THE BITS `g` below D's width. -/
theorem bitwise_done {i : Instr} {c : Ctl} {d : Reg} {ops : List Opnd} {g : (Nat → Word64) → Nat → Bool} {f : Nat → Word64}
    {x : Iss} (hd : Done i x (x.into d f))
    (h : ∀ l j, j < bitsOf (isScalar d) → (f l).getLsbD j = g (valuesAt d ops x l) j) :
    Done i x ((bitwise c d ops g).effect x) := by
  rw [Computes.effect_of_flags_zero rfl]
  have e : x.into d f = x.into d ((bitwise c d ops g).f x) := into_congr x d fun l j hj => by
    rw [h l j hj]; exact (bitsTo_getLsbD _ _ hj).symm
  exact e ▸ hd

/-- A WORD WHOSE RESULT IS THE NUMBER `g`. -/
theorem numeric_done {i : Instr} {c : Ctl} {d : Reg} {ops : List Opnd} {g : (Nat → Word64) → Nat} {f : Nat → Word64}
    {x : Iss} (hd : Done i x (x.into d f)) (h : ∀ l, f l = BitVec.ofNat 64 (g (valuesAt d ops x l))) :
    Done i x ((numeric c d ops g).effect x) := by
  rw [Computes.effect_of_flags_zero rfl]
  have e : f = (numeric c d ops g).f x := funext h
  exact e ▸ hd

/-! ### Values at a width (R211) -/

theorem low32_getLsbD (v : Word64) (i : Nat) : (low32 v).getLsbD i = (decide (i < 32) && v.getLsbD i) := by
  have h : (0xFFFFFFFF : Word64) = (BitVec.allOnes 32).setWidth 64 := by decide
  rw [low32, h, BitVec.getLsbD_and, BitVec.getLsbD_setWidth, BitVec.getLsbD_allOnes]
  grind

theorem cutTo_getLsbD (w : Bool) (v : Word64) (i : Nat) : (cutTo w v).getLsbD i = (decide (i < bitsOf w) && v.getLsbD i) := by
  cases w with
  | false => exact low32_getLsbD v i
  | true =>
    by_cases h : i < 64
    · simp [cutTo, bitsOf, h]
    · simp [cutTo, bitsOf, h, BitVec.getLsbD_of_ge v i (Nat.not_lt.1 h)]

/-- Below the width a value cut to it keeps its bits. -/
theorem cutTo_getLsbD_of_lt {w : Bool} {i : Nat} (h : i < bitsOf w) (v : Word64) : (cutTo w v).getLsbD i = v.getLsbD i := by
  simp [cutTo_getLsbD, h]

theorem not_getLsbD {w : Bool} {i : Nat} (h : i < bitsOf w) (v : Word64) : (~~~v).getLsbD i = !v.getLsbD i := by
  simp [Nat.lt_of_lt_of_le h (bitsOf_le w)]

/-- A source has no bit beyond the width at which it is read. -/
theorem val_getLsbD_of_ge (x : Iss) (w : Bool) (o : Opnd) (l : Nat) {i : Nat} (h : bitsOf w ≤ i) :
    (x.val w o l).getLsbD i = false := by
  cases w with
  | true => exact BitVec.getLsbD_of_ge _ _ h
  | false =>
    have hlow (v : Word64) : (low32 v).getLsbD i = false := by
      rw [low32_getLsbD, decide_eq_false (p := i < 32) (Nat.not_lt.2 h), Bool.false_and]
    have hext (v : Word32) : (v.setWidth 64).getLsbD i = false := by
      rw [BitVec.getLsbD_setWidth, BitVec.getLsbD_of_ge v i h, Bool.and_false]
    unfold Iss.val
    cases o.src with
    | imm v => exact hlow _
    | reg r => cases hr : r.reg with
      | v n => simpa [Iss.regVal, hr] using hext _
      | s n => simpa [Iss.regVal, hr] using hlow _
      | laneIx => simpa [Iss.regVal, hr] using hext _
      | waveIx => simpa [Iss.regVal, hr] using hext _
      | ones => simpa [Iss.regVal, hr] using hext 0xFFFFFFFF
      | zero => simp [Iss.regVal, hr]
      | g n => simp [Iss.regVal, hr]
      | z n => simp [Iss.regVal, hr]

/-! ### Logic (R223) -/

/-- Each bit of BLUT's result is the table's bit at the index that the three bits give. -/
theorem lut3_getLsbD {w : Bool} (lut : BitVec 8) (a b c : Word64) {i : Nat} (hi : i < bitsOf w) :
    (lut3 lut a b c).getLsbD i =
      lut.getLsbD ((a.getLsbD i).toNat + 2 * (b.getLsbD i).toNat + 4 * (c.getLsbD i).toNat) := by
  have hif (p : Prop) [Decidable p] (v : Word64) : (if p then v else ~~~v).getLsbD i = (v.getLsbD i == decide p) := by
    split <;> simp [not_getLsbD hi, *]
  rw [lut3, getLsbD_foldl_or lut.getLsbD fun k =>
    (if k % 2 = 1 then a else ~~~a) &&& (if k / 2 % 2 = 1 then b else ~~~b) &&& (if k / 4 = 1 then c else ~~~c)]
  simp only [BitVec.getLsbD_and, hif]
  cases a.getLsbD i <;> cases b.getLsbD i <;> cases c.getLsbD i <;> simp [List.range_succ]

/-! ### Shifts and rotates (R224) -/

theorem shlTo_getLsbD {w : Bool} (a n : Word64) {i : Nat} (hi : i < bitsOf w) :
    (shlTo w a n).getLsbD i = (decide (n.toNat ≤ i) && a.getLsbD (i - n.toNat)) := by
  have h64 := bitsOf_le w
  unfold shlTo
  split
  · have : ¬ n.toNat ≤ i := by omega
    simp [this]
  · rw [cutTo_getLsbD_of_lt hi, BitVec.getLsbD_shiftLeft]
    grind

/-- SHR shifts in the bits above the width, which are zero in a source read at that width (R211). -/
theorem shrTo_getLsbD {w : Bool} {a : Word64} (n : Word64) (ha : ∀ i, bitsOf w ≤ i → a.getLsbD i = false) (i : Nat) :
    (shrTo w a n).getLsbD i = a.getLsbD (i + n.toNat) := by
  unfold shrTo
  split
  · rw [ha _ (by omega)]; exact BitVec.getLsbD_zero
  · rw [BitVec.getLsbD_ushiftRight, Nat.add_comm]

theorem sarTo_getLsbD {w : Bool} (a n : Word64) {i : Nat} (hi : i < bitsOf w) :
    (sarTo w a n).getLsbD i = a.getLsbD (min (i + n.toNat) (bitsOf w - 1)) := by
  cases w <;>
    simp only [sarTo, bitsOf, if_true, Bool.false_eq_true, if_false, BitVec.getLsbD_setWidth, BitVec.getLsbD_sshiftRight,
      BitVec.msb_eq_getLsbD_last] at hi ⊢ <;>
    grind

theorem rotlTo_getLsbD {w : Bool} (a n : Word64) {i : Nat} (hi : i < bitsOf w) :
    (rotlTo w a n).getLsbD i = a.getLsbD ((i + bitsOf w - n.toNat % bitsOf w) % bitsOf w) := by
  cases w <;>
    simp only [rotlTo, bitsOf, if_true, Bool.false_eq_true, if_false, BitVec.getLsbD_setWidth, BitVec.getLsbD_rotateLeft]
      at hi ⊢ <;>
    grind

/-- The bits of SHF's double word. -/
theorem funnel_getLsbD {w : Bool} (right : Bool) (a b c : Word64) {i : Nat} (hi : i < bitsOf w) :
    (funnel right w a b c).getLsbD i =
      stacked (bitsOf w) a b (if right then i + c.toNat % bitsOf w else i + bitsOf w - c.toNat % bitsOf w) := by
  have h64 := bitsOf_le w
  have hk : c.toNat % bitsOf w < bitsOf w := Nat.mod_lt _ (by omega)
  rw [funnel, cutTo_getLsbD_of_lt hi, BitVec.getLsbD_setWidth]
  generalize c.toNat % bitsOf w = k at hk
  have hv {j : Nat} (hj : j < 2 * bitsOf w) :
      ((a.setWidth 128 <<< bitsOf w) ||| (cutTo w b).setWidth 128).getLsbD j = stacked (bitsOf w) a b j := by
    simp only [BitVec.getLsbD_or, BitVec.getLsbD_shiftLeft, BitVec.getLsbD_setWidth, cutTo_getLsbD, stacked]
    grind
  cases right with
  | true =>
    simp only [if_true, BitVec.getLsbD_ushiftRight]
    rw [hv (by omega), Nat.add_comm k i]
    grind
  | false =>
    simp only [Bool.false_eq_true, if_false, BitVec.getLsbD_ushiftRight]
    rw [BitVec.getLsbD_shiftLeft, hv (by omega), Nat.add_comm (bitsOf w) i]
    grind

/-! ### Bit fields (R225) -/

/-- A number below 2^len with its top bit set, read as signed: ones from the field's top bit on. -/
theorem ofInt_sub_two_pow_getLsbD {v len : Nat} (hv : v < 2 ^ len) (hlen : len ≤ 64) {i : Nat} (hi : i < 64) :
    (BitVec.ofInt 64 ((v : Int) - 2 ^ len)).getLsbD i = if i < len then v.testBit i else true := by
  have hp : 2 ^ len * 2 ^ (64 - len) = 2 ^ 64 := by rw [← Nat.pow_add]; congr 1; omega
  have he : (v : Int) - 2 ^ len = (2 ^ len * (2 ^ (64 - len) - 1) + v : Nat) + (-1 : Int) * 2 ^ 64 := by
    have hle : 2 ^ len ≤ 2 ^ 64 := Nat.pow_le_pow_right (by decide) hlen
    rw [Nat.mul_sub, hp, Nat.mul_one, Nat.cast_add, Nat.cast_sub hle]
    push_cast
    ring
  have h : BitVec.ofInt 64 ((v : Int) - 2 ^ len) = BitVec.ofNat 64 (2 ^ len * (2 ^ (64 - len) - 1) + v) := by
    rw [he]
    apply BitVec.eq_of_toNat_eq
    rw [BitVec.toNat_ofInt, BitVec.toNat_ofNat, Nat.cast_pow, Nat.cast_ofNat, Int.add_mul_emod_self_right]
    norm_cast
  rw [h, BitVec.getLsbD_ofNat, Nat.testBit_two_pow_mul_add _ hv, Nat.testBit_two_pow_sub_one]
  grind

/-- The field of BFE as a number: `len` bits of `a` from `pos` on. -/
theorem field_testBit {w : Bool} (a : Word64) {pos len : Nat} (hlen : len ≤ bitsOf w - pos) (i : Nat) :
    ((cutTo w a).toNat / 2 ^ pos % 2 ^ len).testBit i = (decide (i < len) && a.getLsbD (pos + i)) := by
  rw [Nat.testBit_mod_two_pow, Nat.testBit_div_two_pow, BitVec.testBit_toNat, cutTo_getLsbD, Nat.add_comm i pos]
  grind

/-- A number of `len` bits has its top bit set where dividing by the rest leaves 1. -/
theorem div_two_pow_pred_eq_one {v len : Nat} (hv : v < 2 ^ len) (hlen : 0 < len) :
    decide (v / 2 ^ (len - 1) = 1) = v.testBit (len - 1) := by
  have h2 : 2 ^ len = 2 * 2 ^ (len - 1) := by rw [← Nat.pow_succ']; congr 1; omega
  have hlt : v / 2 ^ (len - 1) < 2 := Nat.div_lt_of_lt_mul (by omega)
  rw [Nat.testBit_eq_decide_div_mod_eq, Nat.mod_eq_of_lt hlt]

/-- A field is cut at the top of the word. -/
theorem fieldOf_len_le {n pos len : Nat} {f : Word64} (hf : fieldOf n f = (pos, len)) : len ≤ n - pos := by
  cases hf
  exact Nat.min_le_right _ _

theorem bfeTo_getLsbD {w : Bool} {f : Word64} {pos len : Nat} (hf : fieldOf (bitsOf w) f = (pos, len)) (u : Bool)
    (a : Word64) {i : Nat} (hi : i < bitsOf w) :
    (bfeTo u w a f).getLsbD i =
      if i < len then a.getLsbD (pos + i) else !u && decide (0 < len) && a.getLsbD (pos + len - 1) := by
  have h64 := bitsOf_le w
  have hlen := fieldOf_len_le hf
  have hbit := field_testBit a hlen
  have hv : (cutTo w a).toNat / 2 ^ pos % 2 ^ len < 2 ^ len := Nat.mod_lt _ (Nat.two_pow_pos _)
  have htop := div_two_pow_pred_eq_one hv
  simp only [bfeTo, hf]
  generalize (cutTo w a).toNat / 2 ^ pos % 2 ^ len = v at hbit hv htop
  split
  · rw [cutTo_getLsbD_of_lt hi, ofInt_sub_two_pow_getLsbD hv (by omega) (by omega)]
    grind
  · rw [BitVec.getLsbD_ofNat, hbit]
    grind

theorem bfiTo_getLsbD {w : Bool} {f : Word64} {pos len : Nat} (hf : fieldOf (bitsOf w) f = (pos, len)) (a b : Word64)
    {i : Nat} (hi : i < bitsOf w) :
    (bfiTo w a b f).getLsbD i = if pos ≤ i ∧ i < pos + len then b.getLsbD (i - pos) else a.getLsbD i := by
  have h64 := bitsOf_le w
  have hlen := fieldOf_len_le hf
  have hm : (BitVec.ofNat 64 ((2 ^ len - 1) * 2 ^ pos)).getLsbD i = decide (pos ≤ i ∧ i < pos + len) := by
    rw [BitVec.getLsbD_ofNat, Nat.testBit_mul_two_pow, Nat.testBit_two_pow_sub_one]
    grind
  simp only [bfiTo, hf]
  rw [cutTo_getLsbD_of_lt hi, BitVec.getLsbD_or, BitVec.getLsbD_and, BitVec.getLsbD_and, not_getLsbD hi, hm,
    BitVec.getLsbD_shiftLeft]
  grind

/-! ### Counts (R226) -/

theorem countOnes_eq (v : Word64) (n : Nat) : countOnes v n = ((List.range n).filter fun i => v.getLsbD i).length := by
  induction n with
  | zero => rfl
  | succ n ih =>
    rw [countOnes, ih, List.range_succ, List.filter_append, List.length_append]
    cases h : v.getLsbD n <;> simp [h]

/-- How many numbers below `n` are at least `k`. -/
theorem length_filter_range_ge (n k : Nat) : ((List.range n).filter fun i => decide (k ≤ i)).length = n - k := by
  induction n with
  | zero => simp
  | succ n ih =>
    rw [List.range_succ, List.filter_append, List.length_append, ih]
    by_cases h : k ≤ n <;> simp [h] <;> omega

/-- No bit of `a` stands at `i` or above: the value at the width is below 2^i. -/
theorem all_above_zero_eq (w : Bool) (a : Word64) (i : Nat) :
    ((List.range (bitsOf w)).all fun j => decide (j < i) || !a.getLsbD j) = decide ((cutTo w a).toNat < 2 ^ i) := by
  rw [Bool.eq_iff_iff, List.all_eq_true, decide_eq_true_eq]
  constructor
  · intro h
    refine Nat.lt_pow_two_of_testBit _ fun j hj => ?_
    rw [BitVec.testBit_toNat, cutTo_getLsbD]
    have := h j
    grind
  · intro h j hj
    have hb : j < i ∨ (cutTo w a).getLsbD j = false := by
      by_cases hji : j < i
      · exact .inl hji
      · right
        rw [← BitVec.testBit_toNat]
        exact Nat.testBit_lt_two_pow (Nat.lt_of_lt_of_le h (Nat.pow_le_pow_right (by decide) (by omega)))
    rw [cutTo_getLsbD_of_lt (List.mem_range.1 hj)] at hb
    grind

theorem clzTo_eq (w : Bool) (a : Word64) :
    clzTo w a = BitVec.ofNat 64 ((List.range (bitsOf w)).filter fun i =>
      (List.range (bitsOf w)).all fun j => decide (j < i) || !a.getLsbD j).length := by
  simp only [all_above_zero_eq, clzTo]
  congr 1
  generalize (cutTo w a).toNat = v
  split
  · next h => simp [h]
  · next h =>
    have e (i : Nat) : decide (v < 2 ^ i) = decide (v.log2 + 1 ≤ i) := by rw [decide_eq_decide, ← Nat.log2_lt h]; rfl
    simp only [e, length_filter_range_ge]
    omega

theorem reverseBits_getLsbD (v : Word64) {n i : Nat} (hn : n ≤ 64) (hi : i < n) :
    (reverseBits v n).getLsbD i = v.getLsbD (n - 1 - i) :=
  getLsbD_foldl_setBit v.getLsbD (fun k => n - 1 - k) (by omega) (List.mem_range.2 (by omega)) fun k hk => by
    have := List.mem_range.1 hk
    omega

theorem ffsTo_eq (w : Bool) (a : Word64) :
    ffsTo w a = BitVec.ofNat 64 (((List.range (bitsOf w)).find? fun i => a.getLsbD i).getD (2 ^ bitsOf w - 1)) := by
  unfold ffsTo
  cases (List.range (bitsOf w)).find? fun i => a.getLsbD i with
  | some i => rfl
  | none => cases w <;> decide

/-! ### Words that both streams have, in a wave -/

theorem Issued.exec_andw {s : State} {c c' : Ctl} {n : Need} {x : Iss} (h : Issued s c n x) (d : Reg) (a b : Src) :
    exec (.andw c' d a b) s = alu2 c' d (opA a .s false) (opB b .s false) (fun w p q => cutTo w (p &&& q)) s := by
  change execAndw c' d a b s = _
  simp only [execAndw, h.actor]

theorem Issued.exec_shl {s : State} {c c' : Ctl} {n : Need} {x : Iss} (h : Issued s c n x) (d : Reg) (a b : Src) :
    exec (.shl c' d a b) s = alu2 c' d (opA a .z false) (opB b .z false) shlTo s := by
  change execShl c' d a b s = _
  simp only [execShl, h.actor]

theorem Issued.exec_mov {s : State} {c c' : Ctl} {n : Need} {x : Iss} (h : Issued s c n x) (d : Reg) (a : Src) :
    exec (.mov c' d a) s = alu1 c' d (opA a .s false) (fun _ p => p) s := by
  change execMov c' d a s = _
  simp only [execMov, h.actor]

theorem Issued.exec_movi {s : State} {c c' : Ctl} {n : Need} {x : Iss} (h : Issued s c n x) (d : Reg) (imm : Word64) :
    exec (.movi c' d imm) s =
      waveWord c' (.mk2 1 0) (fun x => x.reading [] (.done (x.putAll (x.results d fun _ => imm)))) s := by
  change execMovi c' d imm s = _
  simp only [execMovi, h.actor]; rfl

/-! ### The words -/

/-- EACH LOGIC, SHIFT, BIT-FIELD, COUNT AND MOVE WORD gives D the bits that R223 to R226, R229 and R230 state. -/
theorem logicWord_done {i : Instr} {k : Computes} {s : State} {x : Iss} (hi : logicWord i = some k)
    (hx : issuing s k.c (.mk2 1 0) = some x) (hf : x.Full (k.reads x)) : Done i x (k.effect x) := by
  have h := issued hx
  unfold logicWord at hi
  split at hi <;> cases hi
  next c d a b =>
    exact bitwise_done (alu2_done (h.exec_andw d a b) hx hf) fun l j hj => by
      rw [cutTo_getLsbD_of_lt hj, BitVec.getLsbD_and]; rfl
  next c d a b =>
    exact bitwise_done (alu2_done (show exec _ s = execOrw c d a b s from rfl) hx hf) fun l j hj => by
      rw [cutTo_getLsbD_of_lt hj, BitVec.getLsbD_or]; rfl
  next c d a b =>
    exact bitwise_done (alu2_done (show exec _ s = execXorw c d a b s from rfl) hx hf) fun l j hj => by
      rw [cutTo_getLsbD_of_lt hj, BitVec.getLsbD_xor]; rfl
  next c d a =>
    exact bitwise_done (alu1_done (show exec _ s = execNotw c d a s from rfl) hx hf) fun l j hj => by
      rw [cutTo_getLsbD_of_lt hj, not_getLsbD hj]; rfl
  next c d a b =>
    exact bitwise_done (alu2_done (show exec _ s = execAndn c d a b s from rfl) hx hf) fun l j hj => by
      rw [cutTo_getLsbD_of_lt hj, BitVec.getLsbD_and, not_getLsbD hj]; rfl
  next c lut d a b e =>
    exact bitwise_done (alu3_done (show exec _ s = execBlut c lut d a b e s from rfl) hx hf) fun l j hj => by
      rw [cutTo_getLsbD_of_lt hj, lut3_getLsbD lut _ _ _ hj]; rfl
  next c d a b =>
    exact bitwise_done (alu2_done (h.exec_shl d a b) hx hf) fun l j hj => shlTo_getLsbD _ _ hj
  next c d a b =>
    exact bitwise_done (alu2_done (show exec _ s = execShr c d a b s from rfl) hx hf) fun l j _ =>
      shrTo_getLsbD _ (fun _ => val_getLsbD_of_ge x _ _ l) j
  next c d a b =>
    exact bitwise_done (alu2_done (show exec _ s = execSar c d a b s from rfl) hx hf) fun l j hj => sarTo_getLsbD _ _ hj
  next c d a b =>
    exact bitwise_done (alu2_done (show exec _ s = execRotl c d a b s from rfl) hx hf) fun l j hj => rotlTo_getLsbD _ _ hj
  next c right d a b e =>
    exact bitwise_done (alu3_done (show exec _ s = execShf c right d a b e s from rfl) hx hf) fun l j hj =>
      funnel_getLsbD right _ _ _ hj
  next c u d a f =>
    exact bitwise_done (alu2_done (show exec _ s = execBfe c u d a f s from rfl) hx hf) fun l j hj =>
      bfeTo_getLsbD rfl u _ hj
  next c d a b f =>
    exact bitwise_done (alu3_done (show exec _ s = execBfi c d a b f s from rfl) hx hf) fun l j hj =>
      bfiTo_getLsbD rfl _ _ hj
  next c d a =>
    exact numeric_done (alu1_done (show exec _ s = execPopc c d a s from rfl) hx hf) fun l =>
      congrArg (BitVec.ofNat 64) (countOnes_eq _ _)
  next c d a =>
    exact numeric_done (alu1_done (show exec _ s = execClz c d a s from rfl) hx hf) fun l => clzTo_eq _ _
  next c d a =>
    exact bitwise_done (alu1_done (show exec _ s = execBrev c d a s from rfl) hx hf) fun l j hj =>
      reverseBits_getLsbD _ (bitsOf_le _) hj
  next c d a =>
    exact numeric_done (alu1_done (show exec _ s = execFfs c d a s from rfl) hx hf) fun l => ffsTo_eq _ _
  next c d a => exact bitwise_done (alu1_done (h.exec_mov d a) hx hf) fun _ _ _ => rfl
  next c d imm => exact bitwise_done (result_done (h.exec_movi d imm) hx hf) fun _ _ _ => rfl

/-! ### Decoding the counting words (R226) -/

/-- What the fields of a counting word say once they are read. -/
theorem counting_fields {e : Env} {r : Raw} {i : Instr} {f : Ctl → Reg → Src → Instr}
    (h : (do need 1 (r.mod = 0); let c ← ctlN r; let p ← ds e r; pure (f c p.1 p.2) : Dec Instr) = .ok i) :
    r.mod = 0 ∧ ∃ c d a, i = f c d a := by
  by_cases hm : r.mod = 0
  · refine ⟨hm, ?_⟩
    rw [hm] at h
    cases hc : ctlN r with
    | error x => rw [hc] at h; cases h
    | ok c =>
      rw [hc] at h
      cases hp : ds e r with
      | error x => rw [hp] at h; cases h
      | ok p => rw [hp] at h; cases h; exact ⟨c, p.1, p.2, rfl⟩
  · simp only [need, hm] at h
    cases h

/-- A defined word of the integer chapter in a trace is read by its decoder (R206). -/
theorem decodeRaw_trace_int (ws : Nat) (r : Raw) (h1 : 0x040 ≤ r.op.toNat) (h2 : r.op.toNat ≤ 0x062) :
    decodeRaw (.trace ws) r = decodeInt (.trace ws) r := by
  have hd : definedOp r.op.toNat = true := by simp [definedOp, h1, h2]
  have hs : seqOp r.op.toNat = false := by simp [seqOp]; omega
  have h20 : ¬ r.op.toNat < 0x020 := by omega
  have h40 : ¬ r.op.toNat < 0x040 := by omega
  have h80 : r.op.toNat < 0x080 := by omega
  simp [decodeRaw, decodeFields, hd, hs, h20, h40, h80]

/-- A word of Op 0x05B to 0x05E that a trace takes: MOD is zero, and the Op names the count. -/
theorem decode_counting {ws : Nat} {w : Word128} {i : Instr} (h : decode (.trace ws) w = .ok i) {n : Nat}
    (hop : (Raw.ofWord w).op.toNat = 0x05B + n) (hn : n < 4) :
    (Raw.ofWord w).mod = 0 ∧ ∃ c d a, (n = 0 ∧ i = .popc c d a) ∨ (n = 1 ∧ i = .clz c d a) ∨ (n = 2 ∧ i = .brev c d a) ∨
      (n = 3 ∧ i = .ffs c d a) := by
  rw [decode, decodeRaw_trace_int ws _ (by omega) (by omega)] at h
  have hcase : n = 0 ∨ n = 1 ∨ n = 2 ∨ n = 3 := by omega
  unfold decodeInt at h
  obtain rfl | rfl | rfl | rfl := hcase <;> rw [hop] at h
  · obtain ⟨hm, c, d, a, rfl⟩ := counting_fields (f := .popc) h
    exact ⟨hm, c, d, a, by simp⟩
  · obtain ⟨hm, c, d, a, rfl⟩ := counting_fields (f := .clz) h
    exact ⟨hm, c, d, a, by simp⟩
  · obtain ⟨hm, c, d, a, rfl⟩ := counting_fields (f := .brev) h
    exact ⟨hm, c, d, a, by simp⟩
  · obtain ⟨hm, c, d, a, rfl⟩ := counting_fields (f := .ffs) h
    exact ⟨hm, c, d, a, by simp⟩

/-- Settles O4: each word's result has the stated bits (`logicWord_done`), and the fields of a counting word are read in
R206's order (`decode_counting`). -/
theorem logicWords : Obligations.LogicWords := by
  unfold Obligations.LogicWords
  exact ⟨fun _ _ _ _ hi hx hf => logicWord_done hi hx hf, fun _ _ _ h _ hop hn => decode_counting h hop hn⟩

end Sys2Proof.Machine
end

section
/-! PROOFS. NOP in the sequencer stream (R297, R310): it moves pc on and keeps the rest of the sequencer, so it leaves the
sequencer at the start of the next word only where no step of the word at pc was done. -/

namespace Sys2Proof.Machine

/-! ### The sequencer's word -/

/-- What `streaming` says. -/
structure Streamed (s : State) (x : Sq) : Prop where
  state : x.s = s
  actor : s.actor = .seq x.bid
  block : getBlock s x.bid = some x.b
  seq : x.b.seq = some x.q
  run : x.q.run = .running

theorem streamed {s : State} {x : Sq} (h : streaming s = some x) : Streamed s x := by
  unfold streaming at h
  split at h
  · rename_i bid ha
    simp only [Option.bind_eq_some_iff] at h
    obtain ⟨b, hb, q, hq, h⟩ := h
    split at h
    · rename_i hr
      cases h
      exact ⟨rfl, ha, hb, hq, hr⟩
    · cases h
  · cases h

/-! ### A word that only moves on -/

theorem Streamed.exec_nop {s : State} {x : Sq} (h : Streamed s x) (c : Ctl) :
    exec (.nop c) s = .next (seqNext s x.bid) := by
  change execNop c s = _
  simp only [execNop, h.actor]

/-- The block that NOP leaves: pc alone differs. -/
theorem getBlock_seqNext {s : State} {x : Sq} (h : Streamed s x) (k : Nat) :
    getBlock (seqNext s x.bid) k =
      if k = x.bid then some { x.b with seq := some { x.q with pc := x.q.pc + 16 } } else getBlock s k := by
  have hmod : getBlock (seqNext s x.bid) k = _ := getBlock_modBlock s x.bid k _ fun _ => rfl
  rw [hmod]
  by_cases hk : k = x.bid
  · subst hk
    simp [h.block, h.seq]
  · simp [hk, Ne.symm hk]

/-- No step of the word at pc is done, and nothing of one is kept (R310). -/
def SeqState.BetweenWords (q : SeqState) : Prop := q.reached = 0 ∧ q.drains = [] ∧ q.found = 0

theorem goTo_eq_iff (q : SeqState) (pc : Word64) : { q with pc := pc } = q.goTo pc ↔ q.BetweenWords := by
  cases q
  simp [SeqState.goTo, SeqState.BetweenWords]

/-- NOP LEAVES THE SEQUENCER AT THE START OF THE NEXT WORD exactly where it was between words. -/
theorem seqDone_nop_iff {s : State} {x : Sq} (hx : streaming s = some x) (c : Ctl) :
    SeqDone (.nop c) x (x.passed x.b) ↔ x.q.BetweenWords := by
  have h := streamed hx
  have hpassed : some { x.b with seq := some { x.q with pc := x.q.pc + 16 } } = some (x.passed x.b) ↔
      x.q.BetweenWords := by
    rw [← goTo_eq_iff x.q (x.q.pc + 16)]
    simp [Sq.passed, Sq.past]
  rw [SeqDone, SeqDoneIn, ChangesBlock, h.state, h.exec_nop c]
  constructor
  · rintro ⟨u, hu, -, -, hblock⟩
    cases hu
    have hb := hblock x.bid
    rw [getBlock_seqNext h, if_pos rfl, if_pos rfl] at hb
    exact hpassed.1 hb
  · intro hq
    refine ⟨_, rfl, rfl, ?_, fun k => ?_⟩
    · simp only [seqNext, modBlock_blocks, List.map_map]
      exact List.map_congr_left fun b _ => by simp only [Function.comp]; split <;> rfl
    · rw [getBlock_seqNext h, hpassed.2 hq]

/-! ### A NOP that the sequencer comes to within a word -/

/-- A sequencer that has done one of the eight steps of the MXCS at pc (R310, R326); a write may put a NOP there before
the sequencer fetches the word again for the next step (R190). -/
def midWordSeq : SeqState := ⟨placedVa, [], .running, 0, 1, [], 0⟩

def midWordBlock : Block := { placedBlock 1 0 placedVa 0 0 with seq := some midWordSeq }

def midWordState : State := { State.reset with blocks := [midWordBlock], actor := .seq 1 }

theorem streaming_midWordState : streaming midWordState = some ⟨midWordState, 1, midWordBlock, midWordSeq⟩ := rfl

/-- Refutes O10: in the stream a NOP moves pc on and nothing else (`seqDone_nop_iff`), while the statement has the
sequencer at the next word with no step of it done; in `midWordState` one step is done, and stays counted. -/
theorem not_specialWriteNopRep : ¬ Obligations.SpecialWriteNopRep := by
  unfold Obligations.SpecialWriteNopRep
  rintro ⟨-, -, hstream, -⟩
  have hdone := hstream Ctl.plain midWordState _ streaming_midWordState
  obtain ⟨hreached, -⟩ := (seqDone_nop_iff streaming_midWordState Ctl.plain).1 hdone
  cases hreached

end Sys2Proof.Machine
end
